-- ==== Sys2Proof/Word.lean ====
section
/-! DEFINITION. The word types of the gostcurves CORE (00_scope.md R8, R10): bytes, 32-bit bus words, 512-bit registers. -/

namespace Sys2Proof

/-- One byte of BUF (10_state.md R20). -/
abbrev Byte := BitVec 8

/-- One bus word, and one command word (20_memory.md R45, 30_encoding.md R57). -/
abbrev Word := BitVec 32

/-- The contents of a wide register, W = 512 (00_scope.md R8). -/
abbrev Wide := BitVec 512

end Sys2Proof
end

