-- ==== Sys2Proof/Syntax.lean ====
section
/-! DEFINITION. The command set: operand types, the causes a command can end with, and one constructor of `Instr` per row
of the opcode map (30_encoding.md R62). -/

namespace Sys2Proof

/-- The `m` bit: the modulus a field command works with (30_encoding.md R60, 40_field.md R70). -/
inductive Modulus
  | p
  | n
deriving DecidableEq, Repr

/-- The parameter registers (10_state.md R16), in the order of the region map (20_memory.md R40). -/
inductive Prm
  | p
  | a
  | b
  | gx
  | gy
  | n
  | e
  | d
  | s
  | t
deriving DecidableEq, Repr

/-- An X-register field (30_encoding.md R60): all sixteen values name a register. -/
abbrev XReg := Fin 16

/-- A point field with its bit 3 zero (30_encoding.md R60). -/
abbrev QReg := Fin 8

/-- A descriptor selector (30_encoding.md R60). -/
abbrev DescSel := Fin 4

/-- The error classes of 60_exceptions.md R144. -/
inductive ErrClass
  | illegalCommand
  | configurationError
  | formatError
  | domainError
  | retryLimitError
deriving DecidableEq, Repr

/-- The causes of 60_exceptions.md R145, one constructor a row. -/
inductive Cause
  | opcode
  | reservedBits
  | pointIndex
  | paramSel
  | descRange
  | modulus
  | cfgNotOk
  | noEdwards
  | pInvalid
  | bytelenMismatch
  | nInvalid
  | coeffRange
  | gNotOnCurve
  | cofactor
  | length
  | prefixByte
  | width
  | valueWide
  | notInvertible
  | notOnCurve
  | coordRange
  | scalarRange
  | keyRange
  | identity
  | iterCap
deriving DecidableEq, Repr

/-- The commands of 30_encoding.md R62, with their operands in the field order f1, f2, f3 (R69). -/
inductive Instr
  -- field family (40_field.md)
  | madd (m : Modulus) (rd ra rb : XReg)
  | msub (m : Modulus) (rd ra rb : XReg)
  | mmul (m : Modulus) (rd ra rb : XReg)
  | msqr (m : Modulus) (rd ra : XReg)
  | mneg (m : Modulus) (rd ra : XReg)
  | msmul (m : Modulus) (rd ra : XReg) (imm : BitVec 16)
  | minv (m : Modulus) (rd ra : XReg)
  | mdiv (m : Modulus) (rd ra rb : XReg)
  | mred (m : Modulus) (rd ra : XReg)
  -- register, transfer and configuration family (41_regmove.md)
  | xmov (rd ra : XReg)
  | xldi (rd : XReg) (imm : BitVec 16)
  | xldp (rd : XReg) (sel : Fin 16)
  | xcmp (ra rb : XReg)
  | ldbe (r : XReg) (k : DescSel)
  | ldle (r : XReg) (k : DescSel)
  | stbe (r : XReg) (k : DescSel)
  | stle (r : XReg) (k : DescSel)
  | cfgchk
  -- curve family (42_curve.md)
  | pinf (qd : QReg)
  | pgen (qd : QReg)
  | pset (qd : QReg) (ra rb : XReg)
  | pgetx (rd : XReg) (qa : QReg)
  | pgety (rd : XReg) (qa : QReg)
  | pmov (qd qa : QReg)
  | padd (qd qa qb : QReg)
  | pdbl (qd qa : QReg)
  | pneg (qd qa : QReg)
  | pmul (qd qa : QReg) (rk : XReg)
  | pchk (qa : QReg)
  -- point codec family (43_codec.md)
  | penc (q : QReg) (k : DescSel)
  | pencle (q : QReg) (k : DescSel)
  | pdec (q : QReg) (k : DescSel)
  -- signature family (44_signature.md)
  | pubk (qd : QReg) (ra : XReg)
  | sign (ra : XReg)
  | verify
  -- Edwards family (45_edwards.md)
  | stcomp
  | uv2xy (qd qa : QReg)
  | xy2uv (qd qa : QReg)
deriving DecidableEq, Repr

end Sys2Proof
end

