-- ==== Sys2Proof/WellFormed.lean ====
section
/-! DEFINITION. Well-formed instructions. The operand types already keep a register number in range and bit 3 of a point
field zero; the one check left is XLDP's selector (30_encoding.md R61). -/

namespace Sys2Proof

/-- The terms a command word can stand for: XLDP selectors 12 to 15 name no register (30_encoding.md R61, R66). -/
def Instr.wellFormed : Instr → Bool
  | .madd _ _ _ _ => true
  | .msub _ _ _ _ => true
  | .mmul _ _ _ _ => true
  | .msqr _ _ _ => true
  | .mneg _ _ _ => true
  | .msmul _ _ _ _ => true
  | .minv _ _ _ => true
  | .mdiv _ _ _ _ => true
  | .mred _ _ _ => true
  | .xmov _ _ => true
  | .xldi _ _ => true
  | .xldp _ sel => decide (sel.val ≤ 11)
  | .xcmp _ _ => true
  | .ldbe _ _ => true
  | .ldle _ _ => true
  | .stbe _ _ => true
  | .stle _ _ => true
  | .cfgchk => true
  | .pinf _ => true
  | .pgen _ => true
  | .pset _ _ _ => true
  | .pgetx _ _ => true
  | .pgety _ _ => true
  | .pmov _ _ => true
  | .padd _ _ _ => true
  | .pdbl _ _ => true
  | .pneg _ _ => true
  | .pmul _ _ _ => true
  | .pchk _ => true
  | .penc _ _ => true
  | .pencle _ _ => true
  | .pdec _ _ => true
  | .pubk _ _ => true
  | .sign _ => true
  | .verify => true
  | .stcomp => true
  | .uv2xy _ _ => true
  | .xy2uv _ _ => true

end Sys2Proof
end

