-- ==== Sys2Proof/Decode.lean ====
section
/-! DEFINITION. The command decoder, total on every 32-bit word and rejecting by cause, and after it the encoder, both from
the tables of 30_encoding.md (R57 to R66). -/

namespace Sys2Proof

/-- The formats of 30_encoding.md R59. -/
inductive Format
  | fr3
  | fr2
  | fi
  | xr2
  | xi
  | xs
  | xc
  | xd
  | n0
  | p1
  | p2
  | p3
  | px
  | pg
  | pk
  | pc
  | pd
  | pu
  | sg
deriving DecidableEq, Repr

/-- The mask of each format's commands (30_encoding.md R62): the opcode, every must-be-zero bit, and bit 3 of every point
field. -/
def Format.mask : Format → Word
  | .fr3 => 0xFD000FFF
  | .fr2 => 0xFD00FFFF
  | .fi => 0xFD000000
  | .xr2 => 0xFF00FFFF
  | .xi => 0xFF0F0000
  | .xs => 0xFF00FFFF
  | .xc => 0xFFF00FFF
  | .xd => 0xFF0FFFFC
  | .n0 => 0xFFFFFFFF
  | .p1 => 0xFF8FFFFF
  | .p2 => 0xFF88FFFF
  | .p3 => 0xFF888FFF
  | .px => 0xFF800FFF
  | .pg => 0xFF08FFFF
  | .pk => 0xFF880FFF
  | .pc => 0xFFF8FFFF
  | .pd => 0xFF8FFFFC
  | .pu => 0xFF80FFFF
  | .sg => 0xFFF0FFFF

/-- The word positions of bit 3 of each format's point fields, in the order f1, f2, f3 (30_encoding.md R59, R66). -/
def Format.pointBits : Format → List Nat
  | .fr3 => []
  | .fr2 => []
  | .fi => []
  | .xr2 => []
  | .xi => []
  | .xs => []
  | .xc => []
  | .xd => []
  | .n0 => []
  | .p1 => [23]
  | .p2 => [23, 19]
  | .p3 => [23, 19, 15]
  | .px => [23]
  | .pg => [19]
  | .pk => [23, 19]
  | .pc => [19]
  | .pd => [23]
  | .pu => [23]
  | .sg => []

/-- The opcode field `w[31:26]` (30_encoding.md R58). -/
def opField (w : Word) : Nat := (w.extractLsb' 26 6).toNat

/-- The modulus field, bit 25 (30_encoding.md R58, R60). -/
def mField (w : Word) : Modulus := if w.getLsbD 25 then .n else .p

/-- A 4-bit field as an X register (30_encoding.md R58, R60). -/
def xField (w : Word) (lo : Nat) : XReg := Fin.ofNat 16 (w.extractLsb' lo 4).toNat

/-- The low three bits of a 4-bit field as a point register (30_encoding.md R58, R60). -/
def qField (w : Word) (lo : Nat) : QReg := Fin.ofNat 8 (w.extractLsb' lo 3).toNat

/-- The descriptor selector, bits 1:0 (30_encoding.md R58, R60). -/
def dselField (w : Word) : DescSel := Fin.ofNat 4 (w.extractLsb' 0 2).toNat

/-- The immediate, bits 15:0 (30_encoding.md R58, R60). -/
def immField (w : Word) : BitVec 16 := w.extractLsb' 0 16

/-- The opcode map of 30_encoding.md R62: the format of an assigned opcode, and the command its fields spell. -/
def rowOf (w : Word) : Nat → Option (Format × Instr)
  | 0x01 => some (.fr3, .madd (mField w) (xField w 20) (xField w 16) (xField w 12))
  | 0x02 => some (.fr3, .msub (mField w) (xField w 20) (xField w 16) (xField w 12))
  | 0x03 => some (.fr3, .mmul (mField w) (xField w 20) (xField w 16) (xField w 12))
  | 0x04 => some (.fr2, .msqr (mField w) (xField w 20) (xField w 16))
  | 0x05 => some (.fr2, .mneg (mField w) (xField w 20) (xField w 16))
  | 0x06 => some (.fi, .msmul (mField w) (xField w 20) (xField w 16) (immField w))
  | 0x07 => some (.fr2, .minv (mField w) (xField w 20) (xField w 16))
  | 0x08 => some (.fr3, .mdiv (mField w) (xField w 20) (xField w 16) (xField w 12))
  | 0x09 => some (.fr2, .mred (mField w) (xField w 20) (xField w 16))
  | 0x10 => some (.xr2, .xmov (xField w 20) (xField w 16))
  | 0x11 => some (.xi, .xldi (xField w 20) (immField w))
  | 0x12 => some (.xs, .xldp (xField w 20) (xField w 16))
  | 0x13 => some (.xc, .xcmp (xField w 16) (xField w 12))
  | 0x14 => some (.xd, .ldbe (xField w 20) (dselField w))
  | 0x15 => some (.xd, .ldle (xField w 20) (dselField w))
  | 0x16 => some (.xd, .stbe (xField w 20) (dselField w))
  | 0x17 => some (.xd, .stle (xField w 20) (dselField w))
  | 0x18 => some (.n0, .cfgchk)
  | 0x20 => some (.p1, .pinf (qField w 20))
  | 0x21 => some (.p1, .pgen (qField w 20))
  | 0x22 => some (.px, .pset (qField w 20) (xField w 16) (xField w 12))
  | 0x23 => some (.pg, .pgetx (xField w 20) (qField w 16))
  | 0x24 => some (.pg, .pgety (xField w 20) (qField w 16))
  | 0x25 => some (.p2, .pmov (qField w 20) (qField w 16))
  | 0x26 => some (.p3, .padd (qField w 20) (qField w 16) (qField w 12))
  | 0x27 => some (.p2, .pdbl (qField w 20) (qField w 16))
  | 0x28 => some (.p2, .pneg (qField w 20) (qField w 16))
  | 0x29 => some (.pk, .pmul (qField w 20) (qField w 16) (xField w 12))
  | 0x2A => some (.pc, .pchk (qField w 16))
  | 0x30 => some (.pd, .penc (qField w 20) (dselField w))
  | 0x31 => some (.pd, .pencle (qField w 20) (dselField w))
  | 0x32 => some (.pd, .pdec (qField w 20) (dselField w))
  | 0x38 => some (.pu, .pubk (qField w 20) (xField w 16))
  | 0x39 => some (.sg, .sign (xField w 16))
  | 0x3A => some (.n0, .verify)
  | 0x3C => some (.n0, .stcomp)
  | 0x3D => some (.p2, .uv2xy (qField w 20) (qField w 16))
  | 0x3E => some (.p2, .xy2uv (qField w 20) (qField w 16))
  | _ => none

/-- 30_encoding.md R66, the checks that need only the word, in its order: OPCODE, POINT_INDEX, RESERVED_BITS, PARAM_SEL.
The last check of R66, DESC_RANGE, reads the descriptors and stands in the meanings of the commands R67 lists (log 5). -/
def decode (w : Word) : Except Cause Instr :=
  match rowOf w (opField w) with
  | none => .error .opcode
  | some (f, i) =>
    if f.pointBits.any (fun k => w.getLsbD k) then .error .pointIndex
    else if w &&& f.mask ≠ BitVec.ofNat 32 (opField w) <<< 26 then .error .reservedBits
    else if i.wellFormed = false then .error .paramSel
    else .ok i

/-- The bit a modulus is encoded by (30_encoding.md R60). -/
def Modulus.bit : Modulus → Nat
  | .p => 0
  | .n => 1

/-- The assembled word of every format but FI and XI (30_encoding.md R59, last sentence). -/
def assemble (op m f1 f2 f3 dsel : Nat) : Word :=
  (BitVec.ofNat 32 op <<< 26) ||| (BitVec.ofNat 32 m <<< 25) ||| (BitVec.ofNat 32 f1 <<< 20)
    ||| (BitVec.ofNat 32 f2 <<< 16) ||| (BitVec.ofNat 32 f3 <<< 12) ||| BitVec.ofNat 32 dsel

/-- The assembled word of formats FI and XI (30_encoding.md R59, last sentence). -/
def assembleImm (op m f1 f2 : Nat) (imm : BitVec 16) : Word :=
  (BitVec.ofNat 32 op <<< 26) ||| (BitVec.ofNat 32 m <<< 25) ||| (BitVec.ofNat 32 f1 <<< 20)
    ||| (BitVec.ofNat 32 f2 <<< 16) ||| imm.setWidth 32

/-- The command word of an instruction (30_encoding.md R59, R62). -/
def encode : Instr → Word
  | .madd m rd ra rb => assemble 0x01 m.bit rd ra rb 0
  | .msub m rd ra rb => assemble 0x02 m.bit rd ra rb 0
  | .mmul m rd ra rb => assemble 0x03 m.bit rd ra rb 0
  | .msqr m rd ra => assemble 0x04 m.bit rd ra 0 0
  | .mneg m rd ra => assemble 0x05 m.bit rd ra 0 0
  | .msmul m rd ra imm => assembleImm 0x06 m.bit rd ra imm
  | .minv m rd ra => assemble 0x07 m.bit rd ra 0 0
  | .mdiv m rd ra rb => assemble 0x08 m.bit rd ra rb 0
  | .mred m rd ra => assemble 0x09 m.bit rd ra 0 0
  | .xmov rd ra => assemble 0x10 0 rd ra 0 0
  | .xldi rd imm => assembleImm 0x11 0 rd 0 imm
  | .xldp rd sel => assemble 0x12 0 rd sel 0 0
  | .xcmp ra rb => assemble 0x13 0 0 ra rb 0
  | .ldbe r k => assemble 0x14 0 r 0 0 k
  | .ldle r k => assemble 0x15 0 r 0 0 k
  | .stbe r k => assemble 0x16 0 r 0 0 k
  | .stle r k => assemble 0x17 0 r 0 0 k
  | .cfgchk => assemble 0x18 0 0 0 0 0
  | .pinf qd => assemble 0x20 0 qd 0 0 0
  | .pgen qd => assemble 0x21 0 qd 0 0 0
  | .pset qd ra rb => assemble 0x22 0 qd ra rb 0
  | .pgetx rd qa => assemble 0x23 0 rd qa 0 0
  | .pgety rd qa => assemble 0x24 0 rd qa 0 0
  | .pmov qd qa => assemble 0x25 0 qd qa 0 0
  | .padd qd qa qb => assemble 0x26 0 qd qa qb 0
  | .pdbl qd qa => assemble 0x27 0 qd qa 0 0
  | .pneg qd qa => assemble 0x28 0 qd qa 0 0
  | .pmul qd qa rk => assemble 0x29 0 qd qa rk 0
  | .pchk qa => assemble 0x2A 0 0 qa 0 0
  | .penc q k => assemble 0x30 0 q 0 0 k
  | .pencle q k => assemble 0x31 0 q 0 0 k
  | .pdec q k => assemble 0x32 0 q 0 0 k
  | .pubk qd ra => assemble 0x38 0 qd ra 0 0
  | .sign ra => assemble 0x39 0 0 ra 0 0
  | .verify => assemble 0x3A 0 0 0 0 0
  | .stcomp => assemble 0x3C 0 0 0 0 0
  | .uv2xy qd qa => assemble 0x3D 0 qd qa 0 0
  | .xy2uv qd qa => assemble 0x3E 0 qd qa 0 0

/-- What the decoder reads from a word numbered as spec/opcode_table.json numbers it. A command is one 32-bit word
written to CMD in one access (30_encoding.md R57), so there is nothing to lay out, and no word above 32 bits decodes. -/
def decodeTableWord (nbits w : Nat) : Option Instr :=
  if nbits ≤ 32 ∧ w < 2 ^ nbits then
    match decode (BitVec.ofNat 32 w) with
    | .ok i => some i
    | .error _ => none
  else none

end Sys2Proof
end

