-- ==== Sys2Proof/Machine/Arith.lean ====
section
/-! DEFINITION. The arithmetic the rules share: exact integers reduced once (00_scope.md R11, R14), the inverse
(40_field.md R76), and byte strings (00_scope.md R12, 40_field.md R77). -/

namespace Sys2Proof.Machine

/-- `z mod m`, the canonical residue of an integer (00_scope.md R11). -/
def modp (z : Int) (m : Nat) : Nat := (z % (m : Int)).toNat

/-- `bitlen(v)`, with bitlen(0) = 0 (00_scope.md R11). -/
def bitlen (v : Nat) : Nat := if v = 0 then 0 else Nat.log2 v + 1

/-- ModOK(M): M is odd and M ≥ 3 (40_field.md R71). -/
def modOK (m : Nat) : Bool := decide (m % 2 = 1) && decide (3 ≤ m)

/-- The extended Euclid recurrence: from remainders r, r' with coefficients c, c', the coefficient of the last non-zero
remainder. The first argument bounds the number of steps. -/
def euclid : Nat → Nat → Nat → Int → Int → Int
  | 0, _, _, c, _ => c
  | k + 1, r, r', c, c' => if r' = 0 then c else euclid k r' (r % r') c' (c - (r / r' : Nat) * c')

/-- Inv(a, M) (40_field.md R76): the inverse of a mod M, or none where gcd(a mod M, M) ≠ 1 (NOT_INVERTIBLE). -/
def inv (a : Int) (m : Nat) : Option Nat :=
  if Nat.gcd (modp a m) m ≠ 1 then none else some (modp (euclid (m + 1) (modp a m) m 1 0) m)

/-- BE(s): the first byte is the most significant (00_scope.md R12). -/
def be (bs : List Byte) : Nat := bs.foldl (fun v b => v * 256 + b.toNat) 0

/-- LE(s): the first byte is the least significant (00_scope.md R12). -/
def le (bs : List Byte) : Nat := bs.foldr (fun b v => b.toNat + 256 * v) 0

/-- LEbytes(v, L), for v < 2^(8L) (00_scope.md R12; log 12 for other v). -/
def leBytes (v : Nat) : Nat → List Byte
  | 0 => []
  | k + 1 => BitVec.ofNat 8 v :: leBytes (v / 256) k

/-- BEbytes(v, L), for v < 2^(8L) (00_scope.md R12; log 12 for other v). -/
def beBytes (v len : Nat) : List Byte := (leBytes v len).reverse

/-- ReduceBytes(s, M), by Horner's method (40_field.md R77). -/
def reduceBytes (bs : List Byte) (m : Nat) : Nat := bs.foldl (fun v b => (v * 256 + b.toNat) % m) 0

end Sys2Proof.Machine
end

