-- ==== Sys2Proof/Machine/Group.lean ====
section
/-! DEFINITION. The short-Weierstrass group law (42_curve.md R98 to R101). The slope and coordinate formulas and the
identity laws are the standard ones, which the spec marks as general knowledge (93_implementation_defined.md I23; log 16). -/

namespace Sys2Proof.Machine

/-- A point value (00_scope.md R13): the identity O, or affine coordinates. -/
inductive Point
  | infinity
  | affine (x y : Nat)
deriving DecidableEq, Repr

/-- The coefficients of y² = x³ + a·x + b over the field modulo p. -/
structure Curve where
  p : Nat
  a : Nat
  b : Nat
deriving DecidableEq, Repr

/-- OnCurve(x, y) (42_curve.md R98). -/
def onCurve (c : Curve) (x y : Nat) : Bool :=
  decide (modp ((y : Int) ^ 2 - ((x : Int) ^ 3 + c.a * x + c.b)) c.p = 0)

/-- The point on the line of slope l through (x1, y1) and a second point with first coordinate x2, mirrored: the last
two formulas of PointAdd and PointDouble (42_curve.md R99, R100). -/
def chordPoint (c : Curve) (l x1 y1 x2 : Nat) : Point :=
  let x3 := modp ((l : Int) * l - x1 - x2) c.p
  .affine x3 (modp ((l : Int) * ((x1 : Int) - x3) - y1) c.p)

/-- PointDouble (42_curve.md R100); none is DomainError(NOT_INVERTIBLE). -/
def pointDouble (c : Curve) : Point → Option Point
  | .infinity => some .infinity
  | .affine x y =>
    if y = 0 then some .infinity
    else match inv (2 * y) c.p with
      | none => none
      | some i => some (chordPoint c (modp ((3 * x * x + c.a : Int) * i) c.p) x y x)

/-- PointAdd (42_curve.md R99); none is DomainError(NOT_INVERTIBLE). -/
def pointAdd (c : Curve) : Point → Point → Option Point
  | .infinity, p2 => some p2
  | .affine x1 y1, .infinity => some (.affine x1 y1)
  | .affine x1 y1, .affine x2 y2 =>
    if x1 = x2 then
      if y1 = y2 then pointDouble c (.affine x1 y1) else some .infinity
    else match inv ((x2 : Int) - x1) c.p with
      | none => none
      | some i => some (chordPoint c (modp (((y2 : Int) - y1) * i) c.p) x1 y1 x2)

/-- The loop of ScalarMul over bits i-1 down to 0 of k (42_curve.md R101). -/
def scalarLoop (c : Curve) (p1 : Point) (k : Nat) : Nat → Point → Option Point
  | 0, r => some r
  | i + 1, r =>
    match pointDouble c r with
    | none => none
    | some r2 =>
      if k.testBit i then
        match pointAdd c r2 p1 with
        | none => none
        | some r3 => scalarLoop c p1 k i r3
      else scalarLoop c p1 k i r2

/-- ScalarMul(P1, k), the reference definition (42_curve.md R101; log 13). -/
def scalarMul (c : Curve) (p1 : Point) (k : Nat) : Option Point := scalarLoop c p1 k (bitlen k) .infinity

/-- Point negation (42_curve.md R112). -/
def pointNeg (c : Curve) : Point → Point
  | .infinity => .infinity
  | .affine x y => .affine x (modp (0 - (y : Int)) c.p)

end Sys2Proof.Machine
end

