-- ==== Sys2Proof/Config.lean ====
section
/-! DEFINITION. What the implementation fixes (00_scope.md R8), the named reset values, and the free values. -/

namespace Sys2Proof.Config

/-- Bytes in BUF (00_scope.md R8). -/
abbrev bufSize : Nat := 1024

/-- Bytes in the MMIO window (00_scope.md R8). -/
abbrev winSize : Nat := 0x2000

/-- The ID register's constant (10_state.md R22). -/
def idValue : Word := 0x47430001

/-- DESIGN CHOICE (log 1): what a parameter, X or Q coordinate register holds after a hardware reset, where R21 says
"unspecified". Unsafe. -/
def powerUpWide : Wide := 0

/-- DESIGN CHOICE (log 1): the `inf` bit of a point register after a hardware reset. Unsafe. -/
def powerUpInf : Bool := false

/-- The internal reduction methods R8 allows; no rule reads the choice (R72). -/
inductive Reducer
  | montgomery
  | barrett
deriving DecidableEq, Repr, Inhabited

/-- The internal scalar-multiplication methods R8 allows; no rule reads the choice (R102, log 13). -/
inductive ScalarMethod
  | binary
  | windowed (w : Nat)
  | ladder
deriving DecidableEq, Repr, Inhabited

/-- OPEN parameter REDUCER (R8): read by no rule (log 17). -/
opaque reducer : Reducer

/-- OPEN parameter SMUL_METHOD (R8): read by no rule (log 17). -/
opaque scalarMethod : ScalarMethod

/-- OPEN: which 8 KiB page the platform places the window in (R8); no rule reads it (log 17). -/
opaque corePage : Nat

/-- CORE_BASE, 8 KiB aligned (R8). Every offset of the model is relative to it (20_memory.md R39). -/
def coreBase : Nat := winSize * corePage

/-- FREE VALUE (log 7): what a host read of an unspecified register returns while BUSY = 1 (20_memory.md R50, "A model
treats the value as a draw"); applied to the counter `draws` of State. -/
opaque busyRead : Nat → Word

end Sys2Proof.Config
end

