-- ==== Sys2Proof/Machine/State.lean ====
section
/-! DEFINITION. The state of the CORE (10_state.md, 60_exceptions.md R141, R149) as plain data, its reset value
(70_reset_and_hazards.md R157), and the reasons a step can stop. -/

namespace Sys2Proof.Machine

/-- A 512-bit register with the written marks of its sixteen 32-bit words (10_state.md R16, R18, R21): bit j of `marks`
says that word j has been written since the last hardware reset. -/
structure WideReg where
  val : Wide
  marks : BitVec 16
deriving DecidableEq, Repr

/-- A point register (10_state.md R19) with the written mark of its INF word (R21). -/
structure PointReg where
  x : WideReg
  y : WideReg
  inf : Bool
  infMark : Bool
deriving DecidableEq, Repr

/-- A BUF descriptor (10_state.md R32). -/
structure Desc where
  off : BitVec 10
  len : BitVec 11
deriving DecidableEq, Repr

/-- The written bytes of BUF by index, indices strictly rising; a byte not listed has not been written since the hardware
reset and has no value (10_state.md R20, R21; log 3). -/
abbrev Memory := List Host.Cell

/-- The canonical form of BUF's contents: indices strictly rising, all inside BUF. -/
abbrev Memory.wf (m : Memory) : Prop :=
  m.Pairwise (fun c c' => c.1 < c'.1) ∧ ∀ c ∈ m, c.1 < Config.bufSize

/-- What the signing loop carries from its start (10_state.md R37): the digest scalar e, the private key d, the seed where
one is given, and the number of iterations begun. -/
structure SignLoop where
  e : Nat
  d : Nat
  seed : Option (List Byte)
  it : Nat
deriving DecidableEq, Repr

/-- The hidden state of the command in flight (10_state.md R37, 60_exceptions.md R141, R149). Its word is in CMD. -/
inductive Phase
  /-- no command in flight: BUSY = 0 -/
  | idle
  /-- the accept step has been taken, the command has not run -/
  | accepted
  /-- SIGN waits for the answer to its request of iteration `k.it`: ENTW = 1 -/
  | entropyWait (k : SignLoop)
  /-- the entropy source has answered the request of iteration `k.it` with `bytes` -/
  | entropyGot (k : SignLoop) (bytes : List Byte)
deriving DecidableEq, Repr

/-- The two host accesses (20_memory.md R45). -/
inductive BusOp
  | read
  | write (w : Word)
deriving DecidableEq, Repr

/-- One host access: its byte offset from CORE_BASE, its four byte-lane enables, and what it does (20_memory.md R39, R45). -/
structure Access where
  off : Nat
  lanes : BitVec 4
  op : BusOp
deriving DecidableEq, Repr

/-- One move of an agent (10_state.md R15): the host accesses the window, the core takes its next step, the entropy source
answers request number `req`, or the platform resets the CORE (70_reset_and_hazards.md R157). -/
inductive Event
  | host (a : Access)
  | core
  | entropy (req : Nat) (bytes : List Byte)
  | hwReset
deriving DecidableEq, Repr

/-- The architectural and hidden state of the CORE, and below the line the model's own fields. -/
structure State where
  /-- P, A, B, GX, GY, N, E, D, S, T (R16), indexed by `Prm.idx` -/
  prm : Vector WideReg 10
  /-- X0 to X15 (R18) -/
  x : Vector WideReg 16
  /-- Q0 to Q7 (R19) -/
  q : Vector PointReg 8
  /-- BUF (R20) -/
  buf : Memory
  /-- CTRL.IRQEN (R23) -/
  irqen : Bool
  /-- CMD (R24) -/
  cmd : Word
  /-- STATUS.DONE (R25) -/
  done : Bool
  /-- STATUS.ERR (R25) -/
  err : Bool
  /-- STATUS.CFGOK (R25, R34) -/
  cfgok : Bool
  /-- STATUS.RESULT (R25, R33) -/
  result : Bool
  /-- STATUS.OVF (R25) -/
  ovf : Bool
  /-- STATUS.WERR (R25) -/
  werr : Bool
  /-- STATUS.BUSERR (R25) -/
  buserr : Bool
  /-- STATUS.ERRCODE (R25, R144) -/
  errcode : BitVec 4
  /-- ERRINFO.CAUSE (R26, R145) -/
  cause : BitVec 8
  /-- ITER (R27) -/
  iter : Word
  /-- ITERCAP (R28) -/
  itercap : Word
  /-- BYTELEN.BL (R29) -/
  bytelen : BitVec 8
  /-- H (R30) -/
  h : Word
  /-- CFGF.EDW (R31) -/
  edw : Bool
  /-- CFGF.STV (R31, R35) -/
  stv : Bool
  /-- DESC0 to DESC3 (R32) -/
  desc : Vector Desc 4
  /-- the command in flight (R37); STATUS.BUSY and STATUS.ENTW are read from it -/
  phase : Phase
  /-- the model's own: the moves still to come, oldest first (log 4) -/
  agenda : List Event
  /-- the model's own: how many entropy requests have been made (log 8) -/
  requests : Nat
  /-- the model's own: how many free values have been drawn (log 7) -/
  draws : Nat
  /-- the model's own: what the last host read returned (log 10) -/
  busRead : Option Word
  /-- the model's own: a register word never written has been read (R21, log 2) -/
  unwrittenRead : Bool
deriving DecidableEq, Repr

/-- Why a step stops the machine. -/
inductive Fault
  /-- UNWRITTEN_READ (10_state.md R21): a command or the host read BUF[`i`], which nothing has written since the hardware
  reset. Raised by LDBE, LDLE, PDEC, SIGN, VERIFY and by a host read of a BUF word. Safe: the spec gives the byte no value
  and admits no run past the read. -/
  | unwrittenRead (i : Nat)
  /-- UNWRITTEN_READ (10_state.md R21) at a word of a parameter, X or Q register. Raised by `strictStep` of Safety.lean
  alone, the spec's own step relation; `step` records the read in `unwrittenRead` and goes on (log 2). Safe. -/
  | unwrittenRegister
deriving DecidableEq, Repr

/-- Why a step is refused. -/
inductive Refusal
  /-- An instruction without a meaning yet, raised by `exec` alone; no arm raises it now. Safe. -/
  | notModelled (mnemonic : String)
deriving DecidableEq, Repr

/-- What a meaning and a step answer. -/
abbrev Out := Host.Outcome State Fault Refusal

/-- A wide register after a hardware reset: no word written (R157); the value is the model's (log 1). -/
def WideReg.reset : WideReg := ⟨Config.powerUpWide, 0⟩

/-- A point register after a hardware reset: no word written (R157); the values are the model's (log 1). -/
def PointReg.reset : PointReg := ⟨WideReg.reset, WideReg.reset, Config.powerUpInf, false⟩

/-- The CORE right after a hardware reset (70_reset_and_hazards.md R157), with nothing on the agenda. -/
def State.reset : State where
  prm := Vector.replicate 10 WideReg.reset
  x := Vector.replicate 16 WideReg.reset
  q := Vector.replicate 8 PointReg.reset
  buf := []
  irqen := false
  cmd := 0
  done := false
  err := false
  cfgok := false
  result := false
  ovf := false
  werr := false
  buserr := false
  errcode := 0
  cause := 0
  iter := 0
  itercap := 0
  bytelen := 0
  h := 0
  edw := false
  stv := false
  desc := Vector.replicate 4 ⟨0, 0⟩
  phase := .idle
  agenda := []
  requests := 0
  draws := 0
  busRead := none
  unwrittenRead := false

end Sys2Proof.Machine
end

