-- ==== Sys2Proof/Machine/Flags.lean ====
section
/-! DEFINITION. The status bits: BUSY and ENTW, the STATUS, CTRL, ERRINFO and CFGF words, the write-one-to-clear bits, the
error class and cause codes, and the interrupt output (10_state.md section 3, 60_exceptions.md R144, R145, R148). -/

namespace Sys2Proof.Machine

/-- STATUS.BUSY (10_state.md R25): a command is executing. -/
def State.busy (s : State) : Bool :=
  match s.phase with
  | .idle => false
  | .accepted => true
  | .entropyWait _ => true
  | .entropyGot _ _ => true

/-- STATUS.ENTW (10_state.md R25, 60_exceptions.md R149): the core waits on the entropy port. -/
def State.entw (s : State) : Bool :=
  match s.phase with
  | .idle => false
  | .accepted => false
  | .entropyWait _ => true
  | .entropyGot _ _ => false

/-- The interrupt output IRQ = STATUS.DONE ∧ CTRL.IRQEN (60_exceptions.md R148). -/
def State.irq (s : State) : Bool := s.done && s.irqen

/-- A one-bit field at bit k of a word whose other bits are zero. -/
def bitAt (b : Bool) (k : Nat) : Word := if b then BitVec.ofNat 32 (2 ^ k) else 0

/-- The STATUS word as a host reads it (10_state.md R25); reserved bits read zero. -/
def State.statusWord (s : State) : Word :=
  bitAt s.busy 0 ||| bitAt s.done 1 ||| bitAt s.err 2 ||| bitAt s.cfgok 3 ||| bitAt s.result 4 ||| bitAt s.entw 5
    ||| bitAt s.ovf 6 ||| bitAt s.werr 7 ||| bitAt s.buserr 8 ||| (s.errcode.setWidth 32 <<< 12)

/-- The CTRL word as a host reads it (10_state.md R23): SRST reads zero. -/
def State.ctrlWord (s : State) : Word := bitAt s.irqen 1

/-- The CFGF word as a host reads it (10_state.md R31). -/
def State.cfgfWord (s : State) : Word := bitAt s.edw 0 ||| bitAt s.stv 1

/-- A descriptor as a host reads it (10_state.md R32). -/
def Desc.word (d : Desc) : Word := d.off.setWidth 32 ||| (d.len.setWidth 32 <<< 16)

/-- A descriptor as a host writes it (10_state.md R32): reserved bits are dropped. -/
def Desc.ofWord (w : Word) : Desc := ⟨w.extractLsb' 0 10, w.extractLsb' 16 11⟩

/-- A host write of STATUS: its W1C bits (10_state.md R25). Clearing ERR also clears ERRCODE and CAUSE, which is the
acknowledgement of an error (60_exceptions.md R147). -/
def State.clearStatus (w : Word) (s : State) : State :=
  { s with
    done := s.done && !w.getLsbD 1
    err := s.err && !w.getLsbD 2
    errcode := if w.getLsbD 2 then 0 else s.errcode
    cause := if w.getLsbD 2 then 0 else s.cause
    ovf := s.ovf && !w.getLsbD 6
    werr := s.werr && !w.getLsbD 7
    buserr := s.buserr && !w.getLsbD 8 }

/-- ERRCODE of a class (60_exceptions.md R144). -/
def classCode : ErrClass → BitVec 4
  | .illegalCommand => 1
  | .configurationError => 2
  | .formatError => 3
  | .domainError => 4
  | .retryLimitError => 5

/-- The class of a cause (60_exceptions.md R145). -/
def classOf : Cause → ErrClass
  | .opcode => .illegalCommand
  | .reservedBits => .illegalCommand
  | .pointIndex => .illegalCommand
  | .paramSel => .illegalCommand
  | .descRange => .illegalCommand
  | .modulus => .configurationError
  | .cfgNotOk => .configurationError
  | .noEdwards => .configurationError
  | .pInvalid => .configurationError
  | .bytelenMismatch => .configurationError
  | .nInvalid => .configurationError
  | .coeffRange => .configurationError
  | .gNotOnCurve => .configurationError
  | .cofactor => .configurationError
  | .length => .formatError
  | .prefixByte => .formatError
  | .width => .formatError
  | .valueWide => .formatError
  | .notInvertible => .domainError
  | .notOnCurve => .domainError
  | .coordRange => .domainError
  | .scalarRange => .domainError
  | .keyRange => .domainError
  | .identity => .domainError
  | .iterCap => .retryLimitError

/-- The CAUSE code (60_exceptions.md R145). -/
def causeCode : Cause → BitVec 8
  | .opcode => 0x01
  | .reservedBits => 0x02
  | .pointIndex => 0x03
  | .paramSel => 0x04
  | .descRange => 0x05
  | .modulus => 0x10
  | .cfgNotOk => 0x11
  | .noEdwards => 0x12
  | .pInvalid => 0x13
  | .bytelenMismatch => 0x14
  | .nInvalid => 0x15
  | .coeffRange => 0x16
  | .gNotOnCurve => 0x17
  | .cofactor => 0x18
  | .length => 0x20
  | .prefixByte => 0x21
  | .width => 0x22
  | .valueWide => 0x23
  | .notInvertible => 0x30
  | .notOnCurve => 0x31
  | .coordRange => 0x32
  | .scalarRange => 0x33
  | .keyRange => 0x34
  | .identity => 0x35
  | .iterCap => 0x40

end Sys2Proof.Machine
end

