-- ==== Sys2Proof/Machine/Ops.lean ====
section
/-! DEFINITION. The named operations over registers, written marks, BUF and the command in flight: accessors, writes, the
completion of a command, and the one operation that ends a command with an error (60_exceptions.md R142, R143). -/

namespace Sys2Proof

/-- A parameter register's place in the region map (20_memory.md R40). -/
def Prm.idx : Prm → Fin 10
  | .p => 0
  | .a => 1
  | .b => 2
  | .gx => 3
  | .gy => 4
  | .n => 5
  | .e => 6
  | .d => 7
  | .s => 8
  | .t => 9

namespace Machine

/-- A wide register a command has written whole: every word is marked written (10_state.md R21). -/
def WideReg.written (v : Nat) : WideReg := ⟨BitVec.ofNat 512 v, BitVec.allOnes 16⟩

/-- Every word of the register has been written (10_state.md R21). -/
def WideReg.isWritten (r : WideReg) : Bool := r.marks == BitVec.allOnes 16

/-- Word j of a wide register: bits [32j+31 : 32j] (20_memory.md R41). -/
def WideReg.word (r : WideReg) (j : Fin 16) : Word := r.val.extractLsb' (32 * j) 32

/-- A host write of word j: those 32 bits are replaced, the other 480 stay, and the word is marked (20_memory.md R41,
10_state.md R21). -/
def WideReg.setWord (r : WideReg) (j : Fin 16) (w : Word) : WideReg :=
  ⟨(r.val &&& ~~~((BitVec.allOnes 32).setWidth 512 <<< (32 * j.val))) ||| (w.setWidth 512 <<< (32 * j.val)),
    r.marks ||| BitVec.ofNat 16 (2 ^ j.val)⟩

/-- All three fields of the point register have been written (10_state.md R21). -/
def PointReg.isWritten (r : PointReg) : Bool := r.x.isWritten && r.y.isWritten && r.infMark

/-- A point register a command has written (10_state.md R19, R21). -/
def PointReg.written (x y : Nat) (inf : Bool) : PointReg := ⟨.written x, .written y, inf, true⟩

/-- The register PRM.r. -/
def State.prmReg (s : State) (r : Prm) : WideReg := s.prm[r.idx]

/-- The value of PRM.r (00_scope.md R12). -/
def State.prmVal (s : State) (r : Prm) : Nat := (s.prmReg r).val.toNat

/-- The value of X[i] (00_scope.md R12). -/
def State.xVal (s : State) (i : XReg) : Nat := s.x[i].val.toNat

/-- X[i] <- v by a command, for v < 2^512 (00_scope.md R12). -/
def State.setX (i : XReg) (v : Nat) (s : State) : State := { s with x := s.x.set i (.written v) }

/-- Q[j] <- (x, y, inf) by a command (00_scope.md R12). -/
def State.setQ (j : QReg) (x y : Nat) (inf : Bool) (s : State) : State := { s with q := s.q.set j (.written x y inf) }

/-- PRM.r replaced whole. -/
def State.setPrm (r : Prm) (v : WideReg) (s : State) : State := { s with prm := s.prm.set r.idx v }

/-- The registers a command can read. -/
inductive RegName
  | prm (r : Prm)
  | x (i : XReg)
  | q (j : QReg)
deriving DecidableEq, Repr

/-- Every word of the named register has been written since the hardware reset (10_state.md R21). -/
def State.regWritten (s : State) : RegName → Bool
  | .prm r => (s.prmReg r).isWritten
  | .x i => s.x[i].isWritten
  | .q j => s.q[j].isWritten

/-- The command reads these registers: a word never written is recorded (10_state.md R21; log 2). -/
def State.noteReads (l : List RegName) (s : State) : State :=
  { s with unwrittenRead := s.unwrittenRead || l.any (fun r => !s.regWritten r) }

/-- The value of a BUF byte, none where nothing has written it (10_state.md R20, R21). -/
def Memory.read : Memory → Nat → Option Byte
  | [], _ => none
  | (a, b) :: m, i => if a = i then some b else Memory.read m i

/-- BUF[i] <- v, keeping the list in its canonical form. -/
def Memory.write : Memory → Nat → Byte → Memory
  | [], i, v => [(i, v)]
  | (a, b) :: m, i, v =>
    if i < a then (i, v) :: (a, b) :: m
    else if i = a then (i, v) :: m
    else (a, b) :: Memory.write m i v

/-- MemRead(off, n) (00_scope.md R12), or the index of the first byte of the range that was never written. -/
def Memory.readBytes (m : Memory) : Nat → Nat → Except Nat (List Byte)
  | _, 0 => .ok []
  | off, n + 1 =>
    match m.read off with
    | none => .error off
    | some b =>
      match Memory.readBytes m (off + 1) n with
      | .error i => .error i
      | .ok bs => .ok (b :: bs)

/-- MemWrite(off, len(bs), bs) (00_scope.md R12): exactly those bytes are written and marked (10_state.md R21). -/
def Memory.writeBytes (m : Memory) : Nat → List Byte → Memory
  | _, [] => m
  | off, b :: bs => Memory.writeBytes (m.write off b) (off + 1) bs

/-- A command writes a BUF range. -/
def State.writeBuf (off : Nat) (bs : List Byte) (s : State) : State := { s with buf := s.buf.writeBytes off bs }

/-- The completion step of a command without error (60_exceptions.md R142): BUSY falls, DONE rises. -/
def State.complete (s : State) : State := { s with phase := .idle, done := true }

/-- `raise Class(CAUSE)`, the completion step of a command with an error (60_exceptions.md R142, R143): nothing computed is
written, the class and the cause are recorded, BUSY falls, DONE and ERR rise. Every error of every command goes through
this one operation; the return from it is the host's acknowledgement, `State.clearStatus`. -/
def State.raise (c : Cause) (s : State) : State :=
  { s with phase := .idle, done := true, err := true, errcode := classCode (classOf c), cause := causeCode c }

/-- A command that computed the boolean of STATUS.RESULT (10_state.md R33). -/
def State.finishResult (b : Bool) (s : State) : State := { s with result := b }.complete

/-- A command that computed a value for X[rd], or raised. -/
def State.finishX (rd : XReg) (r : Except Cause Nat) (s : State) : State :=
  match r with
  | .error c => s.raise c
  | .ok v => (s.setX rd v).complete

/-- A host write of CMD that is accepted (60_exceptions.md R141); the reads of R142 follow in the same step (`hostMove`). -/
def State.accept (w : Word) (s : State) : State := { s with cmd := w, done := false, phase := .accepted }

/-- A soft reset (70_reset_and_hazards.md R158): the command in flight and its entropy request are abandoned, every CSR
returns to its hardware-reset value, and the register arrays, BUF and their marks stay. -/
def State.softReset (s : State) : State :=
  { s with
    irqen := false
    cmd := 0
    done := false
    err := false
    cfgok := false
    result := false
    ovf := false
    werr := false
    buserr := false
    errcode := 0
    cause := 0
    iter := 0
    itercap := 0
    bytelen := 0
    h := 0
    edw := false
    stv := false
    desc := Vector.replicate 4 ⟨0, 0⟩
    phase := .idle }

/-- A hardware reset (70_reset_and_hazards.md R157). The moves still to come and the model's two counters go on, so that
a late entropy answer is still told apart (log 15). -/
def State.hardReset (s : State) : State :=
  { State.reset with agenda := s.agenda, requests := s.requests, draws := s.draws }

end Machine
end Sys2Proof
end

