-- ==== Sys2Proof/Machine/Operands.lean ====
section
/-! DEFINITION. The operand forms: the modulus of a field command, XLDP's selectors, descriptors, point operands and the
curve configuration (30_encoding.md R60, R61, R67, 42_curve.md R97, 43_codec.md R117). -/

namespace Sys2Proof.Machine

/-- The register the `m` bit selects (30_encoding.md R60). -/
def modReg : Modulus → Prm
  | .p => .p
  | .n => .n

/-- The zero-extended immediate (30_encoding.md R60). -/
def immVal (imm : BitVec 16) : Nat := imm.toNat

/-- The parameter register an XLDP selector names; H and BYTELEN, selectors 10 and 11, are no such registers
(30_encoding.md R61). -/
def selPrm (sel : Fin 16) : Option Prm :=
  match sel.val with
  | 0 => some .p
  | 1 => some .a
  | 2 => some .b
  | 3 => some .gx
  | 4 => some .gy
  | 5 => some .n
  | 6 => some .e
  | 7 => some .d
  | 8 => some .s
  | 9 => some .t
  | _ => none

/-- DESC[k].OFF (10_state.md R32). -/
def State.descOff (s : State) (k : DescSel) : Nat := s.desc[k].off.toNat

/-- DESC[k].LEN (10_state.md R32). -/
def State.descLen (s : State) (k : DescSel) : Nat := s.desc[k].len.toNat

/-- The range check of a descriptor a command uses (30_encoding.md R66, R67). -/
def State.descOk (s : State) (k : DescSel) : Bool := decide (s.descOff k + s.descLen k ≤ Config.bufSize)

/-- The bytes of a descriptor's range, or the index of one never written. -/
def State.descBytes (s : State) (k : DescSel) : Except Nat (List Byte) := s.buf.readBytes (s.descOff k) (s.descLen k)

/-- CSR.BYTELEN.BL (10_state.md R29). -/
def State.bl (s : State) : Nat := s.bytelen.toNat

/-- The curve of the parameter registers (42_curve.md R98). -/
def State.curve (s : State) : Curve := ⟨s.prmVal .p, s.prmVal .a, s.prmVal .b⟩

/-- The generator G (44_signature.md). -/
def State.gen (s : State) : Point := .affine (s.prmVal .gx) (s.prmVal .gy)

/-- PtRead(j) (42_curve.md R97). -/
def State.ptRead (s : State) (j : QReg) : Except Cause Point :=
  if s.q[j].inf then .ok .infinity
  else if s.prmVal .p ≤ s.q[j].x.val.toNat ∨ s.prmVal .p ≤ s.q[j].y.val.toNat then .error .coordRange
  else .ok (.affine s.q[j].x.val.toNat s.q[j].y.val.toNat)

/-- Q[j] <- P: the identity is written as (0, 0, 1) (42_curve.md R103). -/
def State.setPoint (j : QReg) (p : Point) (s : State) : State :=
  match p with
  | .infinity => s.setQ j 0 0 true
  | .affine x y => s.setQ j x y false

/-- A group operation that met a failing inverse raises NOT_INVERTIBLE (40_field.md R76). -/
def orNotInvertible {α : Type} (o : Option α) : Except Cause α :=
  match o with
  | none => .error .notInvertible
  | some a => .ok a

/-- A command that computed a point for Q[qd], or raised. -/
def State.finishQ (qd : QReg) (r : Except Cause Point) (s : State) : State :=
  match r with
  | .error c => s.raise c
  | .ok p => (s.setPoint qd p).complete

/-- DecodePoint(s) (43_codec.md R117). -/
def State.decodePoint (s : State) (bs : List Byte) : Except Cause Point :=
  if bs.length ≠ 1 + 2 * s.bl then .error .length
  else if bs.head? ≠ some 0x04 then .error .prefixByte
  else
    let x := be ((bs.drop 1).take s.bl)
    let y := be (bs.drop (1 + s.bl))
    if s.prmVal .p ≤ x ∨ s.prmVal .p ≤ y then .error .coordRange
    else if onCurve s.curve x y then .ok (.affine x y)
    else .error .notOnCurve

end Sys2Proof.Machine
end

