-- ==== Sys2Proof/Machine/Bus.lean ====
section
/-! DEFINITION. The host's accesses of the MMIO window: the region map, reads, writes and their side effects, what BUSY
drops, and command issue (20_memory.md R39 to R50, 10_state.md R34, R35, 60_exceptions.md R141). -/

namespace Sys2Proof.Machine

/-- The mapped words of the window (20_memory.md R40). -/
inductive Target
  | id
  | ctrl
  | cmd
  | status
  | errinfo
  | iter
  | itercap
  | bytelen
  | h
  | cfgf
  | desc (k : DescSel)
  | prm (r : Prm) (j : Fin 16)
  | x (i : XReg) (j : Fin 16)
  | qx (i : QReg) (j : Fin 16)
  | qy (i : QReg) (j : Fin 16)
  | qinf (i : QReg)
  /-- a reserved word inside a point register's block (20_memory.md R43) -/
  | qres (i : QReg)
  | buf (w : Fin 256)
deriving DecidableEq, Repr

/-- The parameter register at a place of the region map (20_memory.md R40); the inverse of `Prm.idx`. -/
def prmAt : Nat → Option Prm
  | 0 => some .p
  | 1 => some .a
  | 2 => some .b
  | 3 => some .gx
  | 4 => some .gy
  | 5 => some .n
  | 6 => some .e
  | 7 => some .d
  | 8 => some .s
  | 9 => some .t
  | _ => none

/-- The CSR at word offset w of the window, 0x0000 to 0x003F (20_memory.md R40). -/
def csrAt : Nat → Option Target
  | 0 => some .id
  | 1 => some .ctrl
  | 2 => some .cmd
  | 3 => some .status
  | 4 => some .errinfo
  | 5 => some .iter
  | 6 => some .itercap
  | 7 => some .bytelen
  | 8 => some .h
  | 9 => some .cfgf
  | 12 => some (.desc 0)
  | 13 => some (.desc 1)
  | 14 => some (.desc 2)
  | 15 => some (.desc 3)
  | _ => none

/-- The word at offset o inside point register i's block (20_memory.md R40, R43). -/
def pointWordAt (i : QReg) (o : Nat) : Target :=
  if o < 0x40 then .qx i (Fin.ofNat 16 (o / 4))
  else if o < 0x80 then .qy i (Fin.ofNat 16 ((o - 0x40) / 4))
  else if o < 0x84 then .qinf i
  else .qres i

/-- The region map (20_memory.md R40): what stands at a byte offset, none for a reserved region or beyond WIN_SIZE. -/
def targetAt (off : Nat) : Option Target :=
  if off < 0x40 then csrAt (off / 4)
  else if off < 0x100 then none
  else if off < 0x380 then (prmAt ((off - 0x100) / 0x40)).map (fun r => .prm r (Fin.ofNat 16 (off % 0x40 / 4)))
  else if off < 0x400 then none
  else if off < 0x800 then some (.x (Fin.ofNat 16 ((off - 0x400) / 0x40)) (Fin.ofNat 16 (off % 0x40 / 4)))
  else if off < 0x1000 then some (pointWordAt (Fin.ofNat 8 ((off - 0x800) / 0x100)) (off % 0x100))
  else if off < 0x1400 then some (.buf (Fin.ofNat 256 ((off - 0x1000) / 4)))
  else none

/-- An access is performed only at an aligned offset with all four byte lanes, and where something is mapped
(20_memory.md R45, R46); while BUSY = 1 too, where R50's words could take in a misaligned or partial access of a mapped
register (DEDUCED, log 20). -/
def Access.target (a : Access) : Option Target :=
  if a.off % 4 = 0 ∧ a.lanes = 0xF then targetAt a.off else none

/-- The side effects of a performed write of a word of PRM.r: CFGOK (10_state.md R34) and STV (R35). -/
def State.prmWriteEffects (r : Prm) (s : State) : State :=
  match r with
  | .p => { s with cfgok := false, stv := false }
  | .a => { s with cfgok := false }
  | .b => { s with cfgok := false }
  | .gx => { s with cfgok := false }
  | .gy => { s with cfgok := false }
  | .n => { s with cfgok := false }
  | .e => { s with stv := false }
  | .d => { s with stv := false }
  | .s => s
  | .t => s

/-- A host write of CMD (60_exceptions.md R141): accepted, or dropped with OVF. -/
def State.issue (w : Word) (s : State) : State :=
  if s.busy ∨ s.err then { s with ovf := true } else s.accept w

/-- A host write of CTRL (10_state.md R23, 70_reset_and_hazards.md R158). -/
def State.writeCtrl (w : Word) (s : State) : State :=
  if w.getLsbD 0 then s.softReset else { s with irqen := w.getLsbD 1 }

/-- A performed host write, with its side effects (20_memory.md R41 to R43, R47, R49; 10_state.md section 3). -/
def State.performWrite (t : Target) (w : Word) (s : State) : State :=
  match t with
  | .id => s
  | .ctrl => s.writeCtrl w
  | .cmd => s.issue w
  | .status => s.clearStatus w
  | .errinfo => s
  | .iter => s
  | .itercap => { s with itercap := w }
  | .bytelen => { s with bytelen := w.setWidth 8, cfgok := false }
  | .h => { s with h := w, cfgok := false }
  | .cfgf => { s with edw := w.getLsbD 0, stv := w.getLsbD 1 }
  | .desc k => { s with desc := s.desc.set k (Desc.ofWord w) }
  | .prm r j => (s.setPrm r ((s.prmReg r).setWord j w)).prmWriteEffects r
  | .x i j => { s with x := s.x.set i (s.x[i].setWord j w) }
  | .qx i j => { s with q := s.q.set i { s.q[i] with x := s.q[i].x.setWord j w } }
  | .qy i j => { s with q := s.q.set i { s.q[i] with y := s.q[i].y.setWord j w } }
  | .qinf i => { s with q := s.q.set i { s.q[i] with inf := w.getLsbD 0, infMark := true } }
  | .qres _ => s
  | .buf k => s.writeBuf (4 * k) (leBytes w.toNat 4)

/-- The writes that are performed or refused by their own rule while BUSY = 1; every other one is dropped with WERR
(20_memory.md R50; log 9 for read-only registers and log 14 for reserved words of a point block). -/
def Target.writableBusy : Target → Bool
  | .ctrl => true
  | .cmd => true
  | .status => true
  | .id => false
  | .errinfo => false
  | .iter => false
  | .itercap => false
  | .bytelen => false
  | .h => false
  | .cfgf => false
  | .desc _ => false
  | .prm _ _ => false
  | .x _ _ => false
  | .qx _ _ => false
  | .qy _ _ => false
  | .qinf _ => false
  | .qres _ => false
  | .buf _ => false

/-- A host write of a mapped word (20_memory.md R49, R50). -/
def State.hostWrite (t : Target) (w : Word) (s : State) : State :=
  if s.busy && !t.writableBusy then { s with werr := true } else s.performWrite t w

/-- The registers a host reads exactly while BUSY = 1 (20_memory.md R50). -/
def Target.readableBusy : Target → Bool
  | .id => true
  | .ctrl => true
  | .cmd => true
  | .status => true
  | .errinfo => true
  | .iter => true
  | .itercap => true
  | .bytelen => false
  | .h => false
  | .cfgf => false
  | .desc _ => false
  | .prm _ _ => false
  | .x _ _ => false
  | .qx _ _ => false
  | .qy _ _ => false
  | .qinf _ => false
  | .qres _ => false
  | .buf _ => false

/-- The value of a mapped word (20_memory.md R41 to R43, 10_state.md section 3), or the index of a BUF byte never
written. -/
def State.wordAt (s : State) : Target → Except Nat Word
  | .id => .ok Config.idValue
  | .ctrl => .ok s.ctrlWord
  | .cmd => .ok s.cmd
  | .status => .ok s.statusWord
  | .errinfo => .ok (s.cause.setWidth 32)
  | .iter => .ok s.iter
  | .itercap => .ok s.itercap
  | .bytelen => .ok (s.bytelen.setWidth 32)
  | .h => .ok s.h
  | .cfgf => .ok s.cfgfWord
  | .desc k => .ok s.desc[k].word
  | .prm r j => .ok ((s.prmReg r).word j)
  | .x i j => .ok (s.x[i].word j)
  | .qx i j => .ok (s.q[i].x.word j)
  | .qy i j => .ok (s.q[i].y.word j)
  | .qinf i => .ok (bitAt s.q[i].inf 0)
  | .qres _ => .ok 0
  | .buf k =>
    match s.buf.readBytes (4 * k) 4 with
    | .error i => .error i
    | .ok bs => .ok (BitVec.ofNat 32 (le bs))

/-- The register word at a target has been written since the hardware reset (10_state.md R21). -/
def State.wordWritten (s : State) : Target → Bool
  | .prm r j => (s.prmReg r).marks.getLsbD j
  | .x i j => s.x[i].marks.getLsbD j
  | .qx i j => s.q[i].x.marks.getLsbD j
  | .qy i j => s.q[i].y.marks.getLsbD j
  | .qinf i => s.q[i].infMark
  | .id => true
  | .ctrl => true
  | .cmd => true
  | .status => true
  | .errinfo => true
  | .iter => true
  | .itercap => true
  | .bytelen => true
  | .h => true
  | .cfgf => true
  | .desc _ => true
  | .qres _ => true
  | .buf _ => true

/-- A host read of a mapped word: its value in `busRead`, a free value where BUSY = 1 hides it (20_memory.md R50; log 7),
UNWRITTEN_READ for a BUF byte never written, and the record of a register word never written (10_state.md R21; log 2, 3).
Where BUSY = 1 hides a word never written, R50's draw and R21's UNWRITTEN_READ both speak of the read; it is a draw, which
neither stops nor is recorded (DEDUCED, log 21). -/
def hostRead (t : Target) (s : State) : Out :=
  if s.busy && !t.readableBusy then .next { s with busRead := some (Config.busyRead s.draws), draws := s.draws + 1 }
  else match s.wordAt t with
    | .error i => .fault (.unwrittenRead i)
    | .ok w => .next { s with busRead := some w, unwrittenRead := s.unwrittenRead || !s.wordWritten t }

/-- One host access (20_memory.md R45, R46): an access that is not performed sets BUSERR, drops the write and reads 0, and
sets no other bit, BUSY = 1 or not (log 20). -/
def hostAccess (a : Access) (s : State) : Out :=
  match a.target, a.op with
  | some t, .write w => .next (s.hostWrite t w)
  | some t, .read => hostRead t s
  | none, .write _ => .next { s with buserr := true }
  | none, .read => .next { s with buserr := true, busRead := some 0 }

end Sys2Proof.Machine
end

