-- ==== Sys2Proof/Machine/Codec.lean ====
section
/-! DEFINITION. The point codec family (43_codec.md R115 to R120). -/

namespace Sys2Proof.Machine

/-- A command that computed the byte string of its BUF range, or raised. -/
def State.finishBuf (off : Nat) (r : Except Cause (List Byte)) (s : State) : State :=
  match r with
  | .error c => s.raise c
  | .ok bs => (s.writeBuf off bs).complete

/-- PENC (43_codec.md R118). -/
def execPenc (q : QReg) (k : DescSel) (s : State) : Out :=
  if s.descOk k = false then .next (s.raise .descRange)
  else if s.cfgok = false then .next (s.raise .cfgNotOk)
  else if s.descLen k ≠ 1 + 2 * s.bl then .next (s.raise .length)
  else .next ((s.noteReads [.q q]).finishBuf (s.descOff k)
    (match s.ptRead q with
    | .error c => .error c
    | .ok .infinity => .error .identity
    | .ok (.affine x y) => .ok (0x04 :: (beBytes x s.bl ++ beBytes y s.bl))))

/-- PENCLE (43_codec.md R119): the identity encodes as zero bytes. -/
def execPencle (q : QReg) (k : DescSel) (s : State) : Out :=
  if s.descOk k = false then .next (s.raise .descRange)
  else if s.cfgok = false then .next (s.raise .cfgNotOk)
  else if s.descLen k ≠ 2 * s.bl then .next (s.raise .length)
  else .next ((s.noteReads [.q q]).finishBuf (s.descOff k)
    (match s.ptRead q with
    | .error c => .error c
    | .ok .infinity => .ok (leBytes 0 s.bl ++ leBytes 0 s.bl)
    | .ok (.affine x y) => .ok (leBytes x s.bl ++ leBytes y s.bl)))

/-- PDEC (43_codec.md R120). The length is checked before BUF is read (R116; log 18). -/
def execPdec (q : QReg) (k : DescSel) (s : State) : Out :=
  if s.descOk k = false then .next (s.raise .descRange)
  else if s.cfgok = false then .next (s.raise .cfgNotOk)
  else if s.descLen k ≠ 1 + 2 * s.bl then .next (s.raise .length)
  else match s.descBytes k with
    | .error i => .fault (.unwrittenRead i)
    | .ok bs => .next (s.finishQ q (s.decodePoint bs))

end Sys2Proof.Machine
end

