-- ==== Sys2Proof/Machine/Curve.lean ====
section
/-! DEFINITION. The curve family (42_curve.md R96 to R114). -/

namespace Sys2Proof.Machine

/-- PINF (42_curve.md R104). -/
def execPinf (qd : QReg) (s : State) : Out := .next (s.finishQ qd (.ok .infinity))

/-- PGEN (42_curve.md R105). -/
def execPgen (qd : QReg) (s : State) : Out :=
  if s.cfgok = false then .next (s.raise .cfgNotOk) else .next (s.finishQ qd (.ok s.gen))

/-- PSET (42_curve.md R106). -/
def execPset (qd : QReg) (ra rb : XReg) (s : State) : Out :=
  if s.cfgok = false then .next (s.raise .cfgNotOk)
  else if s.prmVal .p ≤ s.xVal ra ∨ s.prmVal .p ≤ s.xVal rb then
    .next ((s.noteReads [.x ra, .x rb]).raise .coordRange)
  else .next ((s.noteReads [.x ra, .x rb]).finishQ qd (.ok (.affine (s.xVal ra) (s.xVal rb))))

/-- PGETX (42_curve.md R107). -/
def execPgetx (rd : XReg) (qa : QReg) (s : State) : Out :=
  .next ((s.noteReads [.q qa]).finishX rd (.ok (if s.q[qa].inf then 0 else s.q[qa].x.val.toNat)))

/-- PGETY (42_curve.md R108). -/
def execPgety (rd : XReg) (qa : QReg) (s : State) : Out :=
  .next ((s.noteReads [.q qa]).finishX rd (.ok (if s.q[qa].inf then 0 else s.q[qa].y.val.toNat)))

/-- PMOV (42_curve.md R109): all three fields, raw. -/
def execPmov (qd qa : QReg) (s : State) : Out :=
  .next (((s.noteReads [.q qa]).setQ qd s.q[qa].x.val.toNat s.q[qa].y.val.toNat s.q[qa].inf).complete)

/-- PADD (42_curve.md R110): qa is checked first. -/
def execPadd (qd qa qb : QReg) (s : State) : Out :=
  if s.cfgok = false then .next (s.raise .cfgNotOk)
  else .next ((s.noteReads [.q qa, .q qb]).finishQ qd
    (match s.ptRead qa with
    | .error c => .error c
    | .ok p1 =>
      match s.ptRead qb with
      | .error c => .error c
      | .ok p2 => orNotInvertible (pointAdd s.curve p1 p2)))

/-- PDBL (42_curve.md R111). -/
def execPdbl (qd qa : QReg) (s : State) : Out :=
  if s.cfgok = false then .next (s.raise .cfgNotOk)
  else .next ((s.noteReads [.q qa]).finishQ qd
    (match s.ptRead qa with
    | .error c => .error c
    | .ok p1 => orNotInvertible (pointDouble s.curve p1)))

/-- PNEG (42_curve.md R112). -/
def execPneg (qd qa : QReg) (s : State) : Out :=
  if s.cfgok = false then .next (s.raise .cfgNotOk)
  else .next ((s.noteReads [.q qa]).finishQ qd
    (match s.ptRead qa with
    | .error c => .error c
    | .ok p1 => .ok (pointNeg s.curve p1)))

/-- The affine points a command refuses as off the curve (42_curve.md R113); the identity passes. -/
def State.offCurve (s : State) : Point → Bool
  | .infinity => false
  | .affine x y => !onCurve s.curve x y

/-- PMUL (42_curve.md R113). -/
def execPmul (qd qa : QReg) (rk : XReg) (s : State) : Out :=
  if s.cfgok = false then .next (s.raise .cfgNotOk)
  else .next ((s.noteReads [.q qa, .x rk]).finishQ qd
    (match s.ptRead qa with
    | .error c => .error c
    | .ok p1 =>
      if s.offCurve p1 then .error .notOnCurve
      else if s.prmVal .n ≤ s.xVal rk then .error .scalarRange
      else orNotInvertible (scalarMul s.curve p1 (s.xVal rk))))

/-- PCHK (42_curve.md R114): a check never raises on the point. -/
def execPchk (qa : QReg) (s : State) : Out :=
  if s.cfgok = false then .next (s.raise .cfgNotOk)
  else .next ((s.noteReads [.q qa]).finishResult
    (!s.q[qa].inf && decide (s.q[qa].x.val.toNat < s.prmVal .p) && decide (s.q[qa].y.val.toNat < s.prmVal .p)
      && onCurve s.curve s.q[qa].x.val.toNat s.q[qa].y.val.toNat))

end Sys2Proof.Machine
end

