-- ==== Sys2Proof/Machine/Edwards.lean ====
section
/-! DEFINITION. The Edwards family (45_edwards.md R132 to R138). -/

namespace Sys2Proof.Machine

/-- What ComputeST answers: s, t, and whether the calling command writes them to the memo (45_edwards.md R134). -/
structure Memo where
  s : Nat
  t : Nat
  write : Bool
deriving DecidableEq, Repr

/-- ComputeST (45_edwards.md R134). -/
def State.computeST (s : State) : Except Cause Memo :=
  let p := s.prmVal .p
  if s.edw = false then .error .noEdwards
  else if modOK p = false then .error .modulus
  else if s.stv then .ok ⟨s.prmVal .s, s.prmVal .t, false⟩
  else match inv 4 p, inv 6 p with
    | some i4, some i6 =>
      .ok ⟨modp (((s.prmVal .e : Int) - s.prmVal .d) * i4) p, modp (((s.prmVal .e : Int) + s.prmVal .d) * i6) p, true⟩
    | none, _ => .error .notInvertible
    | some _, none => .error .notInvertible

/-- The parameter registers ComputeST reads (45_edwards.md R132, R134): none where EDW = 0; then P; then the memo or E
and D. -/
def State.memoReads (s : State) : List RegName :=
  if s.edw = false then []
  else if modOK (s.prmVal .p) = false then [.prm .p]
  else if s.stv then [.prm .p, .prm .s, .prm .t]
  else [.prm .p, .prm .e, .prm .d]

/-- The memo write of a command that completes without error (45_edwards.md R134). -/
def State.writeMemo (m : Memo) (s : State) : State :=
  if m.write then { (s.setPrm .s (.written m.s)).setPrm .t (.written m.t) with stv := true } else s

/-- STCOMP (45_edwards.md R136). -/
def execStcomp (s : State) : Out :=
  match s.computeST with
  | .error c => .next ((s.noteReads s.memoReads).raise c)
  | .ok m => .next (((s.noteReads s.memoReads).writeMemo m).complete)

/-- What UV2XY and XY2UV share (45_edwards.md R133, R134, R137, R138): the memo, then the operand's checks, then the
conversion `f` of its coordinates, and on success the point and the memo together. -/
def convert (f : Nat → Memo → Nat → Nat → Except Cause Point) (qd qa : QReg) (s : State) : Out :=
  match s.computeST with
  | .error c => .next ((s.noteReads s.memoReads).raise c)
  | .ok m =>
    let s' := s.noteReads (.q qa :: s.memoReads)
    if s.q[qa].inf then .next (s'.raise .identity)
    else if s.prmVal .p ≤ s.q[qa].x.val.toNat ∨ s.prmVal .p ≤ s.q[qa].y.val.toNat then .next (s'.raise .coordRange)
    else match f (s.prmVal .p) m s.q[qa].x.val.toNat s.q[qa].y.val.toNat with
      | .error c => .next (s'.raise c)
      | .ok pt => .next (((s'.writeMemo m).setPoint qd pt).complete)

/-- The formulas of UV2XY (45_edwards.md R137). -/
def edwardsToWeierstrass (p : Nat) (m : Memo) (u v : Nat) : Except Cause Point :=
  let onev := modp (1 - (v : Int)) p
  if onev = 0 ∨ u = 0 then .error .notInvertible
  else
    let s1v := (m.s * (1 + v)) % p
    match inv onev p, inv (u * onev) p with
    | some i, some j => .ok (.affine ((m.t + s1v * i) % p) ((s1v * j) % p))
    | none, _ => .error .notInvertible
    | some _, none => .error .notInvertible

/-- The formulas of XY2UV (45_edwards.md R138). -/
def weierstrassToEdwards (p : Nat) (m : Memo) (x y : Nat) : Except Cause Point :=
  let xt := modp ((x : Int) - m.t) p
  if y = 0 ∨ (xt + m.s) % p = 0 then .error .notInvertible
  else match inv y p, inv ((xt : Int) + m.s) p with
    | some i, some j => .ok (.affine ((xt * i) % p) (modp (((xt : Int) - m.s) * j) p))
    | none, _ => .error .notInvertible
    | some _, none => .error .notInvertible

/-- UV2XY (45_edwards.md R137). -/
def execUv2xy (qd qa : QReg) (s : State) : Out := convert edwardsToWeierstrass qd qa s

/-- XY2UV (45_edwards.md R138). -/
def execXy2uv (qd qa : QReg) (s : State) : Out := convert weierstrassToEdwards qd qa s

end Sys2Proof.Machine
end

