-- ==== Sys2Proof/Machine/Field.lean ====
section
/-! DEFINITION. The field family (40_field.md R70 to R86). -/

namespace Sys2Proof.Machine

/-- What every field command does (40_field.md R71, R72, R74, R75): check the modulus, read the sources, write the residue
the command computes from the modulus, or raise what it raises. -/
def fieldCommand (m : Modulus) (rd : XReg) (srcs : List XReg) (f : Nat → Except Cause Nat) (s : State) : Out :=
  if modOK (s.prmVal (modReg m)) then
    .next ((s.noteReads (.prm (modReg m) :: srcs.map .x)).finishX rd (f (s.prmVal (modReg m))))
  else .next ((s.noteReads [.prm (modReg m)]).raise .modulus)

/-- MADD (40_field.md R78). -/
def execMadd (m : Modulus) (rd ra rb : XReg) (s : State) : Out :=
  fieldCommand m rd [ra, rb] (fun M => .ok ((s.xVal ra + s.xVal rb) % M)) s

/-- MSUB (40_field.md R79). -/
def execMsub (m : Modulus) (rd ra rb : XReg) (s : State) : Out :=
  fieldCommand m rd [ra, rb] (fun M => .ok (modp ((s.xVal ra : Int) - s.xVal rb) M)) s

/-- MMUL (40_field.md R80). -/
def execMmul (m : Modulus) (rd ra rb : XReg) (s : State) : Out :=
  fieldCommand m rd [ra, rb] (fun M => .ok ((s.xVal ra * s.xVal rb) % M)) s

/-- MSQR (40_field.md R81). -/
def execMsqr (m : Modulus) (rd ra : XReg) (s : State) : Out :=
  fieldCommand m rd [ra] (fun M => .ok ((s.xVal ra * s.xVal ra) % M)) s

/-- MNEG (40_field.md R82). -/
def execMneg (m : Modulus) (rd ra : XReg) (s : State) : Out :=
  fieldCommand m rd [ra] (fun M => .ok (modp (0 - (s.xVal ra : Int)) M)) s

/-- MSMUL (40_field.md R83). -/
def execMsmul (m : Modulus) (rd ra : XReg) (imm : BitVec 16) (s : State) : Out :=
  fieldCommand m rd [ra] (fun M => .ok ((s.xVal ra * immVal imm) % M)) s

/-- MINV (40_field.md R84). -/
def execMinv (m : Modulus) (rd ra : XReg) (s : State) : Out :=
  fieldCommand m rd [ra] (fun M => orNotInvertible (inv (s.xVal ra) M)) s

/-- MDIV (40_field.md R85). -/
def execMdiv (m : Modulus) (rd ra rb : XReg) (s : State) : Out :=
  fieldCommand m rd [ra, rb]
    (fun M => orNotInvertible ((inv (s.xVal rb) M).map (fun i => (s.xVal ra * i) % M))) s

/-- MRED (40_field.md R86). -/
def execMred (m : Modulus) (rd ra : XReg) (s : State) : Out :=
  fieldCommand m rd [ra] (fun M => .ok (s.xVal ra % M)) s

end Sys2Proof.Machine
end

