-- ==== Sys2Proof/Machine/RegMove.lean ====
section
/-! DEFINITION. The register, transfer and configuration family (41_regmove.md R87 to R95). -/

namespace Sys2Proof.Machine

/-- XMOV (41_regmove.md R87). -/
def execXmov (rd ra : XReg) (s : State) : Out :=
  .next ((s.noteReads [.x ra]).finishX rd (.ok (s.xVal ra)))

/-- XLDI (41_regmove.md R88). -/
def execXldi (rd : XReg) (imm : BitVec 16) (s : State) : Out :=
  .next (s.finishX rd (.ok (immVal imm)))

/-- XLDP (41_regmove.md R89, 30_encoding.md R61). The decoder has refused selectors 12 to 15 with PARAM_SEL; a term that
holds one raises the same (log 19). -/
def execXldp (rd : XReg) (sel : Fin 16) (s : State) : Out :=
  match selPrm sel with
  | some r => .next ((s.noteReads [.prm r]).finishX rd (.ok (s.prmVal r)))
  | none =>
    if sel.val = 10 then .next (s.finishX rd (.ok s.h.toNat))
    else if sel.val = 11 then .next (s.finishX rd (.ok s.bl))
    else .next (s.raise .paramSel)

/-- XCMP (41_regmove.md R90): the raw 512-bit values are compared. -/
def execXcmp (ra rb : XReg) (s : State) : Out :=
  .next ((s.noteReads [.x ra, .x rb]).finishResult (decide (s.xVal ra = s.xVal rb)))

/-- What LDBE and LDLE share (41_regmove.md R91, R92); `value` is BE or LE. -/
def loadBytes (value : List Byte → Nat) (r : XReg) (k : DescSel) (s : State) : Out :=
  if s.descOk k = false then .next (s.raise .descRange)
  else if 64 < s.descLen k then .next (s.raise .width)
  else match s.descBytes k with
    | .error i => .fault (.unwrittenRead i)
    | .ok bs => .next (s.finishX r (.ok (value bs)))

/-- LDBE (41_regmove.md R91). -/
def execLdbe (r : XReg) (k : DescSel) (s : State) : Out := loadBytes be r k s

/-- LDLE (41_regmove.md R92). -/
def execLdle (r : XReg) (k : DescSel) (s : State) : Out := loadBytes le r k s

/-- What STBE and STLE share (41_regmove.md R93, R94); `bytes` is BEbytes or LEbytes. -/
def storeBytes (bytes : Nat → Nat → List Byte) (r : XReg) (k : DescSel) (s : State) : Out :=
  if s.descOk k = false then .next (s.raise .descRange)
  else if 64 < s.descLen k then .next (s.raise .width)
  else if 2 ^ (8 * s.descLen k) ≤ s.xVal r then .next ((s.noteReads [.x r]).raise .valueWide)
  else .next (((s.noteReads [.x r]).writeBuf (s.descOff k) (bytes (s.xVal r) (s.descLen k))).complete)

/-- STBE (41_regmove.md R93). -/
def execStbe (r : XReg) (k : DescSel) (s : State) : Out := storeBytes beBytes r k s

/-- STLE (41_regmove.md R94). -/
def execStle (r : XReg) (k : DescSel) (s : State) : Out := storeBytes leBytes r k s

/-- The checks of CFGCHK in their order (41_regmove.md R95): none where every one of them passes. -/
def State.configCheck (s : State) : Option Cause :=
  let p := s.prmVal .p
  let n := s.prmVal .n
  if ¬ (p % 2 = 1 ∧ 5 ≤ p) then some .pInvalid
  else if s.bl ≠ (bitlen p + 7) / 8 then some .bytelenMismatch
  else if ¬ (n % 2 = 1 ∧ 3 ≤ n ∧ n < 2 ^ (8 * s.bl)) then some .nInvalid
  else if ¬ (s.prmVal .a < p ∧ s.prmVal .b < p ∧ s.prmVal .gx < p ∧ s.prmVal .gy < p) then some .coeffRange
  else if onCurve s.curve (s.prmVal .gx) (s.prmVal .gy) = false then some .gNotOnCurve
  else if s.h.toNat < 1 then some .cofactor
  else none

/-- The parameter registers CFGCHK reads (41_regmove.md R95). -/
def curveRegs : List RegName := [.prm .p, .prm .a, .prm .b, .prm .gx, .prm .gy, .prm .n]

/-- CFGCHK (41_regmove.md R95): CFGOK becomes 1 on success and 0 on failure (10_state.md R34). -/
def execCfgchk (s : State) : Out :=
  match s.configCheck with
  | none => .next { s.noteReads curveRegs with cfgok := true }.complete
  | some c => .next ({ s.noteReads curveRegs with cfgok := false }.raise c)

end Sys2Proof.Machine
end

