-- ==== Sys2Proof/Machine/Signature.lean ====
section
/-! DEFINITION. The signature family (44_signature.md R121 to R130): PUBK, SIGN with its retry loop over entropy answers,
and VERIFY. -/

namespace Sys2Proof.Machine

/-- PUBK (44_signature.md R125). -/
def execPubk (qd : QReg) (ra : XReg) (s : State) : Out :=
  if s.cfgok = false then .next (s.raise .cfgNotOk)
  else .next ((s.noteReads [.x ra]).finishQ qd
    (if ¬ (1 ≤ s.xVal ra ∧ s.xVal ra < s.prmVal .n) then .error .keyRange
    else orNotInvertible (scalarMul s.curve s.gen (s.xVal ra))))

/-- DigestScalar (44_signature.md R123). -/
def digestScalar (bs : List Byte) (n : Nat) : Nat := if reduceBytes bs n = 0 then 1 else reduceBytes bs n

/-- How one iteration of the signing loop ends. -/
inductive Attempt
  | retry
  | failed (c : Cause)
  | signature (r sg : Nat)
deriving DecidableEq, Repr

/-- The x coordinate of C reduced modulo n, 0 for the identity (44_signature.md R126 step c). -/
def coordMod (p : Point) (n : Nat) : Nat :=
  match p with
  | .infinity => 0
  | .affine x _ => x % n

/-- Steps b to e of the signing loop on the bytes of step a (44_signature.md R126, R127). -/
def attemptSign (c : Curve) (g : Point) (n e d : Nat) (bytes : List Byte) : Attempt :=
  let k := reduceBytes bytes n
  if k = 0 then .retry
  else match scalarMul c g k with
    | none => .failed .notInvertible
    | some p =>
      let r := coordMod p n
      if r = 0 then .retry
      else if ¬ (1 ≤ k ∧ k < n) then .retry
      else if (r * d + k * e) % n = 0 then .retry
      else .signature r ((r * d + k * e) % n)

/-- The head of iteration k.it + 1 where its bytes are drawn: the ITERCAP check, then the request on the entropy port
(44_signature.md R126 step 2, R128; 60_exceptions.md R149). -/
def State.drawNext (k : SignLoop) (s : State) : State :=
  if s.itercap ≠ 0 ∧ s.itercap.toNat < k.it + 1 then { s with iter := BitVec.ofNat 32 k.it }.raise .iterCap
  else { s with phase := .entropyWait { k with it := k.it + 1 }, requests := s.requests + 1 }

/-- Iteration k.it with its bytes in hand: the completion of SIGN, or the next iteration (44_signature.md R126, R128). -/
def State.iterate (k : SignLoop) (bytes : List Byte) (s : State) : State :=
  match attemptSign s.curve s.gen (s.prmVal .n) k.e k.d bytes with
  | .failed c => s.raise c
  | .retry => s.drawNext k
  | .signature r sg =>
    ({ s with iter := BitVec.ofNat 32 (min k.it 0xFFFFFFFF) }.writeBuf (s.descOff 2)
      (beBytes r s.bl ++ beBytes sg s.bl)).complete

/-- The loop from its start: the seed is the bytes of iteration 1 where it is given, and the cap, never below 1 where it
is set, cannot stop iteration 1 (44_signature.md R126 steps 2 and a). -/
def State.enterLoop (k : SignLoop) (s : State) : State :=
  match k.seed with
  | some bytes => s.iterate { k with it := 1 } bytes
  | none => s.drawNext k

/-- SIGN's checks and reads up to its loop (44_signature.md R126 to step 1; log 18 for the order of the BUF reads). -/
def startSign (ra : XReg) (s : State) : Out :=
  if s.descOk 0 = false ∨ s.descOk 1 = false ∨ s.descOk 2 = false then .next (s.raise .descRange)
  else if s.cfgok = false then .next (s.raise .cfgNotOk)
  else match s.descBytes 0 with
    | .error i => .fault (.unwrittenRead i)
    | .ok dig =>
      match s.descBytes 1 with
      | .error i => .fault (.unwrittenRead i)
      | .ok seed =>
        if s.descLen 1 ≠ 0 ∧ s.descLen 1 ≠ s.bl then .next (s.raise .length)
        else if s.descLen 2 ≠ 2 * s.bl then .next (s.raise .length)
        else if ¬ (1 ≤ s.xVal ra ∧ s.xVal ra < s.prmVal .n) then .next ((s.noteReads [.x ra]).raise .keyRange)
        else .next ((s.noteReads [.x ra]).enterLoop
          { e := digestScalar dig (s.prmVal .n)
            d := s.xVal ra
            seed := if s.descLen 1 = s.bl then some seed else none
            it := 0 })

/-- SIGN (44_signature.md R126): from its start, or on from the answer to the request of its current iteration. -/
def execSign (ra : XReg) (s : State) : Out :=
  match s.phase with
  | .entropyGot k bytes => .next (s.iterate k bytes)
  | .idle => startSign ra s
  | .accepted => startSign ra s
  | .entropyWait _ => startSign ra s

/-- VerifyCore (44_signature.md R129). A failing inverse, a failing decode and the identity give false, and so do r and s of 0 and
n, before anything is decoded (R131). -/
def State.verifyCore (s : State) (pk dig sig : List Byte) : Bool :=
  let n := s.prmVal .n
  let r := be (sig.take s.bl)
  let sg := be (sig.drop s.bl)
  if ¬ (0 < r ∧ r < n) ∨ ¬ (0 < sg ∧ sg < n) then false
  else match inv (digestScalar dig n) n with
    | none => false
    | some v =>
      let z1 := (sg * v) % n
      let z2 := (n - (r * v) % n) % n
      match s.decodePoint pk with
      | .error _ => false
      | .ok qp =>
        match scalarMul s.curve s.gen z1, scalarMul s.curve qp z2 with
        | some a, some b =>
          match pointAdd s.curve a b with
          | some (.affine x _) => decide (x % n = r)
          | some .infinity => false
          | none => false
        | some _, none => false
        | none, _ => false

/-- VERIFY (44_signature.md R129): all three strings are read first, and only the signature's length raises. -/
def execVerify (s : State) : Out :=
  if s.descOk 0 = false ∨ s.descOk 1 = false ∨ s.descOk 2 = false then .next (s.raise .descRange)
  else if s.cfgok = false then .next (s.raise .cfgNotOk)
  else match s.descBytes 0 with
    | .error i => .fault (.unwrittenRead i)
    | .ok pk =>
      match s.descBytes 1 with
      | .error i => .fault (.unwrittenRead i)
      | .ok dig =>
        match s.descBytes 2 with
        | .error i => .fault (.unwrittenRead i)
        | .ok sig =>
          if s.descLen 2 ≠ 2 * s.bl then .next (s.raise .length)
          else .next (s.finishResult (s.verifyCore pk dig sig))

end Sys2Proof.Machine
end

