-- ==== Sys2Proof/Machine/Dispatch.lean ====
section
/-! DEFINITION. One arm per command: the meaning of the command in flight. -/

namespace Sys2Proof.Machine

def exec (i : Instr) (s : State) : Host.Outcome State Fault Refusal :=
  match i with
  -- field family (40_field.md)
  | .madd m rd ra rb => Sys2Proof.Machine.execMadd m rd ra rb s
  | .msub m rd ra rb => Sys2Proof.Machine.execMsub m rd ra rb s
  | .mmul m rd ra rb => Sys2Proof.Machine.execMmul m rd ra rb s
  | .msqr m rd ra => Sys2Proof.Machine.execMsqr m rd ra s
  | .mneg m rd ra => Sys2Proof.Machine.execMneg m rd ra s
  | .msmul m rd ra imm => Sys2Proof.Machine.execMsmul m rd ra imm s
  | .minv m rd ra => Sys2Proof.Machine.execMinv m rd ra s
  | .mdiv m rd ra rb => Sys2Proof.Machine.execMdiv m rd ra rb s
  | .mred m rd ra => Sys2Proof.Machine.execMred m rd ra s
  -- register, transfer and configuration family (41_regmove.md)
  | .xmov rd ra => Sys2Proof.Machine.execXmov rd ra s
  | .xldi rd imm => Sys2Proof.Machine.execXldi rd imm s
  | .xldp rd sel => Sys2Proof.Machine.execXldp rd sel s
  | .xcmp ra rb => Sys2Proof.Machine.execXcmp ra rb s
  | .ldbe r k => Sys2Proof.Machine.execLdbe r k s
  | .ldle r k => Sys2Proof.Machine.execLdle r k s
  | .stbe r k => Sys2Proof.Machine.execStbe r k s
  | .stle r k => Sys2Proof.Machine.execStle r k s
  | .cfgchk => Sys2Proof.Machine.execCfgchk s
  -- curve family (42_curve.md)
  | .pinf qd => Sys2Proof.Machine.execPinf qd s
  | .pgen qd => Sys2Proof.Machine.execPgen qd s
  | .pset qd ra rb => Sys2Proof.Machine.execPset qd ra rb s
  | .pgetx rd qa => Sys2Proof.Machine.execPgetx rd qa s
  | .pgety rd qa => Sys2Proof.Machine.execPgety rd qa s
  | .pmov qd qa => Sys2Proof.Machine.execPmov qd qa s
  | .padd qd qa qb => Sys2Proof.Machine.execPadd qd qa qb s
  | .pdbl qd qa => Sys2Proof.Machine.execPdbl qd qa s
  | .pneg qd qa => Sys2Proof.Machine.execPneg qd qa s
  | .pmul qd qa rk => Sys2Proof.Machine.execPmul qd qa rk s
  | .pchk qa => Sys2Proof.Machine.execPchk qa s
  -- point codec family (43_codec.md)
  | .penc q k => Sys2Proof.Machine.execPenc q k s
  | .pencle q k => Sys2Proof.Machine.execPencle q k s
  | .pdec q k => Sys2Proof.Machine.execPdec q k s
  -- signature family (44_signature.md)
  | .pubk qd ra => Sys2Proof.Machine.execPubk qd ra s
  | .sign ra => Sys2Proof.Machine.execSign ra s
  | .verify => Sys2Proof.Machine.execVerify s
  -- Edwards family (45_edwards.md)
  | .stcomp => Sys2Proof.Machine.execStcomp s
  | .uv2xy qd qa => Sys2Proof.Machine.execUv2xy qd qa s
  | .xy2uv qd qa => Sys2Proof.Machine.execXy2uv qd qa s

end Sys2Proof.Machine
end

