-- ==== Sys2Proof/Machine/Agents.lean ====
section
/-! DEFINITION. What each agent does in one move: the core runs the command in flight, the entropy source answers, the
host accesses the window, the platform resets (10_state.md R15, 60_exceptions.md R141, R142, R149). -/

namespace Sys2Proof.Machine

/-- The core runs the command whose word is in CMD: a word that does not decode raises IllegalCommand (30_encoding.md R65,
R66), any other is executed (60_exceptions.md R141). -/
def runCommand (s : State) : Out :=
  match decode s.cmd with
  | .error c => .next (s.raise c)
  | .ok i => exec i s

/-- The core's next step: an idle core makes none (60_exceptions.md R156), a core that waits on the entropy port waits
(R149), and an accepted or answered command goes on. -/
def coreStep (s : State) : Out :=
  match s.phase with
  | .idle => .next s
  | .entropyWait _ => .next s
  | .accepted => runCommand s
  | .entropyGot _ _ => runCommand s

/-- The accepted command reads its operands, at the accept step (60_exceptions.md R142): it stops at a BUF byte never written
and records a register word never written, as the command's own rule reads them (10_state.md R21; log 2, 3), and computes and
writes nothing else. The core's step computes from the same values (log 5). -/
def State.readOperands (s : State) : Out :=
  match runCommand s with
  | .next t => .next { s with unwrittenRead := t.unwrittenRead }
  | .fault f => .fault f
  | .refused r => .refused r

/-- A host access, and where it makes BUSY rise, which only an accepted CMD write does (60_exceptions.md R141), the reads of
the command it starts (R142). -/
def hostMove (a : Access) (s : State) : Out :=
  match hostAccess a s with
  | .next t => if !s.busy && t.busy then t.readOperands else .next t
  | .fault f => .fault f
  | .refused r => .refused r

/-- The entropy source answers request number `req` with `bytes` (60_exceptions.md R149): taken where that request is the
one pending and the length is BL; a late answer, to a request withdrawn by a reset, is discarded (log 8). -/
def entropyAnswer (req : Nat) (bytes : List Byte) (s : State) : State :=
  match s.phase with
  | .entropyWait k => if req = s.requests ∧ bytes.length = s.bl then { s with phase := .entropyGot k bytes } else s
  | .idle => s
  | .accepted => s
  | .entropyGot _ _ => s

/-- One move of an agent. -/
def perform (e : Event) (s : State) : Out :=
  match e with
  | .host a => hostMove a s
  | .core => coreStep s
  | .entropy req bytes => .next (entropyAnswer req bytes s)
  | .hwReset => .next s.hardReset

end Sys2Proof.Machine
end

