-- ==== Sys2Proof/Machine/Step.lean ====
section
/-! DEFINITION. One step of the whole machine: the oldest move of the agenda, or the core's own step where the agenda is
empty (log 4), and the placing of a command word where the core takes its next command from (log 6). -/

namespace Sys2Proof.Machine

/-- One step: exactly one agent moves (10_state.md R15, 60_exceptions.md R146: "Host and core steps are interleaved one at
a time"). An empty agenda leaves the move to the core, which is the weak fairness of 70_reset_and_hazards.md R163. -/
def step (s : State) : Host.Outcome State Fault Refusal :=
  match s.agenda with
  | [] => coreStep s
  | e :: rest => perform e { s with agenda := rest }

/-- The state just after the CMD write of the word has been accepted (60_exceptions.md R141), with the core's step the next
move (log 6). A command is one 32-bit word, so `nbits` changes nothing: bits above it are zero. -/
def State.withFetchWord (s : State) (_nbits w : Nat) : State :=
  { s.accept (BitVec.ofNat 32 w) with agenda := .core :: s.agenda }

end Sys2Proof.Machine
end

