-- ==== Sys2Proof/Safety.lean ====
section
/-! DEFINITION. What a run and a safe run are: the spec's own step relation, which admits no read of a register word never
written, the end of a run, and the premise CURVE_PRIME. -/

namespace Sys2Proof.Machine

/-- The spec's own step (10_state.md R21): as `step`, but a step that reads a register word never written since the
hardware reset answers no state. `step` itself goes on there with the value the register holds (log 2). A host read that
BUSY = 1 hides is a draw in both, of a word never written too (log 21). -/
def strictStep (s : State) : Out :=
  match step s with
  | .next t => if t.unwrittenRead && !s.unwrittenRead then .fault .unwrittenRegister else .next t
  | .fault r => .fault r
  | .refused r => .refused r

/-- A state the spec's own step relation can be in: no register word has been read before it was written. -/
def State.admitted (s : State) : Bool := !s.unwrittenRead

/-- The first k steps from s all answer a next state, and none reads what was never written. -/
def safeRun : Nat → State → Prop
  | 0, s => s.unwrittenRead = false
  | k + 1, s => s.unwrittenRead = false ∧ ∃ t, step s = .next t ∧ safeRun k t

/-- The end of a run (70_reset_and_hazards.md R164): every move has been made and no command is in flight. R164 asks for the
completion step of the last accepted command and is silent on a command that a reset abandoned; the run is over then too
(DESIGN CHOICE, log 22). R164 counts host actions; a core move, an entropy answer or a platform reset still on the agenda
keeps the run going here (DESIGN CHOICE, log 23). -/
def State.ended (s : State) : Bool := s.agenda.isEmpty && !s.busy

/-- The premise CURVE_PRIME (10_state.md R17), the part of it that is about p and n: both are prime. -/
def State.primeModuli (s : State) : Prop := (s.prmVal .p).Prime ∧ (s.prmVal .n).Prime

/-- The point has order n: n is the least positive multiple that gives the identity (42_curve.md R101 for the multiples). -/
def hasOrder (c : Curve) (P : Point) (n : Nat) : Prop :=
  0 < n ∧ scalarMul c P n = some .infinity ∧ ∀ k, k < n → 0 < k → scalarMul c P k ≠ some .infinity

/-- The premise CURVE_PRIME, whole (10_state.md R17, 93_implementation_defined.md I1): p and n are prime, and G has order n.
No meaning assumes it. -/
def State.curvePrime (s : State) : Prop := s.primeModuli ∧ hasOrder s.curve s.gen (s.prmVal .n)

end Sys2Proof.Machine
end

