-- ==== Sys2Proof/Certificates/Slice0/Obligations.lean ====
section
/-! DEFINITION. The statements for the provers, and before them the words they are written in. Wherever a rule gives
numbers (offsets, codes, bit places, formulas) the words here repeat the rule's numbers and not the model's functions. -/

namespace Sys2Proof.Claims

open Sys2Proof.Machine

/-! ## Words of the statements -/

/-- The assembled word of 30_encoding.md R59, as a sum of its disjoint fields. -/
def cmdWord (op m f1 f2 f3 dsel : Nat) : Word :=
  BitVec.ofNat 32 (op * 2 ^ 26 + m * 2 ^ 25 + f1 * 2 ^ 20 + f2 * 2 ^ 16 + f3 * 2 ^ 12 + dsel)

/-- The assembled word of formats FI and XI (30_encoding.md R59). -/
def immWord (op m f1 f2 imm : Nat) : Word := BitVec.ofNat 32 (op * 2 ^ 26 + m * 2 ^ 25 + f1 * 2 ^ 20 + f2 * 2 ^ 16 + imm)

/-- The `m` bit (30_encoding.md R60). -/
def mBit (m : Modulus) : Nat := if m = .p then 0 else 1

/-- The modulus a field command works with (30_encoding.md R60). -/
def modulusVal (m : Modulus) (s : State) : Nat := if m = .p then s.prmVal .p else s.prmVal .n

/-- The register the `m` bit selects. -/
def modulusReg (m : Modulus) : RegName := if m = .p then .prm .p else .prm .n

/-- BE(s) as a sum (00_scope.md R12). -/
def beSum (bs : List Byte) : Nat := ∑ j ∈ Finset.range bs.length, (bs.getD j 0).toNat * 256 ^ (bs.length - 1 - j)

/-- LE(s) as a sum (00_scope.md R12). -/
def leSum (bs : List Byte) : Nat := ∑ j ∈ Finset.range bs.length, (bs.getD j 0).toNat * 256 ^ j

/-- Every word of these registers has been written since the hardware reset (10_state.md R21). -/
def readable (s : State) (l : List RegName) : Prop := ∀ r ∈ l, s.regWritten r = true

/-- The bytes of BUF from `off` on are `bs`, all of them written. -/
def bufHolds (s : State) (off : Nat) (bs : List Byte) : Prop := ∀ j, j < bs.length → s.buf.read (off + j) = bs[j]?

/-- OFF and LEN of a descriptor (10_state.md R32). -/
def off (s : State) (k : DescSel) : Nat := s.desc[k].off.toNat
def len (s : State) (k : DescSel) : Nat := s.desc[k].len.toNat

/-- OnCurve of 42_curve.md R98 on the parameter registers. -/
def onCurveAt (s : State) (x y : Nat) : Prop :=
  ((y : Int) ^ 2 - ((x : Int) ^ 3 + s.prmVal .a * x + s.prmVal .b)) % (s.prmVal .p : Int) = 0

/-- The event is the next move, and the state is otherwise s. -/
def facing (e : Event) (s : State) : State := { s with agenda := e :: s.agenda }

/-- A full-width aligned host access. -/
def hostW (o : Nat) (w : Word) : Event := .host ⟨o, 0xF, .write w⟩
def hostR (o : Nat) : Event := .host ⟨o, 0xF, .read⟩

/-- The command answers a next state, of which P holds. -/
def leads (i : Instr) (s : State) (P : State → Prop) : Prop := ∃ t, exec i s = .next t ∧ P t

/-- The move answers a next state, of which P holds. -/
def moves (e : Event) (s : State) (P : State → Prop) : Prop := ∃ t, step (facing e s) = .next t ∧ P t

/-! ## Frames -/

/-- What no command ever writes. -/
def inputsSame (s t : State) : Prop :=
  t.irqen = s.irqen ∧ t.cmd = s.cmd ∧ t.ovf = s.ovf ∧ t.werr = s.werr ∧ t.buserr = s.buserr ∧ t.itercap = s.itercap ∧
  t.bytelen = s.bytelen ∧ t.h = s.h ∧ t.edw = s.edw ∧ t.desc = s.desc ∧ t.agenda = s.agenda ∧ t.draws = s.draws ∧
  t.busRead = s.busRead

/-- The flags and counters some command writes, and the record of unwritten reads. -/
def flagsSame (s t : State) : Prop :=
  t.cfgok = s.cfgok ∧ t.result = s.result ∧ t.iter = s.iter ∧ t.stv = s.stv ∧ t.requests = s.requests ∧
  t.unwrittenRead = s.unwrittenRead

/-- The parameter, X and Q registers with their marks, and every byte of BUF. -/
def arraysSame (s t : State) : Prop := t.prm = s.prm ∧ t.x = s.x ∧ t.q = s.q ∧ ∀ a, t.buf.read a = s.buf.read a

/-- Completion without error (60_exceptions.md R142). -/
def completed (s t : State) : Prop :=
  t.phase = .idle ∧ t.done = true ∧ t.err = s.err ∧ t.errcode = s.errcode ∧ t.cause = s.cause

/-- Completion without error that changes nothing else. -/
def quiet (s t : State) : Prop := completed s t ∧ arraysSame s t ∧ flagsSame s t ∧ inputsSame s t

/-- Completion with the error of ERRCODE `cls` and CAUSE `cause`, and nothing else changed (60_exceptions.md R142, R143). -/
def failed (cls cause : Nat) (s t : State) : Prop :=
  (t.phase = .idle ∧ t.done = true ∧ t.err = true ∧ t.errcode.toNat = cls ∧ t.cause.toNat = cause) ∧
  arraysSame s t ∧ flagsSame s t ∧ inputsSame s t

/-- Completion that wrote v to X[rd] and nothing else. -/
def wroteX (rd : XReg) (v : Nat) (s t : State) : Prop :=
  completed s t ∧ t.xVal rd = v ∧ t.regWritten (.x rd) = true ∧ (∀ i : XReg, i ≠ rd → t.x[i] = s.x[i]) ∧ t.prm = s.prm ∧
  t.q = s.q ∧ (∀ a, t.buf.read a = s.buf.read a) ∧ flagsSame s t ∧ inputsSame s t

/-- Q[qd] holds (x, y, inf), all of it written, and every other point register is as before. -/
def holdsQ (qd : QReg) (x y : Nat) (inf : Bool) (s t : State) : Prop :=
  t.q[qd].x.val.toNat = x ∧ t.q[qd].y.val.toNat = y ∧ t.q[qd].inf = inf ∧ t.regWritten (.q qd) = true ∧
  ∀ j : QReg, j ≠ qd → t.q[j] = s.q[j]

/-- Completion that wrote (x, y, inf) to Q[qd] and nothing else. -/
def wroteQ (qd : QReg) (x y : Nat) (inf : Bool) (s t : State) : Prop :=
  completed s t ∧ holdsQ qd x y inf s t ∧ t.prm = s.prm ∧ t.x = s.x ∧ (∀ a, t.buf.read a = s.buf.read a) ∧
  flagsSame s t ∧ inputsSame s t

/-- Completion that wrote the point, the identity as (0, 0, 1) (42_curve.md R103), to Q[qd] and nothing else. -/
def wrotePoint (qd : QReg) (p : Point) (s t : State) : Prop :=
  match p with
  | .infinity => wroteQ qd 0 0 true s t
  | .affine x y => wroteQ qd x y false s t

/-- Completion that wrote the bytes to BUF[o ..] and nothing else. -/
def wroteBuf (o : Nat) (bs : List Byte) (s t : State) : Prop :=
  completed s t ∧ bufHolds t o bs ∧ (∀ a, ¬ (o ≤ a ∧ a < o + bs.length) → t.buf.read a = s.buf.read a) ∧
  t.prm = s.prm ∧ t.x = s.x ∧ t.q = s.q ∧ flagsSame s t ∧ inputsSame s t

/-- SIGN has asked for the bytes of iteration `it` and waits (60_exceptions.md R149): ENTW = 1, nothing is written. -/
def waitsFor (it e d : Nat) (s t : State) : Prop :=
  (∃ k : SignLoop, t.phase = .entropyWait k ∧ k.it = it ∧ k.e = e ∧ k.d = d) ∧ t.busy = true ∧ t.entw = true ∧
  t.done = s.done ∧ t.err = s.err ∧ t.errcode = s.errcode ∧ t.cause = s.cause ∧ t.requests = s.requests + 1 ∧
  arraysSame s t ∧ t.cfgok = s.cfgok ∧ t.result = s.result ∧ t.iter = s.iter ∧ t.stv = s.stv ∧
  t.unwrittenRead = s.unwrittenRead ∧ inputsSame s t

/-! ## Tables of the rules -/

/-- Opcode, format mask and the places of bit 3 of the point fields, row by row (30_encoding.md R59, R62). -/
def rows : List (Nat × Word × List Nat) :=
  [(0x01, 0xFD000FFF, []), (0x02, 0xFD000FFF, []), (0x03, 0xFD000FFF, []), (0x04, 0xFD00FFFF, []), (0x05, 0xFD00FFFF, []),
   (0x06, 0xFD000000, []), (0x07, 0xFD00FFFF, []), (0x08, 0xFD000FFF, []), (0x09, 0xFD00FFFF, [])] ++
  [(0x10, 0xFF00FFFF, []), (0x11, 0xFF0F0000, []), (0x12, 0xFF00FFFF, []), (0x13, 0xFFF00FFF, []), (0x14, 0xFF0FFFFC, []),
   (0x15, 0xFF0FFFFC, []), (0x16, 0xFF0FFFFC, []), (0x17, 0xFF0FFFFC, []), (0x18, 0xFFFFFFFF, [])] ++
  [(0x20, 0xFF8FFFFF, [23]), (0x21, 0xFF8FFFFF, [23]), (0x22, 0xFF800FFF, [23]), (0x23, 0xFF08FFFF, [19]),
   (0x24, 0xFF08FFFF, [19]), (0x25, 0xFF88FFFF, [23, 19]), (0x26, 0xFF888FFF, [23, 19, 15]), (0x27, 0xFF88FFFF, [23, 19]),
   (0x28, 0xFF88FFFF, [23, 19]), (0x29, 0xFF880FFF, [23, 19]), (0x2A, 0xFFF8FFFF, [19])] ++
  [(0x30, 0xFF8FFFFC, [23]), (0x31, 0xFF8FFFFC, [23]), (0x32, 0xFF8FFFFC, [23]), (0x38, 0xFF80FFFF, [23]),
   (0x39, 0xFFF0FFFF, []), (0x3A, 0xFFFFFFFF, []), (0x3C, 0xFFFFFFFF, []), (0x3D, 0xFF88FFFF, [23, 19]),
   (0x3E, 0xFF88FFFF, [23, 19])]

/-- (ERRCODE, CAUSE) of every row of 60_exceptions.md R145. -/
def errorTable : List (Nat × Nat) :=
  [(1, 0x01), (1, 0x02), (1, 0x03), (1, 0x04), (1, 0x05)] ++
  [(2, 0x10), (2, 0x11), (2, 0x12), (2, 0x13), (2, 0x14), (2, 0x15), (2, 0x16), (2, 0x17), (2, 0x18)] ++
  [(3, 0x20), (3, 0x21), (3, 0x22), (3, 0x23)] ++
  [(4, 0x30), (4, 0x31), (4, 0x32), (4, 0x33), (4, 0x34), (4, 0x35)] ++ [(5, 0x40)]

/-- The mapped offsets of the region map (20_memory.md R40, R43, R46). -/
def mapped (o : Nat) : Prop :=
  o % 4 = 0 ∧ (o < 0x28 ∨ (0x30 ≤ o ∧ o < 0x40) ∨ (0x100 ≤ o ∧ o < 0x380) ∨ (0x400 ≤ o ∧ o < 0x800) ∨
    (0x800 ≤ o ∧ o < 0x1000) ∨ (0x1000 ≤ o ∧ o < 0x1400))

/-- The offsets of the parameter registers (20_memory.md R40). -/
def prmOff : Prm → Nat
  | .p => 0x100
  | .a => 0x140
  | .b => 0x180
  | .gx => 0x1C0
  | .gy => 0x200
  | .n => 0x240
  | .e => 0x280
  | .d => 0x2C0
  | .s => 0x300
  | .t => 0x340

/-- The value of a one-bit field. -/
def bit (b : Bool) : Nat := if b = true then 1 else 0

/-- The STATUS word, field by field (10_state.md R25). -/
def statusVal (s : State) : Nat :=
  bit s.busy + 2 * bit s.done + 4 * bit s.err + 8 * bit s.cfgok + 16 * bit s.result + 32 * bit s.entw + 64 * bit s.ovf +
  128 * bit s.werr + 256 * bit s.buserr + 4096 * s.errcode.toNat

/-- The seven CSRs a host reads exactly while BUSY = 1, with their values (20_memory.md R50, 10_state.md section 3). -/
def exactReads (s : State) : List (Nat × Nat) :=
  [(0x00, 0x47430001), (0x04, 2 * bit s.irqen), (0x08, s.cmd.toNat), (0x0C, statusVal s), (0x10, s.cause.toNat),
   (0x14, s.iter.toNat), (0x18, s.itercap.toNat)]

/-- The commands that use descriptors, and which (30_encoding.md R67). -/
def descsOf : Instr → List DescSel
  | .ldbe _ k => [k]
  | .ldle _ k => [k]
  | .stbe _ k => [k]
  | .stle _ k => [k]
  | .penc _ k => [k]
  | .pencle _ k => [k]
  | .pdec _ k => [k]
  | .sign _ => [0, 1, 2]
  | .verify => [0, 1, 2]
  | _ => []

/-- Every descriptor the command uses is in range (30_encoding.md R66, R67). -/
def descsOk (i : Instr) (s : State) : Prop := ∀ k ∈ descsOf i, off s k + len s k ≤ 1024

/-- The commands that need CFGOK = 1 (42_curve.md R96, 43_codec.md R115, 44_signature.md R121). -/
def needsCfg : Instr → Bool
  | .pgen _ => true
  | .pset _ _ _ => true
  | .padd _ _ _ => true
  | .pdbl _ _ => true
  | .pneg _ _ => true
  | .pmul _ _ _ => true
  | .pchk _ => true
  | .penc _ _ => true
  | .pencle _ _ => true
  | .pdec _ _ => true
  | .pubk _ _ => true
  | .sign _ => true
  | .verify => true
  | _ => false

/-- The CAUSE of the first check of CFGCHK that fails (41_regmove.md R95), none where all pass. -/
def firstConfigFailure (s : State) (c : Option Nat) : Prop :=
  let p := s.prmVal .p
  let n := s.prmVal .n
  let bl := s.bytelen.toNat
  let c1 := p % 2 = 1 ∧ 5 ≤ p
  let c2 := bl = (Nat.size p + 7) / 8
  let c3 := n % 2 = 1 ∧ 3 ≤ n ∧ n < 2 ^ (8 * bl)
  let c4 := s.prmVal .a < p ∧ s.prmVal .b < p ∧ s.prmVal .gx < p ∧ s.prmVal .gy < p
  let c5 := onCurveAt s (s.prmVal .gx) (s.prmVal .gy)
  let c6 := 1 ≤ s.h.toNat
  (¬ c1 ∧ c = some 0x13) ∨ (c1 ∧ ¬ c2 ∧ c = some 0x14) ∨ (c1 ∧ c2 ∧ ¬ c3 ∧ c = some 0x15) ∨
  (c1 ∧ c2 ∧ c3 ∧ ¬ c4 ∧ c = some 0x16) ∨ (c1 ∧ c2 ∧ c3 ∧ c4 ∧ ¬ c5 ∧ c = some 0x17) ∨
  (c1 ∧ c2 ∧ c3 ∧ c4 ∧ c5 ∧ ¬ c6 ∧ c = some 0x18) ∨ (c1 ∧ c2 ∧ c3 ∧ c4 ∧ c5 ∧ c6 ∧ c = none)

/-- The registers CFGCHK reads (41_regmove.md R95). -/
def configRegs : List RegName := [.prm .p, .prm .a, .prm .b, .prm .gx, .prm .gy, .prm .n]

/-! ## Points, signatures, invariants -/

/-- The point has coordinates below p, or is the identity. -/
def canonicalPt (p : Nat) : Point → Prop
  | .infinity => True
  | .affine x y => x < p ∧ y < p

/-- The point satisfies the curve equation, or is the identity (42_curve.md R98). -/
def onCurvePt (c : Curve) : Point → Prop
  | .infinity => True
  | .affine x y => ((y : Int) ^ 2 - ((x : Int) ^ 3 + c.a * x + c.b)) % (c.p : Int) = 0

/-- The register is the identity or has canonical coordinates (42_curve.md R97). -/
def coordsOk (s : State) (j : QReg) : Prop :=
  s.q[j].inf = true ∨ (s.q[j].x.val.toNat < s.prmVal .p ∧ s.q[j].y.val.toNat < s.prmVal .p)

/-- (x3, y3) is the third point of the chord or tangent of slope l through (x1, y1), mirrored (42_curve.md R99, R100). -/
def chord (p : Nat) (l x1 y1 x2 : Nat) (x3 y3 : Nat) : Prop :=
  (x3 : Int) = ((l : Int) * l - x1 - x2) % (p : Int) ∧ (y3 : Int) = ((l : Int) * ((x1 : Int) - x3) - y1) % (p : Int)

/-- The tangent case of PointDouble, y not 0 and 2y invertible (42_curve.md R100). -/
def doublesTo (s : State) (x y x3 y3 : Nat) : Prop :=
  ∃ l, l < s.prmVal .p ∧ (l * (2 * y)) % s.prmVal .p = (3 * x * x + s.prmVal .a) % s.prmVal .p ∧
    chord (s.prmVal .p) l x y x x3 y3

/-- DigestScalar (44_signature.md R123). -/
def digestOf (bs : List Byte) (n : Nat) : Nat := if beSum bs % n = 0 then 1 else beSum bs % n

/-- Steps b to e of the signing loop give the signature (r, sg) (44_signature.md R126). -/
def signs (s : State) (e d : Nat) (bytes : List Byte) (r sg : Nat) : Prop :=
  let n := s.prmVal .n
  let k := beSum bytes % n
  k ≠ 0 ∧ (∃ x y, scalarMul s.curve s.gen k = some (.affine x y) ∧ r = x % n) ∧ r ≠ 0 ∧ sg = (r * d + k * e) % n ∧ sg ≠ 0

/-- Steps b to e of the signing loop meet a retry condition (44_signature.md R126). -/
def retries (s : State) (e d : Nat) (bytes : List Byte) : Prop :=
  let n := s.prmVal .n
  let k := beSum bytes % n
  k = 0 ∨ scalarMul s.curve s.gen k = some .infinity ∨
  ∃ x y, scalarMul s.curve s.gen k = some (.affine x y) ∧ (x % n = 0 ∨ (x % n * d + k * e) % n = 0)

/-- What iteration `it` on its bytes leads to: the signature in DESC2's range and ITER, or the entropy wait of the next
iteration, or the cap; and an error where the point arithmetic meets a failing inverse (44_signature.md R126, R128). -/
def iterationEnds (it e d : Nat) (bytes : List Byte) (i : Instr) (s : State) : Prop :=
  (∀ r sg, signs s e d bytes r sg → ∃ rb sb : List Byte,
    rb.length = s.bytelen.toNat ∧ sb.length = s.bytelen.toNat ∧ beSum rb = r ∧ beSum sb = sg ∧
    leads i s (wroteBuf (off s 2) (rb ++ sb) { s with iter := BitVec.ofNat 32 (min it 0xFFFFFFFF) })) ∧
  (retries s e d bytes → s.itercap = 0 ∨ it < s.itercap.toNat → leads i s (waitsFor (it + 1) e d s)) ∧
  (retries s e d bytes → s.itercap.toNat = it → leads i s (failed 5 0x40 { s with iter := s.itercap })) ∧
  (beSum bytes % s.prmVal .n ≠ 0 → scalarMul s.curve s.gen (beSum bytes % s.prmVal .n) = none → leads i s (failed 4 0x30 s))

/-- The two states hold the same configuration. -/
def sameConfig (s t : State) : Prop := t.prm = s.prm ∧ t.bytelen = s.bytelen ∧ t.h = s.h ∧ t.cfgok = s.cfgok

/-- The bytes of the range of descriptor k, in s, are `bs` in t. -/
def rangeHolds (s : State) (k : DescSel) (bs : List Byte) (t : State) : Prop := bs.length = len s k ∧ bufHolds t (off s k) bs

/-- PUBK on the key d and then PENC leave the bytes of the public key (44_signature.md R131, "after `PUBK q, x` and
`PENC q, dk`"). -/
def publishes (d : Nat) (pk : List Byte) (s : State) : Prop :=
  ∃ (q : QReg) (x : XReg) (k : DescSel) (t u : State), s.xVal x = d ∧ s.err = false ∧ exec (.pubk q x) s = .next t ∧
    exec (.penc q k) t = .next u ∧ u.err = false ∧ rangeHolds t k pk u

/-- SIGN, in the step that completes it without error, signs the digest with the key d: from its start, or on from an answer of
the entropy source (44_signature.md R126, R131). -/
def completesSign (d : Nat) (digest sig : List Byte) (s : State) : Prop :=
  ∃ (x : XReg) (t : State), exec (.sign x) s = .next t ∧ t.phase = .idle ∧ s.err = false ∧ t.err = false ∧
    rangeHolds s 2 sig t ∧
    ((s.phase = .accepted ∧ s.xVal x = d ∧ rangeHolds s 0 digest s) ∨
      ∃ k bytes, s.phase = .entropyGot k bytes ∧ k.d = d ∧ k.e = digestOf digest (s.prmVal .n))

/-- The signing loop of the command in flight, where SIGN is in its loop. -/
def signing (s : State) : Option SignLoop :=
  match s.phase with
  | .idle => none
  | .accepted => none
  | .entropyWait k => some k
  | .entropyGot k _ => some k

/-- No error recorded, or one row of the table of 60_exceptions.md R145. -/
def errorRecordOk (s : State) : Prop :=
  (s.err = false → s.errcode = 0 ∧ s.cause = 0) ∧ (s.err = true → (s.errcode.toNat, s.cause.toNat) ∈ errorTable)

/-- CFGOK = 1 only on a configuration that passes every check of CFGCHK (10_state.md R34, 41_regmove.md R95). -/
def configOk (s : State) : Prop := s.cfgok = true → firstConfigFailure s none

/-- BUF is in its canonical form, and a signing loop's output range is inside BUF. -/
def bufOk (s : State) : Prop :=
  s.buf.wf ∧ ∀ k, signing s = some k → off s 2 + len s 2 ≤ 1024 ∧ len s 2 = 2 * s.bytelen.toNat

/-- A command in flight has DONE = ERR = 0; a signing loop belongs to SIGN, under a checked configuration, with its key and
digest scalar in range, within its cap, and with BL bytes in hand once it is answered. -/
def flightOk (s : State) : Prop :=
  (s.busy = true → s.done = false ∧ s.err = false) ∧
  (∀ k, signing s = some k → (∃ ra, decode s.cmd = .ok (.sign ra)) ∧ s.cfgok = true ∧
    (1 ≤ k.d ∧ k.d < s.prmVal .n) ∧ (1 ≤ k.e ∧ k.e < s.prmVal .n) ∧ 1 ≤ k.it ∧
    (s.itercap ≠ 0 → k.it ≤ s.itercap.toNat)) ∧
  (∀ k bytes, s.phase = .entropyGot k bytes → bytes.length = s.bytelen.toNat)

/-- A written-out word j of a wide register: its 32 bits are w and it is marked, all else is as before (20_memory.md R41,
10_state.md R21). -/
def wordReplaced (old new : WideReg) (j : Fin 16) (w : Word) : Prop :=
  (∀ b, b < 512 → new.val.getLsbD b =
    if 32 * j.val ≤ b ∧ b < 32 * j.val + 32 then w.getLsbD (b - 32 * j.val) else old.val.getLsbD b) ∧
  ∀ k, k < 16 → new.marks.getLsbD k = (old.marks.getLsbD k || decide (k = j.val))

/-- The access is not a soft reset: not a performed write of CTRL with bit 0 set (70_reset_and_hazards.md R158). -/
def notSoftReset (a : Access) : Prop := ¬ (a.off = 4 ∧ a.lanes = 0xF ∧ ∃ w, a.op = .write w ∧ w.getLsbD 0 = true)

/-- The state after a soft reset, field by field (70_reset_and_hazards.md R157, R158). -/
def softResetOf (s : State) : State :=
  { s with
    irqen := false, cmd := 0, done := false, err := false, cfgok := false, result := false, ovf := false, werr := false,
    buserr := false, errcode := 0, cause := 0, iter := 0, itercap := 0, bytelen := 0, h := 0, edw := false, stv := false,
    desc := Vector.replicate 4 ⟨0, 0⟩, phase := .idle }

/-- What 70_reset_and_hazards.md R157 says of the state after a hardware reset. -/
def resetFacts (t : State) : Prop :=
  (t.irqen = false ∧ t.cmd = 0 ∧ statusVal t = 0 ∧ t.cause = 0 ∧ t.iter = 0 ∧ t.itercap = 0 ∧ t.bytelen = 0 ∧ t.h = 0) ∧
  (t.edw = false ∧ t.stv = false ∧ ∀ k : DescSel, off t k = 0 ∧ len t k = 0) ∧
  (∀ r : Prm, (t.prmReg r).marks = 0) ∧ (∀ i : XReg, t.x[i].marks = 0) ∧
  (∀ j : QReg, t.q[j].x.marks = 0 ∧ t.q[j].y.marks = 0 ∧ t.q[j].infMark = false) ∧ (∀ a, t.buf.read a = none) ∧
  t.phase = .idle ∧ t.irq = false

/-- What a host write of STATUS clears (10_state.md R25). -/
def w1c (w : Word) (s : State) : State :=
  { s with
    done := if w.getLsbD 1 = true then false else s.done
    err := if w.getLsbD 2 = true then false else s.err
    errcode := if w.getLsbD 2 = true then 0 else s.errcode
    cause := if w.getLsbD 2 = true then 0 else s.cause
    ovf := if w.getLsbD 6 = true then false else s.ovf
    werr := if w.getLsbD 7 = true then false else s.werr
    buserr := if w.getLsbD 8 = true then false else s.buserr }

/-- What the host cannot disturb while a command runs, and what the command's end leaves: everything but the host's own
flags, its interrupt enable and the model's record of reads and draws. -/
def sameOutcome (s t : State) : Prop :=
  (t.prm = s.prm ∧ t.x = s.x ∧ t.q = s.q ∧ t.buf = s.buf) ∧
  (t.phase = s.phase ∧ t.cmd = s.cmd ∧ t.done = s.done ∧ t.err = s.err ∧ t.errcode = s.errcode ∧ t.cause = s.cause) ∧
  (t.cfgok = s.cfgok ∧ t.result = s.result ∧ t.iter = s.iter ∧ t.stv = s.stv ∧ t.requests = s.requests) ∧
  (t.itercap = s.itercap ∧ t.bytelen = s.bytelen ∧ t.h = s.h ∧ t.edw = s.edw ∧ t.desc = s.desc) ∧
  t.unwrittenRead = s.unwrittenRead

/-- ModOK (40_field.md R71). -/
def goodModulus (M : Nat) : Prop := M % 2 = 1 ∧ 3 ≤ M

/-- The two ways a field command without an inverse ends (40_field.md R71, R72): MODULUS, or its value in X[rd]. -/
def fieldRule (i : Instr) (m : Modulus) (rd : XReg) (srcs : List RegName) (s : State) (v : Nat) : Prop :=
  (¬ goodModulus (modulusVal m s) → readable s [modulusReg m] → leads i s (failed 2 0x10 s)) ∧
  (goodModulus (modulusVal m s) → readable s (modulusReg m :: srcs) → leads i s (wroteX rd v s))

/-- The point a register holds (00_scope.md R13). -/
def pt (s : State) (j : QReg) : Point :=
  if s.q[j].inf = true then .infinity else .affine s.q[j].x.val.toNat s.q[j].y.val.toNat

/-- The registers an Edwards command reads for (s, t) (45_edwards.md R134). -/
def memoRegs (s : State) : List RegName :=
  if s.stv = true then [.prm .p, .prm .s, .prm .t] else [.prm .p, .prm .e, .prm .d]

/-- ComputeST answers (sv, tv): the stored memo, or the quotients of its two divisions (45_edwards.md R134). -/
def memoIs (s : State) (sv tv : Nat) : Prop :=
  (s.stv = true → sv = s.prmVal .s ∧ tv = s.prmVal .t) ∧
  (s.stv = false → sv < s.prmVal .p ∧ tv < s.prmVal .p ∧ Nat.gcd 6 (s.prmVal .p) = 1 ∧
    ((4 * sv : Int) - ((s.prmVal .e : Int) - s.prmVal .d)) % (s.prmVal .p : Int) = 0 ∧
    ((6 * tv : Int) - ((s.prmVal .e : Int) + s.prmVal .d)) % (s.prmVal .p : Int) = 0)

/-- The parameter registers after a successful Edwards command: the memo is written where STV was 0, and nothing else
(45_edwards.md R134, R135). -/
def memoWritten (s t : State) (sv tv : Nat) : Prop :=
  (s.stv = true → t.prm = s.prm ∧ t.stv = true) ∧
  (s.stv = false → t.prmVal .s = sv ∧ t.prmVal .t = tv ∧ t.regWritten (.prm .s) = true ∧ t.regWritten (.prm .t) = true ∧
    t.stv = true ∧ ∀ r : Prm, r ≠ .s → r ≠ .t → t.prmReg r = s.prmReg r)

/-- The frame of a successful Edwards command beside its point and the memo. -/
def edwardsFrame (s t : State) : Prop :=
  completed s t ∧ t.x = s.x ∧ (∀ a, t.buf.read a = s.buf.read a) ∧ t.cfgok = s.cfgok ∧ t.result = s.result ∧
  t.iter = s.iter ∧ t.requests = s.requests ∧ t.unwrittenRead = s.unwrittenRead ∧ inputsSame s t

/-- The errors an Edwards command meets before its operand (45_edwards.md R134). -/
def memoErrors (i : Instr) (s : State) : Prop :=
  (s.edw = false → leads i s (failed 2 0x12 s)) ∧
  (s.edw = true → ¬ goodModulus (s.prmVal .p) → readable s [.prm .p] → leads i s (failed 2 0x10 s)) ∧
  (s.edw = true → goodModulus (s.prmVal .p) → s.stv = false → Nat.gcd 6 (s.prmVal .p) ≠ 1 → readable s (memoRegs s) →
    leads i s (failed 4 0x30 s))

/-- The parameter register of an XLDP selector (30_encoding.md R61). -/
def selectedRegs : Nat → List RegName
  | 0 => [.prm .p]
  | 1 => [.prm .a]
  | 2 => [.prm .b]
  | 3 => [.prm .gx]
  | 4 => [.prm .gy]
  | 5 => [.prm .n]
  | 6 => [.prm .e]
  | 7 => [.prm .d]
  | 8 => [.prm .s]
  | 9 => [.prm .t]
  | _ => []

/-- What a field command reads: its modulus, and its sources where the modulus is good (40_field.md R71, R72). -/
def fieldReads (m : Modulus) (srcs : List RegName) (s : State) : List RegName :=
  if modulusVal m s % 2 = 1 ∧ 3 ≤ modulusVal m s then modulusReg m :: srcs else [modulusReg m]

/-- What ComputeST reads (45_edwards.md R134): nothing where EDW = 0, then P, then the memo or E and D. -/
def memoReadsOf (s : State) : List RegName :=
  if s.edw = false then [] else if s.prmVal .p % 2 = 1 ∧ 3 ≤ s.prmVal .p then memoRegs s else [.prm .p]

/-- What an Edwards conversion reads: what ComputeST reads, and its point where ComputeST does not raise. -/
def conversionReads (qa : QReg) (s : State) : List RegName :=
  if s.edw = true ∧ (s.prmVal .p % 2 = 1 ∧ 3 ≤ s.prmVal .p) ∧ (s.stv = true ∨ Nat.gcd 6 (s.prmVal .p) = 1) then
    .q qa :: memoReadsOf s
  else memoReadsOf s

/-- Every byte of the descriptor's range has been written. -/
def rangeWritten (s : State) (k : DescSel) : Bool := (List.range (len s k)).all (fun j => (s.buf.read (off s k + j)).isSome)

/-- The registers a command in flight reads in its next step: its sources, once the checks that its rule makes before it
reads them have passed (log 11). -/
def readsOf (i : Instr) (s : State) : List RegName :=
  match i with
  | .madd m _ ra rb => fieldReads m [.x ra, .x rb] s
  | .msub m _ ra rb => fieldReads m [.x ra, .x rb] s
  | .mmul m _ ra rb => fieldReads m [.x ra, .x rb] s
  | .msqr m _ ra => fieldReads m [.x ra] s
  | .mneg m _ ra => fieldReads m [.x ra] s
  | .msmul m _ ra _ => fieldReads m [.x ra] s
  | .minv m _ ra => fieldReads m [.x ra] s
  | .mdiv m _ ra rb => fieldReads m [.x ra, .x rb] s
  | .mred m _ ra => fieldReads m [.x ra] s
  | .xmov _ ra => [.x ra]
  | .xldi _ _ => []
  | .xldp _ sel => selectedRegs sel.val
  | .xcmp ra rb => [.x ra, .x rb]
  | .ldbe _ _ => []
  | .ldle _ _ => []
  | .stbe r k => if off s k + len s k ≤ 1024 ∧ len s k ≤ 64 then [.x r] else []
  | .stle r k => if off s k + len s k ≤ 1024 ∧ len s k ≤ 64 then [.x r] else []
  | .cfgchk => configRegs
  | .pinf _ => []
  | .pgen _ => []
  | .pset _ ra rb => if s.cfgok = true then [.x ra, .x rb] else []
  | .pgetx _ qa => [.q qa]
  | .pgety _ qa => [.q qa]
  | .pmov _ qa => [.q qa]
  | .padd _ qa qb => if s.cfgok = true then [.q qa, .q qb] else []
  | .pdbl _ qa => if s.cfgok = true then [.q qa] else []
  | .pneg _ qa => if s.cfgok = true then [.q qa] else []
  | .pmul _ qa r => if s.cfgok = true then [.q qa, .x r] else []
  | .pchk qa => if s.cfgok = true then [.q qa] else []
  | .penc q k =>
    if off s k + len s k ≤ 1024 ∧ s.cfgok = true ∧ len s k = 1 + 2 * s.bytelen.toNat then [.q q] else []
  | .pencle q k => if off s k + len s k ≤ 1024 ∧ s.cfgok = true ∧ len s k = 2 * s.bytelen.toNat then [.q q] else []
  | .pdec _ _ => []
  | .pubk _ ra => if s.cfgok = true then [.x ra] else []
  | .sign ra =>
    if s.phase = .accepted ∧ (off s 0 + len s 0 ≤ 1024 ∧ off s 1 + len s 1 ≤ 1024 ∧ off s 2 + len s 2 ≤ 1024) ∧
      s.cfgok = true ∧ rangeWritten s 0 = true ∧ rangeWritten s 1 = true ∧ (len s 1 = 0 ∨ len s 1 = s.bytelen.toNat) ∧
      len s 2 = 2 * s.bytelen.toNat then [.x ra] else []
  | .verify => []
  | .stcomp => memoReadsOf s
  | .uv2xy _ qa => conversionReads qa s
  | .xy2uv _ qa => conversionReads qa s

/-- The descriptors whose ranges of BUF a command in flight reads in its next step, once the checks that its rule makes before it
reads them have passed (log 18): LDBE and LDLE of at most 64 bytes (41_regmove.md R91, R92), PDEC (43_codec.md R116, R120), SIGN
from its start (44_signature.md R126) and VERIFY (R129). -/
def bytesOf (i : Instr) (s : State) : List DescSel :=
  match i with
  | .ldbe _ k => if off s k + len s k ≤ 1024 ∧ len s k ≤ 64 then [k] else []
  | .ldle _ k => if off s k + len s k ≤ 1024 ∧ len s k ≤ 64 then [k] else []
  | .pdec _ k =>
    if off s k + len s k ≤ 1024 ∧ s.cfgok = true ∧ len s k = 1 + 2 * s.bytelen.toNat then [k] else []
  | .sign _ =>
    if s.phase = .accepted ∧ (off s 0 + len s 0 ≤ 1024 ∧ off s 1 + len s 1 ≤ 1024 ∧ off s 2 + len s 2 ≤ 1024) ∧
      s.cfgok = true then [0, 1] else []
  | .verify =>
    if (off s 0 + len s 0 ≤ 1024 ∧ off s 1 + len s 1 ≤ 1024 ∧ off s 2 + len s 2 ≤ 1024) ∧ s.cfgok = true then [0, 1, 2]
    else []
  | _ => []

/-- Every register word and every BUF byte that the command reads has been written (10_state.md R21). -/
def operandsWritten (i : Instr) (s : State) : Prop :=
  readable s (readsOf i s) ∧ ∀ k ∈ bytesOf i s, rangeWritten s k = true

/-- The move stops at a byte never written, one of a range that the command reads (10_state.md R21). -/
def stopsAtUnwritten (e : Event) (i : Instr) (s s0 : State) : Prop :=
  ∃ a, step (facing e s0) = .fault (.unwrittenRead a) ∧ s.buf.read a = none ∧
    ∃ k ∈ bytesOf i s, off s k ≤ a ∧ a < off s k + len s k

/-- The accept step of 60_exceptions.md R141. -/
def accepted (w : Word) (s : State) : State := { s with cmd := w, done := false, phase := .accepted }

/-- The 32 bits of word j of a wide register are v's. -/
def holdsWord (r : WideReg) (j : Fin 16) (v : Word) : Prop := ∀ b, b < 32 → v.getLsbD b = r.val.getLsbD (32 * j.val + b)

/-- A host read at the offset returns a word with the property, and changes nothing. -/
def hostReads (o : Nat) (s : State) (P : Word → Prop) : Prop :=
  ∃ v, step (facing (hostR o) s) = .next { s with busRead := some v } ∧ P v

/-- A host read at the offset is a read of a word never written: the spec's step relation stops (10_state.md R21); the model's
own step returns the word the register holds and records the read (log 2). -/
def hostReadsUnwritten (o : Nat) (s : State) (P : Word → Prop) : Prop :=
  strictStep (facing (hostR o) s) = .fault .unwrittenRegister ∧
  ∃ v, step (facing (hostR o) s) = .next { s with busRead := some v, unwrittenRead := true } ∧ P v

/-- A command in flight that the core can go on with. -/
def runnable (s : State) : Prop := s.phase = .accepted ∨ ∃ k bytes, s.phase = .entropyGot k bytes

end Sys2Proof.Claims

open Sys2Proof Sys2Proof.Machine Sys2Proof.Claims

/-! ## Encoding -/

/-- Words written out from 30_encoding.md R59 and R62, one or more per family, and one word per decoding error. -/
def Obligations.WrittenOutWordsDecode : Prop :=
  decode 0x04312000 = .ok (.madd .p 3 1 2) ∧ decode 0x06312000 = .ok (.madd .n 3 1 2) ∧
  decode 0x1A120003 = .ok (.msmul .n 1 2 3) ∧ decode 0x4450FFFF = .ok (.xldi 5 0xFFFF) ∧
  decode 0x48050000 = .ok (.xldp 0 5) ∧ decode 0x5C200003 = .ok (.stle 2 3) ∧ decode 0x60000000 = .ok .cfgchk ∧
  decode 0x98201000 = .ok (.padd 2 0 1) ∧ decode 0xA4105000 = .ok (.pmul 1 0 5) ∧ decode 0xC0000002 = .ok (.penc 0 2) ∧
  decode 0xE0140000 = .ok (.pubk 1 4) ∧ decode 0xE4040000 = .ok (.sign 4) ∧ decode 0xF4100000 = .ok (.uv2xy 1 0) ∧
  decode 0x00000000 = .error .opcode ∧ decode 0x94880001 = .error .pointIndex ∧ decode 0x60000001 = .error .reservedBits ∧
  decode 0x480C0000 = .error .paramSel

/-- No bit of an encoding is dropped: every well-formed command, with every operand value, is read back from its word
(30_encoding.md R59, R60, R62). -/
def Obligations.DecodeOfEncode : Prop := ∀ i : Instr, i.wellFormed = true → decode (encode i) = .ok i

/-- 30_encoding.md R65: the decoder is total, and a word is exactly one command or illegal. -/
def Obligations.EveryWordIsOneCommandOrIllegal : Prop :=
  ∀ w : Word,
    (∃ i, decode w = .ok i ∧ i.wellFormed = true ∧ encode i = w ∧ ∀ j : Instr, j.wellFormed = true → encode j = w → j = i) ∨
    (∃ c, decode w = .error c ∧ classOf c = .illegalCommand ∧ ∀ j : Instr, j.wellFormed = true → encode j ≠ w)

/-- 30_encoding.md R63: an unassigned opcode does not decode and the command in flight ends with ERRCODE 1, CAUSE 0x01. -/
def Obligations.UnassignedOpcodesAreIllegal : Prop :=
  ∀ (w : Word) (s : State),
    w.toNat / 2 ^ 26 ∈ [0x00, 0x0A, 0x0B, 0x0C, 0x0D, 0x0E, 0x0F, 0x19, 0x1A, 0x1B, 0x1C, 0x1D, 0x1E, 0x1F, 0x2B, 0x2C,
      0x2D, 0x2E, 0x2F, 0x33, 0x34, 0x35, 0x36, 0x37, 0x3B, 0x3F] ∨ w = 0x00000000 →
    decode w = .error .opcode ∧
      (s.phase = .accepted → s.cmd = w → moves .core s (failed 1 0x01 s))

/-- 30_encoding.md R64: for an assigned opcode, bit 3 of a point field gives POINT_INDEX before any other check, and any
other unused bit gives RESERVED_BITS; a word that passes both is a command, but for the XLDP selectors of R61. -/
def Obligations.DecodeChecksInOrder : Prop :=
  ∀ (w : Word) (op : Nat) (mask : Word) (pts : List Nat), (op, mask, pts) ∈ rows → w.toNat / 2 ^ 26 = op →
    ((∃ b ∈ pts, w.getLsbD b = true) → decode w = .error .pointIndex) ∧
    ((∀ b ∈ pts, w.getLsbD b = false) → w &&& mask ≠ BitVec.ofNat 32 (op * 2 ^ 26) → decode w = .error .reservedBits) ∧
    ((∀ b ∈ pts, w.getLsbD b = false) → w &&& mask = BitVec.ofNat 32 (op * 2 ^ 26) →
      (op = 0x12 ∧ 11 < w.toNat / 2 ^ 16 % 16 → decode w = .error .paramSel) ∧
      (¬ (op = 0x12 ∧ 11 < w.toNat / 2 ^ 16 % 16) → ∃ i, decode w = .ok i)) ∧
    (∀ c s, decode w = .error c → s.phase = .accepted → s.cmd = w →
      ∃ t, step (facing .core s) = .next t ∧ t.phase = .idle ∧ t.err = true ∧ t.errcode = 1 ∧ t.cause = causeCode c)

/-! ## The step -/

/-- A step of the core runs the command in flight: exec of the decoded word, or IllegalCommand; an idle core and a core
that waits on the entropy port do not move (60_exceptions.md R141, R149, R156). With moves on the agenda the core's turn
comes when it is the oldest; with none it is the core's. The agenda is the model's (log 4). -/
def Obligations.StepRunsTheCommandInFlight : Prop :=
  ∀ s : State,
    (runnable s → ∀ i, decode s.cmd = .ok i → step (facing .core s) = exec i s ∧ (s.agenda = [] → step s = exec i s)) ∧
    (runnable s → ∀ c, decode s.cmd = .error c →
      ∃ code : Nat, (c, code) ∈ [(Cause.opcode, 1), (.reservedBits, 2), (.pointIndex, 3), (.paramSel, 4)] ∧
        moves .core s (failed 1 code s) ∧ (s.agenda = [] → ∃ t, step s = .next t ∧ failed 1 code s t)) ∧
    (¬ runnable s → step (facing .core s) = .next s ∧ (s.agenda = [] → step s = .next s))

/-- The next step after a command word is placed runs exactly the command the word encodes, in the state the accept step
leaves (60_exceptions.md R141). The placing is the model's (log 6). -/
def Obligations.FetchWordRunsTheEncodedCommand : Prop :=
  ∀ (i : Instr) (s : State) (nbits : Nat), i.wellFormed = true →
    step (s.withFetchWord nbits (encode i).toNat) = exec i { s with cmd := encode i, done := false, phase := .accepted }

/-- 60_exceptions.md R141, its accept step, R142's reads in it, and R148: a CMD write is accepted or dropped with OVF. The
accepted command reads its operands at once: a BUF byte never written stops it there and a register word never written is
recorded, or stops the spec's step relation (10_state.md R21; log 2, 3, 5). A word that is no command reads nothing. The
interrupt output is low after an acceptance. -/
def Obligations.CommandIssue : Prop :=
  ∀ (s : State) (w : Word),
    (s.busy = true ∨ s.err = true → step (facing (hostW 0x08 w) s) = .next { s with ovf := true }) ∧
    (s.busy = false → s.err = false →
      ((accepted w s).busy = true ∧ (accepted w s).irq = false) ∧
      (∀ c, decode w = .error c → step (facing (hostW 0x08 w) s) = .next (accepted w s)) ∧
      (∀ i, decode w = .ok i →
        (operandsWritten i (accepted w s) → step (facing (hostW 0x08 w) s) = .next (accepted w s)) ∧
        ((∀ k ∈ bytesOf i (accepted w s), rangeWritten s k = true) → ¬ readable s (readsOf i (accepted w s)) →
          step (facing (hostW 0x08 w) s) = .next { accepted w s with unwrittenRead := true } ∧
          (s.unwrittenRead = false → strictStep (facing (hostW 0x08 w) s) = .fault .unwrittenRegister)) ∧
        ((∃ k ∈ bytesOf i (accepted w s), rangeWritten s k = false) →
          stopsAtUnwritten (hostW 0x08 w) i (accepted w s) s)))

/-- 20_memory.md R50: every host access while BUSY = 1, read-only registers and reserved words of a point block among "any
other host write to a mapped address" (log 9, 14), and a hidden read of a word never written a draw (log 21). -/
def Obligations.BusyWindow : Prop :=
  ∀ s : State, s.busy = true →
    (∀ w : Word, step (facing (hostW 0x04 w) s) =
      .next (if w.getLsbD 0 = true then softResetOf s else { s with irqen := w.getLsbD 1 })) ∧
    (∀ w, step (facing (hostW 0x0C w) s) = .next (w1c w s)) ∧
    (∀ w, step (facing (hostW 0x08 w) s) = .next { s with ovf := true }) ∧
    (∀ o w, mapped o → o ≠ 0x04 → o ≠ 0x08 → o ≠ 0x0C → step (facing (hostW o w) s) = .next { s with werr := true }) ∧
    (∀ o v, (o, v) ∈ exactReads s → step (facing (hostR o) s) = .next { s with busRead := some (BitVec.ofNat 32 v) }) ∧
    (∀ o, mapped o → (∀ v, (o, v) ∉ exactReads s) →
      ∃ v, step (facing (hostR o) s) = .next { s with busRead := some v, draws := s.draws + 1 })

/-- While a command is in flight no host access but a soft reset changes an operand, a result or the command itself
(20_memory.md R48, R50, R51). -/
def Obligations.OperandsStableWhileBusy : Prop :=
  ∀ (s t : State) (a : Access), s.busy = true → notSoftReset a → step (facing (.host a) s) = .next t →
    t.prm = s.prm ∧ t.x = s.x ∧ t.q = s.q ∧ t.buf = s.buf ∧ t.desc = s.desc ∧ t.bytelen = s.bytelen ∧ t.h = s.h ∧
    t.edw = s.edw ∧ t.stv = s.stv ∧ t.itercap = s.itercap ∧ t.cfgok = s.cfgok ∧ t.result = s.result ∧ t.iter = s.iter ∧
    t.phase = s.phase ∧ t.cmd = s.cmd ∧ t.requests = s.requests

/-- 20_memory.md R51, 60_exceptions.md R142: a host access between the accept step and a core or entropy move does not
change what that move leads to. The premises are invariants (the statements StepKeepsFlight and StepKeepsErrorRecord). That a
hidden read of a word never written is not recorded is the model's reading (log 21). -/
def Obligations.HostAccessesDoNotChangeOutcomes : Prop :=
  ∀ (s s1 : State) (a : Access) (e : Event), s.busy = true → flightOk s → errorRecordOk s → notSoftReset a →
    step (facing (.host a) s) = .next s1 → (e = .core ∨ ∃ req bytes, e = .entropy req bytes) →
    (∀ t, step (facing e s) = .next t → ∃ t1, step (facing e s1) = .next t1 ∧ sameOutcome t t1) ∧
    (∀ f, step (facing e s) = .fault f → step (facing e s1) = .fault f)

/-- 70_reset_and_hazards.md R158: a CTRL write with bit 0 set resets every CSR and abandons the command in flight, in every
state, and lowers the interrupt output (60_exceptions.md R148); an answer of the entropy source that comes after it changes
nothing. -/
def Obligations.SoftReset : Prop :=
  ∀ (s : State) (w : Word), w.getLsbD 0 = true →
    step (facing (hostW 0x04 w) s) = .next (softResetOf s) ∧ (softResetOf s).irq = false ∧
    ∀ req bytes, step (facing (.entropy req bytes) (softResetOf s)) = .next (softResetOf s)

/-- 10_state.md R25, 60_exceptions.md R147 and R148: a STATUS write clears its W1C bits and nothing else, ERR with the whole
error record; a 1 in the place of DONE lowers the interrupt output, a 0 leaves it; after ERR is acknowledged an idle CORE
accepts a command again. -/
def Obligations.StatusAcknowledge : Prop :=
  ∀ (s : State) (w : Word),
    step (facing (hostW 0x0C w) s) = .next (w1c w s) ∧
    (w.getLsbD 1 = true → (w1c w s).irq = false) ∧ (w.getLsbD 1 = false → (w1c w s).irq = s.irq) ∧
    (w.getLsbD 2 = true → s.busy = false → ∀ c : Word, (∀ i, decode c = .ok i → operandsWritten i (accepted c (w1c w s))) →
      step (facing (hostW 0x08 c) (w1c w s)) = .next (accepted c (w1c w s)))

/-- 20_memory.md R45, R46: an access that is misaligned, partial or unmapped is not performed: the write is dropped, the read
returns 0, BUSERR rises and nothing else changes; any other access does not raise it. That this holds for a misaligned or
partial access of a mapped register while BUSY = 1 too is the model's reading (log 20). -/
def Obligations.BadAccesses : Prop :=
  ∀ (s : State) (a : Access),
    (¬ (mapped a.off ∧ a.lanes = 0xF) →
      (∀ w, a.op = .write w → step (facing (.host a) s) = .next { s with buserr := true }) ∧
      (a.op = .read → step (facing (.host a) s) = .next { s with buserr := true, busRead := some 0 })) ∧
    (mapped a.off ∧ a.lanes = 0xF → ∀ t, step (facing (.host a) s) = .next t → t.buserr = true → s.buserr = true)

/-! ## Registers, BUF and flags through the window -/

/-- 20_memory.md R41 for every wide register at its offset of R40: a word write replaces those 32 bits, marks that word and
changes nothing else but what R49 lists for a parameter word (CFGOK, STV); a read of a written word returns its 32 bits and
changes nothing. Reads of words never written are the statement UnwrittenReads. -/
def Obligations.WideRegisterWords : Prop :=
  ∀ (s : State) (j : Fin 16) (w : Word), s.busy = false →
    (∀ r : Prm,
      moves (hostW (prmOff r + 4 * j) w) s (fun t => wordReplaced (s.prmReg r) (t.prmReg r) j w ∧
        (∀ r', r' ≠ r → t.prmReg r' = s.prmReg r') ∧
        t.cfgok = (if r ∈ [Prm.p, .a, .b, .gx, .gy, .n] then false else s.cfgok) ∧
        t.stv = (if r ∈ [Prm.p, .e, .d] then false else s.stv) ∧
        t = { s with prm := t.prm, cfgok := t.cfgok, stv := t.stv }) ∧
      ((s.prmReg r).marks.getLsbD j = true → hostReads (prmOff r + 4 * j) s (holdsWord (s.prmReg r) j))) ∧
    (∀ i : XReg,
      moves (hostW (0x400 + 0x40 * i + 4 * j) w) s (fun t => wordReplaced s.x[i] t.x[i] j w ∧
        (∀ i' : XReg, i' ≠ i → t.x[i'] = s.x[i']) ∧ t = { s with x := t.x }) ∧
      (s.x[i].marks.getLsbD j = true → hostReads (0x400 + 0x40 * i + 4 * j) s (holdsWord s.x[i] j))) ∧
    (∀ q : QReg,
      moves (hostW (0x800 + 0x100 * q + 4 * j) w) s (fun t => wordReplaced s.q[q].x t.q[q].x j w ∧
        t.q[q].y = s.q[q].y ∧ t.q[q].inf = s.q[q].inf ∧ t.q[q].infMark = s.q[q].infMark ∧
        (∀ q' : QReg, q' ≠ q → t.q[q'] = s.q[q']) ∧ t = { s with q := t.q }) ∧
      moves (hostW (0x840 + 0x100 * q + 4 * j) w) s (fun t => wordReplaced s.q[q].y t.q[q].y j w ∧
        t.q[q].x = s.q[q].x ∧ t.q[q].inf = s.q[q].inf ∧ t.q[q].infMark = s.q[q].infMark ∧
        (∀ q' : QReg, q' ≠ q → t.q[q'] = s.q[q']) ∧ t = { s with q := t.q }) ∧
      (s.q[q].x.marks.getLsbD j = true → hostReads (0x800 + 0x100 * q + 4 * j) s (holdsWord s.q[q].x j)) ∧
      (s.q[q].y.marks.getLsbD j = true → hostReads (0x840 + 0x100 * q + 4 * j) s (holdsWord s.q[q].y j)))

/-- 20_memory.md R42: the byte lanes of a BUF word, written and read. -/
def Obligations.BufWordLanes : Prop :=
  ∀ (s : State) (k : Fin 256) (w : Word), s.busy = false →
    moves (hostW (0x1000 + 4 * k) w) s (fun t =>
      t.buf.read (4 * k) = some (w.extractLsb' 0 8) ∧ t.buf.read (4 * k + 1) = some (w.extractLsb' 8 8) ∧
      t.buf.read (4 * k + 2) = some (w.extractLsb' 16 8) ∧ t.buf.read (4 * k + 3) = some (w.extractLsb' 24 8) ∧
      (∀ a, ¬ (4 * k.val ≤ a ∧ a < 4 * k.val + 4) → t.buf.read a = s.buf.read a) ∧
      t = { s with buf := t.buf }) ∧
    (∀ b0 b1 b2 b3 : Byte, bufHolds s (4 * k) [b0, b1, b2, b3] →
      step (facing (hostR (0x1000 + 4 * k)) s) = .next { s with busRead := some (b3 ++ b2 ++ b1 ++ b0) })

/-- 20_memory.md R43: the INF word and the reserved words of a point register's block. A read of an INF word never written is
the statement UnwrittenReads. -/
def Obligations.InfWordAndReservedWords : Prop :=
  ∀ (s : State) (q : QReg) (w : Word), s.busy = false →
    moves (hostW (0x880 + 0x100 * q) w) s (fun t => t.q[q].inf = w.getLsbD 0 ∧ t.q[q].infMark = true ∧
      t.q[q].x = s.q[q].x ∧ t.q[q].y = s.q[q].y ∧ (∀ q' : QReg, q' ≠ q → t.q[q'] = s.q[q']) ∧
      t = { s with q := t.q }) ∧
    (s.q[q].infMark = true → hostReads (0x880 + 0x100 * q) s (fun v => v = BitVec.ofNat 32 (bit s.q[q].inf))) ∧
    (∀ o, 0x84 ≤ o → o < 0x100 → o % 4 = 0 →
      step (facing (hostW (0x800 + 0x100 * q + o) w) s) = .next s ∧
      step (facing (hostR (0x800 + 0x100 * q + o)) s) = .next { s with busRead := some 0 })

/-- The control and status registers of 10_state.md R22 to R32 while BUSY = 0: what each write does, RO and reserved bits
included (20_memory.md R47), and what each read returns. -/
def Obligations.ControlRegisterAccess : Prop :=
  ∀ (s : State) (w : Word), s.busy = false →
    (∀ o ∈ [0x00, 0x10, 0x14], step (facing (hostW o w) s) = .next s) ∧
    (w.getLsbD 0 = false → step (facing (hostW 0x04 w) s) = .next { s with irqen := w.getLsbD 1 }) ∧
    step (facing (hostW 0x18 w) s) = .next { s with itercap := w } ∧
    step (facing (hostW 0x1C w) s) = .next { s with bytelen := BitVec.ofNat 8 w.toNat, cfgok := false } ∧
    step (facing (hostW 0x20 w) s) = .next { s with h := w, cfgok := false } ∧
    (∀ k : DescSel, moves (hostW (0x30 + 4 * k) w) s (fun t => off t k = w.toNat % 1024 ∧ len t k = w.toNat / 2 ^ 16 % 2048 ∧
      (∀ k' : DescSel, k' ≠ k → t.desc[k'] = s.desc[k']) ∧ t = { s with desc := t.desc })) ∧
    (∀ o v, (o, v) ∈ exactReads s ++ [(0x1C, s.bytelen.toNat), (0x20, s.h.toNat), (0x24, bit s.edw + 2 * bit s.stv)] →
      step (facing (hostR o) s) = .next { s with busRead := some (BitVec.ofNat 32 v) }) ∧
    (∀ k : DescSel, step (facing (hostR (0x30 + 4 * k)) s) =
      .next { s with busRead := some (BitVec.ofNat 32 (off s k + 2 ^ 16 * len s k)) })

/-- 10_state.md R34: what sets CFGOK and what clears it. CFGCHK over registers never written is the statement
UnwrittenReads. -/
def Obligations.CfgokRule : Prop :=
  (∀ s t e, step (facing e s) = .next t → t.cfgok = true → s.cfgok = true ∨
    (e = .core ∧ decode s.cmd = .ok .cfgchk ∧ firstConfigFailure s none)) ∧
  (∀ s, readable s configRegs → firstConfigFailure s none → leads .cfgchk s (fun t => t.cfgok = true)) ∧
  (∀ s c, readable s configRegs → firstConfigFailure s (some c) → leads .cfgchk s (fun t => t.cfgok = false)) ∧
  (∀ s o w, (o % 4 = 0 ∧ 0x100 ≤ o ∧ o < 0x280) ∨ o = 0x1C ∨ o = 0x20 →
    (s.busy = false → moves (hostW o w) s (fun t => t.cfgok = false)) ∧
    (s.busy = true → moves (hostW o w) s (fun t => t.cfgok = s.cfgok)))

/-- 10_state.md R35: what a host write does to EDW and STV. -/
def Obligations.StvRule : Prop :=
  ∀ (s : State) (w : Word), s.busy = false →
    (∀ o, o % 4 = 0 → (0x100 ≤ o ∧ o < 0x140) ∨ (0x280 ≤ o ∧ o < 0x300) →
      moves (hostW o w) s (fun t => t.stv = false ∧ t.edw = s.edw)) ∧
    step (facing (hostW 0x24 w) s) = .next { s with edw := w.getLsbD 0, stv := w.getLsbD 1 } ∧
    (∀ o, o % 4 = 0 → 0x300 ≤ o → o < 0x380 → moves (hostW o w) s (fun t => t.stv = s.stv ∧ t.edw = s.edw))

/-- 20_memory.md R49: a host read changes nothing but its own outcome (BUSERR of a read that is not performed, and the
model's record of what was read), and a second read of the same word returns the same. -/
def Obligations.HostReadsHaveNoSideEffects : Prop :=
  ∀ (s t : State) (a : Access), a.op = .read → step (facing (.host a) s) = .next t →
    t = { s with buserr := t.buserr, busRead := t.busRead, draws := t.draws, unwrittenRead := t.unwrittenRead } ∧
    (mapped a.off → a.lanes = 0xF → t.buserr = s.buserr) ∧
    (s.busy = false → moves (.host a) t (fun t' => t'.busRead = t.busRead))

/-! ## Reset and whole-machine rules -/

/-- 70_reset_and_hazards.md R157: the reset state, and the state any state goes to at a hardware reset. -/
def Obligations.ResetState : Prop :=
  resetFacts State.reset ∧ (∀ s, moves .hwReset s resetFacts) ∧
  ∀ s, resetFacts s → moves (hostR 0x00) s (fun t => t.busRead = some 0x47430001)

/-- The invariants hold at reset. -/
def Obligations.ResetHasInvariants : Prop :=
  errorRecordOk State.reset ∧ configOk State.reset ∧ bufOk State.reset ∧ flightOk State.reset

/-- 60_exceptions.md R141, R142, R148: a command that answers a next state has completed, with DONE and the interrupt
output raised where it is enabled, or is SIGN waiting on the entropy port. In every state the interrupt output is DONE and
IRQEN; it rises in a step only at a command's completion, where it is enabled, or where CTRL enables it over DONE = 1: OVF, WERR,
BUSERR and ENTW raise none. -/
def Obligations.CommandsEndDoneOrWaiting : Prop :=
  (∀ (i : Instr) (s t : State), exec i s = .next t →
    (t.phase = .idle ∧ t.busy = false ∧ t.entw = false ∧ t.done = true ∧ t.irq = s.irqen ∧ t.requests = s.requests) ∨
    (∃ ra k, i = .sign ra ∧ t.phase = .entropyWait k ∧ t.busy = true ∧ t.entw = true ∧ t.done = s.done ∧
      t.requests = s.requests + 1)) ∧
  (∀ s : State, s.irq = true ↔ s.done = true ∧ s.irqen = true) ∧
  (∀ (s t : State) (e : Event), step (facing e s) = .next t → s.irq = false → t.irq = true →
    (e = .core ∧ runnable s ∧ t.phase = .idle ∧ t.done = true ∧ s.irqen = true) ∨
    (∃ w, e = hostW 0x04 w ∧ w.getLsbD 0 = false ∧ w.getLsbD 1 = true ∧ s.done = true))

/-- 60_exceptions.md R142, R143: errors are precise. A command that ends with an error leaves everything as it was but for
the record, CFGOK of a failing CFGCHK and ITER of a capped SIGN. -/
def Obligations.PreciseErrors : Prop :=
  ∀ (i : Instr) (s t : State), exec i s = .next t → s.err = false → t.err = true →
    (t.phase = .idle ∧ t.done = true ∧ (t.errcode.toNat, t.cause.toNat) ∈ errorTable) ∧ arraysSame s t ∧
    t.result = s.result ∧ t.stv = s.stv ∧ t.requests = s.requests ∧ inputsSame s t ∧
    (t.cfgok = s.cfgok ∨ (i = .cfgchk ∧ t.cfgok = false)) ∧
    (t.iter = s.iter ∨ ((∃ ra, i = .sign ra) ∧ t.errcode.toNat = 5 ∧ t.cause.toNat = 0x40))

/-- 10_state.md R33: only XCMP, PCHK and VERIFY change RESULT, and only when they end without error. -/
def Obligations.ResultWriters : Prop :=
  ∀ (i : Instr) (s t : State), exec i s = .next t → t.result ≠ s.result →
    ((∃ ra rb, i = .xcmp ra rb) ∨ (∃ qa, i = .pchk qa) ∨ i = .verify) ∧ completed s t

/-- 10_state.md R38, R16: commands write no parameter register but S and T, only the Edwards commands write those, only
where STV = 0, and they then set STV; no other command changes STV. -/
def Obligations.ParameterWriters : Prop :=
  ∀ (i : Instr) (s t : State), exec i s = .next t →
    (∀ r : Prm, r ≠ .s → r ≠ .t → t.prmReg r = s.prmReg r) ∧
    (t.prm ≠ s.prm ∨ t.stv ≠ s.stv →
      (i = .stcomp ∨ (∃ qd qa, i = .uv2xy qd qa) ∨ ∃ qd qa, i = .xy2uv qd qa) ∧ s.stv = false ∧ t.stv = true)

/-- Every step keeps the error record: ERRCODE and CAUSE are 0 where ERR is 0, else one row of 60_exceptions.md R145. -/
def Obligations.StepKeepsErrorRecord : Prop := ∀ s t : State, errorRecordOk s → step s = .next t → errorRecordOk t

/-- Every step keeps 10_state.md R34's promise: CFGOK = 1 only over a configuration that passes CFGCHK's checks. -/
def Obligations.StepKeepsCheckedConfiguration : Prop := ∀ s t : State, configOk s → step s = .next t → configOk t

/-- Every step keeps BUF's canonical form, with a signing loop's output range inside BUF. -/
def Obligations.StepKeepsBuf : Prop := ∀ s t : State, bufOk s → step s = .next t → bufOk t

/-- Every step keeps what is true of a command in flight. -/
def Obligations.StepKeepsFlight : Prop := ∀ s t : State, flightOk s → step s = .next t → flightOk t

/-- No command is refused, and none stops but on a BUF byte that was never written (10_state.md R21, log 3). -/
def Obligations.CommandsAnswer : Prop :=
  ∀ (i : Instr) (s : State), (∃ t, exec i s = .next t) ∨
    (∃ a, exec i s = .fault (.unwrittenRead a) ∧ s.buf.read a = none ∧ (∃ k ∈ descsOf i, off s k ≤ a ∧ a < off s k + len s k) ∧
      ((∃ r k, i = .ldbe r k) ∨ (∃ r k, i = .ldle r k) ∨ (∃ q k, i = .pdec q k) ∨ (∃ ra, i = .sign ra) ∨ i = .verify))

/-- 10_state.md R21 in the model's form. A command that reads a BUF byte never written stops, at such a byte of a range it
reads, and one that reads none answers a next state (log 3, 18). A command that reads a register with a word never written stops
the spec's step relation, and the model's own step goes on and records the read (log 2, 11); a command that reads none records
none. XMOV shows that it goes on with the value the register holds. A host read of such a word likewise returns what the
register holds, for every parameter, X, Q and INF word. A host read of a BUF word with a byte never written stops (log 3). The
same reads at the accept step are the statement CommandIssue. -/
def Obligations.UnwrittenReads : Prop :=
  (∀ (i : Instr) (s : State), runnable s → decode s.cmd = .ok i →
    ((∃ k ∈ bytesOf i s, rangeWritten s k = false) → stopsAtUnwritten .core i s s) ∧
    ((∀ k ∈ bytesOf i s, rangeWritten s k = true) → ∃ t, step (facing .core s) = .next t)) ∧
  (∀ (i : Instr) (s : State), runnable s → decode s.cmd = .ok i → s.unwrittenRead = false →
    (∀ r ∈ readsOf i s, s.regWritten r = false →
      strictStep (facing .core s) = .fault .unwrittenRegister ∧ moves .core s (fun t => t.unwrittenRead = true)) ∧
    (readable s (readsOf i s) → ∀ t, step (facing .core s) = .next t →
      t.unwrittenRead = false ∧ strictStep (facing .core s) = .next t)) ∧
  (∀ (s : State) (rd ra : XReg), runnable s → decode s.cmd = .ok (.xmov rd ra) → s.regWritten (.x ra) = false →
    moves .core s (fun t => t.unwrittenRead = true ∧ completed s t ∧ t.xVal rd = s.xVal ra)) ∧
  (∀ (s : State) (j : Fin 16), s.busy = false → s.unwrittenRead = false →
    (∀ r : Prm, (s.prmReg r).marks.getLsbD j = false → hostReadsUnwritten (prmOff r + 4 * j) s (holdsWord (s.prmReg r) j)) ∧
    (∀ i : XReg, s.x[i].marks.getLsbD j = false → hostReadsUnwritten (0x400 + 0x40 * i + 4 * j) s (holdsWord s.x[i] j)) ∧
    (∀ q : QReg,
      (s.q[q].x.marks.getLsbD j = false → hostReadsUnwritten (0x800 + 0x100 * q + 4 * j) s (holdsWord s.q[q].x j)) ∧
      (s.q[q].y.marks.getLsbD j = false → hostReadsUnwritten (0x840 + 0x100 * q + 4 * j) s (holdsWord s.q[q].y j)) ∧
      (s.q[q].infMark = false →
        hostReadsUnwritten (0x880 + 0x100 * q) s (fun v => v = BitVec.ofNat 32 (bit s.q[q].inf))))) ∧
  (∀ (s : State) (k : Fin 256), s.busy = false → (∃ l, l < 4 ∧ s.buf.read (4 * k + l) = none) →
    ∃ a, step (facing (hostR (0x1000 + 4 * k)) s) = .fault (.unwrittenRead a) ∧ s.buf.read a = none)

/-! ## Arithmetic -/

/-- 40_field.md R76: the inverse exists exactly where the gcd is 1, and is the unique residue that multiplies to 1. -/
def Obligations.InverseIsCorrect : Prop :=
  ∀ (a : Int) (M : Nat), 2 ≤ M →
    (Int.gcd a M ≠ 1 → inv a M = none) ∧
    (Int.gcd a M = 1 → ∃ b, inv a M = some b ∧ 0 < b ∧ b < M ∧ (a * b) % (M : Int) = 1 ∧
      ∀ b' : Nat, 0 < b' → b' < M → (a * b') % (M : Int) = 1 → b' = b)

/-- 42_curve.md R101: ScalarMul is left-to-right double-and-add. -/
def Obligations.ScalarMulSteps : Prop :=
  ∀ (c : Curve) (P : Point), scalarMul c P 0 = some .infinity ∧
    ∀ k,
      scalarMul c P (2 * k) = (scalarMul c P k).bind (pointDouble c) ∧
      scalarMul c P (2 * k + 1) = ((scalarMul c P k).bind (pointDouble c)).bind (fun R => pointAdd c R P)

/-- 42_curve.md R99 to R102 under a prime p: on canonical points of the curve no inverse fails, and addition, doubling and
scalar multiples stay canonical points of the curve; addition commutes, and a point and its negation add up to the
identity. Under CURVE_PRIME (10_state.md R17) no multiple of G by 1 to n - 1 is the identity, and PUBK never fails on a key in
range (44_signature.md R125). Under it, too, VERIFY on a published key, a digest and a completed SIGN's output sets RESULT = 1, in
any states of one checked configuration (the first property of 44_signature.md R131); bufOk is an invariant. The
formulas are the standard ones (log 16). -/
def Obligations.GroupLawUnderPrime : Prop :=
  (∀ (c : Curve) (P Q : Point), c.p.Prime → 5 ≤ c.p → canonicalPt c.p P → onCurvePt c P → canonicalPt c.p Q → onCurvePt c Q →
    (∃ R, pointAdd c P Q = some R ∧ canonicalPt c.p R ∧ onCurvePt c R) ∧
    (∃ R, pointDouble c P = some R ∧ canonicalPt c.p R ∧ onCurvePt c R) ∧
    (∀ k, ∃ R, scalarMul c P k = some R ∧ canonicalPt c.p R ∧ onCurvePt c R) ∧
    pointAdd c P Q = pointAdd c Q P ∧ pointAdd c P (pointNeg c P) = some .infinity) ∧
  (∀ (s : State), s.curvePrime → s.cfgok = true → configOk s → ∀ k, 1 ≤ k → k < s.prmVal .n →
    ∃ x y, scalarMul s.curve s.gen k = some (.affine x y) ∧ x < s.prmVal .p ∧ y < s.prmVal .p ∧ onCurveAt s x y ∧
      ∀ (qd : QReg) (ra : XReg), readable s [.x ra] → s.xVal ra = k → leads (.pubk qd ra) s (wroteQ qd x y false s)) ∧
  (∀ (s u t : State) (d : Nat) (pk digest sig : List Byte), s.curvePrime → s.cfgok = true → configOk s → sameConfig s u →
    sameConfig s t → bufOk u → publishes d pk s → completesSign d digest sig u → descsOk .verify t →
    rangeHolds t 0 pk t → rangeHolds t 1 digest t → rangeHolds t 2 sig t →
    leads .verify t (quiet { t with result := true }))

/-! ## Decoding-time errors of commands -/

/-- 30_encoding.md R67: the descriptors of each command are range-checked first; a descriptor of length 0 always passes;
no command that passes raises DESC_RANGE. -/
def Obligations.DescriptorRangeErrors : Prop :=
  (∀ (i : Instr) (s : State), signing s = none → ¬ descsOk i s → leads i s (failed 1 0x05 s)) ∧
  (∀ (s : State) (k : DescSel), len s k = 0 → off s k + len s k ≤ 1024) ∧
  (∀ (i : Instr) (s t : State), exec i s = .next t → s.err = false → t.err = true → t.cause.toNat = 0x05 →
    ¬ descsOk i s)

/-- 42_curve.md R96, 43_codec.md R115, 44_signature.md R121: these commands need CFGOK = 1, and the four that only move
points do not. -/
def Obligations.ConfigurationRequired : Prop :=
  (∀ (i : Instr) (s : State), needsCfg i = true → s.cfgok = false → signing s = none → descsOk i s →
    leads i s (failed 2 0x11 s)) ∧
  (∀ (s : State) (qd qa : QReg) (rd : XReg), s.cfgok = false →
    leads (.pinf qd) s (completed s) ∧
    (readable s [.q qa] → ∀ i ∈ [Instr.pmov qd qa, .pgetx rd qa, .pgety rd qa], leads i s (completed s)))

/-! ## Field family -/

/-- 40_field.md R78, R79, R80: MADD, MSUB and MMUL. -/
def Obligations.FieldAddSubMul : Prop :=
  ∀ (m : Modulus) (rd ra rb : XReg) (s : State),
    (decode (cmdWord 0x01 (mBit m) rd ra rb 0) = .ok (.madd m rd ra rb) ∧
      fieldRule (.madd m rd ra rb) m rd [.x ra, .x rb] s ((s.xVal ra + s.xVal rb) % modulusVal m s)) ∧
    (decode (cmdWord 0x02 (mBit m) rd ra rb 0) = .ok (.msub m rd ra rb) ∧
      fieldRule (.msub m rd ra rb) m rd [.x ra, .x rb] s
        (((s.xVal ra : Int) - s.xVal rb) % (modulusVal m s : Int)).toNat) ∧
    (decode (cmdWord 0x03 (mBit m) rd ra rb 0) = .ok (.mmul m rd ra rb) ∧
      fieldRule (.mmul m rd ra rb) m rd [.x ra, .x rb] s ((s.xVal ra * s.xVal rb) % modulusVal m s))

/-- 40_field.md R81, R82, R83, R86: MSQR, MNEG, MSMUL and MRED. -/
def Obligations.FieldUnary : Prop :=
  ∀ (m : Modulus) (rd ra : XReg) (imm : BitVec 16) (s : State),
    (decode (cmdWord 0x04 (mBit m) rd ra 0 0) = .ok (.msqr m rd ra) ∧
      fieldRule (.msqr m rd ra) m rd [.x ra] s ((s.xVal ra * s.xVal ra) % modulusVal m s)) ∧
    (decode (cmdWord 0x05 (mBit m) rd ra 0 0) = .ok (.mneg m rd ra) ∧
      fieldRule (.mneg m rd ra) m rd [.x ra] s ((0 - (s.xVal ra : Int)) % (modulusVal m s : Int)).toNat) ∧
    (decode (immWord 0x06 (mBit m) rd ra imm.toNat) = .ok (.msmul m rd ra imm) ∧
      fieldRule (.msmul m rd ra imm) m rd [.x ra] s ((s.xVal ra * imm.toNat) % modulusVal m s)) ∧
    (decode (cmdWord 0x09 (mBit m) rd ra 0 0) = .ok (.mred m rd ra) ∧
      fieldRule (.mred m rd ra) m rd [.x ra] s (s.xVal ra % modulusVal m s))

/-- 40_field.md R84, R85: MINV and MDIV, with NOT_INVERTIBLE exactly where the gcd is not 1. -/
def Obligations.FieldInverseDivide : Prop :=
  ∀ (m : Modulus) (rd ra rb : XReg) (s : State),
    (decode (cmdWord 0x07 (mBit m) rd ra 0 0) = .ok (.minv m rd ra) ∧
      decode (cmdWord 0x08 (mBit m) rd ra rb 0) = .ok (.mdiv m rd ra rb)) ∧
    (¬ goodModulus (modulusVal m s) → readable s [modulusReg m] →
      leads (.minv m rd ra) s (failed 2 0x10 s) ∧ leads (.mdiv m rd ra rb) s (failed 2 0x10 s)) ∧
    (goodModulus (modulusVal m s) → readable s [modulusReg m, .x ra] →
      (Nat.gcd (s.xVal ra) (modulusVal m s) ≠ 1 → leads (.minv m rd ra) s (failed 4 0x30 s)) ∧
      (Nat.gcd (s.xVal ra) (modulusVal m s) = 1 → ∃ b, 0 < b ∧ b < modulusVal m s ∧ s.xVal ra * b % modulusVal m s = 1 ∧
        leads (.minv m rd ra) s (wroteX rd b s))) ∧
    (goodModulus (modulusVal m s) → readable s [modulusReg m, .x ra, .x rb] →
      (Nat.gcd (s.xVal rb) (modulusVal m s) ≠ 1 → leads (.mdiv m rd ra rb) s (failed 4 0x30 s)) ∧
      (Nat.gcd (s.xVal rb) (modulusVal m s) = 1 → ∃ b, 0 < b ∧ b < modulusVal m s ∧ s.xVal rb * b % modulusVal m s = 1 ∧
        leads (.mdiv m rd ra rb) s (wroteX rd (s.xVal ra * b % modulusVal m s) s)))

/-! ## Register, transfer and configuration family -/

/-- 41_regmove.md R87, R88, R90: XMOV, XLDI and XCMP. -/
def Obligations.RegisterMoves : Prop :=
  ∀ (rd ra rb : XReg) (imm : BitVec 16) (s : State),
    (decode (cmdWord 0x10 0 rd ra 0 0) = .ok (.xmov rd ra) ∧
      (readable s [.x ra] → leads (.xmov rd ra) s (wroteX rd (s.xVal ra) s))) ∧
    (decode (immWord 0x11 0 rd 0 imm.toNat) = .ok (.xldi rd imm) ∧ leads (.xldi rd imm) s (wroteX rd imm.toNat s)) ∧
    (decode (cmdWord 0x13 0 0 ra rb 0) = .ok (.xcmp ra rb) ∧
      (readable s [.x ra, .x rb] → ∃ b : Bool, (b = true ↔ s.x[ra].val = s.x[rb].val) ∧
        leads (.xcmp ra rb) s (quiet { s with result := b })))

/-- 41_regmove.md R89, 30_encoding.md R61: XLDP by its selector table; a parameter register never written is recorded
(10_state.md R21, log 2). -/
def Obligations.ParameterLoads : Prop :=
  ∀ (rd : XReg) (s : State),
    (∀ (sel : Fin 16) (r : Prm),
      (sel.val, r) ∈ [(0, Prm.p), (1, .a), (2, .b), (3, .gx), (4, .gy), (5, .n), (6, .e), (7, .d), (8, .s), (9, .t)] →
      decode (cmdWord 0x12 0 rd sel 0 0) = .ok (.xldp rd sel) ∧
      (readable s [.prm r] → leads (.xldp rd sel) s (wroteX rd (s.prmVal r) s)) ∧
      (¬ readable s [.prm r] → leads (.xldp rd sel) s (fun t => t.unwrittenRead = true))) ∧
    (decode (cmdWord 0x12 0 rd 10 0 0) = .ok (.xldp rd 10) ∧ leads (.xldp rd 10) s (wroteX rd s.h.toNat s)) ∧
    (decode (cmdWord 0x12 0 rd 11 0 0) = .ok (.xldp rd 11) ∧ leads (.xldp rd 11) s (wroteX rd s.bytelen.toNat s)) ∧
    (∀ sel : Fin 16, 12 ≤ sel.val → decode (cmdWord 0x12 0 rd sel 0 0) = .error .paramSel ∧
      (s.phase = .accepted → s.cmd = cmdWord 0x12 0 rd sel 0 0 → moves .core s (failed 1 0x04 s)))

/-- 41_regmove.md R91, R92: LDBE and LDLE. -/
def Obligations.BufferLoads : Prop :=
  ∀ (r : XReg) (k : DescSel) (s : State),
    (decode (cmdWord 0x14 0 r 0 0 k) = .ok (.ldbe r k) ∧ decode (cmdWord 0x15 0 r 0 0 k) = .ok (.ldle r k)) ∧
    (1024 < off s k + len s k → leads (.ldbe r k) s (failed 1 0x05 s) ∧ leads (.ldle r k) s (failed 1 0x05 s)) ∧
    (off s k + len s k ≤ 1024 → 64 < len s k →
      leads (.ldbe r k) s (failed 3 0x22 s) ∧ leads (.ldle r k) s (failed 3 0x22 s)) ∧
    (off s k + len s k ≤ 1024 → len s k ≤ 64 → ∀ bs : List Byte, bs.length = len s k → bufHolds s (off s k) bs →
      leads (.ldbe r k) s (wroteX r (beSum bs) s) ∧ leads (.ldle r k) s (wroteX r (leSum bs) s))

/-- 41_regmove.md R93, R94: STBE and STLE. -/
def Obligations.BufferStores : Prop :=
  ∀ (r : XReg) (k : DescSel) (s : State),
    (decode (cmdWord 0x16 0 r 0 0 k) = .ok (.stbe r k) ∧ decode (cmdWord 0x17 0 r 0 0 k) = .ok (.stle r k)) ∧
    (1024 < off s k + len s k → leads (.stbe r k) s (failed 1 0x05 s) ∧ leads (.stle r k) s (failed 1 0x05 s)) ∧
    (off s k + len s k ≤ 1024 → 64 < len s k →
      leads (.stbe r k) s (failed 3 0x22 s) ∧ leads (.stle r k) s (failed 3 0x22 s)) ∧
    (off s k + len s k ≤ 1024 → len s k ≤ 64 → readable s [.x r] →
      (2 ^ (8 * len s k) ≤ s.xVal r → leads (.stbe r k) s (failed 3 0x23 s) ∧ leads (.stle r k) s (failed 3 0x23 s)) ∧
      (s.xVal r < 2 ^ (8 * len s k) →
        (∃ bs : List Byte, bs.length = len s k ∧ beSum bs = s.xVal r ∧ leads (.stbe r k) s (wroteBuf (off s k) bs s)) ∧
        (∃ bs : List Byte, bs.length = len s k ∧ leSum bs = s.xVal r ∧ leads (.stle r k) s (wroteBuf (off s k) bs s))))

/-- 41_regmove.md R95: CFGCHK, with the first failing check's cause. -/
def Obligations.ConfigurationCheck : Prop :=
  decode (cmdWord 0x18 0 0 0 0 0) = .ok .cfgchk ∧
  ∀ s : State, readable s configRegs → ∃ c, firstConfigFailure s c ∧
    match c with
    | some code => leads .cfgchk s (failed 2 code { s with cfgok := false })
    | none => leads .cfgchk s (quiet { s with cfgok := true })

/-! ## Curve family -/

/-- 42_curve.md R104, R105, R106: PINF, PGEN and PSET. -/
def Obligations.PointLoads : Prop :=
  ∀ (qd : QReg) (ra rb : XReg) (s : State),
    (decode (cmdWord 0x20 0 qd 0 0 0) = .ok (.pinf qd) ∧ leads (.pinf qd) s (wroteQ qd 0 0 true s)) ∧
    (decode (cmdWord 0x21 0 qd 0 0 0) = .ok (.pgen qd) ∧
      (s.cfgok = false → leads (.pgen qd) s (failed 2 0x11 s)) ∧
      (s.cfgok = true → leads (.pgen qd) s (wroteQ qd (s.prmVal .gx) (s.prmVal .gy) false s))) ∧
    (decode (cmdWord 0x22 0 qd ra rb 0) = .ok (.pset qd ra rb) ∧
      (s.cfgok = false → leads (.pset qd ra rb) s (failed 2 0x11 s)) ∧
      (s.cfgok = true → readable s [.x ra, .x rb] →
        (s.prmVal .p ≤ s.xVal ra ∨ s.prmVal .p ≤ s.xVal rb → leads (.pset qd ra rb) s (failed 4 0x32 s)) ∧
        (s.xVal ra < s.prmVal .p → s.xVal rb < s.prmVal .p →
          leads (.pset qd ra rb) s (wroteQ qd (s.xVal ra) (s.xVal rb) false s))))

/-- 42_curve.md R107, R108, R109: PGETX, PGETY and PMOV. -/
def Obligations.PointMoves : Prop :=
  ∀ (qd qa : QReg) (rd : XReg) (s : State),
    (decode (cmdWord 0x23 0 rd qa 0 0) = .ok (.pgetx rd qa) ∧ decode (cmdWord 0x24 0 rd qa 0 0) = .ok (.pgety rd qa) ∧
      decode (cmdWord 0x25 0 qd qa 0 0) = .ok (.pmov qd qa)) ∧
    (readable s [.q qa] →
      leads (.pgetx rd qa) s (wroteX rd (if s.q[qa].inf = true then 0 else s.q[qa].x.val.toNat) s) ∧
      leads (.pgety rd qa) s (wroteX rd (if s.q[qa].inf = true then 0 else s.q[qa].y.val.toNat) s) ∧
      leads (.pmov qd qa) s (wroteQ qd s.q[qa].x.val.toNat s.q[qa].y.val.toNat s.q[qa].inf s))

/-- 42_curve.md R110 with R97 and R99: PADD, case by case. The slope and coordinate formulas and the identity laws are the
standard ones (log 16). -/
def Obligations.PointAddition : Prop :=
  ∀ (qd qa qb : QReg) (s : State),
    decode (cmdWord 0x26 0 qd qa qb 0) = .ok (.padd qd qa qb) ∧
    (s.cfgok = true → readable s [.q qa, .q qb] →
      (¬ coordsOk s qa ∨ ¬ coordsOk s qb → leads (.padd qd qa qb) s (failed 4 0x32 s)) ∧
      (coordsOk s qa → coordsOk s qb →
        (pt s qa = .infinity → leads (.padd qd qa qb) s (wrotePoint qd (pt s qb) s)) ∧
        (pt s qb = .infinity → leads (.padd qd qa qb) s (wrotePoint qd (pt s qa) s)) ∧
        (∀ x1 y1 x2 y2, pt s qa = .affine x1 y1 → pt s qb = .affine x2 y2 →
          (x1 = x2 → y1 ≠ y2 → leads (.padd qd qa qb) s (wrotePoint qd .infinity s)) ∧
          (x1 = x2 → y1 = y2 → y1 = 0 → leads (.padd qd qa qb) s (wrotePoint qd .infinity s)) ∧
          (x1 = x2 → y1 = y2 → y1 ≠ 0 → Nat.gcd (2 * y1) (s.prmVal .p) = 1 → ∃ x3 y3, doublesTo s x1 y1 x3 y3 ∧
            leads (.padd qd qa qb) s (wrotePoint qd (.affine x3 y3) s)) ∧
          (x1 = x2 → y1 = y2 → y1 ≠ 0 → Nat.gcd (2 * y1) (s.prmVal .p) ≠ 1 → leads (.padd qd qa qb) s (failed 4 0x30 s)) ∧
          (x1 ≠ x2 → Int.gcd ((x2 : Int) - x1) (s.prmVal .p) = 1 → ∃ l x3 y3, l < s.prmVal .p ∧
            ((l : Int) * ((x2 : Int) - x1) - ((y2 : Int) - y1)) % (s.prmVal .p : Int) = 0 ∧
            chord (s.prmVal .p) l x1 y1 x2 x3 y3 ∧ leads (.padd qd qa qb) s (wrotePoint qd (.affine x3 y3) s)) ∧
          (x1 ≠ x2 → Int.gcd ((x2 : Int) - x1) (s.prmVal .p) ≠ 1 → leads (.padd qd qa qb) s (failed 4 0x30 s)))))

/-- 42_curve.md R111, R112 with R97 and R100: PDBL and PNEG. The tangent formulas and the identity laws are the standard
ones (log 16). -/
def Obligations.PointDoublingAndNegation : Prop :=
  ∀ (qd qa : QReg) (s : State),
    (decode (cmdWord 0x27 0 qd qa 0 0) = .ok (.pdbl qd qa) ∧ decode (cmdWord 0x28 0 qd qa 0 0) = .ok (.pneg qd qa)) ∧
    (s.cfgok = true → readable s [.q qa] →
      (¬ coordsOk s qa → leads (.pdbl qd qa) s (failed 4 0x32 s) ∧ leads (.pneg qd qa) s (failed 4 0x32 s)) ∧
      (pt s qa = .infinity →
        leads (.pdbl qd qa) s (wrotePoint qd .infinity s) ∧ leads (.pneg qd qa) s (wrotePoint qd .infinity s)) ∧
      (coordsOk s qa → ∀ x y, pt s qa = .affine x y →
        (y = 0 → leads (.pdbl qd qa) s (wrotePoint qd .infinity s)) ∧
        (y ≠ 0 → Nat.gcd (2 * y) (s.prmVal .p) = 1 → ∃ x3 y3, doublesTo s x y x3 y3 ∧
          leads (.pdbl qd qa) s (wrotePoint qd (.affine x3 y3) s)) ∧
        (y ≠ 0 → Nat.gcd (2 * y) (s.prmVal .p) ≠ 1 → leads (.pdbl qd qa) s (failed 4 0x30 s)) ∧
        leads (.pneg qd qa) s (wrotePoint qd (.affine x ((s.prmVal .p - y) % s.prmVal .p)) s)))

/-- 42_curve.md R113 and 44_signature.md R125: PMUL and PUBK, in terms of the model's scalar multiple of R101 (its steps are
the statement ScalarMulSteps; log 13, 16). The premise configOk is an invariant (StepKeepsCheckedConfiguration). -/
def Obligations.ScalarMultiplication : Prop :=
  ∀ (qd qa : QReg) (r : XReg) (s : State),
    (decode (cmdWord 0x29 0 qd qa r 0) = .ok (.pmul qd qa r) ∧ decode (cmdWord 0x38 0 qd r 0 0) = .ok (.pubk qd r)) ∧
    (s.cfgok = true → readable s [.q qa, .x r] →
      (¬ coordsOk s qa → leads (.pmul qd qa r) s (failed 4 0x32 s)) ∧
      (coordsOk s qa → ¬ onCurvePt s.curve (pt s qa) → leads (.pmul qd qa r) s (failed 4 0x31 s)) ∧
      (coordsOk s qa → onCurvePt s.curve (pt s qa) →
        (s.prmVal .n ≤ s.xVal r → leads (.pmul qd qa r) s (failed 4 0x33 s)) ∧
        (s.xVal r < s.prmVal .n →
          (∀ R, scalarMul s.curve (pt s qa) (s.xVal r) = some R → leads (.pmul qd qa r) s (wrotePoint qd R s)) ∧
          (scalarMul s.curve (pt s qa) (s.xVal r) = none → leads (.pmul qd qa r) s (failed 4 0x30 s))))) ∧
    (s.cfgok = true → configOk s → readable s [.x r] →
      (¬ (1 ≤ s.xVal r ∧ s.xVal r < s.prmVal .n) → leads (.pubk qd r) s (failed 4 0x34 s)) ∧
      (1 ≤ s.xVal r → s.xVal r < s.prmVal .n →
        (∀ R, scalarMul s.curve s.gen (s.xVal r) = some R → leads (.pubk qd r) s (wrotePoint qd R s)) ∧
        (scalarMul s.curve s.gen (s.xVal r) = none → leads (.pubk qd r) s (failed 4 0x30 s))))

/-- 42_curve.md R114: PCHK. -/
def Obligations.PointCheck : Prop :=
  ∀ (qa : QReg) (s : State),
    decode (cmdWord 0x2A 0 0 qa 0 0) = .ok (.pchk qa) ∧
    (s.cfgok = false → leads (.pchk qa) s (failed 2 0x11 s)) ∧
    (s.cfgok = true → readable s [.q qa] → ∃ b : Bool,
      (b = true ↔ s.q[qa].inf = false ∧ s.q[qa].x.val.toNat < s.prmVal .p ∧ s.q[qa].y.val.toNat < s.prmVal .p ∧
        onCurveAt s s.q[qa].x.val.toNat s.q[qa].y.val.toNat) ∧
      leads (.pchk qa) s (quiet { s with result := b }))

/-! ## Codec family -/

/-- 43_codec.md R118, R119: PENC and PENCLE. The premise configOk is an invariant (StepKeepsCheckedConfiguration). -/
def Obligations.PointEncoding : Prop :=
  ∀ (q : QReg) (k : DescSel) (s : State),
    (decode (cmdWord 0x30 0 q 0 0 k) = .ok (.penc q k) ∧ decode (cmdWord 0x31 0 q 0 0 k) = .ok (.pencle q k)) ∧
    (off s k + len s k ≤ 1024 → s.cfgok = false →
      leads (.penc q k) s (failed 2 0x11 s) ∧ leads (.pencle q k) s (failed 2 0x11 s)) ∧
    (off s k + len s k ≤ 1024 → s.cfgok = true → configOk s →
      (len s k ≠ 1 + 2 * s.bytelen.toNat → leads (.penc q k) s (failed 3 0x20 s)) ∧
      (len s k ≠ 2 * s.bytelen.toNat → leads (.pencle q k) s (failed 3 0x20 s)) ∧
      (len s k = 1 + 2 * s.bytelen.toNat → readable s [.q q] →
        (pt s q = .infinity → leads (.penc q k) s (failed 4 0x35 s)) ∧
        (¬ coordsOk s q → leads (.penc q k) s (failed 4 0x32 s)) ∧
        (coordsOk s q → ∀ x y, pt s q = .affine x y → ∃ xb yb : List Byte,
          xb.length = s.bytelen.toNat ∧ yb.length = s.bytelen.toNat ∧ beSum xb = x ∧ beSum yb = y ∧
          leads (.penc q k) s (wroteBuf (off s k) (0x04 :: (xb ++ yb)) s))) ∧
      (len s k = 2 * s.bytelen.toNat → readable s [.q q] →
        (pt s q = .infinity → leads (.pencle q k) s (wroteBuf (off s k) (List.replicate (2 * s.bytelen.toNat) 0) s)) ∧
        (¬ coordsOk s q → leads (.pencle q k) s (failed 4 0x32 s)) ∧
        (coordsOk s q → ∀ x y, pt s q = .affine x y → ∃ xb yb : List Byte,
          xb.length = s.bytelen.toNat ∧ yb.length = s.bytelen.toNat ∧ leSum xb = x ∧ leSum yb = y ∧
          leads (.pencle q k) s (wroteBuf (off s k) (xb ++ yb) s))))

/-- 43_codec.md R120 with R117: PDEC, its checks in order. -/
def Obligations.PointDecoding : Prop :=
  ∀ (q : QReg) (k : DescSel) (s : State),
    decode (cmdWord 0x32 0 q 0 0 k) = .ok (.pdec q k) ∧
    (off s k + len s k ≤ 1024 → s.cfgok = false → leads (.pdec q k) s (failed 2 0x11 s)) ∧
    (off s k + len s k ≤ 1024 → s.cfgok = true → len s k ≠ 1 + 2 * s.bytelen.toNat → leads (.pdec q k) s (failed 3 0x20 s)) ∧
    (off s k + len s k ≤ 1024 → s.cfgok = true → len s k = 1 + 2 * s.bytelen.toNat →
      ∀ (b : Byte) (xb yb : List Byte), xb.length = s.bytelen.toNat → yb.length = s.bytelen.toNat →
        bufHolds s (off s k) (b :: (xb ++ yb)) →
        (b ≠ 0x04 → leads (.pdec q k) s (failed 3 0x21 s)) ∧
        (b = 0x04 →
          (s.prmVal .p ≤ beSum xb ∨ s.prmVal .p ≤ beSum yb → leads (.pdec q k) s (failed 4 0x32 s)) ∧
          (beSum xb < s.prmVal .p → beSum yb < s.prmVal .p →
            (¬ onCurveAt s (beSum xb) (beSum yb) → leads (.pdec q k) s (failed 4 0x31 s)) ∧
            (onCurveAt s (beSum xb) (beSum yb) → leads (.pdec q k) s (wroteQ q (beSum xb) (beSum yb) false s)))))

/-! ## Signature family -/

/-- 44_signature.md R126 up to the end of the first iteration that needs no entropy: SIGN's checks in order, then the seed's
iteration or the first entropy wait. The scalar multiple is the model's (log 13, 16); the order of BUF reads and length
checks is the model's reading (log 18). -/
def Obligations.SignStarts : Prop :=
  ∀ (ra : XReg) (s : State),
    decode (cmdWord 0x39 0 0 ra 0 0) = .ok (.sign ra) ∧
    (s.phase = .accepted → s.cfgok = true → configOk s → descsOk (.sign ra) s →
      ∀ dig seed : List Byte, dig.length = len s 0 → seed.length = len s 1 → bufHolds s (off s 0) dig →
        bufHolds s (off s 1) seed →
        ((len s 1 ≠ 0 ∧ len s 1 ≠ s.bytelen.toNat) ∨ len s 2 ≠ 2 * s.bytelen.toNat → leads (.sign ra) s (failed 3 0x20 s)) ∧
        (len s 1 = 0 ∨ len s 1 = s.bytelen.toNat → len s 2 = 2 * s.bytelen.toNat → readable s [.x ra] →
          (¬ (1 ≤ s.xVal ra ∧ s.xVal ra < s.prmVal .n) → leads (.sign ra) s (failed 4 0x34 s)) ∧
          (1 ≤ s.xVal ra → s.xVal ra < s.prmVal .n →
            (len s 1 = 0 → leads (.sign ra) s (waitsFor 1 (digestOf dig (s.prmVal .n)) (s.xVal ra) s)) ∧
            (len s 1 = s.bytelen.toNat →
              iterationEnds 1 (digestOf dig (s.prmVal .n)) (s.xVal ra) seed (.sign ra) s))))

/-- 44_signature.md R126, R128: an iteration of the signing loop on the entropy source's bytes. The premises are invariants
of the statements StepKeepsCheckedConfiguration and StepKeepsFlight; the scalar multiple is the model's (log 13, 16). -/
def Obligations.SignIterates : Prop :=
  ∀ (ra : XReg) (s : State) (k : SignLoop) (bytes : List Byte), s.phase = .entropyGot k bytes → configOk s → flightOk s →
    iterationEnds k.it k.e k.d bytes (.sign ra) s

/-- 60_exceptions.md R149: the entropy port. ENTW is 1 exactly in the wait; the answer to the pending request, of BL bytes,
ends it; an answer to an earlier request, or with no request pending, changes nothing. Request numbers are the model's way
to tell a late answer (log 8). -/
def Obligations.EntropyPort : Prop :=
  ∀ (s : State) (req : Nat) (bytes : List Byte),
    (s.entw = true ↔ ∃ k, s.phase = .entropyWait k) ∧ (s.entw = true → s.busy = true) ∧
    (∀ k, s.phase = .entropyWait k → bytes.length = s.bytelen.toNat →
      step (facing (.entropy s.requests bytes) s) = .next { s with phase := .entropyGot k bytes } ∧
      moves (.entropy s.requests bytes) s (fun t => t.entw = false ∧ t.busy = true)) ∧
    (req < s.requests ∨ s.entw = false → step (facing (.entropy req bytes) s) = .next s)

/-- 44_signature.md R129: VERIFY raises only on the signature's length, and RESULT is the verdict of VerifyCore, which rejects r
and s of 0 and n whatever the rest (R131). The group operations are the model's (log 13, 16). -/
def Obligations.Verification : Prop :=
  decode (cmdWord 0x3A 0 0 0 0 0) = .ok .verify ∧
  ∀ (s : State) (pk dig sig : List Byte), s.cfgok = true → descsOk .verify s → pk.length = len s 0 → dig.length = len s 1 →
    sig.length = len s 2 → bufHolds s (off s 0) pk → bufHolds s (off s 1) dig → bufHolds s (off s 2) sig →
    (len s 2 ≠ 2 * s.bytelen.toNat → leads .verify s (failed 3 0x20 s)) ∧
    (∀ rb sb : List Byte, sig = rb ++ sb → rb.length = s.bytelen.toNat → sb.length = s.bytelen.toNat → ∃ b : Bool,
      (b = true ↔ (0 < beSum rb ∧ beSum rb < s.prmVal .n) ∧ (0 < beSum sb ∧ beSum sb < s.prmVal .n) ∧
        ∃ v, v < s.prmVal .n ∧ digestOf dig (s.prmVal .n) * v % s.prmVal .n = 1 ∧
        ∃ xb yb : List Byte, pk = 0x04 :: (xb ++ yb) ∧ xb.length = s.bytelen.toNat ∧ yb.length = s.bytelen.toNat ∧
          beSum xb < s.prmVal .p ∧ beSum yb < s.prmVal .p ∧ onCurveAt s (beSum xb) (beSum yb) ∧
        ∃ A B x y, scalarMul s.curve s.gen (beSum sb * v % s.prmVal .n) = some A ∧
          scalarMul s.curve (.affine (beSum xb) (beSum yb))
            ((s.prmVal .n - beSum rb * v % s.prmVal .n) % s.prmVal .n) = some B ∧
          pointAdd s.curve A B = some (.affine x y) ∧ x % s.prmVal .n = beSum rb) ∧
      (beSum rb = 0 ∨ beSum rb = s.prmVal .n ∨ beSum sb = 0 ∨ beSum sb = s.prmVal .n → b = false) ∧
      leads .verify s (quiet { s with result := b }))

/-! ## Edwards family -/

/-- 45_edwards.md R136, R137, R138 with R134: STCOMP, UV2XY and XY2UV, their errors in order, the coordinates as the
residues that solve the conversion's equations, and the memo. -/
def Obligations.EdwardsCommands : Prop :=
  ∀ (qd qa : QReg) (s : State),
    (decode (cmdWord 0x3C 0 0 0 0 0) = .ok .stcomp ∧ decode (cmdWord 0x3D 0 qd qa 0 0) = .ok (.uv2xy qd qa) ∧
      decode (cmdWord 0x3E 0 qd qa 0 0) = .ok (.xy2uv qd qa)) ∧
    (memoErrors .stcomp s ∧ memoErrors (.uv2xy qd qa) s ∧ memoErrors (.xy2uv qd qa) s) ∧
    (s.edw = true → goodModulus (s.prmVal .p) → readable s (memoRegs s) → ∀ sv tv, memoIs s sv tv →
      leads .stcomp s (fun t => edwardsFrame s t ∧ memoWritten s t sv tv ∧ t.q = s.q)) ∧
    (s.edw = true → goodModulus (s.prmVal .p) → readable s (.q qa :: memoRegs s) → ∀ sv tv, memoIs s sv tv →
      (s.q[qa].inf = true → leads (.uv2xy qd qa) s (failed 4 0x35 s) ∧ leads (.xy2uv qd qa) s (failed 4 0x35 s)) ∧
      (¬ coordsOk s qa → leads (.uv2xy qd qa) s (failed 4 0x32 s) ∧ leads (.xy2uv qd qa) s (failed 4 0x32 s)) ∧
      (coordsOk s qa → ∀ a b : Nat, pt s qa = .affine a b →
        (Int.gcd ((a : Int) * (1 - b)) (s.prmVal .p) ≠ 1 → leads (.uv2xy qd qa) s (failed 4 0x30 s)) ∧
        (Int.gcd ((a : Int) * (1 - b)) (s.prmVal .p) = 1 → ∃ x y, x < s.prmVal .p ∧ y < s.prmVal .p ∧
          (((x : Int) - tv) * (1 - b) - sv * (1 + b)) % (s.prmVal .p : Int) = 0 ∧
          ((y : Int) * (a * (1 - b)) - sv * (1 + b)) % (s.prmVal .p : Int) = 0 ∧
          leads (.uv2xy qd qa) s (fun t => edwardsFrame s t ∧ memoWritten s t sv tv ∧ holdsQ qd x y false s t)) ∧
        (Nat.gcd b (s.prmVal .p) ≠ 1 ∨ Int.gcd ((a : Int) - tv + sv) (s.prmVal .p) ≠ 1 →
          leads (.xy2uv qd qa) s (failed 4 0x30 s)) ∧
        (Nat.gcd b (s.prmVal .p) = 1 → Int.gcd ((a : Int) - tv + sv) (s.prmVal .p) = 1 → ∃ u v, u < s.prmVal .p ∧
          v < s.prmVal .p ∧ ((u : Int) * b - (a - tv)) % (s.prmVal .p : Int) = 0 ∧
          ((v : Int) * (a - tv + sv) - (a - tv - sv)) % (s.prmVal .p : Int) = 0 ∧
          leads (.xy2uv qd qa) s (fun t => edwardsFrame s t ∧ memoWritten s t sv tv ∧ holdsQ qd u v false s t))))

/-- 45_edwards.md R139: under a prime p, UV2XY and then XY2UV give the point back, bit for bit, for canonical (u, v) with u
not 0, v not 1 and not p - 1, and s not 0; and the memo the first command leaves is the one the second uses. The registers the
first command reads are written. -/
def Obligations.EdwardsRoundTrip : Prop :=
  ∀ (qa qb qc : QReg) (s : State) (u v : Nat), (s.prmVal .p).Prime → 5 ≤ s.prmVal .p → s.edw = true →
    readable s (.q qa :: memoRegs s) → pt s qa = .affine u v → u < s.prmVal .p → v < s.prmVal .p → u ≠ 0 → v ≠ 1 → v ≠ s.prmVal .p - 1 →
    (s.stv = true → s.prmVal .s % s.prmVal .p ≠ 0) →
    (s.stv = false → ((s.prmVal .e : Int) - s.prmVal .d) % (s.prmVal .p : Int) ≠ 0) →
    leads (.uv2xy qb qa) s (fun t => completed s t ∧ leads (.xy2uv qc qb) t (fun t' => completed t t' ∧
      pt t' qc = .affine u v ∧ t'.prm = t.prm ∧ t'.stv = true ∧ t.stv = true ∧ t'.unwrittenRead = s.unwrittenRead))
end

