-- ==== Sys2Proof/Laws/Arith.lean ====
section
/-! SUPPORT. The shared arithmetic: ranges of results and lengths of byte strings. -/

namespace Sys2Proof.Machine

/-- A residue is below its modulus (40_field.md R72). -/
theorem modp_lt (z : Int) (m : Nat) (h : 0 < m) : modp z m < m := by
  have h1 := Int.emod_nonneg z (b := (m : Int)) (by omega)
  have h2 := Int.emod_lt_of_pos z (b := (m : Int)) (by omega)
  unfold modp
  omega

/-- The residue as an integer (00_scope.md R11). -/
theorem modp_cast (z : Int) (m : Nat) (h : 0 < m) : (modp z m : Int) = z % m := by
  have h1 := Int.emod_nonneg z (b := (m : Int)) (by omega)
  unfold modp
  omega

/-- Of a non-negative integer, modp is the remainder of naturals. -/
theorem modp_natCast (a m : Nat) : modp (a : Int) m = a % m := by
  unfold modp
  rw [← Int.natCast_mod]
  rfl

/-- ModOK(M) in the words of 40_field.md R71. -/
theorem modOK_iff (m : Nat) : modOK m = true ↔ m % 2 = 1 ∧ 3 ≤ m := by simp [modOK]

/-- An inverse is a canonical residue (40_field.md R76). -/
theorem inv_lt (a : Int) (m i : Nat) (hm : 0 < m) (h : inv a m = some i) : i < m := by
  unfold inv at h
  split at h
  · cases h
  · cases h
    exact modp_lt _ _ hm

/-- An inverse fails exactly where the gcd is not 1 (40_field.md R76). -/
theorem inv_eq_none_iff (a : Int) (m : Nat) : inv a m = none ↔ Nat.gcd (modp a m) m ≠ 1 := by
  unfold inv
  split <;> simp_all

/-- The gcd test of Inv is the gcd of the operand itself (40_field.md R76). -/
theorem modp_gcd (a : Int) (m : Nat) (h : 0 < m) : Nat.gcd (modp a m) m = Int.gcd a m := by
  rw [← Int.gcd_natCast_natCast, modp_cast a m h]
  exact Int.gcd_emod a m

/-- The extended Euclid recurrence keeps `c·a ≡ r` for both of its remainders, so its answer times a is the gcd. -/
theorem euclid_spec (a : Int) (m : Nat) : ∀ (k r r' : Nat) (c c' : Int), r' < k → (m : Int) ∣ c * a - r → (m : Int) ∣ c' * a - r' →
    (m : Int) ∣ euclid k r r' c c' * a - Nat.gcd r r' := by
  intro k
  induction k with
  | zero => intro r r' c c' h; omega
  | succ k ih =>
    intro r r' c c' hk h1 h2
    simp only [euclid]
    split
    · rename_i h
      subst h
      simpa using h1
    · rename_i h
      have hlt := Nat.mod_lt r (y := r') (by omega)
      have hr : (r : Int) = r' * (r / r' : Nat) + (r % r' : Nat) := by exact_mod_cast (Nat.div_add_mod r r').symm
      have h3 : (m : Int) ∣ (c - (r / r' : Nat) * c') * a - (r % r' : Nat) := by
        have e : (c - (r / r' : Nat) * c') * a - (r % r' : Nat) = (c * a - r) - (r / r' : Nat) * (c' * a - r') := by
          linear_combination hr
        rw [e]
        exact dvd_sub h1 (Dvd.dvd.mul_left h2 _)
      rw [Nat.gcd_comm r r', Nat.gcd_rec r' r, Nat.gcd_comm (r % r') r']
      exact ih r' (r % r') c' _ (by omega) h2 h3

/-- What Inv answers multiplies to 1 (40_field.md R76). -/
theorem inv_mul (a : Int) (m i : Nat) (hm : 0 < m) (h : inv a m = some i) : (m : Int) ∣ a * i - 1 := by
  unfold inv at h
  split at h
  · cases h
  · rename_i hg
    cases h
    have hs := euclid_spec a m (m + 1) (modp a m) m 1 0 (by omega)
      (by rw [modp_cast a m hm, one_mul]; exact Int.dvd_self_sub_emod) (by simp)
    rw [not_not.mp hg, Nat.cast_one] at hs
    rw [modp_cast _ m hm]
    have he := Int.dvd_self_sub_emod (x := euclid (m + 1) (modp a m) m 1 0) (m := (m : Int))
    have e : ∀ x y : Int, a * y - 1 = (x * a - 1) - a * (x - y) := fun x y => by ring
    rw [e (euclid (m + 1) (modp a m) m 1 0)]
    exact dvd_sub hs (Dvd.dvd.mul_left he a)

@[simp] theorem leBytes_length (v n : Nat) : (leBytes v n).length = n := by
  induction n generalizing v with
  | zero => rfl
  | succ n ih => simp [leBytes, ih]

@[simp] theorem beBytes_length (v n : Nat) : (beBytes v n).length = n := by simp [beBytes]

/-- ReduceBytes gives a canonical residue (40_field.md R77). -/
theorem reduceBytes_lt (bs : List Byte) (m : Nat) (h : 0 < m) : reduceBytes bs m < m := by
  have key : ∀ (l : List Byte) (v : Nat), v < m → l.foldl (fun v b => (v * 256 + b.toNat) % m) v < m := by
    intro l
    induction l with
    | nil => exact fun v hv => hv
    | cons b l ih => exact fun v _ => ih _ (Nat.mod_lt _ h)
  exact key bs 0 h

/-- A point with canonical coordinates, or the identity (42_curve.md R97). -/
def Point.canonical (p : Nat) : Point → Prop
  | .infinity => True
  | .affine x y => x < p ∧ y < p

/-- Every point the chord formulas give is canonical (42_curve.md R103). -/
theorem chordPoint_canonical (c : Curve) (l x1 y1 x2 : Nat) (h : 0 < c.p) :
    (chordPoint c l x1 y1 x2).canonical c.p := ⟨modp_lt _ _ h, modp_lt _ _ h⟩

/-- PointDouble gives a canonical point (42_curve.md R100, R103). -/
theorem pointDouble_canonical (c : Curve) (p1 r : Point) (h : 0 < c.p) (hr : pointDouble c p1 = some r) :
    r.canonical c.p := by
  cases p1 with
  | infinity => cases hr; trivial
  | affine x y =>
    simp only [pointDouble] at hr
    split at hr
    · cases hr; trivial
    · split at hr
      · cases hr
      · cases hr; exact chordPoint_canonical _ _ _ _ _ h

/-- PointAdd of canonical points gives a canonical point (42_curve.md R99, R103). -/
theorem pointAdd_canonical (c : Curve) (p1 p2 r : Point) (h : 0 < c.p) (h1 : p1.canonical c.p) (h2 : p2.canonical c.p)
    (hr : pointAdd c p1 p2 = some r) : r.canonical c.p := by
  cases p1 with
  | infinity => cases hr; exact h2
  | affine x1 y1 =>
    cases p2 with
    | infinity => cases hr; exact h1
    | affine x2 y2 =>
      simp only [pointAdd] at hr
      split at hr
      · split at hr
        · exact pointDouble_canonical c _ _ h hr
        · cases hr; trivial
      · split at hr
        · cases hr
        · cases hr; exact chordPoint_canonical _ _ _ _ _ h

/-- ScalarMul of a canonical point gives a canonical point (42_curve.md R101, R103). -/
theorem scalarMul_canonical (c : Curve) (p1 r : Point) (k : Nat) (h : 0 < c.p) (h1 : p1.canonical c.p)
    (hr : scalarMul c p1 k = some r) : r.canonical c.p := by
  have key : ∀ (i : Nat) (a : Point), a.canonical c.p → scalarLoop c p1 k i a = some r → r.canonical c.p := by
    intro i
    induction i with
    | zero => intro a ha hs; cases hs; exact ha
    | succ i ih =>
      intro a _ hs
      simp only [scalarLoop] at hs
      split at hs
      · cases hs
      · rename_i r2 hd
        have h2 := pointDouble_canonical c a r2 h hd
        split at hs
        · split at hs
          · cases hs
          · rename_i r3 ha
            exact ih r3 (pointAdd_canonical c _ _ _ h h2 h1 ha) hs
        · exact ih r2 h2 hs
  exact key _ .infinity trivial hr

/-- What PtRead answers (42_curve.md R97). -/
theorem State.ptRead_canonical (s : State) (j : QReg) (p : Point) (h : s.ptRead j = .ok p) :
    p.canonical (s.prmVal .p) := by
  unfold State.ptRead at h
  split at h
  · cases h; trivial
  · split at h
    · cases h
    · rename_i hn
      cases h
      exact ⟨by omega, by omega⟩

end Sys2Proof.Machine
end

