-- ==== Sys2Proof/Laws/State.lean ====
section
/-! SUPPORT. One lemma per field of State and per update of Machine/Ops.lean and Machine/Flags.lean, so that no proof unfolds
a record update; and what the accessors read after an update. -/

namespace Sys2Proof.Machine

variable (s : State)

@[simp] theorem State.noteReads_prm (l : List RegName) : (s.noteReads l).prm = s.prm := rfl
@[simp] theorem State.noteReads_x (l : List RegName) : (s.noteReads l).x = s.x := rfl
@[simp] theorem State.noteReads_q (l : List RegName) : (s.noteReads l).q = s.q := rfl
@[simp] theorem State.noteReads_buf (l : List RegName) : (s.noteReads l).buf = s.buf := rfl
@[simp] theorem State.noteReads_irqen (l : List RegName) : (s.noteReads l).irqen = s.irqen := rfl
@[simp] theorem State.noteReads_cmd (l : List RegName) : (s.noteReads l).cmd = s.cmd := rfl
@[simp] theorem State.noteReads_done (l : List RegName) : (s.noteReads l).done = s.done := rfl
@[simp] theorem State.noteReads_err (l : List RegName) : (s.noteReads l).err = s.err := rfl
@[simp] theorem State.noteReads_cfgok (l : List RegName) : (s.noteReads l).cfgok = s.cfgok := rfl
@[simp] theorem State.noteReads_result (l : List RegName) : (s.noteReads l).result = s.result := rfl
@[simp] theorem State.noteReads_ovf (l : List RegName) : (s.noteReads l).ovf = s.ovf := rfl
@[simp] theorem State.noteReads_werr (l : List RegName) : (s.noteReads l).werr = s.werr := rfl
@[simp] theorem State.noteReads_buserr (l : List RegName) : (s.noteReads l).buserr = s.buserr := rfl
@[simp] theorem State.noteReads_errcode (l : List RegName) : (s.noteReads l).errcode = s.errcode := rfl
@[simp] theorem State.noteReads_cause (l : List RegName) : (s.noteReads l).cause = s.cause := rfl
@[simp] theorem State.noteReads_iter (l : List RegName) : (s.noteReads l).iter = s.iter := rfl
@[simp] theorem State.noteReads_itercap (l : List RegName) : (s.noteReads l).itercap = s.itercap := rfl
@[simp] theorem State.noteReads_bytelen (l : List RegName) : (s.noteReads l).bytelen = s.bytelen := rfl
@[simp] theorem State.noteReads_h (l : List RegName) : (s.noteReads l).h = s.h := rfl
@[simp] theorem State.noteReads_edw (l : List RegName) : (s.noteReads l).edw = s.edw := rfl
@[simp] theorem State.noteReads_stv (l : List RegName) : (s.noteReads l).stv = s.stv := rfl
@[simp] theorem State.noteReads_desc (l : List RegName) : (s.noteReads l).desc = s.desc := rfl
@[simp] theorem State.noteReads_phase (l : List RegName) : (s.noteReads l).phase = s.phase := rfl
@[simp] theorem State.noteReads_agenda (l : List RegName) : (s.noteReads l).agenda = s.agenda := rfl
@[simp] theorem State.noteReads_requests (l : List RegName) : (s.noteReads l).requests = s.requests := rfl
@[simp] theorem State.noteReads_draws (l : List RegName) : (s.noteReads l).draws = s.draws := rfl
@[simp] theorem State.noteReads_busRead (l : List RegName) : (s.noteReads l).busRead = s.busRead := rfl
@[simp] theorem State.noteReads_unwrittenRead (l : List RegName) : (s.noteReads l).unwrittenRead = (s.unwrittenRead || l.any (fun r => !s.regWritten r)) := rfl

@[simp] theorem State.setX_prm (i : XReg) (v : Nat) : (s.setX i v).prm = s.prm := rfl
@[simp] theorem State.setX_x (i : XReg) (v : Nat) : (s.setX i v).x = s.x.set i (.written v) := rfl
@[simp] theorem State.setX_q (i : XReg) (v : Nat) : (s.setX i v).q = s.q := rfl
@[simp] theorem State.setX_buf (i : XReg) (v : Nat) : (s.setX i v).buf = s.buf := rfl
@[simp] theorem State.setX_irqen (i : XReg) (v : Nat) : (s.setX i v).irqen = s.irqen := rfl
@[simp] theorem State.setX_cmd (i : XReg) (v : Nat) : (s.setX i v).cmd = s.cmd := rfl
@[simp] theorem State.setX_done (i : XReg) (v : Nat) : (s.setX i v).done = s.done := rfl
@[simp] theorem State.setX_err (i : XReg) (v : Nat) : (s.setX i v).err = s.err := rfl
@[simp] theorem State.setX_cfgok (i : XReg) (v : Nat) : (s.setX i v).cfgok = s.cfgok := rfl
@[simp] theorem State.setX_result (i : XReg) (v : Nat) : (s.setX i v).result = s.result := rfl
@[simp] theorem State.setX_ovf (i : XReg) (v : Nat) : (s.setX i v).ovf = s.ovf := rfl
@[simp] theorem State.setX_werr (i : XReg) (v : Nat) : (s.setX i v).werr = s.werr := rfl
@[simp] theorem State.setX_buserr (i : XReg) (v : Nat) : (s.setX i v).buserr = s.buserr := rfl
@[simp] theorem State.setX_errcode (i : XReg) (v : Nat) : (s.setX i v).errcode = s.errcode := rfl
@[simp] theorem State.setX_cause (i : XReg) (v : Nat) : (s.setX i v).cause = s.cause := rfl
@[simp] theorem State.setX_iter (i : XReg) (v : Nat) : (s.setX i v).iter = s.iter := rfl
@[simp] theorem State.setX_itercap (i : XReg) (v : Nat) : (s.setX i v).itercap = s.itercap := rfl
@[simp] theorem State.setX_bytelen (i : XReg) (v : Nat) : (s.setX i v).bytelen = s.bytelen := rfl
@[simp] theorem State.setX_h (i : XReg) (v : Nat) : (s.setX i v).h = s.h := rfl
@[simp] theorem State.setX_edw (i : XReg) (v : Nat) : (s.setX i v).edw = s.edw := rfl
@[simp] theorem State.setX_stv (i : XReg) (v : Nat) : (s.setX i v).stv = s.stv := rfl
@[simp] theorem State.setX_desc (i : XReg) (v : Nat) : (s.setX i v).desc = s.desc := rfl
@[simp] theorem State.setX_phase (i : XReg) (v : Nat) : (s.setX i v).phase = s.phase := rfl
@[simp] theorem State.setX_agenda (i : XReg) (v : Nat) : (s.setX i v).agenda = s.agenda := rfl
@[simp] theorem State.setX_requests (i : XReg) (v : Nat) : (s.setX i v).requests = s.requests := rfl
@[simp] theorem State.setX_draws (i : XReg) (v : Nat) : (s.setX i v).draws = s.draws := rfl
@[simp] theorem State.setX_busRead (i : XReg) (v : Nat) : (s.setX i v).busRead = s.busRead := rfl
@[simp] theorem State.setX_unwrittenRead (i : XReg) (v : Nat) : (s.setX i v).unwrittenRead = s.unwrittenRead := rfl

@[simp] theorem State.setQ_prm (j : QReg) (a b : Nat) (inf : Bool) : (s.setQ j a b inf).prm = s.prm := rfl
@[simp] theorem State.setQ_x (j : QReg) (a b : Nat) (inf : Bool) : (s.setQ j a b inf).x = s.x := rfl
@[simp] theorem State.setQ_q (j : QReg) (a b : Nat) (inf : Bool) : (s.setQ j a b inf).q = s.q.set j (.written a b inf) := rfl
@[simp] theorem State.setQ_buf (j : QReg) (a b : Nat) (inf : Bool) : (s.setQ j a b inf).buf = s.buf := rfl
@[simp] theorem State.setQ_irqen (j : QReg) (a b : Nat) (inf : Bool) : (s.setQ j a b inf).irqen = s.irqen := rfl
@[simp] theorem State.setQ_cmd (j : QReg) (a b : Nat) (inf : Bool) : (s.setQ j a b inf).cmd = s.cmd := rfl
@[simp] theorem State.setQ_done (j : QReg) (a b : Nat) (inf : Bool) : (s.setQ j a b inf).done = s.done := rfl
@[simp] theorem State.setQ_err (j : QReg) (a b : Nat) (inf : Bool) : (s.setQ j a b inf).err = s.err := rfl
@[simp] theorem State.setQ_cfgok (j : QReg) (a b : Nat) (inf : Bool) : (s.setQ j a b inf).cfgok = s.cfgok := rfl
@[simp] theorem State.setQ_result (j : QReg) (a b : Nat) (inf : Bool) : (s.setQ j a b inf).result = s.result := rfl
@[simp] theorem State.setQ_ovf (j : QReg) (a b : Nat) (inf : Bool) : (s.setQ j a b inf).ovf = s.ovf := rfl
@[simp] theorem State.setQ_werr (j : QReg) (a b : Nat) (inf : Bool) : (s.setQ j a b inf).werr = s.werr := rfl
@[simp] theorem State.setQ_buserr (j : QReg) (a b : Nat) (inf : Bool) : (s.setQ j a b inf).buserr = s.buserr := rfl
@[simp] theorem State.setQ_errcode (j : QReg) (a b : Nat) (inf : Bool) : (s.setQ j a b inf).errcode = s.errcode := rfl
@[simp] theorem State.setQ_cause (j : QReg) (a b : Nat) (inf : Bool) : (s.setQ j a b inf).cause = s.cause := rfl
@[simp] theorem State.setQ_iter (j : QReg) (a b : Nat) (inf : Bool) : (s.setQ j a b inf).iter = s.iter := rfl
@[simp] theorem State.setQ_itercap (j : QReg) (a b : Nat) (inf : Bool) : (s.setQ j a b inf).itercap = s.itercap := rfl
@[simp] theorem State.setQ_bytelen (j : QReg) (a b : Nat) (inf : Bool) : (s.setQ j a b inf).bytelen = s.bytelen := rfl
@[simp] theorem State.setQ_h (j : QReg) (a b : Nat) (inf : Bool) : (s.setQ j a b inf).h = s.h := rfl
@[simp] theorem State.setQ_edw (j : QReg) (a b : Nat) (inf : Bool) : (s.setQ j a b inf).edw = s.edw := rfl
@[simp] theorem State.setQ_stv (j : QReg) (a b : Nat) (inf : Bool) : (s.setQ j a b inf).stv = s.stv := rfl
@[simp] theorem State.setQ_desc (j : QReg) (a b : Nat) (inf : Bool) : (s.setQ j a b inf).desc = s.desc := rfl
@[simp] theorem State.setQ_phase (j : QReg) (a b : Nat) (inf : Bool) : (s.setQ j a b inf).phase = s.phase := rfl
@[simp] theorem State.setQ_agenda (j : QReg) (a b : Nat) (inf : Bool) : (s.setQ j a b inf).agenda = s.agenda := rfl
@[simp] theorem State.setQ_requests (j : QReg) (a b : Nat) (inf : Bool) : (s.setQ j a b inf).requests = s.requests := rfl
@[simp] theorem State.setQ_draws (j : QReg) (a b : Nat) (inf : Bool) : (s.setQ j a b inf).draws = s.draws := rfl
@[simp] theorem State.setQ_busRead (j : QReg) (a b : Nat) (inf : Bool) : (s.setQ j a b inf).busRead = s.busRead := rfl
@[simp] theorem State.setQ_unwrittenRead (j : QReg) (a b : Nat) (inf : Bool) : (s.setQ j a b inf).unwrittenRead = s.unwrittenRead := rfl

@[simp] theorem State.setPrm_prm (r : Prm) (v : WideReg) : (s.setPrm r v).prm = s.prm.set r.idx v := rfl
@[simp] theorem State.setPrm_x (r : Prm) (v : WideReg) : (s.setPrm r v).x = s.x := rfl
@[simp] theorem State.setPrm_q (r : Prm) (v : WideReg) : (s.setPrm r v).q = s.q := rfl
@[simp] theorem State.setPrm_buf (r : Prm) (v : WideReg) : (s.setPrm r v).buf = s.buf := rfl
@[simp] theorem State.setPrm_irqen (r : Prm) (v : WideReg) : (s.setPrm r v).irqen = s.irqen := rfl
@[simp] theorem State.setPrm_cmd (r : Prm) (v : WideReg) : (s.setPrm r v).cmd = s.cmd := rfl
@[simp] theorem State.setPrm_done (r : Prm) (v : WideReg) : (s.setPrm r v).done = s.done := rfl
@[simp] theorem State.setPrm_err (r : Prm) (v : WideReg) : (s.setPrm r v).err = s.err := rfl
@[simp] theorem State.setPrm_cfgok (r : Prm) (v : WideReg) : (s.setPrm r v).cfgok = s.cfgok := rfl
@[simp] theorem State.setPrm_result (r : Prm) (v : WideReg) : (s.setPrm r v).result = s.result := rfl
@[simp] theorem State.setPrm_ovf (r : Prm) (v : WideReg) : (s.setPrm r v).ovf = s.ovf := rfl
@[simp] theorem State.setPrm_werr (r : Prm) (v : WideReg) : (s.setPrm r v).werr = s.werr := rfl
@[simp] theorem State.setPrm_buserr (r : Prm) (v : WideReg) : (s.setPrm r v).buserr = s.buserr := rfl
@[simp] theorem State.setPrm_errcode (r : Prm) (v : WideReg) : (s.setPrm r v).errcode = s.errcode := rfl
@[simp] theorem State.setPrm_cause (r : Prm) (v : WideReg) : (s.setPrm r v).cause = s.cause := rfl
@[simp] theorem State.setPrm_iter (r : Prm) (v : WideReg) : (s.setPrm r v).iter = s.iter := rfl
@[simp] theorem State.setPrm_itercap (r : Prm) (v : WideReg) : (s.setPrm r v).itercap = s.itercap := rfl
@[simp] theorem State.setPrm_bytelen (r : Prm) (v : WideReg) : (s.setPrm r v).bytelen = s.bytelen := rfl
@[simp] theorem State.setPrm_h (r : Prm) (v : WideReg) : (s.setPrm r v).h = s.h := rfl
@[simp] theorem State.setPrm_edw (r : Prm) (v : WideReg) : (s.setPrm r v).edw = s.edw := rfl
@[simp] theorem State.setPrm_stv (r : Prm) (v : WideReg) : (s.setPrm r v).stv = s.stv := rfl
@[simp] theorem State.setPrm_desc (r : Prm) (v : WideReg) : (s.setPrm r v).desc = s.desc := rfl
@[simp] theorem State.setPrm_phase (r : Prm) (v : WideReg) : (s.setPrm r v).phase = s.phase := rfl
@[simp] theorem State.setPrm_agenda (r : Prm) (v : WideReg) : (s.setPrm r v).agenda = s.agenda := rfl
@[simp] theorem State.setPrm_requests (r : Prm) (v : WideReg) : (s.setPrm r v).requests = s.requests := rfl
@[simp] theorem State.setPrm_draws (r : Prm) (v : WideReg) : (s.setPrm r v).draws = s.draws := rfl
@[simp] theorem State.setPrm_busRead (r : Prm) (v : WideReg) : (s.setPrm r v).busRead = s.busRead := rfl
@[simp] theorem State.setPrm_unwrittenRead (r : Prm) (v : WideReg) : (s.setPrm r v).unwrittenRead = s.unwrittenRead := rfl

@[simp] theorem State.writeBuf_prm (off : Nat) (bs : List Byte) : (s.writeBuf off bs).prm = s.prm := rfl
@[simp] theorem State.writeBuf_x (off : Nat) (bs : List Byte) : (s.writeBuf off bs).x = s.x := rfl
@[simp] theorem State.writeBuf_q (off : Nat) (bs : List Byte) : (s.writeBuf off bs).q = s.q := rfl
@[simp] theorem State.writeBuf_buf (off : Nat) (bs : List Byte) : (s.writeBuf off bs).buf = s.buf.writeBytes off bs := rfl
@[simp] theorem State.writeBuf_irqen (off : Nat) (bs : List Byte) : (s.writeBuf off bs).irqen = s.irqen := rfl
@[simp] theorem State.writeBuf_cmd (off : Nat) (bs : List Byte) : (s.writeBuf off bs).cmd = s.cmd := rfl
@[simp] theorem State.writeBuf_done (off : Nat) (bs : List Byte) : (s.writeBuf off bs).done = s.done := rfl
@[simp] theorem State.writeBuf_err (off : Nat) (bs : List Byte) : (s.writeBuf off bs).err = s.err := rfl
@[simp] theorem State.writeBuf_cfgok (off : Nat) (bs : List Byte) : (s.writeBuf off bs).cfgok = s.cfgok := rfl
@[simp] theorem State.writeBuf_result (off : Nat) (bs : List Byte) : (s.writeBuf off bs).result = s.result := rfl
@[simp] theorem State.writeBuf_ovf (off : Nat) (bs : List Byte) : (s.writeBuf off bs).ovf = s.ovf := rfl
@[simp] theorem State.writeBuf_werr (off : Nat) (bs : List Byte) : (s.writeBuf off bs).werr = s.werr := rfl
@[simp] theorem State.writeBuf_buserr (off : Nat) (bs : List Byte) : (s.writeBuf off bs).buserr = s.buserr := rfl
@[simp] theorem State.writeBuf_errcode (off : Nat) (bs : List Byte) : (s.writeBuf off bs).errcode = s.errcode := rfl
@[simp] theorem State.writeBuf_cause (off : Nat) (bs : List Byte) : (s.writeBuf off bs).cause = s.cause := rfl
@[simp] theorem State.writeBuf_iter (off : Nat) (bs : List Byte) : (s.writeBuf off bs).iter = s.iter := rfl
@[simp] theorem State.writeBuf_itercap (off : Nat) (bs : List Byte) : (s.writeBuf off bs).itercap = s.itercap := rfl
@[simp] theorem State.writeBuf_bytelen (off : Nat) (bs : List Byte) : (s.writeBuf off bs).bytelen = s.bytelen := rfl
@[simp] theorem State.writeBuf_h (off : Nat) (bs : List Byte) : (s.writeBuf off bs).h = s.h := rfl
@[simp] theorem State.writeBuf_edw (off : Nat) (bs : List Byte) : (s.writeBuf off bs).edw = s.edw := rfl
@[simp] theorem State.writeBuf_stv (off : Nat) (bs : List Byte) : (s.writeBuf off bs).stv = s.stv := rfl
@[simp] theorem State.writeBuf_desc (off : Nat) (bs : List Byte) : (s.writeBuf off bs).desc = s.desc := rfl
@[simp] theorem State.writeBuf_phase (off : Nat) (bs : List Byte) : (s.writeBuf off bs).phase = s.phase := rfl
@[simp] theorem State.writeBuf_agenda (off : Nat) (bs : List Byte) : (s.writeBuf off bs).agenda = s.agenda := rfl
@[simp] theorem State.writeBuf_requests (off : Nat) (bs : List Byte) : (s.writeBuf off bs).requests = s.requests := rfl
@[simp] theorem State.writeBuf_draws (off : Nat) (bs : List Byte) : (s.writeBuf off bs).draws = s.draws := rfl
@[simp] theorem State.writeBuf_busRead (off : Nat) (bs : List Byte) : (s.writeBuf off bs).busRead = s.busRead := rfl
@[simp] theorem State.writeBuf_unwrittenRead (off : Nat) (bs : List Byte) : (s.writeBuf off bs).unwrittenRead = s.unwrittenRead := rfl

@[simp] theorem State.complete_prm : (s.complete).prm = s.prm := rfl
@[simp] theorem State.complete_x : (s.complete).x = s.x := rfl
@[simp] theorem State.complete_q : (s.complete).q = s.q := rfl
@[simp] theorem State.complete_buf : (s.complete).buf = s.buf := rfl
@[simp] theorem State.complete_irqen : (s.complete).irqen = s.irqen := rfl
@[simp] theorem State.complete_cmd : (s.complete).cmd = s.cmd := rfl
@[simp] theorem State.complete_done : (s.complete).done = true := rfl
@[simp] theorem State.complete_err : (s.complete).err = s.err := rfl
@[simp] theorem State.complete_cfgok : (s.complete).cfgok = s.cfgok := rfl
@[simp] theorem State.complete_result : (s.complete).result = s.result := rfl
@[simp] theorem State.complete_ovf : (s.complete).ovf = s.ovf := rfl
@[simp] theorem State.complete_werr : (s.complete).werr = s.werr := rfl
@[simp] theorem State.complete_buserr : (s.complete).buserr = s.buserr := rfl
@[simp] theorem State.complete_errcode : (s.complete).errcode = s.errcode := rfl
@[simp] theorem State.complete_cause : (s.complete).cause = s.cause := rfl
@[simp] theorem State.complete_iter : (s.complete).iter = s.iter := rfl
@[simp] theorem State.complete_itercap : (s.complete).itercap = s.itercap := rfl
@[simp] theorem State.complete_bytelen : (s.complete).bytelen = s.bytelen := rfl
@[simp] theorem State.complete_h : (s.complete).h = s.h := rfl
@[simp] theorem State.complete_edw : (s.complete).edw = s.edw := rfl
@[simp] theorem State.complete_stv : (s.complete).stv = s.stv := rfl
@[simp] theorem State.complete_desc : (s.complete).desc = s.desc := rfl
@[simp] theorem State.complete_phase : (s.complete).phase = .idle := rfl
@[simp] theorem State.complete_agenda : (s.complete).agenda = s.agenda := rfl
@[simp] theorem State.complete_requests : (s.complete).requests = s.requests := rfl
@[simp] theorem State.complete_draws : (s.complete).draws = s.draws := rfl
@[simp] theorem State.complete_busRead : (s.complete).busRead = s.busRead := rfl
@[simp] theorem State.complete_unwrittenRead : (s.complete).unwrittenRead = s.unwrittenRead := rfl

@[simp] theorem State.raise_prm (c : Cause) : (s.raise c).prm = s.prm := rfl
@[simp] theorem State.raise_x (c : Cause) : (s.raise c).x = s.x := rfl
@[simp] theorem State.raise_q (c : Cause) : (s.raise c).q = s.q := rfl
@[simp] theorem State.raise_buf (c : Cause) : (s.raise c).buf = s.buf := rfl
@[simp] theorem State.raise_irqen (c : Cause) : (s.raise c).irqen = s.irqen := rfl
@[simp] theorem State.raise_cmd (c : Cause) : (s.raise c).cmd = s.cmd := rfl
@[simp] theorem State.raise_done (c : Cause) : (s.raise c).done = true := rfl
@[simp] theorem State.raise_err (c : Cause) : (s.raise c).err = true := rfl
@[simp] theorem State.raise_cfgok (c : Cause) : (s.raise c).cfgok = s.cfgok := rfl
@[simp] theorem State.raise_result (c : Cause) : (s.raise c).result = s.result := rfl
@[simp] theorem State.raise_ovf (c : Cause) : (s.raise c).ovf = s.ovf := rfl
@[simp] theorem State.raise_werr (c : Cause) : (s.raise c).werr = s.werr := rfl
@[simp] theorem State.raise_buserr (c : Cause) : (s.raise c).buserr = s.buserr := rfl
@[simp] theorem State.raise_errcode (c : Cause) : (s.raise c).errcode = classCode (classOf c) := rfl
@[simp] theorem State.raise_cause (c : Cause) : (s.raise c).cause = causeCode c := rfl
@[simp] theorem State.raise_iter (c : Cause) : (s.raise c).iter = s.iter := rfl
@[simp] theorem State.raise_itercap (c : Cause) : (s.raise c).itercap = s.itercap := rfl
@[simp] theorem State.raise_bytelen (c : Cause) : (s.raise c).bytelen = s.bytelen := rfl
@[simp] theorem State.raise_h (c : Cause) : (s.raise c).h = s.h := rfl
@[simp] theorem State.raise_edw (c : Cause) : (s.raise c).edw = s.edw := rfl
@[simp] theorem State.raise_stv (c : Cause) : (s.raise c).stv = s.stv := rfl
@[simp] theorem State.raise_desc (c : Cause) : (s.raise c).desc = s.desc := rfl
@[simp] theorem State.raise_phase (c : Cause) : (s.raise c).phase = .idle := rfl
@[simp] theorem State.raise_agenda (c : Cause) : (s.raise c).agenda = s.agenda := rfl
@[simp] theorem State.raise_requests (c : Cause) : (s.raise c).requests = s.requests := rfl
@[simp] theorem State.raise_draws (c : Cause) : (s.raise c).draws = s.draws := rfl
@[simp] theorem State.raise_busRead (c : Cause) : (s.raise c).busRead = s.busRead := rfl
@[simp] theorem State.raise_unwrittenRead (c : Cause) : (s.raise c).unwrittenRead = s.unwrittenRead := rfl

@[simp] theorem State.accept_prm (w : Word) : (s.accept w).prm = s.prm := rfl
@[simp] theorem State.accept_x (w : Word) : (s.accept w).x = s.x := rfl
@[simp] theorem State.accept_q (w : Word) : (s.accept w).q = s.q := rfl
@[simp] theorem State.accept_buf (w : Word) : (s.accept w).buf = s.buf := rfl
@[simp] theorem State.accept_irqen (w : Word) : (s.accept w).irqen = s.irqen := rfl
@[simp] theorem State.accept_cmd (w : Word) : (s.accept w).cmd = w := rfl
@[simp] theorem State.accept_done (w : Word) : (s.accept w).done = false := rfl
@[simp] theorem State.accept_err (w : Word) : (s.accept w).err = s.err := rfl
@[simp] theorem State.accept_cfgok (w : Word) : (s.accept w).cfgok = s.cfgok := rfl
@[simp] theorem State.accept_result (w : Word) : (s.accept w).result = s.result := rfl
@[simp] theorem State.accept_ovf (w : Word) : (s.accept w).ovf = s.ovf := rfl
@[simp] theorem State.accept_werr (w : Word) : (s.accept w).werr = s.werr := rfl
@[simp] theorem State.accept_buserr (w : Word) : (s.accept w).buserr = s.buserr := rfl
@[simp] theorem State.accept_errcode (w : Word) : (s.accept w).errcode = s.errcode := rfl
@[simp] theorem State.accept_cause (w : Word) : (s.accept w).cause = s.cause := rfl
@[simp] theorem State.accept_iter (w : Word) : (s.accept w).iter = s.iter := rfl
@[simp] theorem State.accept_itercap (w : Word) : (s.accept w).itercap = s.itercap := rfl
@[simp] theorem State.accept_bytelen (w : Word) : (s.accept w).bytelen = s.bytelen := rfl
@[simp] theorem State.accept_h (w : Word) : (s.accept w).h = s.h := rfl
@[simp] theorem State.accept_edw (w : Word) : (s.accept w).edw = s.edw := rfl
@[simp] theorem State.accept_stv (w : Word) : (s.accept w).stv = s.stv := rfl
@[simp] theorem State.accept_desc (w : Word) : (s.accept w).desc = s.desc := rfl
@[simp] theorem State.accept_phase (w : Word) : (s.accept w).phase = .accepted := rfl
@[simp] theorem State.accept_agenda (w : Word) : (s.accept w).agenda = s.agenda := rfl
@[simp] theorem State.accept_requests (w : Word) : (s.accept w).requests = s.requests := rfl
@[simp] theorem State.accept_draws (w : Word) : (s.accept w).draws = s.draws := rfl
@[simp] theorem State.accept_busRead (w : Word) : (s.accept w).busRead = s.busRead := rfl
@[simp] theorem State.accept_unwrittenRead (w : Word) : (s.accept w).unwrittenRead = s.unwrittenRead := rfl

@[simp] theorem State.clearStatus_prm (w : Word) : (s.clearStatus w).prm = s.prm := rfl
@[simp] theorem State.clearStatus_x (w : Word) : (s.clearStatus w).x = s.x := rfl
@[simp] theorem State.clearStatus_q (w : Word) : (s.clearStatus w).q = s.q := rfl
@[simp] theorem State.clearStatus_buf (w : Word) : (s.clearStatus w).buf = s.buf := rfl
@[simp] theorem State.clearStatus_irqen (w : Word) : (s.clearStatus w).irqen = s.irqen := rfl
@[simp] theorem State.clearStatus_cmd (w : Word) : (s.clearStatus w).cmd = s.cmd := rfl
@[simp] theorem State.clearStatus_done (w : Word) : (s.clearStatus w).done = (s.done && !w.getLsbD 1) := rfl
@[simp] theorem State.clearStatus_err (w : Word) : (s.clearStatus w).err = (s.err && !w.getLsbD 2) := rfl
@[simp] theorem State.clearStatus_cfgok (w : Word) : (s.clearStatus w).cfgok = s.cfgok := rfl
@[simp] theorem State.clearStatus_result (w : Word) : (s.clearStatus w).result = s.result := rfl
@[simp] theorem State.clearStatus_ovf (w : Word) : (s.clearStatus w).ovf = (s.ovf && !w.getLsbD 6) := rfl
@[simp] theorem State.clearStatus_werr (w : Word) : (s.clearStatus w).werr = (s.werr && !w.getLsbD 7) := rfl
@[simp] theorem State.clearStatus_buserr (w : Word) : (s.clearStatus w).buserr = (s.buserr && !w.getLsbD 8) := rfl
@[simp] theorem State.clearStatus_errcode (w : Word) : (s.clearStatus w).errcode = (if w.getLsbD 2 then 0 else s.errcode) := rfl
@[simp] theorem State.clearStatus_cause (w : Word) : (s.clearStatus w).cause = (if w.getLsbD 2 then 0 else s.cause) := rfl
@[simp] theorem State.clearStatus_iter (w : Word) : (s.clearStatus w).iter = s.iter := rfl
@[simp] theorem State.clearStatus_itercap (w : Word) : (s.clearStatus w).itercap = s.itercap := rfl
@[simp] theorem State.clearStatus_bytelen (w : Word) : (s.clearStatus w).bytelen = s.bytelen := rfl
@[simp] theorem State.clearStatus_h (w : Word) : (s.clearStatus w).h = s.h := rfl
@[simp] theorem State.clearStatus_edw (w : Word) : (s.clearStatus w).edw = s.edw := rfl
@[simp] theorem State.clearStatus_stv (w : Word) : (s.clearStatus w).stv = s.stv := rfl
@[simp] theorem State.clearStatus_desc (w : Word) : (s.clearStatus w).desc = s.desc := rfl
@[simp] theorem State.clearStatus_phase (w : Word) : (s.clearStatus w).phase = s.phase := rfl
@[simp] theorem State.clearStatus_agenda (w : Word) : (s.clearStatus w).agenda = s.agenda := rfl
@[simp] theorem State.clearStatus_requests (w : Word) : (s.clearStatus w).requests = s.requests := rfl
@[simp] theorem State.clearStatus_draws (w : Word) : (s.clearStatus w).draws = s.draws := rfl
@[simp] theorem State.clearStatus_busRead (w : Word) : (s.clearStatus w).busRead = s.busRead := rfl
@[simp] theorem State.clearStatus_unwrittenRead (w : Word) : (s.clearStatus w).unwrittenRead = s.unwrittenRead := rfl

@[simp] theorem State.softReset_prm : (s.softReset).prm = s.prm := rfl
@[simp] theorem State.softReset_x : (s.softReset).x = s.x := rfl
@[simp] theorem State.softReset_q : (s.softReset).q = s.q := rfl
@[simp] theorem State.softReset_buf : (s.softReset).buf = s.buf := rfl
@[simp] theorem State.softReset_irqen : (s.softReset).irqen = false := rfl
@[simp] theorem State.softReset_cmd : (s.softReset).cmd = 0 := rfl
@[simp] theorem State.softReset_done : (s.softReset).done = false := rfl
@[simp] theorem State.softReset_err : (s.softReset).err = false := rfl
@[simp] theorem State.softReset_cfgok : (s.softReset).cfgok = false := rfl
@[simp] theorem State.softReset_result : (s.softReset).result = false := rfl
@[simp] theorem State.softReset_ovf : (s.softReset).ovf = false := rfl
@[simp] theorem State.softReset_werr : (s.softReset).werr = false := rfl
@[simp] theorem State.softReset_buserr : (s.softReset).buserr = false := rfl
@[simp] theorem State.softReset_errcode : (s.softReset).errcode = 0 := rfl
@[simp] theorem State.softReset_cause : (s.softReset).cause = 0 := rfl
@[simp] theorem State.softReset_iter : (s.softReset).iter = 0 := rfl
@[simp] theorem State.softReset_itercap : (s.softReset).itercap = 0 := rfl
@[simp] theorem State.softReset_bytelen : (s.softReset).bytelen = 0 := rfl
@[simp] theorem State.softReset_h : (s.softReset).h = 0 := rfl
@[simp] theorem State.softReset_edw : (s.softReset).edw = false := rfl
@[simp] theorem State.softReset_stv : (s.softReset).stv = false := rfl
@[simp] theorem State.softReset_desc : (s.softReset).desc = Vector.replicate 4 ⟨0, 0⟩ := rfl
@[simp] theorem State.softReset_phase : (s.softReset).phase = .idle := rfl
@[simp] theorem State.softReset_agenda : (s.softReset).agenda = s.agenda := rfl
@[simp] theorem State.softReset_requests : (s.softReset).requests = s.requests := rfl
@[simp] theorem State.softReset_draws : (s.softReset).draws = s.draws := rfl
@[simp] theorem State.softReset_busRead : (s.softReset).busRead = s.busRead := rfl
@[simp] theorem State.softReset_unwrittenRead : (s.softReset).unwrittenRead = s.unwrittenRead := rfl

/-! The accessors after the updates that leave their registers alone. -/

@[simp] theorem State.noteReads_prmReg (l : List RegName) (r : Prm) : (s.noteReads l).prmReg r = s.prmReg r := rfl
@[simp] theorem State.noteReads_prmVal (l : List RegName) (r : Prm) : (s.noteReads l).prmVal r = s.prmVal r := rfl
@[simp] theorem State.noteReads_xVal (l : List RegName) (i : XReg) : (s.noteReads l).xVal i = s.xVal i := rfl
@[simp] theorem State.noteReads_curve (l : List RegName) : (s.noteReads l).curve = s.curve := rfl
@[simp] theorem State.noteReads_gen (l : List RegName) : (s.noteReads l).gen = s.gen := rfl
@[simp] theorem State.noteReads_bl (l : List RegName) : (s.noteReads l).bl = s.bl := rfl
@[simp] theorem State.noteReads_descOff (l : List RegName) (k : DescSel) : (s.noteReads l).descOff k = s.descOff k := rfl
@[simp] theorem State.noteReads_descLen (l : List RegName) (k : DescSel) : (s.noteReads l).descLen k = s.descLen k := rfl
@[simp] theorem State.noteReads_descOk (l : List RegName) (k : DescSel) : (s.noteReads l).descOk k = s.descOk k := rfl
@[simp] theorem State.noteReads_ptRead (l : List RegName) (j : QReg) : (s.noteReads l).ptRead j = s.ptRead j := rfl
@[simp] theorem State.setX_prmReg (i : XReg) (v : Nat) (r : Prm) : (s.setX i v).prmReg r = s.prmReg r := rfl
@[simp] theorem State.setX_prmVal (i : XReg) (v : Nat) (r : Prm) : (s.setX i v).prmVal r = s.prmVal r := rfl
@[simp] theorem State.setX_curve (i : XReg) (v : Nat) : (s.setX i v).curve = s.curve := rfl
@[simp] theorem State.setX_gen (i : XReg) (v : Nat) : (s.setX i v).gen = s.gen := rfl
@[simp] theorem State.setX_bl (i : XReg) (v : Nat) : (s.setX i v).bl = s.bl := rfl
@[simp] theorem State.setX_descOff (i : XReg) (v : Nat) (k : DescSel) : (s.setX i v).descOff k = s.descOff k := rfl
@[simp] theorem State.setX_descLen (i : XReg) (v : Nat) (k : DescSel) : (s.setX i v).descLen k = s.descLen k := rfl
@[simp] theorem State.setX_descOk (i : XReg) (v : Nat) (k : DescSel) : (s.setX i v).descOk k = s.descOk k := rfl
@[simp] theorem State.setX_ptRead (i : XReg) (v : Nat) (j : QReg) : (s.setX i v).ptRead j = s.ptRead j := rfl
@[simp] theorem State.setQ_prmReg (j : QReg) (a b : Nat) (inf : Bool) (r : Prm) : (s.setQ j a b inf).prmReg r = s.prmReg r := rfl
@[simp] theorem State.setQ_prmVal (j : QReg) (a b : Nat) (inf : Bool) (r : Prm) : (s.setQ j a b inf).prmVal r = s.prmVal r := rfl
@[simp] theorem State.setQ_xVal (j : QReg) (a b : Nat) (inf : Bool) (i : XReg) : (s.setQ j a b inf).xVal i = s.xVal i := rfl
@[simp] theorem State.setQ_curve (j : QReg) (a b : Nat) (inf : Bool) : (s.setQ j a b inf).curve = s.curve := rfl
@[simp] theorem State.setQ_gen (j : QReg) (a b : Nat) (inf : Bool) : (s.setQ j a b inf).gen = s.gen := rfl
@[simp] theorem State.setQ_bl (j : QReg) (a b : Nat) (inf : Bool) : (s.setQ j a b inf).bl = s.bl := rfl
@[simp] theorem State.setQ_descOff (j : QReg) (a b : Nat) (inf : Bool) (k : DescSel) : (s.setQ j a b inf).descOff k = s.descOff k := rfl
@[simp] theorem State.setQ_descLen (j : QReg) (a b : Nat) (inf : Bool) (k : DescSel) : (s.setQ j a b inf).descLen k = s.descLen k := rfl
@[simp] theorem State.setQ_descOk (j : QReg) (a b : Nat) (inf : Bool) (k : DescSel) : (s.setQ j a b inf).descOk k = s.descOk k := rfl
@[simp] theorem State.writeBuf_prmReg (off : Nat) (bs : List Byte) (r : Prm) : (s.writeBuf off bs).prmReg r = s.prmReg r := rfl
@[simp] theorem State.writeBuf_prmVal (off : Nat) (bs : List Byte) (r : Prm) : (s.writeBuf off bs).prmVal r = s.prmVal r := rfl
@[simp] theorem State.writeBuf_xVal (off : Nat) (bs : List Byte) (i : XReg) : (s.writeBuf off bs).xVal i = s.xVal i := rfl
@[simp] theorem State.writeBuf_curve (off : Nat) (bs : List Byte) : (s.writeBuf off bs).curve = s.curve := rfl
@[simp] theorem State.writeBuf_gen (off : Nat) (bs : List Byte) : (s.writeBuf off bs).gen = s.gen := rfl
@[simp] theorem State.writeBuf_bl (off : Nat) (bs : List Byte) : (s.writeBuf off bs).bl = s.bl := rfl
@[simp] theorem State.writeBuf_descOff (off : Nat) (bs : List Byte) (k : DescSel) : (s.writeBuf off bs).descOff k = s.descOff k := rfl
@[simp] theorem State.writeBuf_descLen (off : Nat) (bs : List Byte) (k : DescSel) : (s.writeBuf off bs).descLen k = s.descLen k := rfl
@[simp] theorem State.writeBuf_descOk (off : Nat) (bs : List Byte) (k : DescSel) : (s.writeBuf off bs).descOk k = s.descOk k := rfl
@[simp] theorem State.writeBuf_ptRead (off : Nat) (bs : List Byte) (j : QReg) : (s.writeBuf off bs).ptRead j = s.ptRead j := rfl
@[simp] theorem State.complete_prmReg (r : Prm) : (s.complete).prmReg r = s.prmReg r := rfl
@[simp] theorem State.complete_prmVal (r : Prm) : (s.complete).prmVal r = s.prmVal r := rfl
@[simp] theorem State.complete_xVal (i : XReg) : (s.complete).xVal i = s.xVal i := rfl
@[simp] theorem State.complete_curve : (s.complete).curve = s.curve := rfl
@[simp] theorem State.complete_gen : (s.complete).gen = s.gen := rfl
@[simp] theorem State.complete_bl : (s.complete).bl = s.bl := rfl
@[simp] theorem State.complete_descOff (k : DescSel) : (s.complete).descOff k = s.descOff k := rfl
@[simp] theorem State.complete_descLen (k : DescSel) : (s.complete).descLen k = s.descLen k := rfl
@[simp] theorem State.complete_descOk (k : DescSel) : (s.complete).descOk k = s.descOk k := rfl
@[simp] theorem State.complete_ptRead (j : QReg) : (s.complete).ptRead j = s.ptRead j := rfl
@[simp] theorem State.raise_prmReg (c : Cause) (r : Prm) : (s.raise c).prmReg r = s.prmReg r := rfl
@[simp] theorem State.raise_prmVal (c : Cause) (r : Prm) : (s.raise c).prmVal r = s.prmVal r := rfl
@[simp] theorem State.raise_xVal (c : Cause) (i : XReg) : (s.raise c).xVal i = s.xVal i := rfl
@[simp] theorem State.raise_curve (c : Cause) : (s.raise c).curve = s.curve := rfl
@[simp] theorem State.raise_gen (c : Cause) : (s.raise c).gen = s.gen := rfl
@[simp] theorem State.raise_bl (c : Cause) : (s.raise c).bl = s.bl := rfl
@[simp] theorem State.raise_descOff (c : Cause) (k : DescSel) : (s.raise c).descOff k = s.descOff k := rfl
@[simp] theorem State.raise_descLen (c : Cause) (k : DescSel) : (s.raise c).descLen k = s.descLen k := rfl
@[simp] theorem State.raise_descOk (c : Cause) (k : DescSel) : (s.raise c).descOk k = s.descOk k := rfl
@[simp] theorem State.raise_ptRead (c : Cause) (j : QReg) : (s.raise c).ptRead j = s.ptRead j := rfl

@[simp] theorem State.complete_busy : s.complete.busy = false := rfl

@[simp] theorem State.finishResult_prm (b : Bool) : (s.finishResult b).prm = s.prm := rfl
@[simp] theorem State.finishResult_x (b : Bool) : (s.finishResult b).x = s.x := rfl
@[simp] theorem State.finishResult_q (b : Bool) : (s.finishResult b).q = s.q := rfl
@[simp] theorem State.finishResult_buf (b : Bool) : (s.finishResult b).buf = s.buf := rfl
@[simp] theorem State.finishResult_irqen (b : Bool) : (s.finishResult b).irqen = s.irqen := rfl
@[simp] theorem State.finishResult_cmd (b : Bool) : (s.finishResult b).cmd = s.cmd := rfl
@[simp] theorem State.finishResult_done (b : Bool) : (s.finishResult b).done = true := rfl
@[simp] theorem State.finishResult_err (b : Bool) : (s.finishResult b).err = s.err := rfl
@[simp] theorem State.finishResult_cfgok (b : Bool) : (s.finishResult b).cfgok = s.cfgok := rfl
@[simp] theorem State.finishResult_result (b : Bool) : (s.finishResult b).result = b := rfl
@[simp] theorem State.finishResult_ovf (b : Bool) : (s.finishResult b).ovf = s.ovf := rfl
@[simp] theorem State.finishResult_werr (b : Bool) : (s.finishResult b).werr = s.werr := rfl
@[simp] theorem State.finishResult_buserr (b : Bool) : (s.finishResult b).buserr = s.buserr := rfl
@[simp] theorem State.finishResult_errcode (b : Bool) : (s.finishResult b).errcode = s.errcode := rfl
@[simp] theorem State.finishResult_cause (b : Bool) : (s.finishResult b).cause = s.cause := rfl
@[simp] theorem State.finishResult_iter (b : Bool) : (s.finishResult b).iter = s.iter := rfl
@[simp] theorem State.finishResult_itercap (b : Bool) : (s.finishResult b).itercap = s.itercap := rfl
@[simp] theorem State.finishResult_bytelen (b : Bool) : (s.finishResult b).bytelen = s.bytelen := rfl
@[simp] theorem State.finishResult_h (b : Bool) : (s.finishResult b).h = s.h := rfl
@[simp] theorem State.finishResult_edw (b : Bool) : (s.finishResult b).edw = s.edw := rfl
@[simp] theorem State.finishResult_stv (b : Bool) : (s.finishResult b).stv = s.stv := rfl
@[simp] theorem State.finishResult_desc (b : Bool) : (s.finishResult b).desc = s.desc := rfl
@[simp] theorem State.finishResult_phase (b : Bool) : (s.finishResult b).phase = .idle := rfl
@[simp] theorem State.finishResult_agenda (b : Bool) : (s.finishResult b).agenda = s.agenda := rfl
@[simp] theorem State.finishResult_requests (b : Bool) : (s.finishResult b).requests = s.requests := rfl
@[simp] theorem State.finishResult_draws (b : Bool) : (s.finishResult b).draws = s.draws := rfl
@[simp] theorem State.finishResult_busRead (b : Bool) : (s.finishResult b).busRead = s.busRead := rfl
@[simp] theorem State.finishResult_unwrittenRead (b : Bool) : (s.finishResult b).unwrittenRead = s.unwrittenRead := rfl
@[simp] theorem State.raise_busy (c : Cause) : (s.raise c).busy = false := rfl
@[simp] theorem State.accept_busy (w : Word) : (s.accept w).busy = true := rfl
@[simp] theorem State.softReset_busy : s.softReset.busy = false := rfl

theorem State.busy_eq_false_iff : s.busy = false ↔ s.phase = .idle := by
  unfold State.busy; cases s.phase <;> simp

/-! The shared endings of a command, by case. -/

@[simp] theorem State.finishX_ok (rd : XReg) (v : Nat) : s.finishX rd (.ok v) = (s.setX rd v).complete := rfl
@[simp] theorem State.finishX_error (rd : XReg) (c : Cause) : s.finishX rd (.error c) = s.raise c := rfl
@[simp] theorem State.finishQ_ok (qd : QReg) (p : Point) : s.finishQ qd (.ok p) = (s.setPoint qd p).complete := rfl
@[simp] theorem State.finishQ_error (qd : QReg) (c : Cause) : s.finishQ qd (.error c) = s.raise c := rfl
@[simp] theorem State.setPoint_infinity (j : QReg) : s.setPoint j .infinity = s.setQ j 0 0 true := rfl
@[simp] theorem State.setPoint_affine (j : QReg) (x y : Nat) : s.setPoint j (.affine x y) = s.setQ j x y false := rfl
@[simp] theorem orNotInvertible_none {α : Type} : orNotInvertible (none : Option α) = .error .notInvertible := rfl
@[simp] theorem orNotInvertible_some {α : Type} (a : α) : orNotInvertible (some a) = .ok a := rfl

/-! Registers after a write of a register. -/

set_option exponentiation.threshold 512 in
theorem WideReg.written_val (v : Nat) (h : v < 2 ^ 512) : (WideReg.written v).val.toNat = v := by
  rw [WideReg.written, BitVec.toNat_ofNat, Nat.mod_eq_of_lt h]

@[simp] theorem WideReg.written_isWritten (v : Nat) : (WideReg.written v).isWritten = true := by
  simp [WideReg.written, WideReg.isWritten]

theorem State.setX_same (i : XReg) (v : Nat) : (s.setX i v).x[i] = .written v := by simp

theorem State.setX_other (i k : XReg) (v : Nat) (h : k ≠ i) : (s.setX i v).x[k] = s.x[k] := by
  have h' : i.val ≠ k.val := fun e => h (Fin.ext e.symm)
  simp [h']

set_option exponentiation.threshold 512 in
theorem State.setX_xVal_same (i : XReg) (v : Nat) (h : v < 2 ^ 512) : (s.setX i v).xVal i = v := by
  rw [State.xVal, State.setX_same, WideReg.written_val v h]

theorem State.setQ_same (j : QReg) (a b : Nat) (inf : Bool) : (s.setQ j a b inf).q[j] = .written a b inf := by simp

theorem State.setQ_other (j k : QReg) (a b : Nat) (inf : Bool) (h : k ≠ j) : (s.setQ j a b inf).q[k] = s.q[k] := by
  have h' : j.val ≠ k.val := fun e => h (Fin.ext e.symm)
  simp [h']

theorem Prm.idx_injective {r r' : Prm} (h : r.idx = r'.idx) : r = r' := by
  cases r <;> cases r' <;> first | rfl | exact absurd h (by decide)

theorem State.setPrm_same (r : Prm) (v : WideReg) : (s.setPrm r v).prmReg r = v := by simp [State.prmReg]

theorem State.setPrm_other (r r' : Prm) (v : WideReg) (h : r' ≠ r) : (s.setPrm r v).prmReg r' = s.prmReg r' := by
  have h' : r.idx.val ≠ r'.idx.val := fun e => h (Prm.idx_injective (Fin.ext e.symm))
  simp [State.prmReg, h']

set_option exponentiation.threshold 512 in
/-- The value of a wide register is below 2^512 (00_scope.md R8). -/
theorem State.prmVal_lt (r : Prm) : s.prmVal r < 2 ^ 512 := (s.prmReg r).val.isLt

set_option exponentiation.threshold 512 in
theorem State.xVal_lt (i : XReg) : s.xVal i < 2 ^ 512 := s.x[i].val.isLt

end Sys2Proof.Machine
end

