-- ==== Sys2Proof/Laws/Bus.lean ====
section
/-! SUPPORT. The region map read at the offset of each register (20_memory.md R40), what one step does when the next move is a
host access (R45, R46), and the operand reads of an accepted command (60_exceptions.md R142). -/

namespace Sys2Proof.Machine

/-- A full-width access is performed where its offset is aligned and mapped (20_memory.md R45, R46). -/
theorem Access.target_full (o : Nat) (op : BusOp) :
    (⟨o, 0xF, op⟩ : Access).target = if o % 4 = 0 then targetAt o else none := by
  simp [Access.target]

/-- A step whose next move is a host access is that move (10_state.md R15). -/
theorem step_host (s : State) (a : Access) : step { s with agenda := .host a :: s.agenda } = hostMove a s := rfl

/-- A performed write (20_memory.md R49, R50). -/
theorem hostAccess_write (s : State) (a : Access) (t : Target) (w : Word) (ht : a.target = some t) (ho : a.op = .write w) :
    hostAccess a s = .next (s.hostWrite t w) := by simp [hostAccess, ht, ho]

/-- A performed read (20_memory.md R49, R50). -/
theorem hostAccess_read (s : State) (a : Access) (t : Target) (ht : a.target = some t) (ho : a.op = .read) :
    hostAccess a s = hostRead t s := by simp [hostAccess, ht, ho]

/-- An access that is not performed (20_memory.md R45, R46). -/
theorem hostAccess_none (s : State) (a : Access) (ht : a.target = none) :
    hostAccess a s = .next (if a.op = .read then { s with buserr := true, busRead := some 0 } else { s with buserr := true }) := by
  cases ho : a.op <;> simp [hostAccess, ht, ho]

/-- A write while BUSY = 0 is performed (20_memory.md R50). -/
theorem State.hostWrite_idle (s : State) (t : Target) (w : Word) (h : s.busy = false) :
    s.hostWrite t w = s.performWrite t w := by simp [State.hostWrite, h]

/-- A write of CTRL, CMD or STATUS is performed in every state (20_memory.md R50). -/
theorem State.hostWrite_always (s : State) (t : Target) (w : Word) (h : t.writableBusy = true) :
    s.hostWrite t w = s.performWrite t w := by simp [State.hostWrite, h]

/-- Any other write while BUSY = 1 is dropped with WERR (20_memory.md R50). -/
theorem State.hostWrite_busy (s : State) (t : Target) (w : Word) (h : s.busy = true) (ht : t.writableBusy = false) :
    s.hostWrite t w = { s with werr := true } := by simp [State.hostWrite, h, ht]

/-- A read while BUSY = 0, or of a register that BUSY does not hide (20_memory.md R50). -/
theorem hostRead_exact (s : State) (t : Target) (v : Word) (h : s.busy = false ∨ t.readableBusy = true) (hv : s.wordAt t = .ok v) :
    hostRead t s = .next { s with busRead := some v, unwrittenRead := s.unwrittenRead || !s.wordWritten t } := by
  have : (s.busy && !t.readableBusy) = false := by rcases h with h | h <;> simp [h]
  simp [hostRead, this, hv]

/-- The accept step's reads change the record of unwritten reads and nothing else (60_exceptions.md R142). -/
theorem State.readOperands_next (s t : State) (h : s.readOperands = .next t) :
    ∃ r, runCommand s = .next r ∧ t = { s with unwrittenRead := r.unwrittenRead } := by
  unfold State.readOperands at h
  split at h <;> cases h
  exact ⟨_, ‹_›, rfl⟩

/-- The accept step stops exactly where the command would (10_state.md R21). -/
theorem State.readOperands_fault (s : State) (f : Fault) : s.readOperands = .fault f ↔ runCommand s = .fault f := by
  unfold State.readOperands
  split <;> simp_all

/-- While BUSY = 1 a host move is the access alone. -/
theorem hostMove_busy (s : State) (a : Access) (h : s.busy = true) : hostMove a s = hostAccess a s := by
  unfold hostMove
  split <;> simp_all

/-- An access that leaves BUSY at 0 starts no command. -/
theorem hostMove_quiet (s t : State) (a : Access) (h : hostAccess a s = .next t) (hb : t.busy = false) :
    hostMove a s = .next t := by simp [hostMove, h, hb]

/-- An access that stops is the whole move. -/
theorem hostMove_fault (s : State) (a : Access) (f : Fault) (h : hostAccess a s = .fault f) : hostMove a s = .fault f := by
  simp [hostMove, h]

/-- A CMD write is accepted while BUSY = ERR = 0 (60_exceptions.md R141), and the command reads its operands (R142). -/
theorem hostMove_accept (s : State) (a : Access) (w : Word) (ht : a.target = some .cmd) (ho : a.op = .write w)
    (hb : s.busy = false) (he : s.err = false) : hostMove a s = (s.accept w).readOperands := by
  have h : hostAccess a s = .next (s.accept w) := by
    rw [hostAccess_write s a .cmd w ht ho, State.hostWrite_idle s .cmd w hb]
    simp [State.performWrite, State.issue, hb, he]
  simp [hostMove, h, hb]

/-- Every other write leaves BUSY at 0 (60_exceptions.md R141). -/
theorem State.performWrite_busy (s : State) (t : Target) (w : Word) (ht : t ≠ .cmd ∨ s.err = true) (hb : s.busy = false) :
    (s.performWrite t w).busy = false := by
  rw [State.busy_eq_false_iff] at hb ⊢
  cases t with
  | cmd => simpa [State.performWrite, State.issue, ht.resolve_left (fun h => h rfl)] using hb
  | ctrl =>
    show (s.writeCtrl w).phase = .idle
    unfold State.writeCtrl
    split
    · rfl
    · exact hb
  | prm r j => cases r <;> exact hb
  | _ => exact hb

/-- All a host move can be: the access alone, or the acceptance of a command with its reads recorded
(60_exceptions.md R141, R142). -/
theorem hostMove_cases (s t : State) (a : Access) (h : hostMove a s = .next t) :
    (hostAccess a s = .next t ∧ (s.busy = false → t.busy = false)) ∨
    (∃ w b, s.busy = false ∧ s.err = false ∧ a.target = some .cmd ∧ a.op = .write w ∧
      t = { s.accept w with unwrittenRead := b }) := by
  cases hb : s.busy with
  | true => exact .inl ⟨by rwa [hostMove_busy s a hb] at h, by simp⟩
  | false =>
    cases ho : a.op with
    | read =>
      refine .inl ?_
      have key : ∀ u, hostAccess a s = .next u → u.busy = false := by
        intro u hu
        cases ht : a.target with
        | none => rw [hostAccess_none s a ht, ho] at hu; cases hu; exact hb
        | some g =>
          rw [hostAccess_read s a g ht ho] at hu
          unfold hostRead at hu
          split at hu
          · cases hu; exact hb
          · split at hu <;> cases hu
            exact hb
      unfold hostMove at h
      split at h
      · rename_i u hu
        rw [key u hu, Bool.and_false, if_neg (by simp)] at h
        cases h
        exact ⟨hu, fun _ => key _ hu⟩
      · cases h
      · cases h
    | write w =>
      cases ht : a.target with
      | none =>
        have hu := hostAccess_none s a ht
        simp only [ho, reduceCtorEq, if_false] at hu
        rw [hostMove_quiet s _ a hu hb] at h
        cases h
        exact .inl ⟨hu, fun _ => hb⟩
      | some g =>
        by_cases hg : g ≠ .cmd ∨ s.err = true
        · have hu := (hostAccess_write s a g w ht ho).trans (congrArg _ (State.hostWrite_idle s g w hb))
          have hb' := State.performWrite_busy s g w hg hb
          rw [hostMove_quiet s _ a hu hb'] at h
          cases h
          exact .inl ⟨hu, fun _ => hb'⟩
        · simp only [ne_eq, not_or, not_not, Bool.not_eq_true] at hg
          obtain ⟨rfl, he⟩ := hg
          rw [hostMove_accept s a w ht ho hb he] at h
          obtain ⟨r, _, rfl⟩ := State.readOperands_next _ _ h
          exact .inr ⟨w, _, rfl, he, rfl, rfl, rfl⟩

/-- The word of a parameter register (20_memory.md R40, R41). -/
theorem targetAt_prm (r : Prm) (j : Fin 16) : targetAt (0x100 + 0x40 * r.idx + 4 * j) = some (.prm r j) := by
  revert j; cases r <;> decide

/-- The word of an X register (20_memory.md R40, R41). -/
theorem targetAt_x (i j : Fin 16) : targetAt (0x400 + 0x40 * i + 4 * j) = some (.x i j) := by
  revert i j; decide

/-- The words of a point register (20_memory.md R40, R43). -/
theorem targetAt_qx (q : Fin 8) (j : Fin 16) : targetAt (0x800 + 0x100 * q + 4 * j) = some (.qx q j) := by
  revert q j; decide

theorem targetAt_qy (q : Fin 8) (j : Fin 16) : targetAt (0x840 + 0x100 * q + 4 * j) = some (.qy q j) := by
  revert q j; decide

theorem targetAt_qinf (q : Fin 8) : targetAt (0x880 + 0x100 * q) = some (.qinf q) := by revert q; decide

theorem targetAt_qres (q : Fin 8) (o : Nat) (h1 : 0x84 ≤ o) (h2 : o < 0x100) :
    targetAt (0x800 + 0x100 * q + o) = some (.qres q) := by
  have e1 : (0x800 + 0x100 * q.val + o - 0x800) / 0x100 = q.val := by omega
  have e2 : (0x800 + 0x100 * q.val + o) % 0x100 = o := by omega
  have hq := q.isLt
  unfold targetAt
  rw [if_neg (by omega), if_neg (by omega), if_neg (by omega), if_neg (by omega), if_neg (by omega), if_pos (by omega), e1, e2,
    pointWordAt, if_neg (by omega), if_neg (by omega), if_neg (by omega)]
  simp [Fin.ofNat, Nat.mod_eq_of_lt hq]

/-- The word of BUF (20_memory.md R40, R42). -/
theorem targetAt_buf (k : Fin 256) : targetAt (0x1000 + 4 * k) = some (.buf k) := by
  have hk := k.isLt
  unfold targetAt
  rw [if_neg (by omega), if_neg (by omega), if_neg (by omega), if_neg (by omega), if_neg (by omega), if_neg (by omega),
    if_pos (by omega), show (0x1000 + 4 * k.val - 0x1000) / 4 = k.val by omega]
  simp [Fin.ofNat, Nat.mod_eq_of_lt hk]

/-- A descriptor (20_memory.md R40). -/
theorem targetAt_desc (k : Fin 4) : targetAt (0x30 + 4 * k) = some (.desc k) := by revert k; decide

/-- Nothing is mapped outside the regions of 20_memory.md R40. -/
theorem targetAt_isSome_iff (o : Nat) :
    (targetAt o).isSome = true ↔ (o < 0x28 ∨ (0x30 ≤ o ∧ o < 0x40) ∨ (0x100 ≤ o ∧ o < 0x380) ∨ (0x400 ≤ o ∧ o < 0x1400)) := by
  unfold targetAt
  split
  · rename_i h
    have : ∀ k : Fin 16, (csrAt k).isSome = true ↔ (k.val < 10 ∨ 12 ≤ k.val) := by decide
    have := this ⟨o / 4, by omega⟩
    simp only at this
    rw [this]
    omega
  · split
    · simp; omega
    · split
      · rename_i h
        have : ∀ k : Fin 10, (prmAt k).isSome = true := by decide
        have := this ⟨(o - 0x100) / 0x40, by omega⟩
        simp only [Option.isSome_map, this, true_iff]
        omega
      · repeat' split
        all_goals simp
        all_goals omega

end Sys2Proof.Machine
end

