-- ==== Sys2Proof/Laws/Decode.lean ====
section
/-! SUPPORT. What the decoder's fields read from an assembled word (30_encoding.md R58, R59). -/

namespace Sys2Proof

theorem shift_or_eq_add (a b k : Nat) (h : b < 2 ^ k) : a * 2 ^ k ||| b = a * 2 ^ k + b := by
  rw [← Nat.shiftLeft_eq, Nat.shiftLeft_add_eq_or_of_lt h]

/-- The two 16-bit halves of an assembled word: the fields above bit 15, and what stands below. -/
theorem upper_toNat (op m f1 f2 : Nat) (low : Word) (hop : op < 64) (hm : m < 2) (h1 : f1 < 16) (h2 : f2 < 16)
    (hl : low.toNat < 2 ^ 16) :
    ((BitVec.ofNat 32 op <<< 26) ||| (BitVec.ofNat 32 m <<< 25) ||| (BitVec.ofNat 32 f1 <<< 20)
      ||| (BitVec.ofNat 32 f2 <<< 16) ||| low : Word).toNat
      = op * 2 ^ 26 + m * 2 ^ 25 + f1 * 2 ^ 20 + f2 * 2 ^ 16 + low.toNat := by
  simp only [BitVec.toNat_or, BitVec.toNat_shiftLeft, BitVec.toNat_ofNat, Nat.shiftLeft_eq]
  rw [Nat.mod_eq_of_lt (a := op) (by omega), Nat.mod_eq_of_lt (a := m) (by omega), Nat.mod_eq_of_lt (a := f1) (by omega),
    Nat.mod_eq_of_lt (a := f2) (by omega), Nat.mod_eq_of_lt (a := op * 2 ^ 26) (by omega),
    Nat.mod_eq_of_lt (a := m * 2 ^ 25) (by omega), Nat.mod_eq_of_lt (a := f1 * 2 ^ 20) (by omega),
    Nat.mod_eq_of_lt (a := f2 * 2 ^ 16) (by omega), shift_or_eq_add op (m * 2 ^ 25) 26 (by omega),
    show op * 2 ^ 26 + m * 2 ^ 25 = (op * 2 + m) * 2 ^ 25 by ring, shift_or_eq_add _ _ 25 (by omega),
    show (op * 2 + m) * 2 ^ 25 + f1 * 2 ^ 20 = (op * 2 ^ 6 + m * 2 ^ 5 + f1) * 2 ^ 20 by ring,
    shift_or_eq_add _ _ 20 (by omega),
    show (op * 2 ^ 6 + m * 2 ^ 5 + f1) * 2 ^ 20 + f2 * 2 ^ 16 = (op * 2 ^ 10 + m * 2 ^ 9 + f1 * 2 ^ 4 + f2) * 2 ^ 16 by ring,
    shift_or_eq_add _ _ 16 hl]

/-- The assembled word as a sum (30_encoding.md R59). -/
theorem assemble_toNat (op m f1 f2 f3 d : Nat) (hop : op < 64) (hm : m < 2) (h1 : f1 < 16) (h2 : f2 < 16) (h3 : f3 < 16)
    (hd : d < 4) :
    (assemble op m f1 f2 f3 d).toNat = op * 2 ^ 26 + m * 2 ^ 25 + f1 * 2 ^ 20 + f2 * 2 ^ 16 + f3 * 2 ^ 12 + d := by
  have hlow : ((BitVec.ofNat 32 f3 <<< 12) ||| BitVec.ofNat 32 d : Word).toNat = f3 * 2 ^ 12 + d := by
    simp only [BitVec.toNat_or, BitVec.toNat_shiftLeft, BitVec.toNat_ofNat, Nat.shiftLeft_eq]
    rw [Nat.mod_eq_of_lt (a := f3) (by omega), Nat.mod_eq_of_lt (a := f3 * 2 ^ 12) (by omega),
      Nat.mod_eq_of_lt (a := d) (by omega), shift_or_eq_add _ _ 12 (by omega)]
  have := upper_toNat op m f1 f2 ((BitVec.ofNat 32 f3 <<< 12) ||| BitVec.ofNat 32 d) hop hm h1 h2 (by omega)
  rw [hlow, ← BitVec.or_assoc] at this
  rw [assemble, this]
  ring

/-- The assembled word of an immediate format as a sum (30_encoding.md R59). -/
theorem assembleImm_toNat (op m f1 f2 : Nat) (imm : BitVec 16) (hop : op < 64) (hm : m < 2) (h1 : f1 < 16) (h2 : f2 < 16) :
    (assembleImm op m f1 f2 imm).toNat = op * 2 ^ 26 + m * 2 ^ 25 + f1 * 2 ^ 20 + f2 * 2 ^ 16 + imm.toNat := by
  have hi : (imm.setWidth 32).toNat = imm.toNat := by
    rw [BitVec.toNat_setWidth, Nat.mod_eq_of_lt (by have := imm.isLt; omega)]
  have := upper_toNat op m f1 f2 (imm.setWidth 32) hop hm h1 h2 (by rw [hi]; exact imm.isLt)
  rw [assembleImm, this, hi]

/-- The decoder's fields as arithmetic on the word's value (30_encoding.md R58). -/
theorem opField_eq (w : Word) : opField w = w.toNat / 2 ^ 26 := by
  have := w.isLt
  rw [opField, BitVec.extractLsb'_toNat, Nat.shiftRight_eq_div_pow]
  omega

theorem xField_val (w : Word) (lo : Nat) : (xField w lo).val = w.toNat / 2 ^ lo % 16 := by
  simp [xField, BitVec.extractLsb'_toNat, Nat.shiftRight_eq_div_pow, Fin.ofNat]

theorem qField_val (w : Word) (lo : Nat) : (qField w lo).val = w.toNat / 2 ^ lo % 8 := by
  simp [qField, BitVec.extractLsb'_toNat, Nat.shiftRight_eq_div_pow, Fin.ofNat]

theorem dselField_val (w : Word) : (dselField w).val = w.toNat % 4 := by
  simp [dselField, BitVec.extractLsb'_toNat, Fin.ofNat]

theorem immField_toNat (w : Word) : (immField w).toNat = w.toNat % 2 ^ 16 := by
  simp [immField, BitVec.extractLsb'_toNat]

theorem getLsbD_eq_decide (w : Word) (k : Nat) : w.getLsbD k = decide (w.toNat / 2 ^ k % 2 = 1) := by
  rw [BitVec.getLsbD, Nat.testBit_eq_decide_div_mod_eq]

theorem Modulus.bit_lt (m : Modulus) : m.bit < 2 := by cases m <;> decide

end Sys2Proof
end

