-- ==== Sys2Proof/Laws/Exec.lean ====
section
/-! SUPPORT. What the commands can do, said once: one lemma per shared operation, and `exec_effect`, the inversion of
`exec` that invariants and whole-machine rules are proved from. -/

namespace Sys2Proof.Machine

@[simp] theorem State.noteReads_nil (s : State) : s.noteReads [] = s := by simp [State.noteReads]

/-- A field command ends with MODULUS, with the error its computation gives, or with X[rd] written (40_field.md R71, R75). -/
theorem fieldCommand_cases (m : Modulus) (rd : XReg) (srcs : List XReg) (f : Nat → Except Cause Nat) (s t : State)
    (h : fieldCommand m rd srcs f s = .next t) :
    (modOK (s.prmVal (modReg m)) = false ∧ t = (s.noteReads [.prm (modReg m)]).raise .modulus) ∨
    (modOK (s.prmVal (modReg m)) = true ∧ ∃ c, f (s.prmVal (modReg m)) = .error c ∧
      t = (s.noteReads (.prm (modReg m) :: srcs.map .x)).raise c) ∨
    (modOK (s.prmVal (modReg m)) = true ∧ ∃ v, f (s.prmVal (modReg m)) = .ok v ∧
      t = ((s.noteReads (.prm (modReg m) :: srcs.map .x)).setX rd v).complete) := by
  unfold fieldCommand at h
  split at h
  · rename_i hm
    cases h
    cases hf : f (s.prmVal (modReg m)) with
    | error c => exact .inr (.inl ⟨hm, c, rfl, rfl⟩)
    | ok v => exact .inr (.inr ⟨hm, v, rfl, rfl⟩)
  · rename_i hm
    cases h
    exact .inl ⟨by simpa using hm, rfl⟩

/-- A field command with a good modulus completes with the value its computation gives (40_field.md R72). -/
theorem fieldCommand_ok (m : Modulus) (rd : XReg) (srcs : List XReg) (f : Nat → Except Cause Nat) (s : State) (v : Nat)
    (hm : modOK (s.prmVal (modReg m)) = true) (hf : f (s.prmVal (modReg m)) = .ok v) :
    fieldCommand m rd srcs f s = .next ((s.noteReads (.prm (modReg m) :: srcs.map .x)).setX rd v).complete := by
  simp [fieldCommand, hm, hf]

/-- The ways a command can change the state when it answers a next state. `l` lists the registers it read. -/
inductive Effect (i : Instr) (s : State) : State → Prop
  /-- an error: nothing but the record (60_exceptions.md R142) -/
  | raised (l : List RegName) (c : Cause) : Effect i s ((s.noteReads l).raise c)
  /-- a failing CFGCHK (41_regmove.md R95) -/
  | cfgFailed (c : Cause) (hi : i = .cfgchk) (hc : s.configCheck = some c) :
      Effect i s ({ s.noteReads curveRegs with cfgok := false }.raise c)
  /-- a successful CFGCHK (41_regmove.md R95) -/
  | cfgPassed (hi : i = .cfgchk) (hc : s.configCheck = none) :
      Effect i s ({ s.noteReads curveRegs with cfgok := true }.complete)
  /-- a result in X[rd] -/
  | wroteX (l : List RegName) (rd : XReg) (v : Nat) : Effect i s ((s.noteReads l).setX rd v).complete
  /-- a result in Q[qd] -/
  | wroteQ (l : List RegName) (qd : QReg) (x y : Nat) (inf : Bool) :
      Effect i s ((s.noteReads l).setQ qd x y inf).complete
  /-- a result in a BUF range that the descriptor's check has passed -/
  | wroteBuf (l : List RegName) (k : DescSel) (bs : List Byte) (hk : s.descOk k = true) (hl : bs.length = s.descLen k) :
      Effect i s ((s.noteReads l).writeBuf (s.descOff k) bs).complete
  /-- a boolean result (10_state.md R33) -/
  | wroteResult (l : List RegName) (b : Bool) (hi : (∃ ra rb, i = .xcmp ra rb) ∨ (∃ qa, i = .pchk qa) ∨ i = .verify) :
      Effect i s ((s.noteReads l).finishResult b)
  /-- STCOMP (45_edwards.md R136) -/
  | memoized (l : List RegName) (m : Memo) (hi : i = .stcomp) (hm : s.computeST = .ok m) :
      Effect i s (((s.noteReads l).writeMemo m).complete)
  /-- UV2XY or XY2UV (45_edwards.md R137, R138) -/
  | converted (l : List RegName) (m : Memo) (qd : QReg) (x y : Nat)
      (hi : ∃ qa, i = .uv2xy qd qa ∨ i = .xy2uv qd qa) (hm : s.computeST = .ok m) :
      Effect i s ((((s.noteReads l).writeMemo m).setQ qd x y false).complete)
  /-- SIGN enters its loop (44_signature.md R126) -/
  | entered (ra : XReg) (hi : i = .sign ra) (k : SignLoop) (hp : ∀ k b, s.phase ≠ .entropyGot k b)
      (hc : s.cfgok = true) (h2 : s.descOk 2 = true) (hl : s.descLen 2 = 2 * s.bl)
      (hd : 1 ≤ s.xVal ra ∧ s.xVal ra < s.prmVal .n) (hk : k.d = s.xVal ra ∧ k.it = 0 ∧ ∃ dig, k.e = digestScalar dig (s.prmVal .n)) :
      Effect i s ((s.noteReads [.x ra]).enterLoop k)
  /-- SIGN goes on with an answer (60_exceptions.md R149) -/
  | resumed (ra : XReg) (hi : i = .sign ra) (k : SignLoop) (bytes : List Byte) (hp : s.phase = .entropyGot k bytes) :
      Effect i s (s.iterate k bytes)

theorem Effect.raised_self (i : Instr) (s : State) (c : Cause) : Effect i s (s.raise c) := by
  simpa using Effect.raised (i := i) (s := s) [] c

theorem fieldCommand_effect (i : Instr) (m : Modulus) (rd : XReg) (srcs : List XReg) (f : Nat → Except Cause Nat)
    (s t : State) (h : fieldCommand m rd srcs f s = .next t) : Effect i s t := by
  obtain ⟨_, rfl⟩ | ⟨_, c, _, rfl⟩ | ⟨_, v, _, rfl⟩ := fieldCommand_cases m rd srcs f s t h
  · exact .raised _ _
  · exact .raised _ _
  · exact .wroteX _ _ _

theorem finishQ_effect (i : Instr) (l : List RegName) (qd : QReg) (r : Except Cause Point) (s : State) :
    Effect i s ((s.noteReads l).finishQ qd r) := by
  cases r with
  | error c => exact .raised _ _
  | ok p => cases p with
    | infinity => exact .wroteQ _ _ _ _ _
    | affine x y => exact .wroteQ _ _ _ _ _

theorem loadBytes_effect (i : Instr) (f : List Byte → Nat) (r : XReg) (k : DescSel) (s t : State)
    (h : loadBytes f r k s = .next t) : Effect i s t := by
  unfold loadBytes at h
  split at h
  · cases h; exact Effect.raised_self i s _
  · split at h
    · cases h; exact Effect.raised_self i s _
    · split at h
      · cases h
      · rename_i bs _
        cases h
        simpa using Effect.wroteX (i := i) (s := s) [] r (f bs)

theorem storeBytes_effect (i : Instr) (f : Nat → Nat → List Byte) (hf : ∀ v n, (f v n).length = n) (r : XReg) (k : DescSel)
    (s t : State) (h : storeBytes f r k s = .next t) : Effect i s t := by
  unfold storeBytes at h
  split at h
  · cases h; exact Effect.raised_self i s _
  · rename_i hk
    split at h
    · cases h; exact Effect.raised_self i s _
    · split at h
      · cases h; exact .raised _ _
      · cases h; exact .wroteBuf _ k _ (by simpa using hk) (hf _ _)

theorem convert_effect (i : Instr) (f : Nat → Memo → Nat → Nat → Except Cause Point) (qd qa : QReg) (s t : State)
    (hf : ∀ p m x y pt, f p m x y = .ok pt → ∃ a b, pt = .affine a b)
    (hi : i = .uv2xy qd qa ∨ i = .xy2uv qd qa) (h : convert f qd qa s = .next t) : Effect i s t := by
  unfold convert at h
  split at h
  · cases h; exact .raised _ _
  · rename_i m hm
    simp only at h
    split at h
    · cases h; exact .raised _ _
    · split at h
      · cases h; exact .raised _ _
      · split at h
        · cases h; exact .raised _ _
        · rename_i pt hpt
          obtain ⟨a, b, rfl⟩ := hf _ _ _ _ _ hpt
          cases h
          exact .converted _ m qd a b ⟨qa, hi⟩ hm

theorem edwardsToWeierstrass_affine (p : Nat) (m : Memo) (u v : Nat) (pt : Point)
    (h : edwardsToWeierstrass p m u v = .ok pt) : ∃ a b, pt = .affine a b := by
  simp only [edwardsToWeierstrass] at h
  split at h
  · cases h
  · split at h <;> cases h
    exact ⟨_, _, rfl⟩

theorem weierstrassToEdwards_affine (p : Nat) (m : Memo) (x y : Nat) (pt : Point)
    (h : weierstrassToEdwards p m x y = .ok pt) : ∃ a b, pt = .affine a b := by
  simp only [weierstrassToEdwards] at h
  split at h
  · cases h
  · split at h <;> cases h
    exact ⟨_, _, rfl⟩

theorem finishBuf_effect (i : Instr) (l : List RegName) (k : DescSel) (r : Except Cause (List Byte)) (s : State)
    (hk : s.descOk k = true) (hl : ∀ bs, r = .ok bs → bs.length = s.descLen k) :
    Effect i s ((s.noteReads l).finishBuf (s.descOff k) r) := by
  cases r with
  | error c => exact .raised _ _
  | ok bs => exact .wroteBuf _ k bs hk (hl bs rfl)

theorem startSign_effect (ra : XReg) (s t : State) (hp : ∀ k b, s.phase ≠ .entropyGot k b)
    (h : startSign ra s = .next t) : Effect (.sign ra) s t := by
  unfold startSign at h
  split at h
  · cases h; exact Effect.raised_self _ s _
  · rename_i hd
    split at h
    · cases h; exact Effect.raised_self _ s _
    · rename_i hc
      split at h
      · cases h
      · rename_i dig _
        split at h
        · cases h
        · split at h
          · cases h; exact Effect.raised_self _ s _
          · split at h
            · cases h; exact Effect.raised_self _ s _
            · rename_i h2
              split at h
              · cases h; exact .raised _ _
              · rename_i hk
                cases h
                exact .entered ra rfl _ hp (by simpa using hc) (by simp at hd; exact hd.2.2) (by simpa using h2)
                  (by simpa using hk) ⟨rfl, rfl, dig, rfl⟩

theorem execSign_effect (ra : XReg) (s t : State) (h : execSign ra s = .next t) : Effect (.sign ra) s t := by
  unfold execSign at h
  split at h
  · rename_i k b hp
    cases h
    exact .resumed ra rfl k b hp
  all_goals
    rename_i hp
    exact startSign_effect ra s t (by simp [hp]) h

/-- Everything a command can do when it answers a next state. -/
theorem exec_effect (i : Instr) (s t : State) (h : exec i s = .next t) : Effect i s t := by
  cases i with
  | madd | msub | mmul | msqr | mneg | msmul | minv | mdiv | mred =>
    simp only [exec, execMadd, execMsub, execMmul, execMsqr, execMneg, execMsmul, execMinv, execMdiv, execMred] at h
    exact fieldCommand_effect _ _ _ _ _ _ _ h
  | xmov => cases h; exact .wroteX _ _ _
  | xldi rd imm => cases h; simpa using Effect.wroteX (i := .xldi rd imm) (s := s) [] rd (immVal imm)
  | xldp rd sel =>
    simp only [exec, execXldp] at h
    split at h
    · cases h; exact .wroteX _ _ _
    · split at h
      · cases h; simpa using Effect.wroteX (i := .xldp rd sel) (s := s) [] rd s.h.toNat
      · split at h
        · cases h; simpa using Effect.wroteX (i := .xldp rd sel) (s := s) [] rd s.bl
        · cases h; exact Effect.raised_self _ s _
  | xcmp ra rb => cases h; exact .wroteResult _ _ (.inl ⟨ra, rb, rfl⟩)
  | ldbe | ldle => exact loadBytes_effect _ _ _ _ _ _ h
  | stbe => exact storeBytes_effect _ _ beBytes_length _ _ _ _ h
  | stle => exact storeBytes_effect _ _ leBytes_length _ _ _ _ h
  | cfgchk =>
    simp only [exec, execCfgchk] at h
    split at h <;> cases h
    · exact .cfgPassed rfl ‹_›
    · exact .cfgFailed _ rfl ‹_›
  | pinf qd => cases h; simpa using finishQ_effect (.pinf qd) [] qd (.ok .infinity) s
  | pgen qd =>
    simp only [exec, execPgen] at h
    split at h <;> cases h
    · exact Effect.raised_self _ s _
    · simpa using finishQ_effect (.pgen qd) [] qd (.ok s.gen) s
  | pset =>
    simp only [exec, execPset] at h
    split at h
    · cases h; exact Effect.raised_self _ s _
    · split at h <;> cases h
      · exact .raised _ _
      · exact finishQ_effect _ _ _ _ _
  | pgetx | pgety => cases h; exact .wroteX _ _ _
  | pmov => cases h; exact .wroteQ _ _ _ _ _
  | padd =>
    simp only [exec, execPadd] at h
    split at h <;> cases h
    · exact Effect.raised_self _ s _
    · exact finishQ_effect _ _ _ _ _
  | pdbl =>
    simp only [exec, execPdbl] at h
    split at h <;> cases h
    · exact Effect.raised_self _ s _
    · exact finishQ_effect _ _ _ _ _
  | pneg =>
    simp only [exec, execPneg] at h
    split at h <;> cases h
    · exact Effect.raised_self _ s _
    · exact finishQ_effect _ _ _ _ _
  | pmul =>
    simp only [exec, execPmul] at h
    split at h <;> cases h
    · exact Effect.raised_self _ s _
    · exact finishQ_effect _ _ _ _ _
  | pchk qa =>
    simp only [exec, execPchk] at h
    split at h <;> cases h
    · exact Effect.raised_self _ s _
    · exact .wroteResult _ _ (.inr (.inl ⟨qa, rfl⟩))
  | penc q k =>
    simp only [exec, execPenc] at h
    split at h
    · cases h; exact Effect.raised_self _ s _
    · rename_i hk
      split at h
      · cases h; exact Effect.raised_self _ s _
      · split at h <;> cases h
        · exact Effect.raised_self _ s _
        · rename_i hl
          refine finishBuf_effect _ _ k _ s (by simpa using hk) fun bs hb => ?_
          split at hb <;> cases hb
          simp at hl ⊢
          omega
  | pencle q k =>
    simp only [exec, execPencle] at h
    split at h
    · cases h; exact Effect.raised_self _ s _
    · rename_i hk
      split at h
      · cases h; exact Effect.raised_self _ s _
      · split at h <;> cases h
        · exact Effect.raised_self _ s _
        · rename_i hl
          refine finishBuf_effect _ _ k _ s (by simpa using hk) fun bs hb => ?_
          split at hb <;> cases hb <;> simp at hl ⊢ <;> omega
  | pdec q k =>
    simp only [exec, execPdec] at h
    split at h
    · cases h; exact Effect.raised_self _ s _
    · split at h
      · cases h; exact Effect.raised_self _ s _
      · split at h
        · cases h; exact Effect.raised_self _ s _
        · split at h <;> cases h
          simpa using finishQ_effect (.pdec q k) [] q (s.decodePoint _) s
  | pubk =>
    simp only [exec, execPubk] at h
    split at h <;> cases h
    · exact Effect.raised_self _ s _
    · exact finishQ_effect _ _ _ _ _
  | sign ra => exact execSign_effect ra s t h
  | verify =>
    simp only [exec, execVerify] at h
    split at h
    · cases h; exact Effect.raised_self _ s _
    · split at h
      · cases h; exact Effect.raised_self _ s _
      · split at h
        · cases h
        · split at h
          · cases h
          · split at h
            · cases h
            · split at h <;> cases h
              · exact Effect.raised_self _ s _
              · simpa using Effect.wroteResult (i := .verify) (s := s) [] (s.verifyCore _ _ _) (.inr (.inr rfl))
  | stcomp =>
    simp only [exec, execStcomp] at h
    split at h <;> cases h
    · exact .raised _ _
    · exact .memoized _ _ rfl ‹_›
  | uv2xy qd qa => exact convert_effect _ _ qd qa s t edwardsToWeierstrass_affine (.inl rfl) h
  | xy2uv qd qa => exact convert_effect _ _ qd qa s t weierstrassToEdwards_affine (.inr rfl) h

/-- How an iteration head that draws its bytes ends (44_signature.md R126, R128): at the cap, or in an entropy wait. -/
theorem State.drawNext_cases (k : SignLoop) (s : State) :
    (s.itercap ≠ 0 ∧ s.itercap.toNat < k.it + 1 ∧
      s.drawNext k = ({ s with iter := BitVec.ofNat 32 k.it }.raise .iterCap)) ∨
    (¬ (s.itercap ≠ 0 ∧ s.itercap.toNat < k.it + 1) ∧
      s.drawNext k = { s with phase := .entropyWait { k with it := k.it + 1 }, requests := s.requests + 1 }) := by
  unfold State.drawNext
  split
  · rename_i h; exact .inl ⟨h.1, h.2, rfl⟩
  · rename_i h; exact .inr ⟨h, rfl⟩

/-- How an iteration with its bytes in hand ends (44_signature.md R126): an error of the point arithmetic, the head of the
next iteration, or the signature. -/
theorem State.iterate_cases (k : SignLoop) (bytes : List Byte) (s : State) :
    (∃ c, attemptSign s.curve s.gen (s.prmVal .n) k.e k.d bytes = .failed c ∧ s.iterate k bytes = s.raise c) ∨
    (attemptSign s.curve s.gen (s.prmVal .n) k.e k.d bytes = .retry ∧ s.iterate k bytes = s.drawNext k) ∨
    (∃ r sg, attemptSign s.curve s.gen (s.prmVal .n) k.e k.d bytes = .signature r sg ∧
      s.iterate k bytes = (({ s with iter := BitVec.ofNat 32 (min k.it 0xFFFFFFFF) }.writeBuf (s.descOff 2)
        (beBytes r s.bl ++ beBytes sg s.bl)).complete)) := by
  unfold State.iterate
  split
  · rename_i c h; exact .inl ⟨c, h, rfl⟩
  · rename_i h; exact .inr (.inl ⟨h, rfl⟩)
  · rename_i r sg h; exact .inr (.inr ⟨r, sg, h, rfl⟩)

/-! What ends a command leaves the record of unwritten reads as `noteReads` made it (10_state.md R21; log 2). -/

@[simp] theorem State.drawNext_unwrittenRead (k : SignLoop) (s : State) : (s.drawNext k).unwrittenRead = s.unwrittenRead := by
  rcases State.drawNext_cases k s with ⟨_, _, h⟩ | ⟨_, h⟩ <;> simp [h]

@[simp] theorem State.iterate_unwrittenRead (k : SignLoop) (bytes : List Byte) (s : State) :
    (s.iterate k bytes).unwrittenRead = s.unwrittenRead := by
  rcases State.iterate_cases k bytes s with ⟨c, _, h⟩ | ⟨_, h⟩ | ⟨r, sg, _, h⟩ <;> rw [h]
  · rfl
  · exact State.drawNext_unwrittenRead k s
  · rfl

@[simp] theorem State.enterLoop_unwrittenRead (k : SignLoop) (s : State) : (s.enterLoop k).unwrittenRead = s.unwrittenRead := by
  unfold State.enterLoop
  split <;> simp

@[simp] theorem State.setPoint_unwrittenRead (qd : QReg) (p : Point) (s : State) :
    (s.setPoint qd p).unwrittenRead = s.unwrittenRead := by cases p <;> rfl

@[simp] theorem State.finishX_unwrittenRead (rd : XReg) (r : Except Cause Nat) (s : State) :
    (s.finishX rd r).unwrittenRead = s.unwrittenRead := by cases r <;> rfl

@[simp] theorem State.finishQ_unwrittenRead (qd : QReg) (r : Except Cause Point) (s : State) :
    (s.finishQ qd r).unwrittenRead = s.unwrittenRead := by
  cases r with
  | error c => rfl
  | ok p => exact State.setPoint_unwrittenRead qd p s

@[simp] theorem State.finishBuf_unwrittenRead (off : Nat) (r : Except Cause (List Byte)) (s : State) :
    (s.finishBuf off r).unwrittenRead = s.unwrittenRead := by cases r <;> rfl

@[simp] theorem State.writeMemo_unwrittenRead (m : Memo) (s : State) : (s.writeMemo m).unwrittenRead = s.unwrittenRead := by
  unfold State.writeMemo
  split <;> rfl

end Sys2Proof.Machine
end

