-- ==== Sys2Proof/Laws/Group.lean ====
section
/-! SUPPORT. Under a prime p the model's points are points of a Weierstrass curve over the field of p elements, and the model's
operations are the group's (42_curve.md R98 to R101). `Represents` ties a model point to a point of Mathlib's group of
nonsingular points; associativity and the laws of multiples come from there. -/

namespace Sys2Proof.Machine

/-! ## Residues in the field -/

/-- The residue as an element of the field (00_scope.md R11). -/
theorem natCast_modp (z : Int) (p : Nat) (h : 0 < p) : ((modp z p : Nat) : ZMod p) = (z : ZMod p) := by
  rw [← Int.cast_natCast, modp_cast z p h]
  simp

/-- Two canonical residues that are one element of the field are one number. -/
theorem natCast_inj_of_lt (p x y : Nat) (hx : x < p) (hy : y < p) (h : (x : ZMod p) = y) : x = y :=
  Nat.ModEq.eq_of_lt_of_lt ((ZMod.natCast_eq_natCast_iff _ _ _).mp h) hx hy

/-- A canonical residue that is not 0 is not 0 in the field. -/
theorem natCast_ne_zero_of_lt (p x : Nat) (hx : x < p) (h : x ≠ 0) : (x : ZMod p) ≠ 0 := fun e =>
  h (natCast_inj_of_lt p x 0 hx (by omega) (by simpa using e))

/-- 2 is not 0 in a field of at least 5 elements. -/
theorem two_ne_zero_of_five_le (p : Nat) (h5 : 5 ≤ p) : (2 : ZMod p) ≠ 0 := by
  have := natCast_ne_zero_of_lt p 2 (by omega) (by omega)
  exact_mod_cast this

/-- Under a prime modulus Inv answers for every element but 0, and answers its inverse (40_field.md R76). -/
theorem inv_of_prime (a : Int) (p : Nat) [hp : Fact p.Prime] (h : (a : ZMod p) ≠ 0) :
    ∃ i, inv a p = some i ∧ (a : ZMod p) * (i : ZMod p) = 1 := by
  have hpos := hp.out.pos
  cases hi : inv a p with
  | none =>
    have hg := (inv_eq_none_iff a p).mp hi
    rw [modp_gcd a p hpos] at hg
    exact absurd (Int.isCoprime_iff_gcd_eq_one.mp ((Nat.prime_iff_prime_int.mp hp.out).coprime_iff_not_dvd.mpr
      (fun hd => h ((ZMod.intCast_zmod_eq_zero_iff_dvd a p).mpr hd))).symm) hg
  | some i =>
    have hd := (ZMod.intCast_zmod_eq_zero_iff_dvd _ p).mpr (inv_mul a p i hpos hi)
    push_cast at hd
    exact ⟨i, rfl, by linear_combination hd⟩

/-- The chord formulas in the field (42_curve.md R99, R100). -/
theorem chordPoint_field (c : Curve) (h : 0 < c.p) (l x1 y1 x2 : Nat) :
    ∃ x3 y3 : Nat, chordPoint c l x1 y1 x2 = .affine x3 y3 ∧ (x3 < c.p ∧ y3 < c.p) ∧
      (x3 : ZMod c.p) = l * l - x1 - x2 ∧ (y3 : ZMod c.p) = l * (x1 - x3) - y1 :=
  ⟨_, _, rfl, ⟨modp_lt _ _ h, modp_lt _ _ h⟩, by rw [natCast_modp _ _ h]; push_cast; rfl,
    by rw [natCast_modp _ _ h]; push_cast; rfl⟩

/-! ## The group of points -/

/-- The curve y² = x³ + a·x + b over the field of p elements. -/
def Curve.weierstrass (c : Curve) : WeierstrassCurve.Affine (ZMod c.p) := ⟨0, 0, 0, c.a, c.b⟩

variable (c : Curve) [hp : Fact c.p.Prime]

/-- The model's point is this point of the group, with canonical coordinates. -/
def Represents (P : Point) (A : c.weierstrass.Point) : Prop :=
  match P with
  | .infinity => A = 0
  | .affine x y => (x < c.p ∧ y < c.p) ∧ ∃ h, A = .some (x : ZMod c.p) (y : ZMod c.p) h

theorem Curve.weierstrass_negY (x y : ZMod c.p) : c.weierstrass.negY x y = -y := by
  simp [Curve.weierstrass, WeierstrassCurve.Affine.negY]

/-- A point of the group is one point of the model. -/
theorem Represents.unique {P Q : Point} {A : c.weierstrass.Point} (h : Represents c P A) (h' : Represents c Q A) : P = Q := by
  cases P with
  | infinity =>
    cases Q with
    | infinity => rfl
    | affine u v =>
      obtain ⟨_, hn, rfl⟩ := h'
      exact absurd h (by simp [Represents])
  | affine x y =>
    obtain ⟨⟨hx, hy⟩, hn, rfl⟩ := h
    cases Q with
    | infinity => exact absurd h' (by simp [Represents])
    | affine u v =>
      obtain ⟨⟨hu, hv⟩, hn', e⟩ := h'
      injection e with e1 e2
      rw [natCast_inj_of_lt _ _ _ hx hu e1, natCast_inj_of_lt _ _ _ hy hv e2]

/-- A canonical point of the curve with y not 0 is a point of the group: only y = 0 can be singular. -/
theorem Represents.exists_of_onCurve (h5 : 5 ≤ c.p) (x y : Nat) (hx : x < c.p) (hy : y < c.p) (h0 : y ≠ 0)
    (ho : onCurve c x y = true) : ∃ A, Represents c (.affine x y) A := by
  have h2y := mul_ne_zero (two_ne_zero_of_five_le c.p h5) (natCast_ne_zero_of_lt c.p y hy h0)
  have he : (y : ZMod c.p) ^ 2 - ((x : ZMod c.p) ^ 3 + c.a * x + c.b) = 0 := by
    have := natCast_modp ((y : Int) ^ 2 - ((x : Int) ^ 3 + c.a * x + c.b)) c.p hp.out.pos
    rw [show modp _ c.p = 0 from of_decide_eq_true ho] at this
    push_cast at this
    exact this.symm
  refine ⟨_, ⟨hx, hy⟩, ?_, rfl⟩
  rw [WeierstrassCurve.Affine.nonsingular_iff, WeierstrassCurve.Affine.equation_iff]
  refine ⟨by simp [Curve.weierstrass]; linear_combination he, .inr ?_⟩
  simp only [Curve.weierstrass]
  exact fun h => h2y (by linear_combination h)

/-- A point of the group satisfies the model's curve equation (42_curve.md R98). -/
theorem Represents.onCurve {x y : Nat} {A : c.weierstrass.Point} (h : Represents c (.affine x y) A) : onCurve c x y = true := by
  obtain ⟨_, hn, _⟩ := h
  have e := hn.1
  rw [WeierstrassCurve.Affine.equation_iff] at e
  simp [Curve.weierstrass] at e
  refine decide_eq_true (natCast_inj_of_lt c.p _ 0 (modp_lt _ _ hp.out.pos) hp.out.pos ?_)
  rw [natCast_modp _ _ hp.out.pos]
  push_cast
  linear_combination e

/-- PointDouble is the group's doubling (42_curve.md R100). -/
theorem Represents.double (h5 : 5 ≤ c.p) {P : Point} {A : c.weierstrass.Point} (h : Represents c P A) :
    ∃ R, pointDouble c P = some R ∧ Represents c R (A + A) := by
  cases P with
  | infinity =>
    have : A = 0 := h
    subst this
    exact ⟨_, rfl, by simp [Represents]⟩
  | affine x y =>
    obtain ⟨⟨hx, hy⟩, hn, rfl⟩ := h
    simp only [pointDouble]
    split
    · rename_i h0
      subst h0
      exact ⟨_, rfl, WeierstrassCurve.Affine.Point.add_self_of_Y_eq (by rw [c.weierstrass_negY]; simp)⟩
    · rename_i h0
      have h2y := mul_ne_zero (two_ne_zero_of_five_le c.p h5) (natCast_ne_zero_of_lt c.p y hy h0)
      obtain ⟨i, hi, hm⟩ := inv_of_prime (2 * y : Int) c.p (by push_cast; exact h2y)
      obtain ⟨x3, y3, he, hlt, hx3, hy3⟩ := chordPoint_field c (by omega) (modp ((3 * x * x + c.a : Int) * i) c.p) x y x
      rw [natCast_modp _ _ (by omega)] at hx3 hy3
      push_cast at hx3 hy3 hm
      have hne : (y : ZMod c.p) ≠ c.weierstrass.negY x y := by
        rw [c.weierstrass_negY]
        exact fun h => h2y (by linear_combination h)
      have hsl : c.weierstrass.slope (x : ZMod c.p) x y y = (3 * x * x + c.a) * i := by
        rw [WeierstrassCurve.Affine.slope_of_Y_ne rfl hne, c.weierstrass_negY,
          div_eq_iff (by rwa [sub_neg_eq_add, ← two_mul])]
        simp only [Curve.weierstrass]
        linear_combination (-(3 * (x : ZMod c.p) ^ 2 + c.a)) * hm
      have e1 : c.weierstrass.addX (x : ZMod c.p) x (c.weierstrass.slope x x y y) = x3 := by
        rw [hsl, hx3]
        simp [Curve.weierstrass, WeierstrassCurve.Affine.addX]
        ring
      have e2 : c.weierstrass.addY (x : ZMod c.p) x y (c.weierstrass.slope x x y y) = y3 := by
        rw [WeierstrassCurve.Affine.addY, c.weierstrass_negY, WeierstrassCurve.Affine.negAddY, e1, hsl, hy3]
        ring
      rw [hi]
      refine ⟨_, rfl, ?_⟩
      rw [he, WeierstrassCurve.Affine.Point.add_self_of_Y_ne (h₁ := hn) hne]
      refine ⟨hlt, ?_, by simp only [e1, e2]⟩
      have := WeierstrassCurve.Affine.nonsingular_add hn hn (fun h => hne h.2)
      rwa [e1, e2] at this

/-- PointAdd is the group's addition (42_curve.md R99). -/
theorem Represents.add (h5 : 5 ≤ c.p) {P Q : Point} {A B : c.weierstrass.Point} (h : Represents c P A)
    (h' : Represents c Q B) : ∃ R, pointAdd c P Q = some R ∧ Represents c R (A + B) := by
  cases P with
  | infinity =>
    have : A = 0 := h
    subst this
    exact ⟨_, rfl, by simpa using h'⟩
  | affine x y =>
    cases Q with
    | infinity =>
      have : B = 0 := h'
      subst this
      exact ⟨_, rfl, by simpa using h⟩
    | affine u v =>
      obtain ⟨⟨hx, hy⟩, hn, rfl⟩ := h
      obtain ⟨⟨hu, hv⟩, hn', rfl⟩ := h'
      simp only [pointAdd]
      split
      · rename_i hxu
        subst hxu
        split
        · rename_i hyv
          subst hyv
          exact Represents.double c h5 ⟨⟨hx, hy⟩, hn, rfl⟩
        · rename_i hyv
          have hd : (y : ZMod c.p) - v ≠ 0 := fun h => hyv (natCast_inj_of_lt c.p y v hy hv (sub_eq_zero.mp h))
          refine ⟨_, rfl, WeierstrassCurve.Affine.Point.add_of_Y_eq rfl ?_⟩
          have e := hn.1
          have e' := hn'.1
          rw [WeierstrassCurve.Affine.equation_iff] at e e'
          simp [Curve.weierstrass] at e e'
          rw [c.weierstrass_negY]
          have : ((y : ZMod c.p) - v) * (y + v) = 0 := by linear_combination e - e'
          linear_combination (mul_eq_zero.mp this).resolve_left hd
      · rename_i hxu
        have hne : (x : ZMod c.p) ≠ u := fun h => hxu (natCast_inj_of_lt c.p x u hx hu h)
        obtain ⟨i, hi, hm⟩ := inv_of_prime ((u : Int) - x) c.p (by push_cast; exact sub_ne_zero.mpr hne.symm)
        obtain ⟨x3, y3, he, hlt, hx3, hy3⟩ := chordPoint_field c (by omega) (modp (((v : Int) - y) * i) c.p) x y u
        rw [natCast_modp _ _ (by omega)] at hx3 hy3
        push_cast at hx3 hy3 hm
        have hsl : c.weierstrass.slope (x : ZMod c.p) u y v = (v - y) * i := by
          rw [WeierstrassCurve.Affine.slope_of_X_ne hne, div_eq_iff (sub_ne_zero.mpr hne)]
          linear_combination ((v : ZMod c.p) - y) * hm
        have e1 : c.weierstrass.addX (x : ZMod c.p) u (c.weierstrass.slope x u y v) = x3 := by
          rw [hsl, hx3]
          simp [Curve.weierstrass, WeierstrassCurve.Affine.addX]
          ring
        have e2 : c.weierstrass.addY (x : ZMod c.p) u y (c.weierstrass.slope x u y v) = y3 := by
          rw [WeierstrassCurve.Affine.addY, c.weierstrass_negY, WeierstrassCurve.Affine.negAddY, e1, hsl, hy3]
          ring
        rw [hi]
        refine ⟨_, rfl, ?_⟩
        rw [he, WeierstrassCurve.Affine.Point.add_of_X_ne (h₁ := hn) (h₂ := hn') hne]
        refine ⟨hlt, ?_, by simp only [e1, e2]⟩
        have := WeierstrassCurve.Affine.nonsingular_add hn hn' (fun h => hne h.1)
        rwa [e1, e2] at this

/-- The loop of ScalarMul over the low i bits of k, from the multiple by the bits above them (42_curve.md R101). -/
theorem Represents.scalarLoop (h5 : 5 ≤ c.p) {P : Point} {A : c.weierstrass.Point} (h : Represents c P A) (k : Nat) :
    ∀ (i : Nat) (R : Point), Represents c R ((k / 2 ^ i) • A) →
      ∃ R', scalarLoop c P k i R = some R' ∧ Represents c R' (k • A)
  | 0, R, hR => ⟨R, rfl, by simpa using hR⟩
  | i + 1, R, hR => by
    obtain ⟨R2, h2, hR2⟩ := Represents.double c h5 hR
    have hd : k / 2 ^ i = 2 * (k / 2 ^ (i + 1)) + k / 2 ^ i % 2 := by
      rw [pow_succ, ← Nat.div_div_eq_div_mul]
      omega
    simp only [Machine.scalarLoop, h2]
    cases hb : k.testBit i with
    | true =>
      have hm : k / 2 ^ i % 2 = 1 := by simpa [Nat.testBit_eq_decide_div_mod_eq] using hb
      obtain ⟨R3, h3, hR3⟩ := Represents.add c h5 hR2 h
      simp only [if_true, h3]
      refine Represents.scalarLoop h5 h k i R3 ?_
      rw [hd, hm, add_smul, one_smul, two_mul, add_smul]
      exact hR3
    | false =>
      have hm : k / 2 ^ i % 2 = 0 := by
        have : k / 2 ^ i % 2 ≠ 1 := by simpa [Nat.testBit_eq_decide_div_mod_eq] using hb
        omega
      simp only [Bool.false_eq_true, if_false]
      refine Represents.scalarLoop h5 h k i R2 ?_
      rw [hd, hm, Nat.add_zero, two_mul, add_smul]
      exact hR2

/-- ScalarMul is the group's multiple (42_curve.md R101). -/
theorem Represents.scalarMul (h5 : 5 ≤ c.p) {P : Point} {A : c.weierstrass.Point} (h : Represents c P A) (k : Nat) :
    ∃ R, scalarMul c P k = some R ∧ Represents c R (k • A) := by
  refine Represents.scalarLoop c h5 h k _ _ ?_
  have : k / 2 ^ bitlen k = 0 := by
    refine Nat.div_eq_of_lt ?_
    unfold bitlen
    split
    · omega
    · exact Nat.lt_log2_self
  rw [this]
  simp [Represents]

/-! ## Multiples of a point of order n -/

/-- Of a point that n times itself is 0, multiples count modulo n. -/
theorem nsmul_eq_of_modEq {G : Type} [AddCommGroup G] (A : G) {n a b : Nat} (hA : n • A = 0) (h : a ≡ b [MOD n]) :
    a • A = b • A := by
  have key : ∀ a : Nat, a • A = (a % n) • A := fun a => by
    conv_lhs => rw [← Nat.div_add_mod a n, add_smul, mul_comm, mul_smul, hA, smul_zero, zero_add]
  rw [key a, key b, h]

/-- The combination VerifyCore forms of a signature with nonce k is the nonce's multiple of G (44_signature.md R126, R129). -/
theorem verify_combination {G : Type} [AddCommGroup G] (A : G) {n : Nat} (hn : 1 < n) (hA : n • A = 0) (d k e r v s : Nat)
    (he : e * v % n = 1) (hs : s = (r * d + k * e) % n) :
    (s * v % n) • A + ((n - r * v % n) % n) • (d • A) = k • A := by
  have hv : (e : ZMod n) * v = 1 := by
    have : ((e * v : Nat) : ZMod n) = ((1 : Nat) : ZMod n) := by
      rw [ZMod.natCast_eq_natCast_iff]
      show e * v % n = 1 % n
      rw [he, Nat.mod_eq_of_lt hn]
    push_cast at this
    exact this
  subst hs
  rw [smul_smul, ← add_smul]
  refine nsmul_eq_of_modEq A hA ((ZMod.natCast_eq_natCast_iff _ _ _).mp ?_)
  push_cast [ZMod.natCast_mod]
  rw [Nat.cast_sub (Nat.mod_lt _ (by omega)).le]
  push_cast [ZMod.natCast_mod]
  rw [ZMod.natCast_self]
  linear_combination (k : ZMod n) * hv

end Sys2Proof.Machine
end

