-- ==== Sys2Proof/Laws/Memory.lean ====
section
/-! SUPPORT. BUF: what a read gives after a write, and that every operation keeps the canonical form. -/

namespace Sys2Proof.Machine

@[simp] theorem Memory.read_nil (i : Nat) : Memory.read [] i = none := rfl

/-- A read after a write of one byte (10_state.md R20). -/
theorem Memory.read_write (m : Memory) (i k : Nat) (v : Byte) :
    (m.write i v).read k = if k = i then some v else m.read k := by
  induction m with
  | nil =>
    by_cases h : k = i
    · simp [Memory.write, Memory.read, h]
    · simp [Memory.write, Memory.read, h, Ne.symm h]
  | cons c m ih =>
    obtain ⟨a, b⟩ := c
    simp only [Memory.write]
    split
    · by_cases h : k = i
      · simp [Memory.read, h]
      · simp [Memory.read, h, Ne.symm h]
    · split
      · subst i
        by_cases h : k = a
        · simp [Memory.read, h]
        · simp [Memory.read, h, Ne.symm h]
      · rename_i h1 h2
        by_cases h : a = k
        · subst a
          simp [Memory.read, Ne.symm h2]
        · simp [Memory.read, h, ih]

/-- A read after a write of a byte string: inside the range its byte, outside it what stood there (00_scope.md R12). -/
theorem Memory.read_writeBytes (m : Memory) (off : Nat) (bs : List Byte) (k : Nat) :
    (m.writeBytes off bs).read k = if off ≤ k ∧ k < off + bs.length then bs[k - off]? else m.read k := by
  induction bs generalizing m off with
  | nil => simp only [Memory.writeBytes, List.length_nil]; rw [if_neg]; omega
  | cons b bs ih =>
    simp only [Memory.writeBytes, ih, Memory.read_write, List.length_cons]
    by_cases h : k = off
    · subst k
      rw [if_neg (by omega), if_pos (by omega)]; simp
    · by_cases h2 : off + 1 ≤ k ∧ k < off + 1 + bs.length
      · rw [if_pos h2, if_pos (by omega), show k - off = (k - (off + 1)) + 1 by omega]; simp
      · rw [if_neg h2, if_neg h, if_neg (by omega)]

theorem Memory.write_mem (m : Memory) (i : Nat) (v : Byte) (c : Host.Cell) (h : c ∈ m.write i v) : c = (i, v) ∨ c ∈ m := by
  induction m with
  | nil => simpa [Memory.write] using h
  | cons d m ih =>
    obtain ⟨a, b⟩ := d
    simp only [Memory.write] at h
    split at h
    · simpa using h
    · split at h
      · rcases List.mem_cons.mp h with h | h
        · exact .inl h
        · exact .inr (List.mem_cons_of_mem _ h)
      · rcases List.mem_cons.mp h with h | h
        · exact .inr (h ▸ List.mem_cons_self)
        · exact (ih h).imp id (List.mem_cons_of_mem _)

theorem Memory.write_rising (m : Memory) (i : Nat) (v : Byte) (h : m.Pairwise (fun c c' => c.1 < c'.1)) :
    (m.write i v).Pairwise (fun c c' => c.1 < c'.1) := by
  induction m with
  | nil => simp [Memory.write]
  | cons d m ih =>
    obtain ⟨a, b⟩ := d
    rw [List.pairwise_cons] at h
    simp only [Memory.write]
    split
    · rename_i hia
      refine List.pairwise_cons.mpr ⟨?_, List.pairwise_cons.mpr h⟩
      intro c hc
      rcases List.mem_cons.mp hc with rfl | hc
      · exact hia
      · exact Nat.lt_trans hia (h.1 c hc)
    · split
      · rename_i hia
        exact List.pairwise_cons.mpr ⟨fun c hc => hia ▸ h.1 c hc, h.2⟩
      · rename_i h1 h2
        refine List.pairwise_cons.mpr ⟨?_, ih h.2⟩
        intro c hc
        rcases Memory.write_mem m i v c hc with rfl | hc
        · show a < i
          omega
        · exact h.1 c hc

/-- A write inside BUF keeps the canonical form. -/
theorem Memory.write_wf (m : Memory) (i : Nat) (v : Byte) (h : m.wf) (hi : i < Config.bufSize) : (m.write i v).wf := by
  refine ⟨Memory.write_rising m i v h.1, fun c hc => ?_⟩
  rcases Memory.write_mem m i v c hc with rfl | hc
  · exact hi
  · exact h.2 c hc

/-- A write of a byte string inside BUF keeps the canonical form. -/
theorem Memory.writeBytes_wf (m : Memory) (off : Nat) (bs : List Byte) (h : m.wf)
    (hb : off + bs.length ≤ Config.bufSize) : (m.writeBytes off bs).wf := by
  induction bs generalizing m off with
  | nil => exact h
  | cons b bs ih =>
    simp only [List.length_cons] at hb
    exact ih _ _ (m.write_wf off b h (by omega)) (by omega)

/-- What MemRead answers: the bytes of the range where all of them are written. -/
theorem Memory.readBytes_ok (m : Memory) (off n : Nat) (bs : List Byte) (h : m.readBytes off n = .ok bs) :
    bs.length = n ∧ ∀ j, j < n → m.read (off + j) = bs[j]? := by
  induction n generalizing off bs with
  | zero =>
    simp only [Memory.readBytes, Except.ok.injEq] at h
    subst h
    simp
  | succ n ih =>
    simp only [Memory.readBytes] at h
    split at h
    · cases h
    · rename_i b hb
      split at h
      · cases h
      · rename_i bs' hbs
        cases h
        obtain ⟨hl, hr⟩ := ih _ _ hbs
        refine ⟨by simp [hl], fun j hj => ?_⟩
        cases j with
        | zero => simpa using hb
        | succ j =>
          have := hr j (by omega)
          rw [show off + 1 + j = off + (j + 1) by omega] at this
          simpa using this

/-- Where MemRead stops: at a byte of the range that was never written. -/
theorem Memory.readBytes_error (m : Memory) (off n i : Nat) (h : m.readBytes off n = .error i) :
    off ≤ i ∧ i < off + n ∧ m.read i = none := by
  induction n generalizing off with
  | zero => simp [Memory.readBytes] at h
  | succ n ih =>
    simp only [Memory.readBytes] at h
    split at h
    · rename_i hb
      cases h
      exact ⟨Nat.le_refl _, by omega, hb⟩
    · split at h
      · rename_i j hj
        cases h
        obtain ⟨h1, h2, h3⟩ := ih _ hj
        exact ⟨by omega, by omega, h3⟩
      · cases h

/-- MemRead answers exactly where every byte of the range has been written. -/
theorem Memory.readBytes_isOk (m : Memory) (off n : Nat) (h : ∀ j, j < n → m.read (off + j) ≠ none) :
    ∃ bs, m.readBytes off n = .ok bs := by
  cases hr : m.readBytes off n with
  | ok bs => exact ⟨bs, rfl⟩
  | error i =>
    obtain ⟨h1, h2, h3⟩ := m.readBytes_error off n i hr
    exact absurd (by rw [show off + (i - off) = i by omega]; exact h3) (h (i - off) (by omega))

end Sys2Proof.Machine
end

