-- ==== Sys2Proof/Laws/PerInstr.lean ====
section
/-! SUPPORT. A law of every instruction as syntax: its encoded word has an assigned opcode and bit 3 of every point field
zero (30_encoding.md R62, R64), so the decoder's first two checks never refuse it. -/

namespace Sys2Proof.Laws.EncodedRow

/-- The opcode of the encoded word is in the opcode map, and no point field has its bit 3 set. -/
def Statement (i : Instr) : Prop :=
  ∃ f j, rowOf (encode i) (opField (encode i)) = some (f, j) ∧ ∀ k ∈ f.pointBits, (encode i).getLsbD k = false

/-- The statement from the opcode and the bits of the word. -/
theorem of_row (i : Instr) (op : Nat) (f : Format) (j : Instr) (ho : opField (encode i) = op)
    (hr : rowOf (encode i) op = some (f, j)) (hk : ∀ k ∈ f.pointBits, (encode i).getLsbD k = false) : Statement i :=
  ⟨f, j, ho ▸ hr, hk⟩

theorem opField_assemble (op m f1 f2 f3 d : Nat) (hop : op < 64) (hm : m < 2) (h1 : f1 < 16) (h2 : f2 < 16) (h3 : f3 < 16)
    (hd : d < 4) : opField (assemble op m f1 f2 f3 d) = op := by
  rw [opField_eq, assemble_toNat op m f1 f2 f3 d hop hm h1 h2 h3 hd]
  omega

theorem opField_assembleImm (op m f1 f2 : Nat) (imm : BitVec 16) (hop : op < 64) (hm : m < 2) (h1 : f1 < 16)
    (h2 : f2 < 16) : opField (assembleImm op m f1 f2 imm) = op := by
  have := imm.isLt
  rw [opField_eq, assembleImm_toNat op m f1 f2 imm hop hm h1 h2]
  omega

/-- Bit 3 of a field that holds a number below 8 (30_encoding.md R60). -/
theorem bit23_assemble (op m f1 f2 f3 d : Nat) (hop : op < 64) (hm : m < 2) (h1 : f1 < 8) (h2 : f2 < 16) (h3 : f3 < 16)
    (hd : d < 4) : (assemble op m f1 f2 f3 d).getLsbD 23 = false := by
  rw [getLsbD_eq_decide, assemble_toNat op m f1 f2 f3 d hop hm (by omega) h2 h3 hd, decide_eq_false_iff_not]
  omega

theorem bit19_assemble (op m f1 f2 f3 d : Nat) (hop : op < 64) (hm : m < 2) (h1 : f1 < 16) (h2 : f2 < 8) (h3 : f3 < 16)
    (hd : d < 4) : (assemble op m f1 f2 f3 d).getLsbD 19 = false := by
  rw [getLsbD_eq_decide, assemble_toNat op m f1 f2 f3 d hop hm h1 (by omega) h3 hd, decide_eq_false_iff_not]
  omega

theorem bit15_assemble (op m f1 f2 f3 d : Nat) (hop : op < 64) (hm : m < 2) (h1 : f1 < 16) (h2 : f2 < 16) (h3 : f3 < 8)
    (hd : d < 4) : (assemble op m f1 f2 f3 d).getLsbD 15 = false := by
  rw [getLsbD_eq_decide, assemble_toNat op m f1 f2 f3 d hop hm h1 h2 (by omega) hd, decide_eq_false_iff_not]
  omega

theorem madd (m : Modulus) (rd ra rb : XReg) : Statement (.madd m rd ra rb) :=
  of_row (.madd m rd ra rb) 0x01 .fr3 _ (opField_assemble 0x01 m.bit rd ra rb 0 (by omega) m.bit_lt (by omega) (by omega) (by omega) (by omega)) rfl <| by
    intro k hk
    cases hk

theorem msub (m : Modulus) (rd ra rb : XReg) : Statement (.msub m rd ra rb) :=
  of_row (.msub m rd ra rb) 0x02 .fr3 _ (opField_assemble 0x02 m.bit rd ra rb 0 (by omega) m.bit_lt (by omega) (by omega) (by omega) (by omega)) rfl <| by
    intro k hk
    cases hk

theorem mmul (m : Modulus) (rd ra rb : XReg) : Statement (.mmul m rd ra rb) :=
  of_row (.mmul m rd ra rb) 0x03 .fr3 _ (opField_assemble 0x03 m.bit rd ra rb 0 (by omega) m.bit_lt (by omega) (by omega) (by omega) (by omega)) rfl <| by
    intro k hk
    cases hk

theorem msqr (m : Modulus) (rd ra : XReg) : Statement (.msqr m rd ra) :=
  of_row (.msqr m rd ra) 0x04 .fr2 _ (opField_assemble 0x04 m.bit rd ra 0 0 (by omega) m.bit_lt (by omega) (by omega) (by omega) (by omega)) rfl <| by
    intro k hk
    cases hk

theorem mneg (m : Modulus) (rd ra : XReg) : Statement (.mneg m rd ra) :=
  of_row (.mneg m rd ra) 0x05 .fr2 _ (opField_assemble 0x05 m.bit rd ra 0 0 (by omega) m.bit_lt (by omega) (by omega) (by omega) (by omega)) rfl <| by
    intro k hk
    cases hk

theorem msmul (m : Modulus) (rd ra : XReg) (imm : BitVec 16) : Statement (.msmul m rd ra imm) :=
  of_row (.msmul m rd ra imm) 0x06 .fi _ (opField_assembleImm 0x06 m.bit rd ra imm (by omega) m.bit_lt (by omega) (by omega)) rfl <| by
    intro k hk
    cases hk

theorem minv (m : Modulus) (rd ra : XReg) : Statement (.minv m rd ra) :=
  of_row (.minv m rd ra) 0x07 .fr2 _ (opField_assemble 0x07 m.bit rd ra 0 0 (by omega) m.bit_lt (by omega) (by omega) (by omega) (by omega)) rfl <| by
    intro k hk
    cases hk

theorem mdiv (m : Modulus) (rd ra rb : XReg) : Statement (.mdiv m rd ra rb) :=
  of_row (.mdiv m rd ra rb) 0x08 .fr3 _ (opField_assemble 0x08 m.bit rd ra rb 0 (by omega) m.bit_lt (by omega) (by omega) (by omega) (by omega)) rfl <| by
    intro k hk
    cases hk

theorem mred (m : Modulus) (rd ra : XReg) : Statement (.mred m rd ra) :=
  of_row (.mred m rd ra) 0x09 .fr2 _ (opField_assemble 0x09 m.bit rd ra 0 0 (by omega) m.bit_lt (by omega) (by omega) (by omega) (by omega)) rfl <| by
    intro k hk
    cases hk

theorem xmov (rd ra : XReg) : Statement (.xmov rd ra) :=
  of_row (.xmov rd ra) 0x10 .xr2 _ (opField_assemble 0x10 0 rd ra 0 0 (by omega) (by omega) (by omega) (by omega) (by omega) (by omega)) rfl <| by
    intro k hk
    cases hk

theorem xldi (rd : XReg) (imm : BitVec 16) : Statement (.xldi rd imm) :=
  of_row (.xldi rd imm) 0x11 .xi _ (opField_assembleImm 0x11 0 rd 0 imm (by omega) (by omega) (by omega) (by omega)) rfl <| by
    intro k hk
    cases hk

theorem xldp (rd : XReg) (sel : Fin 16) : Statement (.xldp rd sel) :=
  of_row (.xldp rd sel) 0x12 .xs _ (opField_assemble 0x12 0 rd sel 0 0 (by omega) (by omega) (by omega) (by omega) (by omega) (by omega)) rfl <| by
    intro k hk
    cases hk

theorem xcmp (ra rb : XReg) : Statement (.xcmp ra rb) :=
  of_row (.xcmp ra rb) 0x13 .xc _ (opField_assemble 0x13 0 0 ra rb 0 (by omega) (by omega) (by omega) (by omega) (by omega) (by omega)) rfl <| by
    intro k hk
    cases hk

theorem ldbe (r : XReg) (k : DescSel) : Statement (.ldbe r k) :=
  of_row (.ldbe r k) 0x14 .xd _ (opField_assemble 0x14 0 r 0 0 k (by omega) (by omega) (by omega) (by omega) (by omega) (by omega)) rfl <| by
    intro k hk
    cases hk

theorem ldle (r : XReg) (k : DescSel) : Statement (.ldle r k) :=
  of_row (.ldle r k) 0x15 .xd _ (opField_assemble 0x15 0 r 0 0 k (by omega) (by omega) (by omega) (by omega) (by omega) (by omega)) rfl <| by
    intro k hk
    cases hk

theorem stbe (r : XReg) (k : DescSel) : Statement (.stbe r k) :=
  of_row (.stbe r k) 0x16 .xd _ (opField_assemble 0x16 0 r 0 0 k (by omega) (by omega) (by omega) (by omega) (by omega) (by omega)) rfl <| by
    intro k hk
    cases hk

theorem stle (r : XReg) (k : DescSel) : Statement (.stle r k) :=
  of_row (.stle r k) 0x17 .xd _ (opField_assemble 0x17 0 r 0 0 k (by omega) (by omega) (by omega) (by omega) (by omega) (by omega)) rfl <| by
    intro k hk
    cases hk

theorem cfgchk : Statement (.cfgchk) :=
  of_row (.cfgchk) 0x18 .n0 _ (opField_assemble 0x18 0 0 0 0 0 (by omega) (by omega) (by omega) (by omega) (by omega) (by omega)) rfl <| by
    intro k hk
    cases hk

theorem pinf (qd : QReg) : Statement (.pinf qd) :=
  of_row (.pinf qd) 0x20 .p1 _ (opField_assemble 0x20 0 qd 0 0 0 (by omega) (by omega) (by omega) (by omega) (by omega) (by omega)) rfl <| by
    intro k hk
    fin_cases hk
    · exact bit23_assemble 0x20 0 qd 0 0 0 (by omega) (by omega) (by omega) (by omega) (by omega) (by omega)

theorem pgen (qd : QReg) : Statement (.pgen qd) :=
  of_row (.pgen qd) 0x21 .p1 _ (opField_assemble 0x21 0 qd 0 0 0 (by omega) (by omega) (by omega) (by omega) (by omega) (by omega)) rfl <| by
    intro k hk
    fin_cases hk
    · exact bit23_assemble 0x21 0 qd 0 0 0 (by omega) (by omega) (by omega) (by omega) (by omega) (by omega)

theorem pset (qd : QReg) (ra rb : XReg) : Statement (.pset qd ra rb) :=
  of_row (.pset qd ra rb) 0x22 .px _ (opField_assemble 0x22 0 qd ra rb 0 (by omega) (by omega) (by omega) (by omega) (by omega) (by omega)) rfl <| by
    intro k hk
    fin_cases hk
    · exact bit23_assemble 0x22 0 qd ra rb 0 (by omega) (by omega) (by omega) (by omega) (by omega) (by omega)

theorem pgetx (rd : XReg) (qa : QReg) : Statement (.pgetx rd qa) :=
  of_row (.pgetx rd qa) 0x23 .pg _ (opField_assemble 0x23 0 rd qa 0 0 (by omega) (by omega) (by omega) (by omega) (by omega) (by omega)) rfl <| by
    intro k hk
    fin_cases hk
    · exact bit19_assemble 0x23 0 rd qa 0 0 (by omega) (by omega) (by omega) (by omega) (by omega) (by omega)

theorem pgety (rd : XReg) (qa : QReg) : Statement (.pgety rd qa) :=
  of_row (.pgety rd qa) 0x24 .pg _ (opField_assemble 0x24 0 rd qa 0 0 (by omega) (by omega) (by omega) (by omega) (by omega) (by omega)) rfl <| by
    intro k hk
    fin_cases hk
    · exact bit19_assemble 0x24 0 rd qa 0 0 (by omega) (by omega) (by omega) (by omega) (by omega) (by omega)

theorem pmov (qd qa : QReg) : Statement (.pmov qd qa) :=
  of_row (.pmov qd qa) 0x25 .p2 _ (opField_assemble 0x25 0 qd qa 0 0 (by omega) (by omega) (by omega) (by omega) (by omega) (by omega)) rfl <| by
    intro k hk
    fin_cases hk
    · exact bit23_assemble 0x25 0 qd qa 0 0 (by omega) (by omega) (by omega) (by omega) (by omega) (by omega)
    · exact bit19_assemble 0x25 0 qd qa 0 0 (by omega) (by omega) (by omega) (by omega) (by omega) (by omega)

theorem padd (qd qa qb : QReg) : Statement (.padd qd qa qb) :=
  of_row (.padd qd qa qb) 0x26 .p3 _ (opField_assemble 0x26 0 qd qa qb 0 (by omega) (by omega) (by omega) (by omega) (by omega) (by omega)) rfl <| by
    intro k hk
    fin_cases hk
    · exact bit23_assemble 0x26 0 qd qa qb 0 (by omega) (by omega) (by omega) (by omega) (by omega) (by omega)
    · exact bit19_assemble 0x26 0 qd qa qb 0 (by omega) (by omega) (by omega) (by omega) (by omega) (by omega)
    · exact bit15_assemble 0x26 0 qd qa qb 0 (by omega) (by omega) (by omega) (by omega) (by omega) (by omega)

theorem pdbl (qd qa : QReg) : Statement (.pdbl qd qa) :=
  of_row (.pdbl qd qa) 0x27 .p2 _ (opField_assemble 0x27 0 qd qa 0 0 (by omega) (by omega) (by omega) (by omega) (by omega) (by omega)) rfl <| by
    intro k hk
    fin_cases hk
    · exact bit23_assemble 0x27 0 qd qa 0 0 (by omega) (by omega) (by omega) (by omega) (by omega) (by omega)
    · exact bit19_assemble 0x27 0 qd qa 0 0 (by omega) (by omega) (by omega) (by omega) (by omega) (by omega)

theorem pneg (qd qa : QReg) : Statement (.pneg qd qa) :=
  of_row (.pneg qd qa) 0x28 .p2 _ (opField_assemble 0x28 0 qd qa 0 0 (by omega) (by omega) (by omega) (by omega) (by omega) (by omega)) rfl <| by
    intro k hk
    fin_cases hk
    · exact bit23_assemble 0x28 0 qd qa 0 0 (by omega) (by omega) (by omega) (by omega) (by omega) (by omega)
    · exact bit19_assemble 0x28 0 qd qa 0 0 (by omega) (by omega) (by omega) (by omega) (by omega) (by omega)

theorem pmul (qd qa : QReg) (rk : XReg) : Statement (.pmul qd qa rk) :=
  of_row (.pmul qd qa rk) 0x29 .pk _ (opField_assemble 0x29 0 qd qa rk 0 (by omega) (by omega) (by omega) (by omega) (by omega) (by omega)) rfl <| by
    intro k hk
    fin_cases hk
    · exact bit23_assemble 0x29 0 qd qa rk 0 (by omega) (by omega) (by omega) (by omega) (by omega) (by omega)
    · exact bit19_assemble 0x29 0 qd qa rk 0 (by omega) (by omega) (by omega) (by omega) (by omega) (by omega)

theorem pchk (qa : QReg) : Statement (.pchk qa) :=
  of_row (.pchk qa) 0x2A .pc _ (opField_assemble 0x2A 0 0 qa 0 0 (by omega) (by omega) (by omega) (by omega) (by omega) (by omega)) rfl <| by
    intro k hk
    fin_cases hk
    · exact bit19_assemble 0x2A 0 0 qa 0 0 (by omega) (by omega) (by omega) (by omega) (by omega) (by omega)

theorem penc (q : QReg) (k : DescSel) : Statement (.penc q k) :=
  of_row (.penc q k) 0x30 .pd _ (opField_assemble 0x30 0 q 0 0 k (by omega) (by omega) (by omega) (by omega) (by omega) (by omega)) rfl <| by
    intro k hk
    fin_cases hk
    · exact bit23_assemble 0x30 0 q 0 0 k (by omega) (by omega) (by omega) (by omega) (by omega) (by omega)

theorem pencle (q : QReg) (k : DescSel) : Statement (.pencle q k) :=
  of_row (.pencle q k) 0x31 .pd _ (opField_assemble 0x31 0 q 0 0 k (by omega) (by omega) (by omega) (by omega) (by omega) (by omega)) rfl <| by
    intro k hk
    fin_cases hk
    · exact bit23_assemble 0x31 0 q 0 0 k (by omega) (by omega) (by omega) (by omega) (by omega) (by omega)

theorem pdec (q : QReg) (k : DescSel) : Statement (.pdec q k) :=
  of_row (.pdec q k) 0x32 .pd _ (opField_assemble 0x32 0 q 0 0 k (by omega) (by omega) (by omega) (by omega) (by omega) (by omega)) rfl <| by
    intro k hk
    fin_cases hk
    · exact bit23_assemble 0x32 0 q 0 0 k (by omega) (by omega) (by omega) (by omega) (by omega) (by omega)

theorem pubk (qd : QReg) (ra : XReg) : Statement (.pubk qd ra) :=
  of_row (.pubk qd ra) 0x38 .pu _ (opField_assemble 0x38 0 qd ra 0 0 (by omega) (by omega) (by omega) (by omega) (by omega) (by omega)) rfl <| by
    intro k hk
    fin_cases hk
    · exact bit23_assemble 0x38 0 qd ra 0 0 (by omega) (by omega) (by omega) (by omega) (by omega) (by omega)

theorem sign (ra : XReg) : Statement (.sign ra) :=
  of_row (.sign ra) 0x39 .sg _ (opField_assemble 0x39 0 0 ra 0 0 (by omega) (by omega) (by omega) (by omega) (by omega) (by omega)) rfl <| by
    intro k hk
    cases hk

theorem verify : Statement (.verify) :=
  of_row (.verify) 0x3A .n0 _ (opField_assemble 0x3A 0 0 0 0 0 (by omega) (by omega) (by omega) (by omega) (by omega) (by omega)) rfl <| by
    intro k hk
    cases hk

theorem stcomp : Statement (.stcomp) :=
  of_row (.stcomp) 0x3C .n0 _ (opField_assemble 0x3C 0 0 0 0 0 (by omega) (by omega) (by omega) (by omega) (by omega) (by omega)) rfl <| by
    intro k hk
    cases hk

theorem uv2xy (qd qa : QReg) : Statement (.uv2xy qd qa) :=
  of_row (.uv2xy qd qa) 0x3D .p2 _ (opField_assemble 0x3D 0 qd qa 0 0 (by omega) (by omega) (by omega) (by omega) (by omega) (by omega)) rfl <| by
    intro k hk
    fin_cases hk
    · exact bit23_assemble 0x3D 0 qd qa 0 0 (by omega) (by omega) (by omega) (by omega) (by omega) (by omega)
    · exact bit19_assemble 0x3D 0 qd qa 0 0 (by omega) (by omega) (by omega) (by omega) (by omega) (by omega)

theorem xy2uv (qd qa : QReg) : Statement (.xy2uv qd qa) :=
  of_row (.xy2uv qd qa) 0x3E .p2 _ (opField_assemble 0x3E 0 qd qa 0 0 (by omega) (by omega) (by omega) (by omega) (by omega) (by omega)) rfl <| by
    intro k hk
    fin_cases hk
    · exact bit23_assemble 0x3E 0 qd qa 0 0 (by omega) (by omega) (by omega) (by omega) (by omega) (by omega)
    · exact bit19_assemble 0x3E 0 qd qa 0 0 (by omega) (by omega) (by omega) (by omega) (by omega) (by omega)

end Sys2Proof.Laws.EncodedRow
end

