-- ==== Sys2Proof/Tests/Slice0.lean ====
section
/-! SUPPORT. The model's own tests. The words and the expected values are those of 95_test_vectors.md and of the rules'
examples; a test's name carries the vector's id where it has one. -/

namespace Sys2Proof.Tests

open Sys2Proof.Machine Sys2Proof.Claims

set_option Elab.async false

/-! ## Small states -/

/-- A state with every register word written: the TOY parameters of 95_test_vectors.md section 2.0, with E and D of EDTOY. -/
def toy : State :=
  { State.reset with
    prm := #v[.written 157, .written 1, .written 4, .written 2, .written 64, .written 151, .written 1, .written 5,
      .written 0, .written 0]
    x := Vector.replicate 16 (.written 0)
    q := Vector.replicate 8 (.written 0 0 false)
    bytelen := 1
    h := 1
    edw := true
    cfgok := true }

/-- The largest register value. -/
def top : Nat := 2 ^ 512 - 1

def withX (a b : Nat) : State := (toy.setX 1 a).setX 2 b

def withQ (j : QReg) (x y : Nat) : State := toy.setQ j x y false

def withDesc (k : DescSel) (o l : Nat) (s : State) : State :=
  { s with desc := s.desc.set k ⟨BitVec.ofNat 10 o, BitVec.ofNat 11 l⟩ }

def withBytes (o : Nat) (bs : List Byte) (s : State) : State := s.writeBuf o bs

/-- SIGN's layout of 95_test_vectors.md section 2.6. -/
def signState (d : Nat) (dig seed : List Byte) : State :=
  withBytes 0 dig (withBytes 0x10 seed (withDesc 0 0 dig.length (withDesc 1 0x10 seed.length (withDesc 2 0x20 2 (toy.setX 4 d)))))

/-- VERIFY's layout of 95_test_vectors.md section 2.6. -/
def verifyState (pk dig sig : List Byte) : State :=
  withBytes 0 pk (withBytes 0x10 dig (withBytes 0x20 sig
    (withDesc 0 0 pk.length (withDesc 1 0x10 dig.length (withDesc 2 0x20 sig.length toy)))))

/-- The outcome is a next state that passes the check. -/
def answers (o : Out) (p : State → Bool) : Bool :=
  match o with
  | .next t => p t
  | .fault _ => false
  | .refused _ => false

theorem answers_next (o : Out) (p : State → Bool) (h : answers o p = true) : ∃ t, o = .next t ∧ p t = true := by
  cases o with
  | next t => exact ⟨t, rfl, h⟩
  | fault => cases h
  | refused => cases h

/-- The command word's step answers a state that passes the check. -/
def run (w : Nat) (s : State) (p : State → Bool) : Bool := answers (step (s.withFetchWord 32 w)) p

/-- The agent's move answers a state that passes the check. -/
def move (e : Event) (s : State) (p : State → Bool) : Bool := answers (step (facing e s)) p

def good (t : State) : Bool := t.done && !t.err && !t.busy && !t.unwrittenRead

def xIs (i : XReg) (v : Nat) (t : State) : Bool := good t && decide (t.xVal i = v)

def qIs (j : QReg) (x y : Nat) (inf : Bool) (t : State) : Bool :=
  good t && decide (t.q[j].x.val.toNat = x) && decide (t.q[j].y.val.toNat = y) && decide (t.q[j].inf = inf)

def bufIs (o : Nat) (bs : List Byte) (t : State) : Bool :=
  good t && (List.range bs.length).all (fun j => decide (t.buf.read (o + j) = bs[j]?))

def resultIs (b : Bool) (t : State) : Bool := good t && decide (t.result = b)

/-- "ERR c/0xNN" of 95_test_vectors.md. -/
def errIs (c k : Nat) (t : State) : Bool :=
  t.done && t.err && !t.busy && decide (t.errcode.toNat = c) && decide (t.cause.toNat = k)

/-! ## Well-formedness: the one check, and the ill-formed term it refuses -/

theorem test_wellFormed_xldp_last : (Instr.xldp 15 11).wellFormed = true := by decide
theorem test_wellFormed_refuses_xldp_12 : (Instr.xldp 0 12).wellFormed = false := by decide
theorem test_wellFormed_refuses_xldp_15 : (Instr.xldp 15 15).wellFormed = false := by decide

/-! ## Decoding: a word written out for every constructor (95_test_vectors.md sections 2.1 to 2.7) -/

theorem test_decode_field :
    decode 0x04312000 = .ok (.madd .p 3 1 2) ∧ decode 0x08311000 = .ok (.msub .p 3 1 1) ∧
    decode 0x0C312000 = .ok (.mmul .p 3 1 2) ∧ decode 0x10210000 = .ok (.msqr .p 2 1) ∧
    decode 0x14210000 = .ok (.mneg .p 2 1) ∧ decode 0x1A120003 = .ok (.msmul .n 1 2 3) ∧
    decode 0x1812FFFF = .ok (.msmul .p 1 2 0xFFFF) ∧ decode 0x1C210000 = .ok (.minv .p 2 1) ∧
    decode 0x20312000 = .ok (.mdiv .p 3 1 2) ∧ decode 0x26210000 = .ok (.mred .n 2 1) := by decide +kernel

theorem test_decode_register :
    decode 0x40210000 = .ok (.xmov 2 1) ∧ decode 0x4450FFFF = .ok (.xldi 5 0xFFFF) ∧ decode 0x48050000 = .ok (.xldp 0 5) ∧
    decode 0x480B0000 = .ok (.xldp 0 11) ∧ decode 0x4C012000 = .ok (.xcmp 1 2) ∧ decode 0x50200001 = .ok (.ldbe 2 1) ∧
    decode 0x54100000 = .ok (.ldle 1 0) ∧ decode 0x58200003 = .ok (.stbe 2 3) ∧ decode 0x5C200003 = .ok (.stle 2 3) ∧
    decode 0x60000000 = .ok .cfgchk := by decide +kernel

theorem test_decode_curve :
    decode 0x80300000 = .ok (.pinf 3) ∧ decode 0x84000000 = .ok (.pgen 0) ∧ decode 0x88201000 = .ok (.pset 2 0 1) ∧
    decode 0x8C410000 = .ok (.pgetx 4 1) ∧ decode 0x90510000 = .ok (.pgety 5 1) ∧ decode 0x94400000 = .ok (.pmov 4 0) ∧
    decode 0x98210000 = .ok (.padd 2 1 0) ∧ decode 0x9C320000 = .ok (.pdbl 3 2) ∧ decode 0xA0100000 = .ok (.pneg 1 0) ∧
    decode 0xA4105000 = .ok (.pmul 1 0 5) ∧ decode 0xA8030000 = .ok (.pchk 3) := by decide +kernel

theorem test_decode_codec_signature_edwards :
    decode 0xC0000002 = .ok (.penc 0 2) ∧ decode 0xC4000003 = .ok (.pencle 0 3) ∧ decode 0xC8100000 = .ok (.pdec 1 0) ∧
    decode 0xE0140000 = .ok (.pubk 1 4) ∧ decode 0xE4040000 = .ok (.sign 4) ∧ decode 0xE8000000 = .ok .verify ∧
    decode 0xF0000000 = .ok .stcomp ∧ decode 0xF4100000 = .ok (.uv2xy 1 0) ∧ decode 0xF8210000 = .ok (.xy2uv 2 1) := by
  decide +kernel

/-- 95_test_vectors.md section 2.3, DC1 to DC9. -/
theorem test_decode_illegal :
    decode 0x00000000 = .error .opcode ∧ decode 0x94880000 = .error .pointIndex ∧ decode 0x94880001 = .error .pointIndex ∧
    decode 0x60000001 = .error .reservedBits ∧ decode 0x05312000 = .error .reservedBits ∧ decode 0x2C000000 = .error .opcode ∧
    decode 0x42000000 = .error .reservedBits ∧ decode 0xFC000000 = .error .opcode ∧ decode 0xE4040001 = .error .reservedBits ∧
    decode 0x480C0000 = .error .paramSel := by decide +kernel

theorem test_decodeTableWord :
    decodeTableWord 32 0x04312000 = some (.madd .p 3 1 2) ∧ decodeTableWord 32 0 = none ∧
    decodeTableWord 32 0x104312000 = none := by decide +kernel

/-! ## Field family -/

theorem test_madd_F2 : run 0x04312000 (withX top 1) (xIs 3 46) = true := by decide +kernel
theorem test_madd_F24 : run 0x04312000 ((withX 150 20).setPrm .p (.written 4)) (errIs 2 0x10) = true := by decide +kernel
theorem test_msub_F3 : run 0x08312000 (withX 5 9) (xIs 3 153) = true := by decide +kernel
theorem test_mmul_F5 : run 0x0C312000 (withX 100 100) (xIs 3 109) = true := by decide +kernel
theorem test_mmul_F28 : run 0x0C111000 (withX top 0) (xIs 1 141) = true := by decide +kernel
theorem test_msqr_F8 : run 0x10210000 (withX top 0) (xIs 2 141) = true := by decide +kernel
theorem test_mneg_F10 : run 0x14210000 (withX 314 9) (xIs 2 0) = true := by decide +kernel
theorem test_msmul_F11 : run 0x1A120003 (withX 0 100) (xIs 1 149) = true := by decide +kernel
theorem test_msmul_F13 : run 0x1812FFFF (withX 0 top) (xIs 1 144) = true := by decide +kernel
theorem test_minv_F14 : run 0x1C210000 (withX 2 9) (xIs 2 79) = true := by decide +kernel
theorem test_minv_F15 : run 0x1C210000 (withX 0 9) (fun t => errIs 4 0x30 t && decide (t.xVal 2 = 9)) = true := by
  decide +kernel
theorem test_mdiv_F18 : run 0x20312000 (withX 3 2) (xIs 3 80) = true := by decide +kernel
theorem test_mred_F21 : run 0x26210000 (withX 1000 9) (xIs 2 94) = true := by decide +kernel

/-! ## Register, transfer and configuration family -/

theorem test_xmov_X1 : run 0x40210000 (withX 0x1234 9) (xIs 2 0x1234) = true := by decide +kernel
theorem test_xldi_X2 : run 0x4450FFFF (toy.setX 5 top) (xIs 5 65535) = true := by decide +kernel
theorem test_xldp_X3 : run 0x48050000 toy (xIs 0 151) = true := by decide +kernel
theorem test_xldp_X5 : run 0x480B0000 toy (xIs 0 1) = true := by decide +kernel
theorem test_xcmp_X7 : run 0x4C012000 (withX 157 0) (resultIs false) = true := by decide +kernel
theorem test_xcmp_X8 : run 0x4C011000 (withX 7 0) (resultIs true) = true := by decide +kernel
theorem test_ldbe_X9 :
    run 0x50100000 (withDesc 0 0x10 4 (withBytes 0x10 [1, 2, 3, 4] toy)) (xIs 1 0x01020304) = true := by decide +kernel
theorem test_ldbe_X19 : run 0x50200001 (withDesc 1 1020 8 toy) (errIs 1 5) = true := by decide +kernel
theorem test_ldle_X10 :
    run 0x54100000 (withDesc 0 0x10 4 (withBytes 0x10 [1, 2, 3, 4] toy)) (xIs 1 0x04030201) = true := by decide +kernel
theorem test_stbe_X14 : run 0x58200003 (withDesc 3 0x20 4 (withX 0 0x1234)) (bufIs 0x20 [0, 0, 0x12, 0x34]) = true := by
  decide +kernel
theorem test_stbe_X16 : run 0x58200003 (withDesc 3 0x20 2 (withX 0 0x10000)) (errIs 3 0x23) = true := by decide +kernel
theorem test_stle_X15 : run 0x5C200003 (withDesc 3 0x20 4 (withX 0 0x1234)) (bufIs 0x20 [0x34, 0x12, 0, 0]) = true := by
  decide +kernel
theorem test_cfgchk_CK1 : run 0x60000000 { toy with cfgok := false } (fun t => good t && t.cfgok) = true := by
  decide +kernel
theorem test_cfgchk_CK8 :
    run 0x60000000 (toy.setPrm .gy (.written 65)) (fun t => errIs 2 0x17 t && !t.cfgok) = true := by decide +kernel

/-! ## Curve family -/

theorem test_pinf_P19 : run 0x80300000 (withQ 3 7 7) (qIs 3 0 0 true) = true := by decide +kernel
theorem test_pgen_P18 : run 0x84000000 toy (qIs 0 2 64 false) = true := by decide +kernel
theorem test_pset_P16 : run 0x88201000 ((toy.setX 0 5).setX 1 0) (qIs 2 5 0 false) = true := by decide +kernel
theorem test_pset_P17 : run 0x88201000 ((toy.setX 0 157).setX 1 0) (errIs 4 0x32) = true := by decide +kernel
theorem test_pgetx_P20 : run 0x8C410000 (withQ 1 142 15) (xIs 4 142) = true := by decide +kernel
theorem test_pgetx_P21 : run 0x8C410000 (toy.setQ 1 142 15 true) (xIs 4 0) = true := by decide +kernel
theorem test_pgety_P20 : run 0x90510000 (withQ 1 142 15) (xIs 5 15) = true := by decide +kernel
theorem test_pmov_P22 : run 0x94400000 (withQ 0 2 64) (qIs 4 2 64 false) = true := by decide +kernel
theorem test_padd_P1 : run 0x98201000 ((withQ 0 2 64).setQ 1 142 15 false) (qIs 2 30 40 false) = true := by decide +kernel
theorem test_padd_P2 : run 0x98201000 ((withQ 0 2 64).setQ 1 2 93 false) (qIs 2 0 0 true) = true := by decide +kernel
theorem test_pdbl_P8 : run 0x9C100000 (withQ 0 2 64) (qIs 1 142 15 false) = true := by decide +kernel
theorem test_pdbl_P7 : run 0x9C320000 (withQ 2 5 0) (qIs 3 0 0 true) = true := by decide +kernel
theorem test_pneg_P9 : run 0xA0100000 (withQ 0 2 64) (qIs 1 2 93 false) = true := by decide +kernel
theorem test_pmul_P11 : run 0xA4105000 ((withQ 0 2 64).setX 5 5) (qIs 1 152 119 false) = true := by decide +kernel
theorem test_pmul_P13 : run 0xA4105000 ((withQ 0 5 0).setX 5 2) (errIs 4 0x31) = true := by decide +kernel
theorem test_pchk_P23 : run 0xA8030000 (withQ 3 2 64) (resultIs true) = true := by decide +kernel
theorem test_pchk_P26 : run 0xA8030000 (withQ 3 159 64) (resultIs false) = true := by decide +kernel

/-! ## Codec family -/

theorem test_penc_K1 : run 0xC0000002 (withDesc 2 0x20 3 (withQ 0 2 64)) (bufIs 0x20 [4, 2, 0x40]) = true := by
  decide +kernel
theorem test_penc_K2 : run 0xC0000002 (withDesc 2 0x20 3 (toy.setQ 0 2 64 true)) (errIs 4 0x35) = true := by decide +kernel
theorem test_pencle_K4 : run 0xC4000003 (withDesc 3 0x30 2 (withQ 0 2 64)) (bufIs 0x30 [2, 0x40]) = true := by
  decide +kernel
theorem test_pencle_K5 :
    run 0xC4000003 (withDesc 3 0x30 2 (withBytes 0x30 [0x11, 0x11] (toy.setQ 0 1 1 true))) (bufIs 0x30 [0, 0]) = true := by
  decide +kernel
theorem test_pdec_K7 : run 0xC8100000 (withDesc 0 0 3 (withBytes 0 [4, 2, 0x5D] toy)) (qIs 1 2 93 false) = true := by
  decide +kernel
theorem test_pdec_K13 : run 0xC8100000 (withDesc 0 0 3 (withBytes 0 [5, 0x9D, 0x40] toy)) (errIs 3 0x21) = true := by
  decide +kernel

/-! ## Signature family -/

theorem test_pubk : run 0xE0140000 (toy.setX 4 5) (qIs 1 152 119 false) = true := by decide +kernel
theorem test_pubk_key_range : run 0xE0140000 (toy.setX 4 151) (errIs 4 0x34) = true := by decide +kernel
theorem test_sign_V1 :
    run 0xE4040000 (signState 5 [0x0A] [3]) (fun t => bufIs 0x20 [0x1E, 0x1D] t && decide (t.iter = 1)) = true := by
  decide +kernel
/-- S-V12 up to its request, then B19's STATUS bits. -/
theorem test_sign_V12_waits :
    run 0xE4040000 (signState 5 [0x0A] []) (fun t => decide (t.statusWord = 0x29) && decide (t.requests = 1)) = true := by
  decide +kernel
/-- S-V2's second iteration, on the answer 03. -/
theorem test_sign_V2_goes_on :
    move .core { signState 5 [0x0A] [0] with cmd := 0xE4040000, phase := .entropyGot ⟨10, 5, some [0], 2⟩ [3] }
      (fun t => bufIs 0x20 [0x1E, 0x1D] t && decide (t.iter = 2)) = true := by decide +kernel
theorem test_verify_W1 : run 0xE8000000 (verifyState [4, 0x98, 0x77] [10] [0x1E, 0x1D]) (resultIs true) = true := by
  decide +kernel
/-- S-W3 to S-W6: r and s of 0 and n are rejected (44_signature.md R131). -/
theorem test_verify_W3_to_W6 : ∀ sig ∈ ([[0x00, 0x1D], [0x97, 0x1D], [0x1E, 0x00], [0x1E, 0x97]] : List (List Byte)),
    run 0xE8000000 (verifyState [4, 0x98, 0x77] [10] sig) (resultIs false) = true := by decide +kernel
/-- S-W15: every single-bit flip of the valid signature 1E 1D is rejected (44_signature.md R131). -/
theorem test_verify_W15 : ∀ b < 16,
    run 0xE8000000 (verifyState [4, 0x98, 0x77] [10] (beBytes (0x1E1D ^^^ 2 ^ b) 2)) (resultIs false) = true := by
  decide +kernel
/-- The first property of 44_signature.md R131 on TOY: PUBK q1, x4; PENC q1 to BUF[0 ..]; SIGN x4; VERIFY. -/
theorem test_sign_then_verify :
    run 0xE0140000 (withDesc 3 0 3 (signState 5 [0x0A] [3])) (fun t => run 0xC0100003 (withDesc 0 0x14 1 (withBytes 0x14 [10] t))
      (fun t => run 0xE4040000 t (fun t => run 0xE8000000 (withDesc 0 0 3 (withDesc 1 0x14 1 t)) (resultIs true)))) = true := by
  decide +kernel

/-- The 256-bit test set of 95_test_vectors.md section 1.1. -/
def kat : State :=
  { toy with
    prm := #v[.written 0x8000000000000000000000000000000000000000000000000000000000000431, .written 7,
      .written 0x5FBFF498AA938CE739B8E022FBAFEF40563F6E6A3472FC2A514C0CE9DAE23B7E, .written 2,
      .written 0x08E2A8A0E65147D4BD6316030E16D19C85C97F0A9CA267122B96ABBCEA7E8FC8,
      .written 0x8000000000000000000000000000000150FE8A1892976154C59CFC193ACCF5B3, .written 1, .written 5, .written 0,
      .written 0]
    bytelen := 32 }.setX 4 0x7A929ADE789BB9BE10ED359DD39A72C11B60961F49397EEE1D19CE9891EC3B28

/-- The known answers of 95_test_vectors.md section 1.1 (44_signature.md R131): the public key, and the signature that SIGN
makes with the seed taken on the first iteration. -/
theorem test_kat_pubk :
    run 0xE0040000 kat (qIs 0 0x7F2B49E270DB6D90D8595BEC458B50C58585BA1D4E9B788F6689DBD8E56FD80B
      0x26F1B489D6701DD185C8413A977B3CBBAF64D1C593D26627DFFB101A87FF77DA false) = true := by decide +kernel

theorem test_kat_sign :
    run 0xE4040000 (withBytes 0 (beBytes 0x2DFBC1B372D89A1188C09C52E0EEC61FCE52032AB1022E8E67ECE6672B043EE5 32)
      (withBytes 0x20 (beBytes 0x77105C9B20BCD3122823C8CF6FCC7B956DE33814E95B7FE64FED924594DCEAB3 32)
        (withDesc 0 0 32 (withDesc 1 0x20 32 (withDesc 2 0x40 64 kat)))))
      (fun t => decide (t.iter = 1) && bufIs 0x40 (beBytes 0x41AA28D2F1AB148280CD9ED56FEDA41974053554A42767B83AD043FD39DC0493 32 ++
        beBytes 0x01456C64BA4642A1653C235A98A60249BCD6D3F746B631DF928014F6C5BF9C40 32) t) = true := by decide +kernel

/-! ## Edwards family -/

theorem test_stcomp_E1 :
    run 0xF0000000 toy (fun t => good t && decide (t.prmVal .s = 156) && decide (t.prmVal .t = 1) && t.stv) = true := by
  decide +kernel
theorem test_stcomp_E3 : run 0xF0000000 { toy with edw := false } (errIs 2 0x12) = true := by decide +kernel
theorem test_uv2xy_E7 :
    run 0xF4100000 (withQ 0 2 23) (fun t => qIs 1 102 129 false t && decide (t.prmVal .s = 156) && t.stv) = true := by
  decide +kernel
theorem test_uv2xy_E9 : run 0xF4100000 (withQ 0 0 1) (fun t => errIs 4 0x30 t && !t.stv) = true := by decide +kernel
theorem test_xy2uv_E15 : run 0xF8100000 (withQ 0 102 129) (qIs 1 2 23 false) = true := by decide +kernel
theorem test_xy2uv_E20 : run 0xF8100000 (withQ 0 2 5) (errIs 4 0x30) = true := by decide +kernel

/-! ## Bus, status, interrupt and reset (95_test_vectors.md section 2.8) -/

theorem test_bus_B1 : move (hostR 0) State.reset (fun t => decide (t.busRead = some 0x47430001)) = true := by decide +kernel
theorem test_bus_B3 : move (hostW 2 1) toy (fun t => decide (t.statusWord = 0x108)) = true := by decide +kernel
theorem test_bus_B4 : move (hostR 0x40) toy (fun t => t.buserr && decide (t.busRead = some 0)) = true := by decide +kernel

/-- A partial write of X0 while BUSY = 1 (20_memory.md R45; log 20 for BUSERR alone). -/
theorem test_partial_access_while_busy :
    move (.host ⟨0x400, 0x7, .write 1⟩) (toy.accept 0) (fun t => t.buserr && !t.werr && decide (t.xVal 0 = 0)) = true := by
  decide +kernel
theorem test_bus_B5 :
    move (hostW 0x1000 0x04030201) toy (fun t => decide (t.buf = [(0, 1), (1, 2), (2, 3), (3, 4)])) = true := by
  decide +kernel
theorem test_bus_B6 : move (hostW 0x444 1) (toy.setX 1 0x1234) (fun t => decide (t.xVal 1 = 2 ^ 32 + 0x1234)) = true := by
  decide +kernel
theorem test_bus_B7 :
    move (hostW 8 0x60000000) (toy.accept 0x44000000) (fun t => t.ovf && decide (t.cmd = 0x44000000) && t.busy) = true := by
  decide +kernel
theorem test_bus_B8 :
    move (hostW 0x400 5) (toy.accept 0x44000000) (fun t => t.werr && decide (t.xVal 0 = 0)) = true := by decide +kernel
theorem test_bus_B10 : move (hostW 8 0x04312000) (toy.raise .notInvertible) (fun t => t.ovf && !t.busy) = true := by
  decide +kernel
theorem test_bus_B11 :
    move (hostW 0x0C 6) (toy.raise .notInvertible)
      (fun t => !t.err && !t.done && decide (t.errcode = 0) && decide (t.cause = 0)) = true := by decide +kernel
theorem test_bus_B12 : run 0x44000000 { toy with irqen := true } (fun t => t.irq) = true := by decide +kernel
theorem test_bus_B13 : run 0x44000000 toy (fun t => t.done && !t.irq) = true := by decide +kernel
theorem test_bus_B14 :
    move (hostW 4 3) { toy.setX 1 7 with irqen := true }
      (fun t => decide (t.ctrlWord = 0) && decide (t.statusWord = 0) && decide (t.bytelen = 0) && decide (t.xVal 1 = 7)) =
      true := by decide +kernel
theorem test_bus_B15 : move (hostW 0x280 1) { toy with stv := true } (fun t => !t.stv) = true := by decide +kernel
theorem test_bus_B16 : move (hostW 0x300 1) { toy with stv := true } (fun t => t.stv) = true := by decide +kernel
/-- B17 in the spec's own step relation, and in the model's step, which records the read (log 2). -/
theorem test_bus_B17 :
    strictStep (State.reset.withFetchWord 32 0x40210000) = .fault .unwrittenRegister := rfl
theorem test_bus_B17_step : run 0x40210000 State.reset (fun t => t.unwrittenRead && t.done && !t.err) = true := by
  decide +kernel
/-- B17's read, and one of a BUF byte, at the accept step (60_exceptions.md R142). -/
theorem test_accept_reads :
    strictStep (facing (hostW 8 0x40210000) State.reset) = .fault .unwrittenRegister ∧
    move (hostW 8 0x40210000) State.reset (fun t => t.unwrittenRead && t.busy) = true ∧
    step (facing (hostW 8 0x50100000) (withDesc 0 0x10 1 toy)) = .fault (.unwrittenRead 0x10) := ⟨rfl, rfl, rfl⟩
/-- An abandoned command's read is recorded all the same (60_exceptions.md R142, 70_reset_and_hazards.md R158). -/
theorem test_abandoned_read :
    move (hostW 8 0x40210000) State.reset (fun t => move (hostW 4 1) t (fun t => t.unwrittenRead && !t.busy)) = true := rfl
/-- CK11. -/
theorem test_bus_CK11 : move (hostW 0x140 1) toy (fun t => !t.cfgok) = true := by decide +kernel

/-! ## What the host asks: the first step after reset runs the placed word -/

theorem test_first_step_runs_xldi : run 0x4450FFFF State.reset (xIs 5 65535) = true := by decide +kernel
theorem test_first_step_runs_illegal : run 0x00000000 State.reset (errIs 1 1) = true := by decide +kernel

/-! ## Witnesses: states and operands that meet the hypotheses of each statement, clause by clause -/

/-- Points at the edges of every case: G, 2G, a point with y = 0, the identity, a non-canonical point, -G, the largest
canonical coordinates. -/
def pts : State :=
  ((((((toy.setQ 0 2 64 false).setQ 1 142 15 false).setQ 2 5 0 false).setQ 3 0 0 true).setQ 4 157 0 false).setQ 5 2 93
    false).setQ 6 156 156 false

/-- A configuration that CFGCHK accepts with the composite modulus 15, on which inverses fail. -/
def composite : State :=
  (({ toy with
      prm := #v[.written 15, .written 1, .written 9, .written 0, .written 3, .written 7, .written 1, .written 5, .written 0,
        .written 0] }.setQ 0 0 3 false).setQ 1 3 5 false).setQ 2 1 4 false

/-- SIGN waiting on its second iteration, and the same answered. -/
def waiting : State :=
  { signState 5 [0x0A] [0] with
    cmd := 0xE4040000, phase := .entropyWait ⟨10, 5, some [0], 2⟩, requests := 1 }

def answered (b : Byte) : State := { waiting with phase := .entropyGot ⟨10, 5, some [0], 2⟩ [b] }

theorem size_157 : Nat.size 157 = 8 :=
  le_antisymm (Nat.size_le.mpr (by norm_num)) (Nat.lt_size.mpr (by norm_num))

theorem size_15 : Nat.size 15 = 4 := le_antisymm (Nat.size_le.mpr (by norm_num)) (Nat.lt_size.mpr (by norm_num))

/-- The configuration with these parameters passes every check of CFGCHK. -/
theorem passes (s : State) (k : Nat) (hk : Nat.size (s.prmVal .p) = k) (h1 : s.prmVal .p % 2 = 1 ∧ 5 ≤ s.prmVal .p)
    (h2 : s.bytelen.toNat = (k + 7) / 8)
    (h3 : s.prmVal .n % 2 = 1 ∧ 3 ≤ s.prmVal .n ∧ s.prmVal .n < 2 ^ (8 * s.bytelen.toNat))
    (h4 : s.prmVal .a < s.prmVal .p ∧ s.prmVal .b < s.prmVal .p ∧ s.prmVal .gx < s.prmVal .p ∧ s.prmVal .gy < s.prmVal .p)
    (h5 : onCurveAt s (s.prmVal .gx) (s.prmVal .gy)) (h6 : 1 ≤ s.h.toNat) : firstConfigFailure s none := by
  subst hk
  exact .inr (.inr (.inr (.inr (.inr (.inr ⟨h1, h2, h3, h4, h5, h6, rfl⟩)))))

theorem witness_config_passes : firstConfigFailure toy none :=
  passes toy 8 (by rw [show toy.prmVal .p = 157 by decide +kernel]; exact size_157) (by decide +kernel) (by decide +kernel) (by decide +kernel) (by decide +kernel)
    (by unfold onCurveAt; decide +kernel) (by decide +kernel)

theorem witness_config_passes_composite : firstConfigFailure composite none :=
  passes composite 4 (by rw [show composite.prmVal .p = 15 by decide +kernel]; exact size_15) (by decide +kernel) (by decide +kernel) (by decide +kernel) (by decide +kernel)
    (by unfold onCurveAt; decide +kernel) (by decide +kernel)

theorem configOk_of (s t : State) (h : firstConfigFailure s none) (hp : t.prm = s.prm) (hb : t.bytelen = s.bytelen)
    (hh : t.h = s.h) : configOk t := by
  intro _
  simpa only [firstConfigFailure, onCurveAt, State.prmVal, State.prmReg, hp, hb, hh] using h

/-- The first check of CFGCHK that fails, for each check: its edge values. -/
theorem witness_config_failures :
    firstConfigFailure (toy.setPrm .p (.written 3)) (some 0x13) ∧
    firstConfigFailure { toy with bytelen := 2 } (some 0x14) ∧
    firstConfigFailure (toy.setPrm .n (.written 257)) (some 0x15) ∧
    firstConfigFailure (toy.setPrm .a (.written 157)) (some 0x16) ∧
    firstConfigFailure (toy.setPrm .gy (.written 65)) (some 0x17) ∧
    firstConfigFailure { toy with h := 0 } (some 0x18) := by
  have e : ∀ s : State, s.prmVal .p = 157 → Nat.size (s.prmVal .p) = 8 := fun s h => by rw [h]; exact size_157
  refine ⟨.inl ⟨by decide +kernel, rfl⟩, .inr (.inl ⟨by decide +kernel, ?_, rfl⟩),
    .inr (.inr (.inl ⟨by decide +kernel, ?_, by decide +kernel, rfl⟩)),
    .inr (.inr (.inr (.inl ⟨by decide +kernel, ?_, by decide +kernel, by decide +kernel, rfl⟩))),
    .inr (.inr (.inr (.inr (.inl ⟨by decide +kernel, ?_, by decide +kernel, by decide +kernel, ?_, rfl⟩)))),
    .inr (.inr (.inr (.inr (.inr (.inl ⟨by decide +kernel, ?_, by decide +kernel, by decide +kernel, ?_, by decide +kernel,
      rfl⟩)))))⟩
  all_goals first
    | (unfold onCurveAt; decide +kernel)
    | (rw [e _ (by decide +kernel)]; decide +kernel)

theorem witness_configOk : configOk toy ∧ configOk composite ∧ configOk waiting ∧ toy.cfgok = true ∧ composite.cfgok = true :=
  ⟨configOk_of toy _ witness_config_passes rfl rfl rfl, configOk_of composite _ witness_config_passes_composite rfl rfl rfl,
    configOk_of toy _ witness_config_passes rfl rfl rfl, rfl, rfl⟩

/-! ### Encoding and step -/

theorem witness_DecodeOfEncode :
    (Instr.xldp 15 11).wellFormed = true ∧ decode (encode (.xldp 15 11)) = .ok (.xldp 15 11) ∧
    decode (encode (.msmul .n 15 15 0xFFFF)) = .ok (.msmul .n 15 15 0xFFFF) ∧
    decode (encode (.padd 7 7 7)) = .ok (.padd 7 7 7) ∧ decode (encode (.pdec 7 3)) = .ok (.pdec 7 3) := by decide +kernel

/-- Both kinds of word, of EveryWordIsOneCommandOrIllegal. -/
theorem witness_EveryWord :
    decode 0x60000000 = .ok .cfgchk ∧ encode .cfgchk = 0x60000000 ∧ decode 0x60000001 = .error .reservedBits ∧
    classOf .reservedBits = .illegalCommand := by decide +kernel

theorem witness_UnassignedOpcodes :
    ((0xFFFFFFFF : Word).toNat / 2 ^ 26 ∈ [0x00, 0x0A, 0x3B, 0x3F]) ∧ (toy.accept 0xFFFFFFFF).phase = .accepted ∧
    (toy.accept 0xFFFFFFFF).cmd = 0xFFFFFFFF ∧ (toy.accept 0).cmd = 0x00000000 := by decide +kernel

theorem witness_DecodeChecksInOrder :
    (0x25, 0xFF88FFFF, [23, 19]) ∈ rows ∧ (0x12, 0xFF00FFFF, []) ∈ rows ∧
    ((0x94880001 : Word).toNat / 2 ^ 26 = 0x25 ∧ ∃ b ∈ [23, 19], (0x94880001 : Word).getLsbD b = true) ∧
    ((∀ b ∈ [23, 19], (0x94770001 : Word).getLsbD b = false) ∧
      (0x94770001 : Word) &&& 0xFF88FFFF ≠ BitVec.ofNat 32 (0x25 * 2 ^ 26)) ∧
    ((∀ b ∈ [23, 19], (0x94770000 : Word).getLsbD b = false) ∧
      (0x94770000 : Word) &&& 0xFF88FFFF = BitVec.ofNat 32 (0x25 * 2 ^ 26)) ∧
    ((0x480C0000 : Word) &&& 0xFF00FFFF = BitVec.ofNat 32 (0x12 * 2 ^ 26) ∧ 11 < (0x480C0000 : Word).toNat / 2 ^ 16 % 16) ∧
    ((0x480B0000 : Word) &&& 0xFF00FFFF = BitVec.ofNat 32 (0x12 * 2 ^ 26) ∧ ¬ 11 < (0x480B0000 : Word).toNat / 2 ^ 16 % 16) ∧
    (decode 0x94880001 = .error .pointIndex ∧ (toy.accept 0x94880001).phase = .accepted ∧
      (toy.accept 0x94880001).cmd = 0x94880001) := by decide +kernel

theorem witness_StepRunsTheCommandInFlight :
    (runnable (toy.accept 0x60000000) ∧ decode (toy.accept 0x60000000).cmd = .ok .cfgchk ∧
      (toy.accept 0x60000000).agenda = []) ∧
    (runnable (answered 3) ∧ decode (answered 3).cmd = .ok (.sign 4)) ∧
    (runnable (toy.accept 0) ∧ decode (toy.accept 0).cmd = .error .opcode) ∧ ¬ runnable toy ∧ ¬ runnable waiting :=
  ⟨⟨.inl rfl, by decide +kernel, rfl⟩, ⟨.inr ⟨_, _, rfl⟩, by decide +kernel⟩, ⟨.inl rfl, by decide +kernel⟩,
    by simp [runnable, toy, State.reset], by simp [runnable, waiting]⟩

theorem witness_FetchWord : (Instr.sign 15).wellFormed = true := by decide

theorem witness_CommandIssue :
    (toy.accept 0).busy = true ∧ ((toy.raise .length).err = true ∧ (toy.raise .length).busy = false) ∧
    (toy.busy = false ∧ toy.err = false) := by decide +kernel

/-- The ways an accepted command's reads go: a word that is no command, operands all written (a load of the last byte of BUF
and a field command), a register never written, a byte never written. -/
theorem witness_accepted_reads :
    decode 0 = .error .opcode ∧
    (decode 0x50100000 = .ok (.ldbe 1 0) ∧
      operandsWritten (.ldbe 1 0) (accepted 0x50100000 (withBytes 1023 [7] (withDesc 0 1023 1 toy))) ∧
      ∃ k ∈ bytesOf (.ldbe 1 0) (accepted 0x50100000 (withDesc 0 1023 1 toy)), rangeWritten (withDesc 0 1023 1 toy) k = false) ∧
    (decode 0x04312000 = .ok (.madd .p 3 1 2) ∧ operandsWritten (.madd .p 3 1 2) (accepted 0x04312000 toy)) ∧
    (decode 0x40210000 = .ok (.xmov 2 1) ∧ bytesOf (.xmov 2 1) (accepted 0x40210000 State.reset) = [] ∧
      ¬ readable State.reset (readsOf (.xmov 2 1) (accepted 0x40210000 State.reset)) ∧
      (State.reset.busy = false ∧ State.reset.err = false ∧ State.reset.unwrittenRead = false)) := by
  unfold operandsWritten readable
  decide +kernel

/-! ### The window -/

theorem witness_BusyWindow :
    (toy.accept 0).busy = true ∧ waiting.busy = true ∧ mapped 0x00 ∧ mapped 0x24 ∧ mapped 0x30 ∧ mapped 0x37C ∧ mapped 0x400 ∧
    mapped 0xFFC ∧ mapped 0x13FC ∧ (0x18, (toy.accept 0).itercap.toNat) ∈ exactReads (toy.accept 0) ∧
    (∀ v, (0x1C, v) ∉ exactReads (toy.accept 0)) :=
  ⟨rfl, rfl, by unfold mapped; omega, by unfold mapped; omega, by unfold mapped; omega, by unfold mapped; omega,
    by unfold mapped; omega, by unfold mapped; omega, by unfold mapped; omega, by simp [exactReads], by simp [exactReads]⟩

theorem witness_flightOk : flightOk (toy.accept 0x60000000) ∧ flightOk waiting ∧ flightOk (answered 3) := by
  refine ⟨⟨fun _ => ⟨rfl, rfl⟩, fun k h => by simp [signing, State.accept] at h,
    fun k b h => by simp [State.accept] at h⟩, ?_, ?_⟩
  · refine ⟨fun _ => ⟨rfl, rfl⟩, fun k h => ?_, fun k b h => by simp [waiting] at h⟩
    cases h
    exact ⟨⟨4, by decide +kernel⟩, by decide +kernel⟩
  · refine ⟨fun _ => ⟨rfl, rfl⟩, fun k h => ?_, fun k b h => ?_⟩
    · cases h
      exact ⟨⟨4, by decide +kernel⟩, by decide +kernel⟩
    · cases h
      decide +kernel

theorem witness_errorRecordOk :
    errorRecordOk toy ∧ errorRecordOk waiting ∧ errorRecordOk (toy.raise .iterCap) ∧ errorRecordOk (toy.accept 0x50100000) := by
  refine ⟨?_, ?_, ?_, ?_⟩ <;> unfold errorRecordOk <;> decide +kernel

/-- OperandsStableWhileBusy and HostAccessesDoNotChangeOutcomes: a write of STATUS while SIGN waits and a read of X0 while a
load of an unwritten byte is in flight; the moves after them answer and stop. -/
theorem witness_host_access_while_busy :
    notSoftReset ⟨0x0C, 0xF, .write 0xFFFFFFFF⟩ ∧ notSoftReset ⟨0x400, 0xF, .read⟩ ∧ notSoftReset ⟨4, 0xF, .write 2⟩ ∧
    (∃ s1, step (facing (.host ⟨0x0C, 0xF, .write 0xFFFFFFFF⟩) waiting) = .next s1) ∧
    (∃ t, step (facing (.entropy 1 [3]) waiting) = .next t) ∧
    (withDesc 0 0 1 (toy.accept 0x50100000)).busy = true ∧
    (∃ s1, step (facing (.host ⟨0x400, 0xF, .read⟩) (withDesc 0 0 1 (toy.accept 0x50100000))) = .next s1) ∧
    step (facing .core (withDesc 0 0 1 (toy.accept 0x50100000))) = .fault (.unwrittenRead 0) := by
  refine ⟨by simp [notSoftReset], by simp [notSoftReset], ?_, ⟨_, rfl⟩, ⟨_, rfl⟩, rfl, ⟨_, rfl⟩, rfl⟩
  rintro ⟨_, _, w, hw, hb⟩
  cases hw
  exact absurd hb (by decide)

theorem witness_SoftReset : (3 : Word).getLsbD 0 = true ∧ waiting.busy = true := by decide +kernel

theorem witness_StatusAcknowledge :
    (4 : Word).getLsbD 2 = true ∧ (toy.raise .length).busy = false ∧ (toy.raise .length).err = true ∧
    ((2 : Word).getLsbD 1 = true ∧ (4 : Word).getLsbD 1 = false ∧ ({ toy.complete with irqen := true } : State).irq = true) ∧
    (∀ i, decode 0x04312000 = .ok i → operandsWritten i (accepted 0x04312000 (w1c 4 (toy.raise .length)))) := by
  refine ⟨by decide, rfl, rfl, by decide +kernel, fun i h => ?_⟩
  rw [show decode 0x04312000 = .ok (.madd .p 3 1 2) by decide +kernel] at h
  cases h
  unfold operandsWritten readable
  decide +kernel

theorem witness_BadAccesses :
    ¬ mapped 2 ∧ ¬ mapped 0x28 ∧ ¬ mapped 0x2C ∧ ¬ mapped 0x40 ∧ ¬ mapped 0xFC ∧ ¬ mapped 0x380 ∧ ¬ mapped 0x3FC ∧
    ¬ mapped 0x1400 ∧ ¬ mapped 0x2000 ∧ mapped 0x3C ∧ mapped 0x100 ∧ ((0x7 : BitVec 4) ≠ 0xF) ∧
    (∃ t, step (facing (hostR 0x3C) { toy with buserr := true }) = .next t ∧ t.buserr = true) := by
  refine ⟨?_, ?_, ?_, ?_, ?_, ?_, ?_, ?_, ?_, ?_, ?_, by decide, ⟨_, rfl, rfl⟩⟩ <;> unfold mapped <;> omega

theorem witness_idle_window : toy.busy = false ∧ (0xFFFFFFFE : Word).getLsbD 0 = false := by decide

/-- WideRegisterWords and InfWordAndReservedWords: written words at both ends of a register. -/
theorem witness_written_words :
    pts.busy = false ∧ ((pts.prmReg .p).marks.getLsbD 0 = true ∧ (pts.prmReg .t).marks.getLsbD 15 = true) ∧
    (pts.x[15].marks.getLsbD 15 = true ∧ pts.q[0].x.marks.getLsbD 0 = true ∧ pts.q[6].y.marks.getLsbD 15 = true) ∧
    (pts.q[3].infMark = true ∧ pts.q[3].inf = true) := by decide +kernel

theorem witness_BufWordLanes :
    bufHolds (withBytes 1020 [1, 2, 3, 4] toy) (4 * 255) [1, 2, 3, 4] ∧ bufHolds (withBytes 0 [1, 2, 3, 4] toy) 0 [1, 2, 3, 4] := by
  unfold bufHolds
  decide +kernel

theorem witness_InfWordAndReservedWords : toy.busy = false ∧ 0x84 % 4 = 0 ∧ (0xFC < 0x100 ∧ 0xFC % 4 = 0) := by decide

theorem witness_ControlRegisterAccess : (0x1C, toy.bytelen.toNat) ∈ exactReads toy ++ [(0x1C, toy.bytelen.toNat)] := by simp

theorem witness_CfgokRule :
    (∃ t, step (facing .core (toy.accept 0x60000000)) = .next t ∧ t.cfgok = true) ∧
    (readable toy configRegs ∧ firstConfigFailure toy none) ∧
    (readable { toy with bytelen := 2 } configRegs ∧ firstConfigFailure { toy with bytelen := 2 } (some 0x14)) ∧
    (0x27C % 4 = 0 ∧ 0x100 ≤ 0x27C ∧ 0x27C < 0x280) ∧ toy.busy = false ∧ (toy.accept 0).busy = true := by
  refine ⟨answers_next _ (fun t => t.cfgok) (by decide +kernel), ⟨?_, witness_config_passes⟩,
    ⟨?_, witness_config_failures.2.1⟩, by decide, rfl, rfl⟩ <;> unfold readable <;> decide +kernel

theorem witness_StvRule :
    (0x13C % 4 = 0 ∧ 0x13C < 0x140) ∧ (0x280 % 4 = 0 ∧ 0x2FC % 4 = 0 ∧ 0x2FC < 0x300) ∧
    (0x300 % 4 = 0 ∧ 0x37C % 4 = 0 ∧ 0x37C < 0x380) := by decide

theorem witness_HostReads :
    (∃ t, step (facing (hostR 0x400) toy) = .next t) ∧ (∃ t, step (facing (hostR 0x400) waiting) = .next t) ∧
    (∃ t, step (facing (hostR 0x2000) toy) = .next t) ∧ mapped 0x400 := by
  refine ⟨⟨_, rfl⟩, ⟨_, rfl⟩, ⟨_, rfl⟩, ?_⟩
  unfold mapped
  omega

/-! ### Reset and whole-machine rules -/

theorem witness_ResetState : resetFacts State.reset := by
  refine ⟨⟨rfl, rfl, rfl, rfl, rfl, rfl, rfl, rfl⟩, ⟨rfl, rfl, by decide +kernel⟩, fun r => by cases r <;> rfl, by decide +kernel,
    by decide +kernel, fun _ => rfl, rfl, rfl⟩

/-- CommandsEndDoneOrWaiting, both ends; ResultWriters and ParameterWriters. -/
theorem witness_commands_answer :
    (∃ t, exec (.xldi 0 1) toy = .next t ∧ t.done = true) ∧
    (∃ t, exec (.sign 4) (signState 5 [0x0A] []) = .next t ∧ t.entw = true) ∧
    (∃ t, exec (.xcmp 1 1) toy = .next t ∧ t.result ≠ toy.result) ∧
    (∃ t, exec .stcomp toy = .next t ∧ t.stv ≠ toy.stv) := by
  refine ⟨answers_next _ (fun t => t.done) (by decide +kernel), answers_next _ (fun t => t.entw) (by decide +kernel), ?_, ?_⟩
  · obtain ⟨t, h, ht⟩ := answers_next (exec (.xcmp 1 1) toy) (fun t => t.result) (by decide +kernel)
    exact ⟨t, h, by simp [ht, toy, State.reset]⟩
  · obtain ⟨t, h, ht⟩ := answers_next (exec .stcomp toy) (fun t => t.stv) (by decide +kernel)
    exact ⟨t, h, by simp [ht, toy, State.reset]⟩

/-- CommandsEndDoneOrWaiting: the two ways the interrupt output rises. -/
theorem witness_interrupt_rises :
    (∃ t, step (facing .core { toy.accept 0x44000000 with irqen := true }) = .next t ∧ t.irq = true) ∧
    ({ toy.accept 0x44000000 with irqen := true } : State).irq = false ∧
    (∃ t, step (facing (hostW 4 2) toy.complete) = .next t ∧ t.irq = true) ∧ toy.complete.irq = false :=
  ⟨answers_next _ (fun t => t.irq) (by decide +kernel), rfl, answers_next _ (fun t => t.irq) (by decide +kernel), rfl⟩

/-- PreciseErrors: a plain error, a failing CFGCHK, a capped SIGN. -/
theorem witness_PreciseErrors :
    toy.err = false ∧ (∃ t, exec (.ldbe 0 0) (withDesc 0 1023 2 toy) = .next t ∧ t.err = true) ∧
    (∃ t, exec .cfgchk { toy with h := 0 } = .next t ∧ t.err = true ∧ t.cfgok = false) ∧
    (∃ t, exec (.sign 4) { answered 0 with itercap := 2 } = .next t ∧ t.err = true ∧ t.iter = 2) := by
  refine ⟨rfl, answers_next _ (fun t => t.err) (by decide +kernel), ?_, ?_⟩
  · obtain ⟨t, h, ht⟩ := answers_next (exec .cfgchk { toy with h := 0 }) (fun t => t.err && !t.cfgok) (by decide +kernel)
    exact ⟨t, h, by simpa using ht⟩
  · obtain ⟨t, h, ht⟩ := answers_next (exec (.sign 4) { answered 0 with itercap := 2 })
      (fun t => t.err && decide (t.iter = 2)) (by decide +kernel)
    exact ⟨t, h, by simpa using ht⟩

theorem witness_bufOk : bufOk waiting ∧ bufOk (withBytes 1023 [7] toy) := by
  refine ⟨⟨by decide +kernel, fun k _ => by unfold off len; decide +kernel⟩, by decide +kernel, fun k h => ?_⟩
  simp [signing, withBytes, State.writeBuf, toy, State.reset] at h

/-- The invariants hold together in states that step: SIGN's second iteration answered, and its entropy wait ended. -/
theorem witness_StepKeeps :
    (∃ t, step { answered 3 with agenda := [] } = .next t) ∧ (∃ t, step (facing (.entropy 1 [3]) waiting) = .next t) ∧
    (∃ t, step (toy.raise .iterCap) = .next t) ∧ (∃ t, step (facing (hostW 0x13FC 7) toy) = .next t) :=
  ⟨⟨_, rfl⟩, ⟨_, rfl⟩, ⟨_, rfl⟩, ⟨_, rfl⟩⟩

theorem witness_CommandsAnswer :
    exec (.ldbe 0 0) (withDesc 0 1023 1 toy) = .fault (.unwrittenRead 1023) ∧
    exec .verify (withDesc 0 0 3 toy) = .fault (.unwrittenRead 0) := ⟨rfl, rfl⟩

/-- The toy state with Q7 never written. -/
def freshQ : State := { toy with q := toy.q.set 7 .reset }

/-- A command of each shape with a source never written, SIGN past its checks among them. -/
theorem witness_unwritten_sources :
    (runnable (State.reset.accept 0x40210000) ∧ decode 0x40210000 = .ok (.xmov 2 1) ∧
      .x 1 ∈ readsOf (.xmov 2 1) (State.reset.accept 0x40210000) ∧
      (State.reset.accept 0x40210000).regWritten (.x 1) = false ∧ State.reset.unwrittenRead = false) ∧
    (.prm .p ∈ readsOf (.madd .p 0 1 2) State.reset ∧ State.reset.regWritten (.prm .p) = false) ∧
    (.q 7 ∈ readsOf (.pmov 0 7) freshQ ∧ freshQ.regWritten (.q 7) = false) ∧
    (.q 7 ∈ readsOf (.padd 0 1 7) freshQ ∧ .q 7 ∈ readsOf (.uv2xy 0 7) freshQ ∧
      .q 7 ∈ readsOf (.penc 7 2) (withDesc 2 0 3 freshQ)) ∧
    (.x 4 ∈ readsOf (.sign 4) ((signState 5 [0x0A] []).accept 0xE4040000) ∧
      readsOf (.sign 4) (answered 3) = []) :=
  ⟨⟨.inl rfl, by decide +kernel⟩, by decide +kernel⟩

/-- UnwrittenReads: a range never written, past the checks of each command that reads BUF, the 64 bytes of LDBE at the end of
BUF among them; and ranges all written, the empty ones among them. -/
theorem witness_unwritten_bytes :
    (0 ∈ bytesOf (.ldbe 1 0) (withDesc 0 960 64 toy) ∧ rangeWritten (withDesc 0 960 64 toy) 0 = false ∧
      bytesOf (.ldbe 1 0) (withDesc 0 0 65 toy) = [] ∧ bytesOf (.ldle 1 0) (withDesc 0 1023 2 toy) = []) ∧
    (0 ∈ bytesOf (.ldle 1 0) (withDesc 0 1023 1 toy) ∧ rangeWritten (withDesc 0 1023 1 toy) 0 = false) ∧
    (0 ∈ bytesOf (.pdec 1 0) (withDesc 0 0 3 toy) ∧ rangeWritten (withBytes 0 [4, 2] (withDesc 0 0 3 toy)) 0 = false) ∧
    (0 ∈ bytesOf (.sign 4) ((withDesc 0 0 1 toy).accept 0xE4040000) ∧ rangeWritten (withDesc 0 0 1 toy) 0 = false ∧
      bytesOf (.sign 4) (answered 3) = []) ∧
    (2 ∈ bytesOf .verify (withDesc 2 0x20 2 toy) ∧ rangeWritten (withDesc 2 0x20 2 toy) 2 = false) ∧
    (∀ k ∈ bytesOf .verify (verifyState [] [10] [0x1E, 0x1D]), rangeWritten (verifyState [] [10] [0x1E, 0x1D]) k = true) := by
  decide +kernel

/-- A command in flight all of whose sources are written; register words and a BUF byte never written. -/
theorem witness_UnwrittenReads :
    (runnable (toy.accept 0x60000000) ∧ readable (toy.accept 0x60000000) (readsOf .cfgchk (toy.accept 0x60000000)) ∧
      toy.unwrittenRead = false) ∧
    (State.reset.busy = false ∧ (State.reset.prmReg .t).marks.getLsbD 15 = false ∧ State.reset.x[15].marks.getLsbD 15 = false ∧
      State.reset.q[7].x.marks.getLsbD 0 = false ∧ State.reset.q[7].y.marks.getLsbD 15 = false ∧
      State.reset.q[7].infMark = false) ∧
    State.reset.buf.read (4 * 255 + 3) = none := by
  refine ⟨⟨.inl rfl, ?_, rfl⟩, by decide +kernel, rfl⟩
  unfold readable
  decide +kernel

/-! ### Arithmetic -/

theorem witness_InverseIsCorrect : Int.gcd 0 (2 : Nat) ≠ 1 ∧ Int.gcd 1 (2 : Nat) = 1 ∧ Int.gcd (-1) (3 : Nat) = 1 := by decide

theorem witness_GroupLawUnderPrime :
    Nat.Prime toy.curve.p ∧ 5 ≤ toy.curve.p ∧ Nat.Prime 5 ∧
    (canonicalPt toy.curve.p (.affine 2 64) ∧ onCurvePt toy.curve (.affine 2 64)) ∧
    (canonicalPt toy.curve.p (.affine 0 155) ∧ onCurvePt toy.curve (.affine 0 155)) ∧
    (canonicalPt toy.curve.p .infinity ∧ onCurvePt toy.curve .infinity) := by
  have h : toy.curve.p = 157 := by decide +kernel
  have ho : ∀ x y, onCurvePt toy.curve (.affine x y) = (((y : Int) ^ 2 - ((x : Int) ^ 3 + (1 : Nat) * x + (4 : Nat))) % 157 = 0) := by
    intro x y
    simp only [onCurvePt, h, show toy.curve.a = 1 by decide +kernel, show toy.curve.b = 4 by decide +kernel]
    rfl
  simp only [h, ho, canonicalPt]
  exact ⟨by norm_num, by norm_num, by norm_num, ⟨by decide, by decide⟩, ⟨by decide, by decide⟩, trivial, trivial⟩

/-- CURVE_PRIME holds of the toy curve: 157 and 151 are prime, and 151 is the least positive multiple of G that is the
identity (95_test_vectors.md, section 2.0). -/
theorem witness_curvePrime :
    toy.curvePrime ∧ toy.cfgok = true ∧ configOk toy ∧ (1 ≤ 150 ∧ 150 < toy.prmVal .n) ∧
    (readable (toy.setX 4 150) [.x 4] ∧ (toy.setX 4 150).xVal 4 = 150) := by
  have hp : toy.prmVal .p = 157 := by decide +kernel
  have hn : toy.prmVal .n = 151 := by decide +kernel
  refine ⟨⟨⟨by rw [hp]; norm_num, by rw [hn]; norm_num⟩, ?_⟩, rfl, witness_configOk.1, by rw [hn]; omega, ?_⟩
  · unfold hasOrder; decide +kernel
  · unfold readable; decide +kernel

/-- A check of `rangeHolds`. -/
def rangeIs (s : State) (k : DescSel) (bs : List Byte) (t : State) : Bool :=
  decide (bs.length = len s k) && (List.range bs.length).all (fun j => decide (t.buf.read (off s k + j) = bs[j]?))

theorem rangeHolds_of (s : State) (k : DescSel) (bs : List Byte) (t : State) (h : rangeIs s k bs t = true) : rangeHolds s k bs t := by
  simpa [rangeIs, rangeHolds, bufHolds] using h

/-- The public key of d = 5, its signature of 0A from the start and on the answer to the second request, and VERIFY's layout of
them (95_test_vectors.md S-V1, S-V2, S-W1), all over one configuration under CURVE_PRIME. -/
theorem witness_sign_then_verify :
    (toy.setX 4 5).curvePrime ∧ publishes 5 [4, 0x98, 0x77] (withDesc 3 0x40 3 (toy.setX 4 5)) ∧
    completesSign 5 [0x0A] [0x1E, 0x1D] ((signState 5 [0x0A] [3]).accept 0xE4040000) ∧
    completesSign 5 [0x0A] [0x1E, 0x1D] (answered 3) ∧ (bufOk (signState 5 [0x0A] [3]) ∧ bufOk (answered 3)) ∧
    (sameConfig toy (answered 3) ∧ sameConfig toy (verifyState [4, 0x98, 0x77] [0x0A] [0x1E, 0x1D])) ∧
    (let t := verifyState [4, 0x98, 0x77] [0x0A] [0x1E, 0x1D]
     descsOk .verify t ∧ rangeHolds t 0 [4, 0x98, 0x77] t ∧ rangeHolds t 1 [0x0A] t ∧ rangeHolds t 2 [0x1E, 0x1D] t) := by
  refine ⟨?_, ?_, ?_, ?_, ⟨⟨by decide +kernel, fun k h => ?_⟩, by decide +kernel, fun k _ => ?_⟩, ?_, ?_, ?_, ?_, ?_⟩
  · have hp : (toy.setX 4 5).prmVal .p = 157 := by decide +kernel
    have hn : (toy.setX 4 5).prmVal .n = 151 := by decide +kernel
    refine ⟨⟨by rw [hp]; norm_num, by rw [hn]; norm_num⟩, ?_⟩
    unfold hasOrder; decide +kernel
  · obtain ⟨t, ht, h⟩ := answers_next (exec (.pubk 1 4) (withDesc 3 0x40 3 (toy.setX 4 5)))
      (fun t => answers (exec (.penc 1 3) t) (fun u => !u.err && rangeIs t 3 [4, 0x98, 0x77] u)) (by decide +kernel)
    obtain ⟨u, hu, h⟩ := answers_next _ _ h
    simp only [Bool.and_eq_true, Bool.not_eq_true'] at h
    exact ⟨1, 4, 3, t, u, by decide +kernel, rfl, ht, hu, h.1, rangeHolds_of _ _ _ _ h.2⟩
  · obtain ⟨t, ht, h⟩ := answers_next (exec (.sign 4) ((signState 5 [0x0A] [3]).accept 0xE4040000))
      (fun t => decide (t.phase = .idle) && !t.err && rangeIs (signState 5 [0x0A] [3]) 2 [0x1E, 0x1D] t) (by decide +kernel)
    simp only [Bool.and_eq_true, Bool.not_eq_true', decide_eq_true_eq] at h
    exact ⟨4, t, ht, h.1.1, rfl, h.1.2, rangeHolds_of _ _ _ _ h.2,
      .inl ⟨rfl, by decide +kernel, rangeHolds_of _ _ _ _ (by decide +kernel)⟩⟩
  · obtain ⟨t, ht, h⟩ := answers_next (exec (.sign 4) (answered 3))
      (fun t => decide (t.phase = .idle) && !t.err && rangeIs (answered 3) 2 [0x1E, 0x1D] t) (by decide +kernel)
    simp only [Bool.and_eq_true, Bool.not_eq_true', decide_eq_true_eq] at h
    exact ⟨4, t, ht, h.1.1, rfl, h.1.2, rangeHolds_of _ _ _ _ h.2,
      .inr ⟨⟨10, 5, some [0], 2⟩, [3], rfl, rfl, by unfold digestOf beSum; decide +kernel⟩⟩
  · simp [signing, signState, withBytes, withDesc, State.writeBuf, State.setX, toy, State.reset] at h
  · unfold off len; decide +kernel
  · unfold sameConfig; decide +kernel
  · unfold descsOk off len; decide +kernel
  all_goals exact rangeHolds_of _ _ _ _ (by decide +kernel)

/-! ### Errors found before a command's own checks -/

theorem witness_DescriptorRangeErrors :
    signing toy = none ∧ ¬ descsOk (.ldbe 0 3) (withDesc 3 1023 2 toy) ∧ ¬ descsOk .verify (withDesc 2 1 1024 toy) ∧
    ¬ descsOk (.sign 0) (withDesc 1 0 1025 toy) ∧ len (withDesc 0 1023 0 toy) 0 = 0 ∧
    (∃ t, exec (.penc 0 0) (withDesc 0 1023 2 toy) = .next t ∧ t.err = true ∧ t.cause.toNat = 0x05) := by
  refine ⟨rfl, ?_, ?_, ?_, by unfold len; decide +kernel, ?_⟩
  · unfold descsOk off len; decide +kernel
  · unfold descsOk off len; decide +kernel
  · unfold descsOk off len; decide +kernel
  · obtain ⟨t, h, ht⟩ := answers_next (exec (.penc 0 0) (withDesc 0 1023 2 toy))
      (fun t => t.err && decide (t.cause.toNat = 0x05)) (by decide +kernel)
    exact ⟨t, h, by simpa using ht⟩

theorem witness_ConfigurationRequired :
    needsCfg (.sign 0) = true ∧ ({ toy with cfgok := false } : State).cfgok = false ∧
    signing { toy with cfgok := false } = none ∧ descsOk (.sign 0) { toy with cfgok := false } ∧
    readable { pts with cfgok := false } [.q 0] := by
  refine ⟨rfl, rfl, rfl, ?_, ?_⟩
  · unfold descsOk off len; decide +kernel
  · unfold readable; decide +kernel

/-! ### Field, register and transfer families -/

/-- Moduli at the edges: 3 is the smallest good one, 1 and 4 are bad; the registers read are written. -/
theorem witness_field :
    goodModulus (modulusVal .p (toy.setPrm .p (.written 3))) ∧ ¬ goodModulus (modulusVal .p (toy.setPrm .p (.written 1))) ∧
    ¬ goodModulus (modulusVal .n (toy.setPrm .n (.written 4))) ∧ readable (toy.setPrm .p (.written 1)) [modulusReg .p] ∧
    readable (toy.setPrm .n (.written 4)) [modulusReg .n] ∧
    readable (toy.setPrm .p (.written 3)) (modulusReg .p :: [.x 15, .x 0]) := by
  refine ⟨?_, ?_, ?_, ?_, ?_, ?_⟩ <;> (first | unfold goodModulus | unfold readable) <;> decide +kernel

theorem witness_FieldInverseDivide :
    goodModulus (modulusVal .p (toy.setX 1 156)) ∧ readable (toy.setX 1 156) [modulusReg .p, .x 1, .x 1] ∧
    Nat.gcd ((toy.setX 1 156).xVal 1) (modulusVal .p (toy.setX 1 156)) = 1 ∧
    Nat.gcd ((toy.setX 1 157).xVal 1) (modulusVal .p (toy.setX 1 157)) ≠ 1 ∧
    Nat.gcd ((toy.setX 1 0).xVal 1) (modulusVal .p (toy.setX 1 0)) ≠ 1 := by
  refine ⟨?_, ?_, by decide +kernel, by decide +kernel, by decide +kernel⟩
  · unfold goodModulus; decide +kernel
  · unfold readable; decide +kernel

theorem witness_RegisterMoves : readable toy [.x 0, .x 15] := by unfold readable; decide +kernel

theorem witness_ParameterLoads :
    readable toy [.prm .t] ∧ ¬ readable State.reset [.prm .p] ∧ 12 ≤ (12 : Fin 16).val ∧
    (toy.accept (cmdWord 0x12 0 15 15 0 0)).phase = .accepted := by
  refine ⟨?_, ?_, by decide, rfl⟩ <;> unfold readable <;> decide +kernel

theorem witness_BufferLoads :
    1024 < off (withDesc 0 1023 2 toy) 0 + len (withDesc 0 1023 2 toy) 0 ∧
    (off (withDesc 0 959 65 toy) 0 + len (withDesc 0 959 65 toy) 0 ≤ 1024 ∧ 64 < len (withDesc 0 959 65 toy) 0) ∧
    (off (withDesc 0 960 64 toy) 0 + len (withDesc 0 960 64 toy) 0 ≤ 1024 ∧ len (withDesc 0 960 64 toy) 0 ≤ 64 ∧
      (List.replicate 64 (0xFF : Byte)).length = len (withDesc 0 960 64 toy) 0) ∧
    bufHolds (withBytes 960 (List.replicate 64 0xFF) (withDesc 0 960 64 toy)) 960 (List.replicate 64 0xFF) ∧
    (([] : List Byte).length = len toy 0 ∧ bufHolds toy (off toy 0) []) := by
  refine ⟨?_, ?_, ?_, ?_, ?_⟩
  · unfold off len; decide +kernel
  · unfold off len; decide +kernel
  · unfold off len; decide +kernel
  · unfold bufHolds; decide +kernel
  · exact ⟨by unfold len; decide +kernel, fun j hj => absurd hj (by simp)⟩

theorem witness_BufferStores :
    (off (withDesc 3 0x20 2 toy) 3 + len (withDesc 3 0x20 2 toy) 3 ≤ 1024 ∧ readable toy [.x 2]) ∧
    2 ^ (8 * len (withDesc 3 0x20 2 (toy.setX 2 0x10000)) 3) ≤ (withDesc 3 0x20 2 (toy.setX 2 0x10000)).xVal 2 ∧
    (withDesc 3 0x20 2 (toy.setX 2 0xFFFF)).xVal 2 < 2 ^ (8 * len (withDesc 3 0x20 2 (toy.setX 2 0xFFFF)) 3) ∧
    (withDesc 3 0x20 0 toy).xVal 2 < 2 ^ (8 * len (withDesc 3 0x20 0 toy) 3) := by
  unfold off len readable
  decide +kernel

theorem witness_ConfigurationCheck : readable toy configRegs := by unfold readable; decide +kernel

/-! ### Curve family -/

theorem witness_point_operands :
    toy.cfgok = true ∧ readable pts [.q 0, .q 1, .q 2, .q 3, .q 4, .q 5, .q 6, .x 5] ∧
    (coordsOk pts 0 ∧ coordsOk pts 3 ∧ ¬ coordsOk pts 4 ∧ coordsOk pts 6) ∧
    (pt pts 0 = .affine 2 64 ∧ pt pts 1 = .affine 142 15 ∧ pt pts 2 = .affine 5 0 ∧ pt pts 3 = .infinity ∧
      pt pts 5 = .affine 2 93) := by
  refine ⟨rfl, ?_, ?_, by decide +kernel⟩
  · unfold readable; decide +kernel
  · unfold coordsOk; decide +kernel

theorem witness_PointLoads :
    (156 < toy.prmVal .p) ∧ ((toy.setX 0 157).prmVal .p ≤ (toy.setX 0 157).xVal 0) ∧ readable (toy.setX 0 157) [.x 0, .x 1] := by
  unfold readable
  decide +kernel

/-- PADD and PDBL: the divisor invertible under 157, and not invertible under 15, for the chord and for the tangent. -/
theorem witness_point_divisors :
    Int.gcd ((142 : Int) - 2) (pts.prmVal .p) = 1 ∧ Nat.gcd (2 * 64) (pts.prmVal .p) = 1 ∧
    (pt composite 0 = .affine 0 3 ∧ pt composite 1 = .affine 3 5 ∧ Int.gcd ((3 : Int) - 0) (composite.prmVal .p) ≠ 1) ∧
    (coordsOk composite 0 ∧ coordsOk composite 1 ∧ Nat.gcd (2 * 3) (composite.prmVal .p) ≠ 1) ∧
    readable composite [.q 0, .q 1] := by
  unfold readable coordsOk
  decide +kernel

theorem pts_onCurve : onCurvePt pts.curve (pt pts 0) ∧ ¬ onCurvePt pts.curve (pt pts 2) ∧
    onCurvePt composite.curve (pt composite 0) := by
  rw [show pt pts 0 = .affine 2 64 by decide +kernel, show pt pts 2 = .affine 5 0 by decide +kernel,
    show pt composite 0 = .affine 0 3 by decide +kernel]
  simp only [onCurvePt]
  decide +kernel

theorem witness_ScalarMultiplication :
    ((toy.setX 5 151).prmVal .n ≤ (toy.setX 5 151).xVal 5 ∧ (toy.setX 5 150).xVal 5 < (toy.setX 5 150).prmVal .n) ∧
    scalarMul pts.curve (pt pts 0) 150 = some (.affine 2 93) ∧ scalarMul pts.curve (pt pts 0) 0 = some .infinity ∧
    (scalarMul composite.curve (pt composite 0) 2 = none ∧ scalarMul composite.curve composite.gen 2 = none) ∧
    ¬ (1 ≤ (toy.setX 4 0).xVal 4 ∧ (toy.setX 4 0).xVal 4 < (toy.setX 4 0).prmVal .n) ∧
    (1 ≤ (toy.setX 4 1).xVal 4 ∧ (toy.setX 4 150).xVal 4 < (toy.setX 4 150).prmVal .n) := by decide +kernel

/-! ### Codec family -/

theorem witness_PointEncoding :
    (off (withDesc 2 1021 3 pts) 2 + len (withDesc 2 1021 3 pts) 2 ≤ 1024 ∧
      len (withDesc 2 1021 3 pts) 2 = 1 + 2 * (withDesc 2 1021 3 pts).bytelen.toNat) ∧
    len (withDesc 3 1022 2 pts) 3 = 2 * (withDesc 3 1022 2 pts).bytelen.toNat ∧
    len (withDesc 3 0x20 2 pts) 3 ≠ 1 + 2 * (withDesc 3 0x20 2 pts).bytelen.toNat := by
  unfold off len
  decide +kernel

theorem witness_PointDecoding :
    (off (withDesc 0 1021 3 toy) 0 + len (withDesc 0 1021 3 toy) 0 ≤ 1024 ∧
      len (withDesc 0 1021 3 toy) 0 = 1 + 2 * (withDesc 0 1021 3 toy).bytelen.toNat) ∧
    bufHolds (withBytes 1021 [4, 2, 0x40] (withDesc 0 1021 3 toy)) 1021 (0x04 :: ([0x02] ++ [0x40])) ∧
    (beSum [0x9C] < toy.prmVal .p ∧ toy.prmVal .p ≤ beSum [0x9D]) ∧
    onCurveAt toy (beSum [0x02]) (beSum [0x40]) ∧ ¬ onCurveAt toy (beSum [0x02]) (beSum [0x41]) := by
  refine ⟨?_, ?_, ?_, ?_, ?_⟩
  · unfold off len; decide +kernel
  · unfold bufHolds; decide +kernel
  · unfold beSum; decide +kernel
  · unfold onCurveAt beSum; decide +kernel
  · unfold onCurveAt beSum; decide +kernel

/-! ### Signature family -/

theorem witness_SignStarts :
    (((signState 5 [0x0A] [3]).accept 0xE4040000).phase = .accepted ∧ (signState 5 [0x0A] [3]).cfgok = true) ∧
    (descsOk (.sign 4) (signState 5 [0x0A] [3]) ∧ descsOk (.sign 4) (signState 150 [] [])) ∧
    (bufHolds (signState 5 [0x0A] [3]) 0 [0x0A] ∧ bufHolds (signState 5 [0x0A] [3]) 0x10 [3]) ∧
    ((len (signState 5 [0x0A] [3, 0]) 1 ≠ 0 ∧ len (signState 5 [0x0A] [3, 0]) 1 ≠ (signState 5 [0x0A] [3, 0]).bytelen.toNat) ∧
      len (signState 5 [0x0A] [3]) 2 = 2 * (signState 5 [0x0A] [3]).bytelen.toNat ∧
      len (signState 5 [0x0A] [3]) 1 = (signState 5 [0x0A] [3]).bytelen.toNat ∧ len (signState 5 [] []) 1 = 0) ∧
    readable (signState 5 [0x0A] [3]) [.x 4] := by
  unfold descsOk off len bufHolds readable
  decide +kernel

/-- The three ways an iteration ends: S-V1's signature, S-V2's retry on k = 0 and S-V3's on r = 0, and a failing inverse
under the composite modulus. -/
theorem witness_iteration :
    signs (answered 3) 10 5 [3] 30 29 ∧ retries (answered 0) 10 5 [0x97] ∧ retries (answered 0) 10 5 [0x39] ∧
    (beSum [2] % composite.prmVal .n ≠ 0 ∧ scalarMul composite.curve composite.gen (beSum [2] % composite.prmVal .n) = none) := by
  refine ⟨⟨?_, ⟨30, 40, ?_, ?_⟩, by decide, ?_, by decide⟩, .inl ?_, .inr (.inr ⟨0, 2, ?_, .inl ?_⟩), ?_, ?_⟩ <;>
    (try unfold beSum) <;> decide +kernel

theorem witness_SignIterates :
    (answered 3).phase = .entropyGot ⟨10, 5, some [0], 2⟩ [3] ∧ configOk (answered 3) ∧ flightOk (answered 3) ∧
    (answered 3).itercap = 0 ∧ ({ answered 0 with itercap := 2 } : State).itercap.toNat = 2 ∧
    2 < ({ answered 0 with itercap := 3 } : State).itercap.toNat :=
  ⟨rfl, configOk_of toy _ witness_config_passes rfl rfl rfl, witness_flightOk.2.2, rfl, rfl, by decide⟩

theorem witness_EntropyPort :
    waiting.entw = true ∧ waiting.phase = .entropyWait ⟨10, 5, some [0], 2⟩ ∧ [(3 : Byte)].length = waiting.bytelen.toNat ∧
    0 < waiting.requests ∧ toy.entw = false := by decide +kernel

/-- VERIFY: S-W1's layout, and the parts of its verdict. -/
theorem witness_Verification :
    let s := verifyState [4, 0x98, 0x77] [10] [0x1E, 0x1D]
    s.cfgok = true ∧ descsOk .verify s ∧ (len s 0 = 3 ∧ len s 1 = 1 ∧ len s 2 = 2) ∧
    (bufHolds s (off s 0) [4, 0x98, 0x77] ∧ bufHolds s (off s 1) [10] ∧ bufHolds s (off s 2) ([0x1E] ++ [0x1D])) ∧
    len (verifyState [4, 0x98, 0x77] [10] [0x1E, 0x1D, 0]) 2 ≠ 2 * s.bytelen.toNat ∧
    (beSum [0x00] = 0 ∧ beSum [0x97] = s.prmVal .n) := by
  unfold descsOk off len bufHolds beSum
  decide +kernel

/-! ### Edwards family -/

theorem witness_memoErrors :
    ({ toy with edw := false } : State).edw = false ∧ ¬ goodModulus ((toy.setPrm .p (.written 4)).prmVal .p) ∧
    (goodModulus ((toy.setPrm .p (.written 21)).prmVal .p) ∧ Nat.gcd 6 ((toy.setPrm .p (.written 21)).prmVal .p) ≠ 1) ∧
    readable (toy.setPrm .p (.written 21)) [.prm .p, .prm .e, .prm .d] := by
  unfold goodModulus readable
  decide +kernel

theorem witness_EdwardsCommands :
    (toy.edw = true ∧ goodModulus (toy.prmVal .p) ∧ readable toy (.q 0 :: memoRegs toy) ∧ memoIs toy 156 1) ∧
    memoIs { (toy.setPrm .s (.written 3)).setPrm .t (.written 4) with stv := true } 3 4 ∧
    (toy.setQ 0 5 5 true).q[0].inf = true ∧ ¬ coordsOk (withQ 0 157 1) 0 ∧
    (coordsOk (withQ 0 2 23) 0 ∧ pt (withQ 0 2 23) 0 = .affine 2 23 ∧
      Int.gcd ((2 : Int) * (1 - 23)) ((withQ 0 2 23).prmVal .p) = 1) ∧
    Int.gcd ((5 : Int) * (1 - 1)) (toy.prmVal .p) ≠ 1 ∧
    (Nat.gcd 129 (toy.prmVal .p) = 1 ∧ Int.gcd ((102 : Int) - 1 + 156) (toy.prmVal .p) = 1) ∧
    Int.gcd ((2 : Int) - 1 + 156) (toy.prmVal .p) ≠ 1 := by
  unfold goodModulus readable memoIs coordsOk
  decide +kernel

theorem witness_EdwardsRoundTrip :
    Nat.Prime (toy.prmVal .p) ∧ pt (withQ 0 2 23) 0 = .affine 2 23 ∧ (23 : Nat) ≠ toy.prmVal .p - 1 ∧ toy.stv = false ∧
    ((toy.prmVal .e : Int) - toy.prmVal .d) % (toy.prmVal .p : Int) ≠ 0 ∧
    readable (withQ 0 2 23) (.q 0 :: memoRegs (withQ 0 2 23)) := by
  refine ⟨?_, by unfold readable; decide +kernel⟩
  rw [show toy.prmVal .p = 157 by decide +kernel]
  norm_num

end Sys2Proof.Tests
end

section
/-! SUPPORT. The configuration check in the words of the statements (41_regmove.md R95), and what a command does to CFGOK, STV
and the parameter registers (10_state.md R34, R38). -/

namespace Sys2Proof.Machine

open Sys2Proof.Claims

/-! ## CFGCHK's checks -/

theorem bitlen_eq_size (v : Nat) : bitlen v = Nat.size v := by
  unfold bitlen
  split
  · next h => rw [h, Nat.size_zero]
  · next h =>
    refine eq_of_forall_ge_iff fun k => ?_
    rw [Nat.size_le, Nat.succ_le_iff, Nat.log2_lt h]

theorem modp_eq_zero_iff (z : Int) (m : Nat) (h : 0 < m) : modp z m = 0 ↔ z % (m : Int) = 0 := by
  rw [← modp_cast z m h, Int.natCast_eq_zero]

theorem onCurve_iff_onCurveAt (s : State) (x y : Nat) (h : 0 < s.prmVal .p) : onCurve s.curve x y = true ↔ onCurveAt s x y := by
  rw [onCurve, decide_eq_true_iff]
  exact modp_eq_zero_iff _ _ h

/-- The first failing check by its CAUSE number is the model's first failing check. -/
theorem firstConfigFailure_iff (s : State) (c : Option Nat) :
    firstConfigFailure s c ↔ c = s.configCheck.map (fun e => (causeCode e).toNat) := by
  unfold firstConfigFailure State.configCheck State.bl
  simp only [bitlen_eq_size]
  by_cases c1 : s.prmVal .p % 2 = 1 ∧ 5 ≤ s.prmVal .p
  case neg => simp [c1, causeCode]
  have hp := onCurve_iff_onCurveAt s (s.prmVal .gx) (s.prmVal .gy) (by omega)
  by_cases c2 : s.bytelen.toNat = (Nat.size (s.prmVal .p) + 7) / 8
  case neg => simp [c1, c2, causeCode]
  by_cases c3 : s.prmVal .n % 2 = 1 ∧ 3 ≤ s.prmVal .n ∧ s.prmVal .n < 2 ^ (8 * s.bytelen.toNat)
  case neg => simp [c1, ← c2, c3, causeCode]
  by_cases c4 : s.prmVal .a < s.prmVal .p ∧ s.prmVal .b < s.prmVal .p ∧ s.prmVal .gx < s.prmVal .p ∧ s.prmVal .gy < s.prmVal .p
  case neg => simp [c1, ← c2, c3, c4, causeCode]
  by_cases c5 : onCurveAt s (s.prmVal .gx) (s.prmVal .gy)
  case neg => simp [c1, ← c2, c3, c4, c5, mt hp.mp c5, causeCode]
  by_cases c6 : s.h.toNat = 0
  case pos => simp [c1, ← c2, c3, c4, c5, hp.mpr c5, c6, causeCode]
  case neg => simp [c1, ← c2, c3, c4, c5, hp.mpr c5, c6, Nat.one_le_iff_ne_zero]

theorem firstConfigFailure_none_iff (s : State) : firstConfigFailure s none ↔ s.configCheck = none := by
  rw [firstConfigFailure_iff, eq_comm, Option.map_eq_none_iff]

theorem configCheck_of_firstConfigFailure (s : State) (c : Nat) (h : firstConfigFailure s (some c)) :
    ∃ e, s.configCheck = some e := by
  rw [firstConfigFailure_iff, eq_comm, Option.map_eq_some_iff] at h
  obtain ⟨e, he, _⟩ := h
  exact ⟨e, he⟩

theorem exec_cfgchk_pass (s : State) (h : s.configCheck = none) :
    exec .cfgchk s = .next { s.noteReads curveRegs with cfgok := true }.complete := by
  simp [exec, execCfgchk, h]

theorem exec_cfgchk_fail (s : State) (e : Cause) (h : s.configCheck = some e) :
    exec .cfgchk s = .next ({ s.noteReads curveRegs with cfgok := false }.raise e) := by
  simp [exec, execCfgchk, h]

/-! ## The signing loop's frame -/

/-- What the signing loop may change, in one iteration or at its head (44_signature.md R126): BUF, ITER, the error record, and
how far SIGN has come. -/
def signLoopFrame (s t : State) : Prop :=
  t = { s with buf := t.buf, done := t.done, err := t.err, errcode := t.errcode, cause := t.cause, iter := t.iter,
               phase := t.phase, requests := t.requests }

section
variable {s t : State} (h : signLoopFrame s t)
include h

theorem signLoopFrame.prm : t.prm = s.prm := by unfold signLoopFrame at h; rw [h]

theorem signLoopFrame.stv : t.stv = s.stv := by unfold signLoopFrame at h; rw [h]

theorem signLoopFrame.cfgok : t.cfgok = s.cfgok := by unfold signLoopFrame at h; rw [h]

end

theorem State.drawNext_frame (k : SignLoop) (s : State) : signLoopFrame s (s.drawNext k) := by
  obtain ⟨_, _, h⟩ | ⟨_, h⟩ := State.drawNext_cases k s <;> rw [h] <;> rfl

theorem State.iterate_frame (k : SignLoop) (bytes : List Byte) (s : State) : signLoopFrame s (s.iterate k bytes) := by
  obtain ⟨c, _, h⟩ | ⟨_, h⟩ | ⟨r, sg, _, h⟩ := State.iterate_cases k bytes s <;> rw [h]
  · rfl
  · exact State.drawNext_frame k s
  · rfl

theorem State.enterLoop_frame (k : SignLoop) (s : State) : signLoopFrame s (s.enterLoop k) := by
  unfold State.enterLoop
  split
  · exact State.iterate_frame _ _ s
  · exact State.drawNext_frame k s

/-! ## CFGOK over a command -/

theorem State.writeMemo_cfgok (s : State) (m : Memo) : (s.writeMemo m).cfgok = s.cfgok := by
  unfold State.writeMemo
  split <;> rfl

/-- Only a passing CFGCHK leaves CFGOK at 1 where it was 0 (10_state.md R34). -/
theorem Effect.cfgok_set {i : Instr} {s t : State} (h : Effect i s t) (ht : t.cfgok = true) :
    s.cfgok = true ∨ (i = .cfgchk ∧ s.configCheck = none) := by
  cases h with
  | cfgPassed hi hc => exact .inr ⟨hi, hc⟩
  | cfgFailed => cases ht
  | raised | wroteX | wroteQ | wroteBuf | wroteResult => exact .inl ht
  | memoized l m | converted l m => exact .inl ((s.noteReads l).writeMemo_cfgok m ▸ ht)
  | entered ra hi k => exact .inl ((State.enterLoop_frame k (s.noteReads [.x ra])).cfgok ▸ ht)
  | resumed ra hi k bytes => exact .inl ((State.iterate_frame k bytes s).cfgok ▸ ht)

/-- The core's own step sets CFGOK only by a passing CFGCHK (10_state.md R34). -/
theorem coreStep_cfgok_set {s t : State} (h : coreStep s = .next t) (ht : t.cfgok = true) :
    s.cfgok = true ∨ (decode s.cmd = .ok .cfgchk ∧ s.configCheck = none) := by
  have run : runCommand s = .next t → s.cfgok = true ∨ (decode s.cmd = .ok .cfgchk ∧ s.configCheck = none) := by
    intro h
    unfold runCommand at h
    split at h
    · cases h
      exact .inl ht
    · next i hd =>
      obtain hs | ⟨rfl, hc⟩ := (exec_effect i s t h).cfgok_set ht
      · exact .inl hs
      · exact .inr ⟨hd, hc⟩
  unfold coreStep at h
  split at h
  · cases h; exact .inl ht
  · cases h; exact .inl ht
  · exact run h
  · exact run h

/-! ## The parameter registers and STV over a command -/

/-- The commands that can write the memo of 45_edwards.md R134. -/
def memoCommand (i : Instr) : Prop := i = .stcomp ∨ (∃ qd qa, i = .uv2xy qd qa) ∨ ∃ qd qa, i = .xy2uv qd qa

/-- ComputeST asks for the memo to be written only where STV = 0 (45_edwards.md R134). -/
theorem State.computeST_write {s : State} {m : Memo} (h : s.computeST = .ok m) (hw : m.write = true) : s.stv = false := by
  simp only [State.computeST] at h
  split at h
  · cases h
  · split at h
    · cases h
    · split at h
      · cases h; cases hw
      · next hstv => simpa using hstv

theorem State.writeMemo_skipped {m : Memo} (s : State) (h : m.write = false) : s.writeMemo m = s := by simp [State.writeMemo, h]

theorem State.writeMemo_written {m : Memo} (s : State) (h : m.write = true) :
    s.writeMemo m = { (s.setPrm .s (.written m.s)).setPrm .t (.written m.t) with stv := true } := by
  simp [State.writeMemo, h]

/-- The memo write leaves every parameter register but S and T (45_edwards.md R134). -/
theorem State.writeMemo_prmReg_other (s : State) (m : Memo) {r : Prm} (hs : r ≠ .s) (ht : r ≠ .t) :
    (s.writeMemo m).prmReg r = s.prmReg r := by
  cases hw : m.write with
  | false => rw [State.writeMemo_skipped s hw]
  | true =>
    rw [State.writeMemo_written s hw]
    exact (State.setPrm_other _ .t r _ ht).trans (State.setPrm_other s .s r _ hs)

/-- A command leaves the parameter registers and STV alone, or is an Edwards command and leaves of them what the memo write of
45_edwards.md R134 leaves. -/
theorem Effect.parameters {i : Instr} {s t : State} (h : Effect i s t) :
    (t.prm = s.prm ∧ t.stv = s.stv) ∨
    (memoCommand i ∧ ∃ l m, s.computeST = .ok m ∧
      t.prm = ((s.noteReads l).writeMemo m).prm ∧ t.stv = ((s.noteReads l).writeMemo m).stv) := by
  cases h with
  | raised | cfgFailed | cfgPassed | wroteX | wroteQ | wroteBuf | wroteResult => exact .inl ⟨rfl, rfl⟩
  | memoized l m hi hm => exact .inr ⟨.inl hi, l, m, hm, rfl, rfl⟩
  | converted l m qd x y hi hm =>
    obtain ⟨qa, hi | hi⟩ := hi
    · exact .inr ⟨.inr (.inl ⟨qd, qa, hi⟩), l, m, hm, rfl, rfl⟩
    · exact .inr ⟨.inr (.inr ⟨qd, qa, hi⟩), l, m, hm, rfl, rfl⟩
  | entered ra hi k =>
    have hf := State.enterLoop_frame k (s.noteReads [.x ra])
    exact .inl ⟨hf.prm, hf.stv⟩
  | resumed ra hi k bytes =>
    have hf := State.iterate_frame k bytes s
    exact .inl ⟨hf.prm, hf.stv⟩

/-- Settles O27: the only parameter write of a command is the memo write, which ComputeST asks for only where STV = 0. -/
theorem parameterWriters : Obligations.ParameterWriters := by
  intro i s t h
  obtain ⟨hprm, hstv⟩ | ⟨hi, l, m, hm, hprm, hstv⟩ := (exec_effect i s t h).parameters
  · refine ⟨fun r _ _ => by simp [State.prmReg, hprm], fun hc => ?_⟩
    exact absurd hc (by simp [hprm, hstv])
  · refine ⟨fun r hs ht => ?_, fun hc => ?_⟩
    · calc t.prmReg r = ((s.noteReads l).writeMemo m).prmReg r := by simp [State.prmReg, hprm]
        _ = s.prmReg r := State.writeMemo_prmReg_other _ m hs ht
    · cases hw : m.write with
      | false =>
        rw [State.writeMemo_skipped _ hw] at hprm hstv
        exact absurd hc (by simp [hprm, hstv])
      | true =>
        rw [State.writeMemo_written _ hw] at hstv
        exact ⟨hi, State.computeST_write hm hw, hstv⟩

end Sys2Proof.Machine
end

section
/-! SUPPORT. Host writes of the configuration: which register a parameter offset names (20_memory.md R40), the step that a
full-width write is (R45, R50), and what it does to CFGOK, EDW and STV (10_state.md R34, R35). -/

namespace Sys2Proof.Machine

open Sys2Proof.Claims

/-! ## The step of a full-width write -/

theorem step_facing (e : Event) (s : State) : step (facing e s) = perform e s := rfl

/-- While BUSY = 0 a full-width write of a mapped word other than CMD is that write performed (20_memory.md R45, R49). -/
theorem step_hostW_idle {s : State} {o : Nat} {g : Target} (w : Word) (hb : s.busy = false) (ho : o % 4 = 0)
    (hg : targetAt o = some g) (hc : g ≠ .cmd) : step (facing (hostW o w) s) = .next (s.performWrite g w) := by
  have ht : (⟨o, 0xF, .write w⟩ : Access).target = some g := by rw [Access.target_full, if_pos ho, hg]
  have ha := (hostAccess_write s _ g w ht rfl).trans (congrArg _ (State.hostWrite_idle s g w hb))
  exact (step_host s _).trans (hostMove_quiet s _ _ ha (State.performWrite_busy s g w (.inl hc) hb))

/-- While BUSY = 1 a full-width write of a word that BUSY protects is dropped with WERR (20_memory.md R50). -/
theorem step_hostW_busy {s : State} {o : Nat} {g : Target} (w : Word) (hb : s.busy = true) (ho : o % 4 = 0)
    (hg : targetAt o = some g) (hw : g.writableBusy = false) : step (facing (hostW o w) s) = .next { s with werr := true } := by
  have ht : (⟨o, 0xF, .write w⟩ : Access).target = some g := by rw [Access.target_full, if_pos ho, hg]
  have ha := (hostAccess_write s _ g w ht rfl).trans (congrArg _ (State.hostWrite_busy s g w hb hw))
  exact (step_host s _).trans ((hostMove_busy s _ hb).trans ha)

/-! ## Words of the parameter registers -/

theorem Prm.idx_surjective (k : Fin 10) : ∃ r : Prm, r.idx = k := by
  have h : ∀ k : Fin 10, (prmAt k).map Prm.idx = some k := by decide
  obtain ⟨r, _, hr⟩ := Option.map_eq_some_iff.mp (h k)
  exact ⟨r, hr⟩

theorem prmOff_eq (r : Prm) : prmOff r = 0x100 + 0x40 * r.idx := by cases r <;> rfl

/-- Every aligned offset of the parameter region is a word of the register whose block it lies in (20_memory.md R40, R41). -/
theorem targetAt_prm_block {o : Nat} (ho : o % 4 = 0) (h1 : 0x100 ≤ o) (h2 : o < 0x380) :
    ∃ r j, targetAt o = some (.prm r j) ∧ prmOff r ≤ o ∧ o < prmOff r + 0x40 := by
  obtain ⟨r, hr⟩ := Prm.idx_surjective ⟨(o - 0x100) / 0x40, by omega⟩
  have hi : r.idx.val = (o - 0x100) / 0x40 := congrArg Fin.val hr
  have hj : o = 0x100 + 0x40 * r.idx + 4 * (⟨o % 0x40 / 4, by omega⟩ : Fin 16) := by
    rw [hi]
    show o = 0x100 + 0x40 * ((o - 0x100) / 0x40) + 4 * (o % 0x40 / 4)
    omega
  refine ⟨r, ⟨o % 0x40 / 4, by omega⟩, ?_, ?_, ?_⟩
  · conv => lhs; rw [hj]
    exact targetAt_prm r _
  all_goals rw [prmOff_eq]; omega

/-! ## The effects of a parameter write -/

section
variable (s : State) (j : Fin 16) (w : Word)

/-- A write of a word of P, A, B, GX, GY or N clears CFGOK (10_state.md R34). -/
theorem State.performWrite_prm_cfgok {r : Prm} (h : prmOff r < 0x280) : (s.performWrite (.prm r j) w).cfgok = false := by
  cases r with
  | p | a | b | gx | gy | n => rfl
  | e | d | s | t => exact absurd h (by decide)

/-- A write of a word of P, E or D clears STV (10_state.md R35). -/
theorem State.performWrite_prm_stv {r : Prm} (h : r = .p ∨ r = .e ∨ r = .d) : (s.performWrite (.prm r j) w).stv = false := by
  obtain rfl | rfl | rfl := h <;> rfl

/-- A write of a word of S or T leaves STV (10_state.md R35). -/
theorem State.performWrite_memo_stv {r : Prm} (h : r = .s ∨ r = .t) : (s.performWrite (.prm r j) w).stv = s.stv := by
  obtain rfl | rfl := h <;> rfl

theorem State.performWrite_prm_edw (r : Prm) : (s.performWrite (.prm r j) w).edw = s.edw := by cases r <;> rfl

end

/-! ## No host access sets CFGOK -/

section
variable {s t : State}

theorem State.performWrite_cfgok_set {g : Target} {w : Word} (h : (s.performWrite g w).cfgok = true) : s.cfgok = true := by
  cases g with
  | prm r j =>
    cases r with
    | p | a | b | gx | gy | n => cases h
    | e | d | s | t => exact h
  | bytelen | h => cases h
  | ctrl =>
    change (s.writeCtrl w).cfgok = true at h
    unfold State.writeCtrl at h
    split at h
    · cases h
    · exact h
  | cmd =>
    change (s.issue w).cfgok = true at h
    unfold State.issue at h
    split at h <;> exact h
  | id | status | errinfo | iter | itercap | cfgf | desc | x | qx | qy | qinf | qres | buf => exact h

theorem hostRead_cfgok {g : Target} (h : hostRead g s = .next t) : t.cfgok = s.cfgok := by
  unfold hostRead at h
  split at h
  · cases h; rfl
  · split at h <;> cases h
    rfl

theorem hostAccess_cfgok_set {a : Access} (h : hostAccess a s = .next t) (ht : t.cfgok = true) : s.cfgok = true := by
  unfold hostAccess at h
  split at h
  · next g w _ _ =>
    cases h
    unfold State.hostWrite at ht
    split at ht
    · exact ht
    · exact State.performWrite_cfgok_set ht
  · exact hostRead_cfgok h ▸ ht
  · cases h; exact ht
  · cases h; exact ht

theorem hostMove_cfgok_set {a : Access} (h : hostMove a s = .next t) (ht : t.cfgok = true) : s.cfgok = true := by
  obtain ⟨ha, _⟩ | ⟨w, b, _, _, _, _, rfl⟩ := hostMove_cases s t a h
  · exact hostAccess_cfgok_set ha ht
  · exact ht

theorem entropyAnswer_cfgok (req : Nat) (bytes : List Byte) : (entropyAnswer req bytes s).cfgok = s.cfgok := by
  unfold entropyAnswer
  split
  · split <;> rfl
  all_goals rfl

/-- One step sets CFGOK only by the core's CFGCHK on a configuration that passes (10_state.md R34). -/
theorem step_cfgok_set {e : Event} (h : step (facing e s) = .next t) (ht : t.cfgok = true) :
    s.cfgok = true ∨ (e = .core ∧ decode s.cmd = .ok .cfgchk ∧ firstConfigFailure s none) := by
  rw [step_facing] at h
  cases e with
  | host a => exact .inl (hostMove_cfgok_set h ht)
  | core =>
    rw [firstConfigFailure_none_iff]
    exact (coreStep_cfgok_set h ht).imp_right fun hc => ⟨rfl, hc⟩
  | entropy req bytes =>
    cases h
    exact .inl (entropyAnswer_cfgok req bytes ▸ ht)
  | hwReset => cases h; cases ht

end

/-! ## The obligations on host writes -/

/-- The words whose performed write clears CFGOK (10_state.md R34): each is one that BUSY protects. -/
theorem configWord_target {o : Nat} (h : (o % 4 = 0 ∧ 0x100 ≤ o ∧ o < 0x280) ∨ o = 0x1C ∨ o = 0x20) :
    o % 4 = 0 ∧ ∃ g, targetAt o = some g ∧ g.writableBusy = false ∧ ∀ (s : State) w, (s.performWrite g w).cfgok = false := by
  obtain ⟨ho, h1, h2⟩ | rfl | rfl := h
  · obtain ⟨r, j, hg, hr, _⟩ := targetAt_prm_block ho h1 (by omega)
    exact ⟨ho, _, hg, rfl, fun s w => State.performWrite_prm_cfgok s j w (by omega)⟩
  · exact ⟨rfl, .bytelen, rfl, rfl, fun _ _ => rfl⟩
  · exact ⟨rfl, .h, rfl, rfl, fun _ _ => rfl⟩

/-- Settles O19, from `step_cfgok_set`, the two ends of CFGCHK, and the writes that BUSY drops. -/
theorem cfgokRule : Obligations.CfgokRule := by
  refine ⟨fun s t e h ht => step_cfgok_set h ht, fun s _ h => ?_, fun s c _ h => ?_, fun s o w h => ?_⟩
  · exact ⟨_, exec_cfgchk_pass s ((firstConfigFailure_none_iff s).mp h), rfl⟩
  · obtain ⟨e, he⟩ := configCheck_of_firstConfigFailure s c h
    exact ⟨_, exec_cfgchk_fail s e he, rfl⟩
  · obtain ⟨ho, g, hg, hw, hcfg⟩ := configWord_target h
    have hc : g ≠ .cmd := by rintro rfl; cases hw
    exact ⟨fun hb => ⟨_, step_hostW_idle w hb ho hg hc, hcfg s w⟩, fun hb => ⟨_, step_hostW_busy w hb ho hg hw, rfl⟩⟩

/-- Settles O20: the register of each offset, and the side effects of its write. -/
theorem stvRule : Obligations.StvRule := by
  intro s w hb
  refine ⟨fun o ho h => ?_, step_hostW_idle w hb rfl (g := .cfgf) rfl (by decide), fun o ho h1 h2 => ?_⟩
  · obtain ⟨r, j, hg, hlo, hhi⟩ := targetAt_prm_block ho (by omega) (by omega)
    have hr : r = .p ∨ r = .e ∨ r = .d := by
      cases r with
      | p | e | d => simp
      | a | b | gx | gy | n | s | t => simp only [prmOff] at hlo hhi; omega
    exact ⟨_, step_hostW_idle w hb ho hg (by simp), State.performWrite_prm_stv s j w hr, State.performWrite_prm_edw s j w r⟩
  · obtain ⟨r, j, hg, hlo, hhi⟩ := targetAt_prm_block ho (by omega) h2
    have hr : r = .s ∨ r = .t := by
      cases r with
      | s | t => simp
      | p | a | b | gx | gy | n | e | d => simp only [prmOff] at hlo hhi; omega
    exact ⟨_, step_hostW_idle w hb ho hg (by simp), State.performWrite_memo_stv s j w hr, State.performWrite_prm_edw s j w r⟩

end Sys2Proof.Machine
end

section
/-! SUPPORT. The words of the wide registers, of BUF and of a point register's block through the window while BUSY = 0
(20_memory.md R41 to R43). -/

namespace Sys2Proof.Machine

open Sys2Proof.Claims

/-! ## The step of a full-width access -/

/-- A full-width read of a word that has been written and that BUSY does not hide returns its value and changes nothing
(20_memory.md R45, R49, R50). -/
theorem step_hostR_written {s : State} {o : Nat} {g : Target} {v : Word} (hb : s.busy = false ∨ g.readableBusy = true)
    (ho : o % 4 = 0) (hg : targetAt o = some g) (hv : s.wordAt g = .ok v) (hw : s.wordWritten g = true) :
    step (facing (hostR o) s) = .next { s with busRead := some v } := by
  have ht : (⟨o, 0xF, .read⟩ : Access).target = some g := by rw [Access.target_full, if_pos ho, hg]
  have ha : hostAccess ⟨o, 0xF, .read⟩ s = .next { s with busRead := some v } := by
    rw [hostAccess_read s _ g ht rfl, hostRead_exact s g v hb hv, hw, Bool.not_true, Bool.or_false]
  refine (step_host s _).trans ?_
  cases hs : s.busy with
  | false => exact hostMove_quiet s _ _ ha hs
  | true => exact (hostMove_busy s _ hs).trans ha

section
variable {s : State} {o : Nat} {g : Target} (hb : s.busy = false) (ho : o % 4 = 0) (hg : targetAt o = some g)
include hb ho hg

theorem moves_hostW_idle {w : Word} {P : State → Prop} (hc : g ≠ .cmd) (h : P (s.performWrite g w)) : moves (hostW o w) s P :=
  ⟨_, step_hostW_idle w hb ho hg hc, h⟩

theorem hostReads_idle {v : Word} {P : Word → Prop} (hv : s.wordAt g = .ok v) (h : P v) (hw : s.wordWritten g = true) :
    hostReads o s P :=
  ⟨v, step_hostR_written (.inl hb) ho hg hv hw, h⟩

end

/-! ## One word of a wide register -/

/-- A bit of the register is below the written word, inside it, or above it. -/
theorem WideReg.setWord_wordReplaced (r : WideReg) (j : Fin 16) (w : Word) : wordReplaced r (r.setWord j w) j w := by
  refine ⟨fun b hb => ?_, fun k hk => ?_⟩
  · simp only [WideReg.setWord, BitVec.getLsbD_or, BitVec.getLsbD_and, BitVec.getLsbD_not, BitVec.getLsbD_shiftLeft,
      BitVec.getLsbD_setWidth, BitVec.getLsbD_allOnes, hb, decide_true, Bool.true_and]
    obtain h | ⟨h1, h2⟩ | h : b < 32 * j ∨ (32 * j ≤ b ∧ b < 32 * j + 32) ∨ 32 * j + 32 ≤ b := by omega
    · simp [h]
    · simp [h1, h2, show ¬ b < 32 * j by omega, show b - 32 * j < 32 by omega,
        show b - 32 * j < 512 by omega]
    · simp [BitVec.getLsbD_of_ge w (b - 32 * j) (by omega), show ¬ b - 32 * j < 32 by omega, show ¬ b < 32 * j + 32 by omega]
  · simp only [WideReg.setWord, BitVec.getLsbD_or, BitVec.getLsbD_ofNat, Nat.testBit_two_pow, hk, decide_true, Bool.true_and,
      eq_comm]

theorem WideReg.word_holdsWord (r : WideReg) (j : Fin 16) : holdsWord r j (r.word j) := by
  intro b hb
  simp [WideReg.word, hb]

/-! ## The register files after a performed write -/

theorem getElem_set_fin_ne {α : Type} {n : Nat} (v : Vector α n) {i k : Fin n} (a : α) (h : k ≠ i) :
    (v.set i a)[k] = v[k] :=
  Vector.getElem_set_ne _ _ (fun e => h (Fin.ext e.symm))

section
variable (s : State) (j : Fin 16) (w : Word)

@[simp] theorem State.prmWriteEffects_prm (r : Prm) : (s.prmWriteEffects r).prm = s.prm := by cases r <;> rfl

/-- The flags a parameter write clears (10_state.md R34, R35). -/
theorem State.performWrite_prm_flags (r : Prm) :
    (s.performWrite (.prm r j) w).cfgok = (if r ∈ [Prm.p, .a, .b, .gx, .gy, .n] then false else s.cfgok) ∧
    (s.performWrite (.prm r j) w).stv = (if r ∈ [Prm.p, .e, .d] then false else s.stv) := by
  cases r <;> exact ⟨rfl, rfl⟩

theorem State.performWrite_prm_frame (r : Prm) :
    s.performWrite (.prm r j) w = { s with
      prm := (s.performWrite (.prm r j) w).prm
      cfgok := (s.performWrite (.prm r j) w).cfgok
      stv := (s.performWrite (.prm r j) w).stv } := by
  cases r <;> rfl

theorem State.performWrite_prm_prmReg (r r' : Prm) :
    (s.performWrite (.prm r j) w).prmReg r' = (s.setPrm r ((s.prmReg r).setWord j w)).prmReg r' := by
  simp [State.prmReg, State.performWrite]

theorem State.performWrite_x_same (i : XReg) : (s.performWrite (.x i j) w).x[i] = s.x[i].setWord j w :=
  Vector.getElem_set_self _

theorem State.performWrite_qx_same (i : QReg) :
    (s.performWrite (.qx i j) w).q[i] = { s.q[i] with x := s.q[i].x.setWord j w } :=
  Vector.getElem_set_self _

theorem State.performWrite_qy_same (i : QReg) :
    (s.performWrite (.qy i j) w).q[i] = { s.q[i] with y := s.q[i].y.setWord j w } :=
  Vector.getElem_set_self _

theorem State.performWrite_qinf_same (i : QReg) :
    (s.performWrite (.qinf i) w).q[i] = { s.q[i] with inf := w.getLsbD 0, infMark := true } :=
  Vector.getElem_set_self _

end

/-! ## The four bytes of a BUF word -/

theorem leBytes_word (w : Word) :
    leBytes w.toNat 4 = [w.extractLsb' 0 8, w.extractLsb' 8 8, w.extractLsb' 16 8, w.extractLsb' 24 8] := by
  simp only [leBytes, Nat.div_div_eq_div_mul, List.cons.injEq, and_true]
  refine ⟨?_, ?_, ?_, ?_⟩ <;> apply BitVec.eq_of_toNat_eq <;> simp [Nat.shiftRight_eq_div_pow]

theorem toNat_append_eq_add {m n : Nat} (a : BitVec m) (b : BitVec n) : (a ++ b).toNat = a.toNat * 2 ^ n + b.toNat := by
  rw [BitVec.toNat_append, ← Nat.shiftLeft_add_eq_or_of_lt b.isLt, Nat.shiftLeft_eq]

theorem word_of_le_four (b0 b1 b2 b3 : Byte) : BitVec.ofNat 32 (le [b0, b1, b2, b3]) = b3 ++ b2 ++ b1 ++ b0 := by
  have h : le [b0, b1, b2, b3] = (b3 ++ b2 ++ b1 ++ b0).toNat := by
    simp only [toNat_append_eq_add, le, List.foldr]
    omega
  rw [h]
  exact (BitVec.ofNat_toNat _ _).trans (BitVec.setWidth_eq _)

/-- MemRead answers the bytes that BUF holds in the range (00_scope.md R12). -/
theorem readBytes_of_bufHolds {s : State} {off : Nat} {bs : List Byte} (h : bufHolds s off bs) :
    s.buf.readBytes off bs.length = .ok bs := by
  obtain ⟨bs', hr⟩ := s.buf.readBytes_isOk off bs.length (fun j hj => by simp [h j hj, hj])
  obtain ⟨hl, hb⟩ := s.buf.readBytes_ok off _ bs' hr
  have he : bs' = bs := List.ext_getElem? fun j => by
    by_cases hj : j < bs.length
    · rw [← hb j hj, h j hj]
    · simp [hl, hj]
  rw [hr, he]

/-! ## The obligations on the words of the register files and of BUF -/

/-- Settles O15: a write of word j is `WideReg.setWord` on one register of one file, a read is `WideReg.word`. -/
theorem wideRegisterWords : Obligations.WideRegisterWords := by
  intro s j w hb
  refine ⟨fun r => ?_, fun i => ?_, fun q => ?_⟩
  · have ho : (prmOff r + 4 * j) % 4 = 0 := by rw [prmOff_eq]; omega
    have hg : targetAt (prmOff r + 4 * j) = some (.prm r j) := by rw [prmOff_eq]; exact targetAt_prm r j
    refine ⟨moves_hostW_idle hb ho hg (by simp) ⟨?_, fun r' hr => ?_, ?_⟩,
      hostReads_idle hb ho hg rfl (WideReg.word_holdsWord _ j)⟩
    · rw [State.performWrite_prm_prmReg, State.setPrm_same]
      exact WideReg.setWord_wordReplaced _ j w
    · rw [State.performWrite_prm_prmReg, State.setPrm_other s r r' _ hr]
    · obtain ⟨hcfgok, hstv⟩ := State.performWrite_prm_flags s j w r
      exact ⟨hcfgok, hstv, State.performWrite_prm_frame s j w r⟩
  · have ho : (0x400 + 0x40 * i.val + 4 * j) % 4 = 0 := by omega
    refine ⟨moves_hostW_idle hb ho (targetAt_x i j) (by simp) ⟨?_, fun i' hi => getElem_set_fin_ne _ _ hi, rfl⟩,
      hostReads_idle hb ho (targetAt_x i j) rfl (WideReg.word_holdsWord _ j)⟩
    rw [State.performWrite_x_same]
    exact WideReg.setWord_wordReplaced _ j w
  · have hox : (0x800 + 0x100 * q.val + 4 * j) % 4 = 0 := by omega
    have hoy : (0x840 + 0x100 * q.val + 4 * j) % 4 = 0 := by omega
    refine ⟨moves_hostW_idle hb hox (targetAt_qx q j) (by simp) ?_, moves_hostW_idle hb hoy (targetAt_qy q j) (by simp) ?_,
      hostReads_idle hb hox (targetAt_qx q j) rfl (WideReg.word_holdsWord _ j),
      hostReads_idle hb hoy (targetAt_qy q j) rfl (WideReg.word_holdsWord _ j)⟩
    · rw [State.performWrite_qx_same]
      exact ⟨WideReg.setWord_wordReplaced _ j w, rfl, rfl, rfl, fun q' hq => getElem_set_fin_ne _ _ hq, rfl⟩
    · rw [State.performWrite_qy_same]
      exact ⟨WideReg.setWord_wordReplaced _ j w, rfl, rfl, rfl, fun q' hq => getElem_set_fin_ne _ _ hq, rfl⟩

/-- Settles O16: a write stores the four bytes of `leBytes_word`, a read puts them together again. -/
theorem bufWordLanes : Obligations.BufWordLanes := by
  intro s k w hb
  have ho : (0x1000 + 4 * k.val) % 4 = 0 := by omega
  refine ⟨moves_hostW_idle hb ho (targetAt_buf k) (by simp) ?_, fun b0 b1 b2 b3 h => ?_⟩
  · have hread : ∀ a, (s.performWrite (.buf k) w).buf.read a = if 4 * k.val ≤ a ∧ a < 4 * k.val + 4 then
        [w.extractLsb' 0 8, w.extractLsb' 8 8, w.extractLsb' 16 8, w.extractLsb' 24 8][a - 4 * k.val]? else s.buf.read a := by
      intro a
      rw [← leBytes_word]
      exact Memory.read_writeBytes s.buf (4 * k) (leBytes w.toNat 4) a
    exact ⟨by simp [hread], by simp [hread], by simp [hread], by simp [hread], fun a ha => by rw [hread, if_neg ha], rfl⟩
  · have hv : s.wordAt (.buf k) = .ok (b3 ++ b2 ++ b1 ++ b0) := by
      have hr : s.buf.readBytes (4 * k) 4 = .ok [b0, b1, b2, b3] := readBytes_of_bufHolds h
      simp only [State.wordAt, hr, word_of_le_four]
    exact step_hostR_written (.inl hb) ho (targetAt_buf k) hv rfl

/-- Settles O17: the INF word is `inf` and its mark, and a reserved word is no register. -/
theorem infWordAndReservedWords : Obligations.InfWordAndReservedWords := by
  intro s q w hb
  have hoi : (0x880 + 0x100 * q.val) % 4 = 0 := by omega
  refine ⟨moves_hostW_idle hb hoi (targetAt_qinf q) (by simp) ?_,
    hostReads_idle hb hoi (targetAt_qinf q) rfl (by cases s.q[q].inf <;> rfl), fun o h1 h2 h4 => ?_⟩
  · rw [State.performWrite_qinf_same]
    exact ⟨rfl, rfl, rfl, rfl, fun q' hq => getElem_set_fin_ne _ _ hq, rfl⟩
  · have ho : (0x800 + 0x100 * q.val + o) % 4 = 0 := by omega
    have hg := targetAt_qres q o h1 h2
    exact ⟨step_hostW_idle w hb ho hg (by simp), step_hostR_written (.inl hb) ho hg rfl rfl⟩

end Sys2Proof.Machine
end

section
/-! SUPPORT. What a command word spells: the unused fields of each format in place of its mask (30_encoding.md R59, R62), the
decoder's checks one by one (R63 to R66), and that encoding and decoding undo each other. -/

namespace Sys2Proof

open Sys2Proof.Laws.EncodedRow (opField_assemble opField_assembleImm)

/-! ## The unused fields of a format -/

/-- The fields that a format does not use, the opcode aside, as (lowest bit, width); bit 3 of a point field is one of them. -/
def Format.unused : Format → List (Nat × Nat)
  | .fr3 => [(24, 1), (0, 12)]
  | .fr2 => [(24, 1), (0, 16)]
  | .fi => [(24, 1)]
  | .xr2 => [(24, 2), (0, 16)]
  | .xi => [(24, 2), (16, 4)]
  | .xs => [(24, 2), (0, 16)]
  | .xc => [(20, 6), (0, 12)]
  | .xd => [(24, 2), (2, 18)]
  | .n0 => [(0, 26)]
  | .p1 => [(23, 3), (0, 20)]
  | .p2 => [(23, 3), (19, 1), (0, 16)]
  | .p3 => [(23, 3), (19, 1), (15, 1), (0, 12)]
  | .px => [(23, 3), (0, 12)]
  | .pg => [(24, 2), (19, 1), (0, 16)]
  | .pk => [(23, 3), (19, 1), (0, 12)]
  | .pc => [(19, 7), (0, 16)]
  | .pd => [(23, 3), (2, 18)]
  | .pu => [(23, 3), (0, 16)]
  | .sg => [(20, 6), (0, 16)]

/-- Every unused field of the word is zero. -/
def Format.unusedZero (f : Format) (w : Word) : Prop := ∀ s ∈ f.unused, w.toNat / 2 ^ s.1 % 2 ^ s.2 = 0

/-- Bit k lies in an unused field. -/
def Format.unusedBit (f : Format) (k : Nat) : Bool := f.unused.any fun s => decide (s.1 ≤ k) && decide (k < s.1 + s.2)

/-- The mask holds the opcode and the unused fields, and nothing else. -/
theorem Format.mask_getLsbD (f : Format) : ∀ k < 32, f.mask.getLsbD k = (decide (26 ≤ k) || f.unusedBit k) := by
  cases f <;> decide

theorem Format.unusedBit_lt (f : Format) {k : Nat} (h : f.unusedBit k = true) : k < 26 := by
  have hs : ∀ s ∈ f.unused, s.1 + s.2 ≤ 26 := by cases f <;> decide
  obtain ⟨s, hm, hk⟩ := List.any_eq_true.mp h
  have := hs s hm
  simp only [Bool.and_eq_true, decide_eq_true_eq] at hk
  omega

theorem Format.unusedBit_of_pointBits (f : Format) : ∀ k ∈ f.pointBits, f.unusedBit k = true := by cases f <;> decide

/-- A field of the word is zero when each of its bits is. -/
theorem field_eq_zero_iff (w : Word) (lo n : Nat) :
    w.toNat / 2 ^ lo % 2 ^ n = 0 ↔ ∀ k, lo ≤ k → k < lo + n → w.getLsbD k = false := by
  have hbit : ∀ j, (w.toNat / 2 ^ lo % 2 ^ n).testBit j = (decide (j < n) && w.getLsbD (lo + j)) := fun j => by
    rw [Nat.testBit_mod_two_pow, Nat.testBit_div_two_pow, Nat.add_comm, BitVec.getLsbD]
  constructor
  · intro h k h1 h2
    have hb := hbit (k - lo)
    rwa [h, Nat.zero_testBit, decide_eq_true (by omega), Bool.true_and, Nat.add_sub_cancel' h1, eq_comm] at hb
  · intro h
    refine Nat.eq_of_testBit_eq fun j => ?_
    rw [hbit, Nat.zero_testBit, Bool.and_eq_false_imp]
    exact fun hj => h _ (by omega) (by simpa using hj)

theorem Format.unusedZero_iff (f : Format) (w : Word) :
    f.unusedZero w ↔ ∀ k, f.unusedBit k = true → w.getLsbD k = false := by
  simp only [Format.unusedZero, field_eq_zero_iff, Format.unusedBit, List.any_eq_true, Bool.and_eq_true, decide_eq_true_eq]
  exact ⟨fun h k ⟨s, hs, hk⟩ => h s hs k hk.1 hk.2, fun h s hs k h1 h2 => h k ⟨s, hs, h1, h2⟩⟩

/-- The opcode shifted to its place is what the word holds there. -/
theorem opField_shift_getLsbD (w : Word) {k : Nat} (hk : k < 32) :
    (BitVec.ofNat 32 (opField w) <<< 26).getLsbD k = (decide (26 ≤ k) && w.getLsbD k) := by
  rw [opField, BitVec.getLsbD_shiftLeft, BitVec.getLsbD_ofNat, ← BitVec.getLsbD, BitVec.getLsbD_extractLsb']
  rcases Nat.lt_or_ge k 26 with h | h
  · simp [h]
  · simp [h, hk, Nat.add_sub_cancel' h, show k - 26 < 6 by omega, show k - 26 < 32 by omega]

/-- The mask check of R66 asks exactly that the unused fields are zero. -/
theorem Format.mask_check_iff (f : Format) (w : Word) :
    w &&& f.mask = BitVec.ofNat 32 (opField w) <<< 26 ↔ f.unusedZero w := by
  rw [f.unusedZero_iff]
  constructor
  · intro h k hk
    have hlt := f.unusedBit_lt hk
    have hb := congrArg (BitVec.getLsbD · k) h
    simpa [BitVec.getLsbD_and, f.mask_getLsbD k (by omega), opField_shift_getLsbD w (show k < 32 by omega), hk,
      show ¬ 26 ≤ k by omega] using hb
  · intro h
    refine BitVec.eq_of_getLsbD_eq fun k hk => ?_
    rw [BitVec.getLsbD_and, f.mask_getLsbD k hk, opField_shift_getLsbD w hk]
    cases hu : f.unusedBit k with
    | true => simp [h k hu]
    | false => rw [Bool.or_false, Bool.and_comm]

/-! ## The decoder's checks -/

/-- The row of the word's opcode spells this command, and the word's unused fields are zero. -/
def Spells (w : Word) (i : Instr) : Prop := ∃ f, rowOf w (opField w) = some (f, i) ∧ f.unusedZero w

section
variable {w : Word} {f : Format} {i : Instr}

theorem decode_opcode (h : rowOf w (opField w) = none) : decode w = .error .opcode := by simp only [decode, h]

theorem decode_pointIndex (h : rowOf w (opField w) = some (f, i)) (hp : ∃ k ∈ f.pointBits, w.getLsbD k = true) :
    decode w = .error .pointIndex := by
  simp only [decode, h, List.any_eq_true.mpr hp, if_true]

theorem decode_of_pointBits (h : rowOf w (opField w) = some (f, i)) (hp : ∀ k ∈ f.pointBits, w.getLsbD k = false) :
    decode w = if w &&& f.mask ≠ BitVec.ofNat 32 (opField w) <<< 26 then .error .reservedBits
      else if i.wellFormed = false then .error .paramSel else .ok i := by
  have ha : f.pointBits.any (fun k => w.getLsbD k) = false := List.any_eq_false.mpr fun k hk => by simp [hp k hk]
  simp only [decode, h, ha, Bool.false_eq_true, if_false]

/-- The checks come in the order OPCODE, POINT_INDEX, RESERVED_BITS, PARAM_SEL (30_encoding.md R66), and no other cause comes
from the word alone. -/
theorem decode_error_cases {c : Cause} (h : decode w = .error c) :
    c = .opcode ∨ c = .pointIndex ∨ c = .reservedBits ∨ c = .paramSel := by
  unfold decode at h
  split at h
  · cases h
    exact .inl rfl
  · split_ifs at h <;> cases h
    · exact .inr (.inl rfl)
    · exact .inr (.inr (.inl rfl))
    · exact .inr (.inr (.inr rfl))

/-- The decoder answers the well-formed command the word spells: the mask check asks for the point bits too, so
it stands for both checks. -/
theorem decode_eq_ok_iff : decode w = .ok i ↔ Spells w i ∧ i.wellFormed = true := by
  constructor
  · intro h
    unfold decode at h
    split at h
    · cases h
    · next f j hr =>
      split_ifs at h with hp hm hw
      cases h
      exact ⟨⟨f, hr, (f.mask_check_iff w).mp (not_not.mp hm)⟩, Bool.not_eq_false _ ▸ hw⟩
  · rintro ⟨⟨f, hr, hz⟩, hw⟩
    have hp : ∀ k ∈ f.pointBits, w.getLsbD k = false := fun k hk =>
      (f.unusedZero_iff w).mp hz k (f.unusedBit_of_pointBits k hk)
    rw [decode_of_pointBits hr hp, if_neg (not_not.mpr ((f.mask_check_iff w).mpr hz)), if_neg (by simp [hw])]

end

/-! ## Encoding and decoding undo each other -/

theorem xField_eq_iff (w : Word) (lo : Nat) (r : XReg) : xField w lo = r ↔ w.toNat / 2 ^ lo % 16 = r.val := by
  rw [← xField_val, Fin.val_inj]

theorem qField_eq_iff (w : Word) (lo : Nat) (r : QReg) : qField w lo = r ↔ w.toNat / 2 ^ lo % 8 = r.val := by
  rw [← qField_val, Fin.val_inj]

theorem dselField_eq_iff (w : Word) (k : DescSel) : dselField w = k ↔ w.toNat % 4 = k.val := by
  rw [← dselField_val, Fin.val_inj]

theorem immField_eq_iff (w : Word) (imm : BitVec 16) : immField w = imm ↔ w.toNat % 2 ^ 16 = imm.toNat := by
  rw [← immField_toNat, BitVec.toNat_inj]

theorem mField_bit (w : Word) : (mField w).bit = w.toNat / 2 ^ 25 % 2 := by
  rw [mField, getLsbD_eq_decide]
  by_cases h : w.toNat / 2 ^ 25 % 2 = 1
  · rw [h]; rfl
  · rw [if_neg (by simpa using h), Nat.mod_two_ne_one.mp h]; rfl

theorem Modulus.bit_inj {m m' : Modulus} : m.bit = m'.bit ↔ m = m' := by cases m <;> cases m' <;> decide

theorem mField_eq_iff (w : Word) (m : Modulus) : mField w = m ↔ w.toNat / 2 ^ 25 % 2 = m.bit := by
  rw [← mField_bit, Modulus.bit_inj]

/-- A word that spells a command is the command's encoding: the row's operand fields and its unused fields are the whole word. -/
theorem encode_of_spells {w : Word} {i : Instr} (h : Spells w i) : encode i = w := by
  obtain ⟨f, hr, hz⟩ := h
  rw [opField_eq] at hr
  unfold rowOf at hr
  split at hr <;> cases hr
  all_goals
    refine BitVec.eq_of_toNat_eq ?_
    simp only [Format.unusedZero, Format.unused, List.forall_mem_cons, List.not_mem_nil] at hz
    simp (disch := omega) only [encode, assemble_toNat, assembleImm_toNat, mField_bit, xField_val, qField_val, dselField_val,
      immField_toNat]
    omega

section
variable {op m f1 f2 f3 d : Nat} {imm : BitVec 16} {f : Format} {j : Word → Instr} {i : Instr}

/-- An assembled word spells the command that its row reads from the sum of its fields. -/
theorem spells_assemble (hr : ∀ w, rowOf w op = some (f, j w)) (hop : op < 64) (hm : m < 2) (h1 : f1 < 16) (h2 : f2 < 16)
    (h3 : f3 < 16) (hd : d < 4)
    (h : ∀ w : Word, w.toNat = op * 2 ^ 26 + m * 2 ^ 25 + f1 * 2 ^ 20 + f2 * 2 ^ 16 + f3 * 2 ^ 12 + d →
      j w = i ∧ f.unusedZero w) : Spells (assemble op m f1 f2 f3 d) i :=
  have ⟨hj, hz⟩ := h _ (assemble_toNat op m f1 f2 f3 d hop hm h1 h2 h3 hd)
  ⟨f, by rw [opField_assemble op m f1 f2 f3 d hop hm h1 h2 h3 hd, hr, hj], hz⟩

theorem spells_assembleImm (hr : ∀ w, rowOf w op = some (f, j w)) (hop : op < 64) (hm : m < 2) (h1 : f1 < 16) (h2 : f2 < 16)
    (h : ∀ w : Word, w.toNat = op * 2 ^ 26 + m * 2 ^ 25 + f1 * 2 ^ 20 + f2 * 2 ^ 16 + imm.toNat → j w = i ∧ f.unusedZero w) :
    Spells (assembleImm op m f1 f2 imm) i :=
  have ⟨hj, hz⟩ := h _ (assembleImm_toNat op m f1 f2 imm hop hm h1 h2)
  ⟨f, by rw [opField_assembleImm op m f1 f2 imm hop hm h1 h2, hr, hj], hz⟩

end

/-- The encoding of a command spells it: each operand field of the word holds its operand, and nothing reaches an unused field. -/
theorem spells_encode (i : Instr) : Spells (encode i) i := by
  cases i with
  | madd m | msub m | mmul m | mdiv m | msqr m | mneg m | minv m | mred m =>
    have hm := m.bit_lt
    refine spells_assemble (fun _ => rfl) (by omega) hm (by omega) (by omega) (by omega) (by omega) fun w hw => ?_
    simp [Format.unusedZero, Format.unused, mField_eq_iff, xField_eq_iff]
    omega
  | msmul m rd ra imm =>
    have hm := m.bit_lt
    refine spells_assembleImm (fun _ => rfl) (by omega) hm (by omega) (by omega) fun w hw => ?_
    simp [Format.unusedZero, Format.unused, mField_eq_iff, xField_eq_iff, immField_eq_iff]
    omega
  | xldi rd imm =>
    refine spells_assembleImm (fun _ => rfl) (by omega) (by omega) (by omega) (by omega) fun w hw => ?_
    simp [Format.unusedZero, Format.unused, xField_eq_iff, immField_eq_iff]
    omega
  | _ =>
    refine spells_assemble (fun _ => rfl) (by omega) (by omega) (by omega) (by omega) (by omega) (by omega) fun w hw => ?_
    simp [Format.unusedZero, Format.unused, xField_eq_iff, qField_eq_iff, dselField_eq_iff]
    omega

end Sys2Proof
end

section
/-! SUPPORT. The step of the core on a command word that does not decode (60_exceptions.md R142), and the rows of the opcode map
against the checks of 30_encoding.md R63 and R64. -/

namespace Sys2Proof.Machine

open Sys2Proof.Claims

/-- The core ends an accepted word that does not decode with the cause the decoder gives (30_encoding.md R65). -/
theorem step_core_decode_error {s : State} {c : Cause} (hd : decode s.cmd = .error c) (hp : s.phase = .accepted) :
    step (facing .core s) = .next (s.raise c) := by
  rw [step_facing, perform, coreStep, hp]
  simp only [runCommand, hd]

/-- `State.raise` records the class and the cause and changes nothing else (60_exceptions.md R142, R143). -/
theorem State.raise_failed (s : State) (c : Cause) :
    failed (classCode (classOf c)).toNat (causeCode c).toNat s (s.raise c) :=
  ⟨⟨rfl, rfl, rfl, rfl, rfl⟩, ⟨rfl, rfl, rfl, fun _ => rfl⟩, ⟨rfl, rfl, rfl, rfl, rfl, rfl⟩,
    ⟨rfl, rfl, rfl, rfl, rfl, rfl, rfl, rfl, rfl, rfl, rfl, rfl, rfl⟩⟩

/-- Every cause that comes from the word alone is an IllegalCommand (30_encoding.md R66). -/
theorem classOf_decode_error {w : Word} {c : Cause} (h : decode w = .error c) : classOf c = .illegalCommand := by
  obtain rfl | rfl | rfl | rfl := decode_error_cases h <;> rfl

/-- The mask check's right side as the statements write it. -/
theorem ofNat_shiftLeft_eq (op : Nat) : BitVec.ofNat 32 op <<< 26 = BitVec.ofNat 32 (op * 2 ^ 26) := by
  rw [BitVec.shiftLeft_eq_mul_twoPow, BitVec.ofNat_mul]
  rfl

/-- A row of the rules' table is the decoder's row, and only XLDP's selector can make its command ill-formed
(30_encoding.md R61, R62). -/
theorem rowOf_of_mem_rows (w : Word) : ∀ r ∈ rows, ∃ f i, rowOf w r.1 = some (f, i) ∧ f.mask = r.2.1 ∧ f.pointBits = r.2.2 ∧
    (i.wellFormed = false ↔ r.1 = 0x12 ∧ 11 < w.toNat / 2 ^ 16 % 16) := by
  intro r hr
  fin_cases hr
  all_goals exact ⟨_, _, rfl, rfl, rfl, by simp [Instr.wellFormed, xField_val]⟩

/-- The opcodes without a row (30_encoding.md R63). -/
def unassigned : List Nat :=
  [0x00, 0x0A, 0x0B, 0x0C, 0x0D, 0x0E, 0x0F, 0x19, 0x1A, 0x1B, 0x1C, 0x1D, 0x1E, 0x1F, 0x2B, 0x2C, 0x2D, 0x2E, 0x2F, 0x33,
    0x34, 0x35, 0x36, 0x37, 0x3B, 0x3F]

theorem rowOf_unassigned (w : Word) : ∀ op ∈ unassigned, rowOf w op = none := by
  intro op h
  fin_cases h <;> rfl

/-! ## The obligations on the encoding -/

/-- Settles O1: the decoder computes on the words written out. -/
theorem writtenOutWordsDecode : Obligations.WrittenOutWordsDecode := by
  unfold Obligations.WrittenOutWordsDecode
  decide

/-- Settles O2: every encoding spells its command. -/
theorem decodeOfEncode : Obligations.DecodeOfEncode := fun i hw => decode_eq_ok_iff.mpr ⟨spells_encode i, hw⟩

/-- Settles O3: the command that a word spells is the only one with that encoding, and a word that decodes to a cause spells
no well-formed command. -/
theorem everyWordIsOneCommandOrIllegal : Obligations.EveryWordIsOneCommandOrIllegal := by
  intro w
  cases hd : decode w with
  | ok i =>
    obtain ⟨hs, hw⟩ := decode_eq_ok_iff.mp hd
    refine .inl ⟨i, rfl, hw, encode_of_spells hs, fun j hj he => ?_⟩
    exact (Except.ok.inj (hd.symm.trans (he ▸ decodeOfEncode j hj))).symm
  | error c =>
    refine .inr ⟨c, rfl, classOf_decode_error hd, fun j hj he => ?_⟩
    cases hd.symm.trans (he ▸ decodeOfEncode j hj)

/-- Settles O4: the opcode has no row, the zero word's among them, and the core raises what the decoder answers. -/
theorem unassignedOpcodesAreIllegal : Obligations.UnassignedOpcodesAreIllegal := by
  intro w s h
  have hop : opField w ∈ unassigned := by
    obtain h | rfl := h
    · rw [opField_eq]; exact h
    · decide
  have hd : decode w = .error .opcode := decode_opcode (rowOf_unassigned w _ hop)
  refine ⟨hd, fun hp hc => ?_⟩
  subst hc
  exact ⟨_, step_core_decode_error hd hp, s.raise_failed .opcode⟩

/-- Settles O5: the row of the opcode has the mask and the point bits of the table, so the clauses are the decoder's checks. -/
theorem decodeChecksInOrder : Obligations.DecodeChecksInOrder := by
  intro w op mask pts hmem hop
  obtain ⟨f, i, hr, rfl, rfl, hsel⟩ := rowOf_of_mem_rows w _ hmem
  rw [← opField_eq] at hop
  subst hop
  rw [← ofNat_shiftLeft_eq, ← hsel]
  refine ⟨decode_pointIndex hr, fun hp hm => ?_, fun hp hm => ⟨fun hw => ?_, fun hw => ?_⟩, fun c s hd hphase hc => ?_⟩
  · rw [decode_of_pointBits hr hp, if_pos hm]
  · rw [decode_of_pointBits hr hp, if_neg (not_not.mpr hm), if_pos hw]
  · exact ⟨i, by rw [decode_of_pointBits hr hp, if_neg (not_not.mpr hm), if_neg hw]⟩
  · rw [← hc] at hd
    refine ⟨_, step_core_decode_error hd hphase, rfl, rfl, ?_, rfl⟩
    rw [State.raise_errcode, classOf_decode_error hd]
    rfl

end Sys2Proof.Machine
end

section
/-! SUPPORT. The command words of the statements, sums of disjoint fields, are the encoder's words (30_encoding.md R59), so they
decode to the commands that the encoder writes with them. -/

namespace Sys2Proof.Machine

open Sys2Proof.Claims

theorem mBit_eq_bit (m : Modulus) : mBit m = m.bit := by cases m <;> rfl

section
variable {op m f1 f2 f3 d : Nat} {imm : BitVec 16}

theorem cmdWord_eq_assemble (hop : op < 64) (hm : m < 2) (h1 : f1 < 16) (h2 : f2 < 16) (h3 : f3 < 16) (hd : d < 4) :
    cmdWord op m f1 f2 f3 d = assemble op m f1 f2 f3 d := by
  refine BitVec.eq_of_toNat_eq ?_
  rw [assemble_toNat op m f1 f2 f3 d hop hm h1 h2 h3 hd, cmdWord, BitVec.toNat_ofNat, Nat.mod_eq_of_lt (by omega)]

theorem immWord_eq_assembleImm (hop : op < 64) (hm : m < 2) (h1 : f1 < 16) (h2 : f2 < 16) :
    immWord op m f1 f2 imm.toNat = assembleImm op m f1 f2 imm := by
  have hi := imm.isLt
  refine BitVec.eq_of_toNat_eq ?_
  rw [assembleImm_toNat op m f1 f2 imm hop hm h1 h2, immWord, BitVec.toNat_ofNat, Nat.mod_eq_of_lt (by omega)]

end

section
variable {i : Instr} {op : Nat} {f1 f2 f3 : Fin 16} {m : Modulus} (hw : i.wellFormed = true) (hop : op < 64)
include hw hop

/-- A command of the field family decodes from its word (30_encoding.md R62). -/
theorem decode_fieldWord (he : encode i = assemble op m.bit f1 f2 f3 0) : decode (cmdWord op (mBit m) f1 f2 f3 0) = .ok i := by
  rw [mBit_eq_bit, cmdWord_eq_assemble hop m.bit_lt f1.isLt f2.isLt f3.isLt (by omega), ← he]
  exact decodeOfEncode i hw

theorem decode_fieldImmWord {imm : BitVec 16} (he : encode i = assembleImm op m.bit f1 f2 imm) :
    decode (immWord op (mBit m) f1 f2 imm.toNat) = .ok i := by
  rw [mBit_eq_bit, immWord_eq_assembleImm hop m.bit_lt f1.isLt f2.isLt, ← he]
  exact decodeOfEncode i hw

end

end Sys2Proof.Machine
end

section
/-! SUPPORT. Inv (40_field.md R76) and the field family (R70 to R86): the inverse is the unique one, and the three ways a field
command ends, each stated once for every command of the family. -/

namespace Sys2Proof.Machine

open Sys2Proof.Claims

/-! ## The inverse -/

theorem emod_eq_one_iff (z : Int) {M : Nat} (h : 2 ≤ M) : z % (M : Int) = 1 ↔ (M : Int) ∣ z - 1 := by
  rw [Int.dvd_iff_emod_eq_zero, ← Int.emod_eq_emod_iff_emod_sub_eq_zero, Int.emod_eq_of_lt (a := 1) (by omega) (by omega)]

/-- Two canonical residues that multiply a to 1 are one: `b' - b = b' (1 - a b) + b (a b' - 1)`. -/
theorem inverse_unique {a : Int} {M b b' : Nat} (hb : b < M) (hb' : b' < M) (h : (M : Int) ∣ a * b - 1)
    (h' : (M : Int) ∣ a * b' - 1) : b' = b := by
  have hd : (M : Int) ∣ b - b' := by
    have e : (b : Int) - b' = b' * (a * b - 1) - b * (a * b' - 1) := by ring
    rw [e]
    exact dvd_sub (h.mul_left _) (h'.mul_left _)
  exact (Nat.modEq_iff_dvd.mpr hd).eq_of_lt_of_lt hb' hb

/-- Settles O34: the extended Euclid recurrence answers an inverse where the gcd is 1, and it is below M, so it is the only
one. -/
theorem inverseIsCorrect : Obligations.InverseIsCorrect := by
  intro a M hM
  have hpos : 0 < M := by omega
  have hnone : inv a M = none ↔ Int.gcd a M ≠ 1 := by rw [inv_eq_none_iff, modp_gcd a M hpos]
  refine ⟨hnone.mpr, fun hg => ?_⟩
  obtain ⟨b, hb⟩ := Option.ne_none_iff_exists'.mp fun hn => hnone.mp hn hg
  have hlt := inv_lt a M b hpos hb
  have hdvd := inv_mul a M b hpos hb
  have hone := (emod_eq_one_iff (a * b) hM).mpr hdvd
  have hb0 : b ≠ 0 := by
    rintro rfl
    simp at hone
  exact ⟨b, hb, by omega, hlt, hone, fun b' _ hlt' hone' => inverse_unique hlt hlt' hdvd ((emod_eq_one_iff _ hM).mp hone')⟩

/-- What Inv answers for a natural operand, as a register holds it (40_field.md R84, R85). -/
theorem inv_natCast (v : Nat) {M : Nat} (hM : 2 ≤ M) :
    (Nat.gcd v M ≠ 1 → inv v M = none) ∧
    (Nat.gcd v M = 1 → ∃ b, inv v M = some b ∧ 0 < b ∧ b < M ∧ v * b % M = 1) := by
  obtain ⟨hnone, hsome⟩ := inverseIsCorrect v M hM
  rw [Int.gcd_natCast_natCast] at hnone hsome
  refine ⟨hnone, fun hg => ?_⟩
  obtain ⟨b, hb, hpos, hlt, hone, _⟩ := hsome hg
  exact ⟨b, hb, hpos, hlt, by exact_mod_cast hone⟩

/-! ## The modulus, the reads and the result of a field command -/

theorem modulusVal_eq (m : Modulus) (s : State) : modulusVal m s = s.prmVal (modReg m) := by cases m <;> rfl

theorem modulusReg_eq (m : Modulus) : modulusReg m = .prm (modReg m) := by cases m <;> rfl

theorem modOK_iff_goodModulus (M : Nat) : modOK M = true ↔ goodModulus M := modOK_iff M

theorem two_le_of_goodModulus {M : Nat} (h : goodModulus M) : 2 ≤ M := le_trans (by decide) h.2

/-- A read of registers that are all written leaves no record (10_state.md R21; log 2). -/
theorem State.noteReads_of_readable {s : State} {l : List RegName} (h : readable s l) : s.noteReads l = s := by
  have hl : (l.any fun r => !s.regWritten r) = false := List.any_eq_false.mpr fun r hr => by simp [h r hr]
  rw [State.noteReads, hl, Bool.or_false]

/-- A completed write of X[rd] changes nothing else (10_state.md R21, 60_exceptions.md R142). -/
theorem State.complete_setX_wroteX (s : State) (rd : XReg) {v : Nat} (hv : v < 2 ^ 512) :
    wroteX rd v s (s.setX rd v).complete :=
  ⟨⟨rfl, rfl, rfl, rfl, rfl⟩, s.setX_xVal_same rd v hv, by simp [State.regWritten],
    fun i hi => s.setX_other rd i v hi, rfl, rfl, fun _ => rfl,
    ⟨rfl, rfl, rfl, rfl, rfl, rfl⟩, ⟨rfl, rfl, rfl, rfl, rfl, rfl, rfl, rfl, rfl, rfl, rfl, rfl, rfl⟩⟩

/-! ## The three ways a field command ends -/

section
variable {i : Instr} {m : Modulus} {rd : XReg} {srcs : List XReg} {f : Nat → Except Cause Nat} {s : State}
  (hi : exec i s = fieldCommand m rd srcs f s)
include hi

/-- With a bad modulus: MODULUS (40_field.md R71). -/
theorem leads_badModulus (hm : ¬ goodModulus (modulusVal m s)) (hr : readable s [modulusReg m]) :
    leads i s (failed 2 0x10 s) := by
  rw [modulusVal_eq, ← modOK_iff_goodModulus] at hm
  rw [modulusReg_eq] at hr
  refine ⟨s.raise .modulus, ?_, s.raise_failed .modulus⟩
  rw [hi, fieldCommand, if_neg hm, State.noteReads_of_readable hr]

variable (hm : goodModulus (modulusVal m s)) (hr : readable s (modulusReg m :: srcs.map .x))
include hm hr

/-- With a good modulus and written sources: the result of the computation, or its error (40_field.md R72, R75). -/
theorem exec_goodModulus : exec i s = .next (s.finishX rd (f (modulusVal m s))) := by
  rw [modulusVal_eq, ← modOK_iff_goodModulus] at hm
  rw [modulusReg_eq] at hr
  rw [hi, fieldCommand, if_pos hm, State.noteReads_of_readable hr, modulusVal_eq]

theorem leads_residue {v : Nat} (hf : f (modulusVal m s) = .ok v) (hv : v < modulusVal m s) : leads i s (wroteX rd v s) := by
  refine ⟨(s.setX rd v).complete, ?_, s.complete_setX_wroteX rd (hv.trans ?_)⟩
  · rw [exec_goodModulus hi hm hr, hf, State.finishX_ok]
  · rw [modulusVal_eq]
    exact s.prmVal_lt _

theorem leads_notInvertible (hf : f (modulusVal m s) = .error .notInvertible) : leads i s (failed 4 0x30 s) := by
  refine ⟨s.raise .notInvertible, ?_, s.raise_failed .notInvertible⟩
  rw [exec_goodModulus hi hm hr, hf, State.finishX_error]

end

/-- A command that writes a residue and needs no inverse follows the rule of the family. -/
theorem fieldRule_of_residue {i : Instr} {m : Modulus} {rd : XReg} {srcs : List XReg} {g : Nat → Nat} {s : State}
    (hi : exec i s = fieldCommand m rd srcs (fun M => .ok (g M)) s) (hg : ∀ M, 0 < M → g M < M) :
    fieldRule i m rd (srcs.map .x) s (g (modulusVal m s)) := by
  refine ⟨leads_badModulus hi, fun hm hr => leads_residue hi hm hr rfl (hg _ ?_)⟩
  exact Nat.zero_lt_of_lt (two_le_of_goodModulus hm)

/-! ## The obligations on the field family -/

/-- Settles O39: each of the three is a field command that writes a residue. -/
theorem fieldAddSubMul : Obligations.FieldAddSubMul := by
  intro m rd ra rb s
  refine ⟨⟨decode_fieldWord rfl (by decide) rfl, ?_⟩, ⟨decode_fieldWord rfl (by decide) rfl, ?_⟩,
    ⟨decode_fieldWord rfl (by decide) rfl, ?_⟩⟩
  · exact fieldRule_of_residue (srcs := [ra, rb]) (g := fun M => (s.xVal ra + s.xVal rb) % M) rfl fun _ => Nat.mod_lt _
  · exact fieldRule_of_residue (srcs := [ra, rb]) (g := modp (s.xVal ra - s.xVal rb)) rfl (modp_lt _)
  · exact fieldRule_of_residue (srcs := [ra, rb]) (g := fun M => s.xVal ra * s.xVal rb % M) rfl fun _ => Nat.mod_lt _

/-- Settles O40: each of the four is a field command that writes a residue. -/
theorem fieldUnary : Obligations.FieldUnary := by
  intro m rd ra imm s
  refine ⟨⟨decode_fieldWord (f3 := 0) rfl (by decide) rfl, ?_⟩, ⟨decode_fieldWord (f3 := 0) rfl (by decide) rfl, ?_⟩,
    ⟨decode_fieldImmWord rfl (by decide) rfl, ?_⟩, ⟨decode_fieldWord (f3 := 0) rfl (by decide) rfl, ?_⟩⟩
  · exact fieldRule_of_residue (srcs := [ra]) (g := fun M => s.xVal ra * s.xVal ra % M) rfl fun _ => Nat.mod_lt _
  · exact fieldRule_of_residue (srcs := [ra]) (g := modp (0 - s.xVal ra)) rfl (modp_lt _)
  · exact fieldRule_of_residue (srcs := [ra]) (g := fun M => s.xVal ra * imm.toNat % M) rfl fun _ => Nat.mod_lt _
  · exact fieldRule_of_residue (srcs := [ra]) (g := fun M => s.xVal ra % M) rfl fun _ => Nat.mod_lt _

/-- MINV and MDIV are field commands (40_field.md R84, R85). -/
theorem exec_minv (m : Modulus) (rd ra : XReg) (s : State) :
    exec (.minv m rd ra) s = fieldCommand m rd [ra] (fun M => orNotInvertible (inv (s.xVal ra) M)) s := rfl

theorem exec_mdiv (m : Modulus) (rd ra rb : XReg) (s : State) : exec (.mdiv m rd ra rb) s =
    fieldCommand m rd [ra, rb] (fun M => orNotInvertible ((inv (s.xVal rb) M).map (fun b => s.xVal ra * b % M))) s := rfl

/-- Settles O41: both are field commands, and Inv answers exactly where the gcd is 1. -/
theorem fieldInverseDivide : Obligations.FieldInverseDivide := by
  intro m rd ra rb s
  have hminv := exec_minv m rd ra s
  have hmdiv := exec_mdiv m rd ra rb s
  refine ⟨⟨decode_fieldWord (f3 := 0) rfl (by decide) rfl, decode_fieldWord rfl (by decide) rfl⟩,
    fun hm hr => ⟨leads_badModulus hminv hm hr, leads_badModulus hmdiv hm hr⟩, fun hm hr => ⟨fun hg => ?_, fun hg => ?_⟩,
    fun hm hr => ⟨fun hg => ?_, fun hg => ?_⟩⟩
  · have hn := (inv_natCast (s.xVal ra) (two_le_of_goodModulus hm)).1 hg
    exact leads_notInvertible hminv hm hr (by rw [hn, orNotInvertible_none])
  · obtain ⟨b, hb, hpos, hlt, hone⟩ := (inv_natCast (s.xVal ra) (two_le_of_goodModulus hm)).2 hg
    exact ⟨b, hpos, hlt, hone, leads_residue hminv hm hr (by rw [hb, orNotInvertible_some]) hlt⟩
  · have hn := (inv_natCast (s.xVal rb) (two_le_of_goodModulus hm)).1 hg
    exact leads_notInvertible hmdiv hm hr (by rw [hn, Option.map_none, orNotInvertible_none])
  · obtain ⟨b, hb, hpos, hlt, hone⟩ := (inv_natCast (s.xVal rb) (two_le_of_goodModulus hm)).2 hg
    refine ⟨b, hpos, hlt, hone, leads_residue hmdiv hm hr ?_ (Nat.mod_lt _ (by omega))⟩
    rw [hb, Option.map_some, orNotInvertible_some]

end Sys2Proof.Machine
end

section
/-! SUPPORT. Byte strings and their values (00_scope.md R12): the model's folds are the sums of the statements, and the bytes
of a value that fits read back as that value. -/

namespace Sys2Proof.Machine

open Sys2Proof.Claims

theorem leSum_cons (b : Byte) (bs : List Byte) : leSum (b :: bs) = b.toNat + 256 * leSum bs := by
  rw [leSum, List.length_cons, Finset.sum_range_succ', leSum, Finset.mul_sum, Nat.add_comm]
  simp only [List.getD_cons_zero, List.getD_cons_succ, pow_zero, mul_one]
  exact congrArg _ (Finset.sum_congr rfl fun j _ => by ring)

theorem le_eq_leSum (bs : List Byte) : le bs = leSum bs := by
  induction bs with
  | nil => rfl
  | cons b bs ih => rw [leSum_cons, ← ih]; rfl

/-- The two byte orders are each other's reverse. -/
theorem leSum_reverse (bs : List Byte) : leSum bs.reverse = beSum bs := by
  rw [leSum, beSum, List.length_reverse, ← Finset.sum_range_reflect]
  refine Finset.sum_congr rfl fun j hj => ?_
  have hj' := Finset.mem_range.mp hj
  rw [List.getD_eq_getElem?_getD, List.getElem?_reverse (by omega), List.getD_eq_getElem?_getD,
    show bs.length - 1 - (bs.length - 1 - j) = j by omega]

theorem be_eq_le_reverse (bs : List Byte) : be bs = le bs.reverse := by
  rw [be, le, List.foldr_reverse]
  simp only [Nat.mul_comm, Nat.add_comm]

theorem be_eq_beSum (bs : List Byte) : be bs = beSum bs := by rw [be_eq_le_reverse, le_eq_leSum, leSum_reverse]

theorem le_lt (bs : List Byte) : le bs < 2 ^ (8 * bs.length) := by
  induction bs with
  | nil => exact Nat.one_pos
  | cons b bs ih =>
    have hb := b.isLt
    have hc : le (b :: bs) = b.toNat + 256 * le bs := rfl
    rw [hc, List.length_cons, Nat.mul_succ, pow_add]
    omega

theorem be_lt (bs : List Byte) : be bs < 2 ^ (8 * bs.length) := by
  rw [be_eq_le_reverse, ← bs.length_reverse]
  exact le_lt _

theorem le_leBytes {v n : Nat} (h : v < 2 ^ (8 * n)) : le (leBytes v n) = v := by
  induction n generalizing v with
  | zero => exact (Nat.lt_one_iff.mp h).symm
  | succ n ih =>
    have hc : le (leBytes v (n + 1)) = v % 256 + 256 * le (leBytes (v / 256) n) := rfl
    have hq : v / 256 < 2 ^ (8 * n) := by
      rw [Nat.mul_succ, pow_add] at h
      omega
    rw [hc, ih hq, Nat.mod_add_div]

theorem be_beBytes {v n : Nat} (h : v < 2 ^ (8 * n)) : be (beBytes v n) = v := by
  rw [be_eq_le_reverse, beBytes, List.reverse_reverse, le_leBytes h]

end Sys2Proof.Machine
end

section
/-! SUPPORT. The register, transfer and configuration family (41_regmove.md R87 to R95): what each way to end a command gives,
and the shared bodies of the loads and of the stores by the checks they make. -/

namespace Sys2Proof.Machine

open Sys2Proof.Claims

/-! ## The commands by their shared bodies -/

theorem exec_xmov (rd ra : XReg) (s : State) :
    exec (.xmov rd ra) s = .next ((s.noteReads [.x ra]).finishX rd (.ok (s.xVal ra))) := rfl

theorem exec_xldi (rd : XReg) (imm : BitVec 16) (s : State) :
    exec (.xldi rd imm) s = .next (s.finishX rd (.ok imm.toNat)) := rfl

theorem exec_xcmp (ra rb : XReg) (s : State) :
    exec (.xcmp ra rb) s = .next ((s.noteReads [.x ra, .x rb]).finishResult (decide (s.xVal ra = s.xVal rb))) := rfl

theorem exec_ldbe (r : XReg) (k : DescSel) (s : State) : exec (.ldbe r k) s = loadBytes be r k s := rfl

theorem exec_ldle (r : XReg) (k : DescSel) (s : State) : exec (.ldle r k) s = loadBytes le r k s := rfl

theorem exec_stbe (r : XReg) (k : DescSel) (s : State) : exec (.stbe r k) s = storeBytes beBytes r k s := rfl

theorem exec_stle (r : XReg) (k : DescSel) (s : State) : exec (.stle r k) s = storeBytes leBytes r k s := rfl

/-! ## Words and endings -/

/-- A command with no `m` bit decodes from its word (30_encoding.md R62). -/
theorem decode_cmdWord {i : Instr} {op : Nat} {f1 f2 f3 : Fin 16} {k : DescSel} (hw : i.wellFormed = true) (hop : op < 64)
    (he : encode i = assemble op 0 f1 f2 f3 k) : decode (cmdWord op 0 f1 f2 f3 k) = .ok i := by
  rw [cmdWord_eq_assemble hop (by omega) f1.isLt f2.isLt f3.isLt k.isLt, ← he]
  exact decodeOfEncode i hw

/-- A completion without error writes nothing of its own (60_exceptions.md R142). -/
theorem State.complete_quiet (s : State) : quiet s s.complete :=
  ⟨⟨rfl, rfl, rfl, rfl, rfl⟩, ⟨rfl, rfl, rfl, fun _ => rfl⟩, ⟨rfl, rfl, rfl, rfl, rfl, rfl⟩,
    ⟨rfl, rfl, rfl, rfl, rfl, rfl, rfl, rfl, rfl, rfl, rfl, rfl, rfl⟩⟩

/-- A completed write of a byte string changes no other byte and nothing else (10_state.md R20, 60_exceptions.md R142). -/
theorem State.complete_writeBuf_wroteBuf (s : State) (o : Nat) (bs : List Byte) :
    wroteBuf o bs s (s.writeBuf o bs).complete := by
  have hread (a : Nat) : (s.writeBuf o bs).complete.buf.read a =
      if o ≤ a ∧ a < o + bs.length then bs[a - o]? else s.buf.read a :=
    s.buf.read_writeBytes o bs a
  refine ⟨⟨rfl, rfl, rfl, rfl, rfl⟩, fun j hj => ?_, fun a ha => ?_, rfl, rfl, rfl, ⟨rfl, rfl, rfl, rfl, rfl, rfl⟩,
    ⟨rfl, rfl, rfl, rfl, rfl, rfl, rfl, rfl, rfl, rfl, rfl, rfl, rfl⟩⟩
  · rw [hread, if_pos (by omega), Nat.add_sub_cancel_left]
  · rw [hread, if_neg ha]

theorem leads_finishX {i : Instr} {s : State} {rd : XReg} {v : Nat} (h : exec i s = .next (s.finishX rd (.ok v)))
    (hv : v < 2 ^ 512) : leads i s (wroteX rd v s) := ⟨_, h, s.complete_setX_wroteX rd hv⟩

theorem State.descOff_eq (s : State) (k : DescSel) : s.descOff k = off s k := rfl

theorem State.descLen_eq (s : State) (k : DescSel) : s.descLen k = len s k := rfl

theorem State.descOk_eq_false_iff {s : State} {k : DescSel} : s.descOk k = false ↔ 1024 < off s k + len s k :=
  decide_eq_false_iff_not.trans Nat.not_le

theorem State.descOk_of_within {s : State} {k : DescSel} (hd : off s k + len s k ≤ 1024) : ¬ s.descOk k = false :=
  mt State.descOk_eq_false_iff.mp (Nat.not_lt.mpr hd)

set_option exponentiation.threshold 512 in
/-- The value of at most 64 bytes fits an X register. -/
theorem lt_of_fits_64_bytes {v n : Nat} (h : v < 2 ^ (8 * n)) (hn : n ≤ 64) : v < 2 ^ 512 :=
  h.trans_le (Nat.pow_le_pow_right (by decide) (by omega))

/-! ## The ways a load ends -/

section
variable {i : Instr} {value : List Byte → Nat} {r : XReg} {k : DescSel} {s : State} (hi : exec i s = loadBytes value r k s)
include hi

theorem leads_load_beyond (h : 1024 < off s k + len s k) : leads i s (failed 1 0x05 s) :=
  ⟨_, by rw [hi, loadBytes, if_pos (State.descOk_eq_false_iff.mpr h)], s.raise_failed .descRange⟩

variable (hd : off s k + len s k ≤ 1024)
include hd

theorem leads_load_long (h : 64 < len s k) : leads i s (failed 3 0x22 s) :=
  ⟨_, by rw [hi, loadBytes, if_neg (State.descOk_of_within hd), State.descLen_eq, if_pos h], s.raise_failed .width⟩

/-- A load of written bytes writes their value, which fits where every value is bounded by its length. -/
theorem leads_load_written (hl : len s k ≤ 64) (hv : ∀ bs, value bs < 2 ^ (8 * bs.length)) {bs : List Byte}
    (hn : bs.length = len s k) (hb : bufHolds s (off s k) bs) : leads i s (wroteX r (value bs) s) := by
  have hr : s.descBytes k = .ok bs := by
    rw [← readBytes_of_bufHolds hb, hn]
    rfl
  refine leads_finishX ?_ (lt_of_fits_64_bytes (hv bs) (hn ▸ hl))
  rw [hi, loadBytes, if_neg (State.descOk_of_within hd), State.descLen_eq, if_neg (Nat.not_lt.mpr hl), hr]

end

/-! ## The ways a store ends -/

section
variable {i : Instr} {bytes : Nat → Nat → List Byte} {r : XReg} {k : DescSel} {s : State}
  (hi : exec i s = storeBytes bytes r k s)
include hi

theorem leads_store_beyond (h : 1024 < off s k + len s k) : leads i s (failed 1 0x05 s) :=
  ⟨_, by rw [hi, storeBytes, if_pos (State.descOk_eq_false_iff.mpr h)], s.raise_failed .descRange⟩

variable (hd : off s k + len s k ≤ 1024)
include hd

theorem leads_store_long (h : 64 < len s k) : leads i s (failed 3 0x22 s) :=
  ⟨_, by rw [hi, storeBytes, if_neg (State.descOk_of_within hd), State.descLen_eq, if_pos h], s.raise_failed .width⟩

variable (hl : len s k ≤ 64) (hr : readable s [.x r])
include hl hr

theorem leads_store_wide (h : 2 ^ (8 * len s k) ≤ s.xVal r) : leads i s (failed 3 0x23 s) := by
  refine ⟨_, ?_, s.raise_failed .valueWide⟩
  rw [hi, storeBytes, if_neg (State.descOk_of_within hd), State.descLen_eq, if_neg (Nat.not_lt.mpr hl), if_pos h,
    State.noteReads_of_readable hr]

theorem leads_store_fits (h : s.xVal r < 2 ^ (8 * len s k)) :
    leads i s (wroteBuf (off s k) (bytes (s.xVal r) (len s k)) s) := by
  refine ⟨_, ?_, s.complete_writeBuf_wroteBuf _ _⟩
  rw [hi, storeBytes, if_neg (State.descOk_of_within hd), State.descLen_eq, if_neg (Nat.not_lt.mpr hl),
    if_neg (Nat.not_le.mpr h), State.descOff_eq, State.noteReads_of_readable hr]

end

/-! ## CFGCHK -/

/-- Every failure of CFGCHK is a ConfigurationError (41_regmove.md R95). -/
theorem classOf_configCheck {s : State} {c : Cause} (h : s.configCheck = some c) : classOf c = .configurationError := by
  simp only [State.configCheck] at h
  split_ifs at h <;> cases h <;> rfl

/-! ## The obligations on the register, transfer and configuration family -/

/-- Settles O42: XMOV and XLDI end in a write of X[rd], XCMP in a write of RESULT. -/
theorem registerMoves : Obligations.RegisterMoves := by
  intro rd ra rb imm s
  refine ⟨⟨decode_cmdWord (f3 := 0) (k := 0) rfl (by decide) rfl, fun hr => ?_⟩,
    ⟨decode_fieldImmWord (m := .p) (f2 := 0) rfl (by decide) rfl, ?_⟩,
    ⟨decode_cmdWord (f1 := 0) (k := 0) rfl (by decide) rfl, fun hr => ⟨decide (s.xVal ra = s.xVal rb), ?_, ?_⟩⟩⟩
  · exact leads_finishX (by rw [exec_xmov, State.noteReads_of_readable hr]) (s.xVal_lt ra)
  · exact leads_finishX (exec_xldi rd imm s) (lt_of_fits_64_bytes (n := 2) imm.isLt (by decide))
  · rw [decide_eq_true_iff]
    exact BitVec.toNat_inj
  · exact ⟨_, by rw [exec_xcmp, State.noteReads_of_readable hr, State.finishResult], State.complete_quiet _⟩

/-- Settles O44: LDBE and LDLE are one load, with the two values of a byte string. -/
theorem bufferLoads : Obligations.BufferLoads := by
  intro r k s
  have hbe := exec_ldbe r k s
  have hle := exec_ldle r k s
  refine ⟨⟨decode_cmdWord (f2 := 0) (f3 := 0) rfl (by decide) rfl, decode_cmdWord (f2 := 0) (f3 := 0) rfl (by decide) rfl⟩,
    fun h => ⟨leads_load_beyond hbe h, leads_load_beyond hle h⟩,
    fun hd h => ⟨leads_load_long hbe hd h, leads_load_long hle hd h⟩, fun hd hl bs hn hb => ?_⟩
  rw [← be_eq_beSum, ← le_eq_leSum]
  exact ⟨leads_load_written hbe hd hl be_lt hn hb, leads_load_written hle hd hl le_lt hn hb⟩

/-- Settles O45: STBE and STLE are one store, with the two byte strings of a value, each of which has that value. -/
theorem bufferStores : Obligations.BufferStores := by
  intro r k s
  have hbe := exec_stbe r k s
  have hle := exec_stle r k s
  refine ⟨⟨decode_cmdWord (f2 := 0) (f3 := 0) rfl (by decide) rfl, decode_cmdWord (f2 := 0) (f3 := 0) rfl (by decide) rfl⟩,
    fun h => ⟨leads_store_beyond hbe h, leads_store_beyond hle h⟩,
    fun hd h => ⟨leads_store_long hbe hd h, leads_store_long hle hd h⟩,
    fun hd hl hr => ⟨fun h => ⟨leads_store_wide hbe hd hl hr h, leads_store_wide hle hd hl hr h⟩, fun h => ⟨?_, ?_⟩⟩⟩
  · exact ⟨_, beBytes_length _ _, by rw [← be_eq_beSum, be_beBytes h], leads_store_fits hbe hd hl hr h⟩
  · exact ⟨_, leBytes_length _ _, by rw [← le_eq_leSum, le_leBytes h], leads_store_fits hle hd hl hr h⟩

/-- Settles O46: CFGCHK ends by the model's first failing check, whose CAUSE is the one of `firstConfigFailure`. -/
theorem configurationCheck : Obligations.ConfigurationCheck := by
  refine ⟨decode_cmdWord (f1 := 0) (f2 := 0) (f3 := 0) (k := 0) rfl (by decide) rfl, fun s hr => ?_⟩
  have hnote : s.noteReads curveRegs = s := State.noteReads_of_readable hr
  refine ⟨_, (firstConfigFailure_iff s _).mpr rfl, ?_⟩
  cases hc : s.configCheck with
  | none => exact ⟨_, by rw [exec_cfgchk_pass s hc, hnote], State.complete_quiet _⟩
  | some c =>
    have hf := State.raise_failed { s with cfgok := false } c
    rw [classOf_configCheck hc] at hf
    exact ⟨_, by rw [exec_cfgchk_fail s c hc, hnote], hf⟩

end Sys2Proof.Machine
end

section
/-! SUPPORT. The curve family's loads, moves and test (42_curve.md R104 to R109, R114), and the check of CFGOK that every command
needing the configuration makes first (42_curve.md R96, 43_codec.md R115, 44_signature.md R121). -/

namespace Sys2Proof.Machine

open Sys2Proof.Claims

theorem leads_mono {i : Instr} {s : State} {P Q : State → Prop} (h : leads i s P) (hpq : ∀ t, P t → Q t) : leads i s Q := by
  obtain ⟨t, ht, hp⟩ := h
  exact ⟨t, ht, hpq t hp⟩

/-- The number of a point register as a 4-bit field of a command word, whose bit 3 is then 0 (30_encoding.md R60). -/
def pointField (j : QReg) : Fin 16 := j.castLE (by decide)

/-! ## Writes of a point register -/

set_option exponentiation.threshold 512 in
/-- A completed write of Q[qd] changes nothing else (10_state.md R21, 60_exceptions.md R142). -/
theorem State.complete_setQ_wroteQ (s : State) (qd : QReg) {x y : Nat} (inf : Bool) (hx : x < 2 ^ 512) (hy : y < 2 ^ 512) :
    wroteQ qd x y inf s (s.setQ qd x y inf).complete := by
  have hq : (s.setQ qd x y inf).complete.q[qd] = .written x y inf := s.setQ_same qd x y inf
  have hholds : holdsQ qd x y inf s (s.setQ qd x y inf).complete := by
    refine ⟨?_, ?_, ?_, ?_, fun j hj => s.setQ_other qd j x y inf hj⟩
    · rw [hq, PointReg.written, WideReg.written_val x hx]
    · rw [hq, PointReg.written, WideReg.written_val y hy]
    · rw [hq, PointReg.written]
    · rw [State.regWritten, hq, PointReg.written, PointReg.isWritten, WideReg.written_isWritten, WideReg.written_isWritten]
      rfl
  exact ⟨⟨rfl, rfl, rfl, rfl, rfl⟩, hholds, rfl, rfl, fun _ => rfl, ⟨rfl, rfl, rfl, rfl, rfl, rfl⟩,
    ⟨rfl, rfl, rfl, rfl, rfl, rfl, rfl, rfl, rfl, rfl, rfl, rfl, rfl⟩⟩

set_option exponentiation.threshold 512 in
theorem leads_setQ {i : Instr} {s : State} {qd : QReg} {x y : Nat} {inf : Bool}
    (h : exec i s = .next (s.setQ qd x y inf).complete) (hx : x < 2 ^ 512) (hy : y < 2 ^ 512) :
    leads i s (wroteQ qd x y inf s) := ⟨_, h, s.complete_setQ_wroteQ qd inf hx hy⟩

set_option exponentiation.threshold 512 in
/-- The raw coordinate that PGETX and PGETY give fits an X register (42_curve.md R107, R108). -/
theorem rawCoordinate_lt (inf : Bool) (v : Wide) : (if inf = true then 0 else v.toNat) < 2 ^ 512 := by
  split
  · exact Nat.two_pow_pos 512
  · exact v.isLt

/-! ## The commands that need no configuration -/

set_option exponentiation.threshold 512 in
/-- PINF writes the identity (42_curve.md R104). -/
theorem leads_pinf (qd : QReg) (s : State) : leads (.pinf qd) s (wroteQ qd 0 0 true s) :=
  leads_setQ rfl (Nat.two_pow_pos 512) (Nat.two_pow_pos 512)

section
variable {s : State} {qa : QReg} (hr : readable s [.q qa])
include hr

theorem leads_pgetx (rd : XReg) :
    leads (.pgetx rd qa) s (wroteX rd (if s.q[qa].inf = true then 0 else s.q[qa].x.val.toNat) s) := by
  refine leads_finishX ?_ (rawCoordinate_lt _ _)
  rw [exec, execPgetx, State.noteReads_of_readable hr]

theorem leads_pgety (rd : XReg) :
    leads (.pgety rd qa) s (wroteX rd (if s.q[qa].inf = true then 0 else s.q[qa].y.val.toNat) s) := by
  refine leads_finishX ?_ (rawCoordinate_lt _ _)
  rw [exec, execPgety, State.noteReads_of_readable hr]

set_option exponentiation.threshold 512 in
theorem leads_pmov (qd : QReg) :
    leads (.pmov qd qa) s (wroteQ qd s.q[qa].x.val.toNat s.q[qa].y.val.toNat s.q[qa].inf s) := by
  refine leads_setQ ?_ s.q[qa].x.val.isLt s.q[qa].y.val.isLt
  rw [exec, execPmov, State.noteReads_of_readable hr]

end

/-! ## CFGOK = 0 -/

theorem leads_cfgNotOk {i : Instr} {s : State} (h : exec i s = .next (s.raise .cfgNotOk)) : leads i s (failed 2 0x11 s) :=
  ⟨_, h, s.raise_failed .cfgNotOk⟩

/-- SIGN outside its loop starts (44_signature.md R126). -/
theorem execSign_of_not_signing {s : State} (ra : XReg) (h : signing s = none) : execSign ra s = startSign ra s := by
  unfold signing at h
  unfold execSign
  split at h
  case h_1 hp => rw [hp]
  case h_2 hp => rw [hp]
  all_goals cases h

/-- With its descriptors in range a command that needs the configuration raises CFG_NOT_OK before it reads anything. -/
theorem exec_notConfigured {i : Instr} {s : State} (hn : needsCfg i = true) (hc : s.cfgok = false) (hs : signing s = none)
    (hd : descsOk i s) : exec i s = .next (s.raise .cfgNotOk) := by
  have hk {k : DescSel} (h : k ∈ descsOf i) : ¬ s.descOk k = false := State.descOk_of_within (hd k h)
  have hall (h : descsOf i = [0, 1, 2]) : ¬ (s.descOk 0 = false ∨ s.descOk 1 = false ∨ s.descOk 2 = false) := by
    simp only [h, List.mem_cons] at hk
    exact not_or.mpr ⟨hk (.inl rfl), not_or.mpr ⟨hk (.inr (.inl rfl)), hk (.inr (.inr (.inl rfl)))⟩⟩
  cases i with
  | pgen | pset | padd | pdbl | pneg | pmul | pchk | pubk => exact if_pos hc
  | penc | pencle | pdec => exact (if_neg (hk (List.mem_singleton_self _))).trans (if_pos hc)
  | sign ra =>
    rw [exec, execSign_of_not_signing ra hs]
    exact (if_neg (hall rfl)).trans (if_pos hc)
  | verify => exact (if_neg (hall rfl)).trans (if_pos hc)
  | _ => cases hn

/-! ## CFGOK = 1 -/

section
variable {s : State} (hc : s.cfgok = true)
include hc

/-- PGEN writes the generator (42_curve.md R105). -/
theorem leads_pgen (qd : QReg) : leads (.pgen qd) s (wroteQ qd (s.prmVal .gx) (s.prmVal .gy) false s) :=
  leads_setQ (if_neg (ne_false_of_eq_true hc)) (s.prmVal_lt .gx) (s.prmVal_lt .gy)

section
variable {ra rb : XReg} (qd : QReg) (hr : readable s [.x ra, .x rb])
include hr

theorem leads_pset_coordRange (h : s.prmVal .p ≤ s.xVal ra ∨ s.prmVal .p ≤ s.xVal rb) :
    leads (.pset qd ra rb) s (failed 4 0x32 s) := by
  refine ⟨_, ?_, s.raise_failed .coordRange⟩
  rw [exec, execPset, if_neg (ne_false_of_eq_true hc), if_pos h, State.noteReads_of_readable hr]

theorem leads_pset_canonical (ha : s.xVal ra < s.prmVal .p) (hb : s.xVal rb < s.prmVal .p) :
    leads (.pset qd ra rb) s (wroteQ qd (s.xVal ra) (s.xVal rb) false s) := by
  refine leads_setQ ?_ (s.xVal_lt ra) (s.xVal_lt rb)
  rw [exec, execPset, if_neg (ne_false_of_eq_true hc), if_neg (by omega), State.noteReads_of_readable hr, State.finishQ_ok,
    State.setPoint_affine]

end

end

/-! ## PCHK -/

/-- The boolean that PCHK writes to RESULT (42_curve.md R114). -/
def State.pointTest (s : State) (qa : QReg) : Bool :=
  !s.q[qa].inf && decide (s.q[qa].x.val.toNat < s.prmVal .p) && decide (s.q[qa].y.val.toNat < s.prmVal .p)
    && onCurve s.curve s.q[qa].x.val.toNat s.q[qa].y.val.toNat

/-- A coordinate below p makes p positive, so that the model's curve equation is the one of the statements. -/
theorem State.pointTest_iff (s : State) (qa : QReg) : s.pointTest qa = true ↔
    s.q[qa].inf = false ∧ s.q[qa].x.val.toNat < s.prmVal .p ∧ s.q[qa].y.val.toNat < s.prmVal .p ∧
      onCurveAt s s.q[qa].x.val.toNat s.q[qa].y.val.toNat := by
  simp only [State.pointTest, Bool.and_eq_true, Bool.not_eq_true', decide_eq_true_iff, and_assoc]
  refine and_congr_right fun _ => and_congr_right fun hx => and_congr_right fun _ => ?_
  exact onCurve_iff_onCurveAt s _ _ (Nat.zero_lt_of_lt hx)

theorem leads_pchk {s : State} {qa : QReg} (hc : s.cfgok = true) (hr : readable s [.q qa]) :
    leads (.pchk qa) s (quiet { s with result := s.pointTest qa }) := by
  refine ⟨s.finishResult (s.pointTest qa), ?_, State.complete_quiet _⟩
  rw [exec, execPchk, if_neg (ne_false_of_eq_true hc), State.noteReads_of_readable hr, State.pointTest]

/-! ## The obligations on the configuration check and on the curve family's loads, moves and test -/

/-- Settles O38: the configuration is the first check after the descriptors, and the four commands that move values have none. -/
theorem configurationRequired : Obligations.ConfigurationRequired := by
  refine ⟨fun i s hn hc hs hd => leads_cfgNotOk (exec_notConfigured hn hc hs hd), fun s qd qa rd _ => ⟨?_, fun hr => ?_⟩⟩
  · exact leads_mono (leads_pinf qd s) fun _ h => h.1
  · simp only [List.forall_mem_cons]
    exact ⟨leads_mono (leads_pmov hr qd) fun _ h => h.1, leads_mono (leads_pgetx hr rd) fun _ h => h.1,
      leads_mono (leads_pgety hr rd) fun _ h => h.1, List.forall_mem_nil _⟩

/-- Settles O47: PINF, PGEN and PSET each end in a write of Q[qd] or in one of their checks. -/
theorem pointLoads : Obligations.PointLoads := by
  intro qd ra rb s
  exact ⟨⟨decode_cmdWord (f1 := pointField qd) (f2 := 0) (f3 := 0) (k := 0) rfl (by decide) rfl, leads_pinf qd s⟩,
    ⟨decode_cmdWord (f1 := pointField qd) (f2 := 0) (f3 := 0) (k := 0) rfl (by decide) rfl,
      fun hc => leads_cfgNotOk (if_pos hc), fun hc => leads_pgen hc qd⟩,
    ⟨decode_cmdWord (f1 := pointField qd) (k := 0) rfl (by decide) rfl,
      fun hc => leads_cfgNotOk (if_pos hc), fun hc hr => ⟨leads_pset_coordRange hc qd hr, leads_pset_canonical hc qd hr⟩⟩⟩

/-- Settles O48: PGETX and PGETY end in a write of X[rd], PMOV in a write of Q[qd]. -/
theorem pointMoves : Obligations.PointMoves := by
  intro qd qa rd s
  exact ⟨⟨decode_cmdWord (f2 := pointField qa) (f3 := 0) (k := 0) rfl (by decide) rfl,
    decode_cmdWord (f2 := pointField qa) (f3 := 0) (k := 0) rfl (by decide) rfl,
    decode_cmdWord (f1 := pointField qd) (f2 := pointField qa) (f3 := 0) (k := 0) rfl (by decide) rfl⟩,
    fun hr => ⟨leads_pgetx hr rd, leads_pgety hr rd, leads_pmov hr qd⟩⟩

/-- Settles O52: RESULT is the model's point test, which is the test of the rule. -/
theorem pointCheck : Obligations.PointCheck := by
  intro qa s
  exact ⟨decode_cmdWord (f1 := 0) (f2 := pointField qa) (f3 := 0) (k := 0) rfl (by decide) rfl,
    fun hc => leads_cfgNotOk (if_pos hc), fun hc hr => ⟨s.pointTest qa, s.pointTest_iff qa, leads_pchk hc hr⟩⟩

end Sys2Proof.Machine
end

section
/-! SUPPORT. The point codec family (43_codec.md R115 to R120): PENC and PENCLE as one encoder with two encodings of a point,
and what the decoder of PDEC answers on a prefix byte and two coordinate strings. -/

namespace Sys2Proof.Machine

open Sys2Proof.Claims

theorem leads_raise {i : Instr} {s : State} {c : Cause} (h : exec i s = .next (s.raise c)) :
    leads i s (failed (classCode (classOf c)).toNat (causeCode c).toNat s) := ⟨_, h, s.raise_failed c⟩

/-! ## Operands and coordinate widths -/

theorem State.bl_eq (s : State) : s.bl = s.bytelen.toNat := rfl

/-- The identity needs no canonical coordinates (42_curve.md R97). -/
theorem coordsOk_of_pt_infinity {s : State} {q : QReg} (h : pt s q = .infinity) : coordsOk s q := by
  unfold pt at h
  split at h
  case isTrue hinf => exact .inl hinf
  case isFalse => cases h

theorem State.ptRead_of_coordsOk {s : State} {q : QReg} (h : coordsOk s q) : s.ptRead q = .ok (pt s q) := by
  unfold State.ptRead pt
  obtain hinf | ⟨hx, hy⟩ := h
  · rw [if_pos hinf, if_pos hinf]
  · rw [if_neg (show ¬ (_ ∨ _) by omega), apply_ite Except.ok]

theorem State.ptRead_of_not_coordsOk {s : State} {q : QReg} (h : ¬ coordsOk s q) : s.ptRead q = .error .coordRange := by
  obtain ⟨hinf, hxy⟩ := not_or.mp h
  rw [State.ptRead, if_neg hinf, if_pos (by omega)]

/-- The prime of a checked configuration fits BL bytes (41_regmove.md R95). -/
theorem prime_lt_of_configOk {s : State} (hc : s.cfgok = true) (h : configOk s) : s.prmVal .p < 2 ^ (8 * s.bytelen.toNat) := by
  have hbl : s.bytelen.toNat = (Nat.size (s.prmVal .p) + 7) / 8 := by
    have hcheck := h hc
    simp only [firstConfigFailure, reduceCtorEq, and_false, false_or] at hcheck
    obtain ⟨_, hbl, _⟩ := hcheck
    exact hbl
  exact (Nat.lt_size_self _).trans_le (Nat.pow_le_pow_right (by decide) (by omega))

/-- Under a checked configuration the coordinates of an operand fit BL bytes. -/
theorem coordinates_fit {s : State} {q : QReg} {x y : Nat} (hc : s.cfgok = true) (h : configOk s) (hq : coordsOk s q)
    (hpt : pt s q = .affine x y) : x < 2 ^ (8 * s.bytelen.toNat) ∧ y < 2 ^ (8 * s.bytelen.toNat) := by
  have hp := prime_lt_of_configOk hc h
  obtain ⟨hx, hy⟩ := s.ptRead_canonical q _ (hpt ▸ State.ptRead_of_coordsOk hq)
  exact ⟨hx.trans hp, hy.trans hp⟩

theorem leBytes_zero (n : Nat) : leBytes 0 n = List.replicate n 0 := by
  induction n with
  | zero => rfl
  | succ n ih => rw [leBytes, Nat.zero_div, ih, List.replicate_succ]; rfl

/-! ## PENC and PENCLE -/

/-- The byte string of a point in PENC's form, which has none for the identity (43_codec.md R118). -/
def encodeBE (bl : Nat) : Point → Except Cause (List Byte)
  | .infinity => .error .identity
  | .affine x y => .ok (0x04 :: (beBytes x bl ++ beBytes y bl))

/-- The byte string of a point in PENCLE's form, the identity as zero bytes (43_codec.md R119). -/
def encodeLE (bl : Nat) : Point → Except Cause (List Byte)
  | .infinity => .ok (leBytes 0 bl ++ leBytes 0 bl)
  | .affine x y => .ok (leBytes x bl ++ leBytes y bl)

/-- The shared body of PENC and PENCLE: the checks of the descriptor, of CFGOK and of the length n, then the encoding of the
operand (43_codec.md R115, R116, R118, R119). -/
def encodeCommand (n : Nat) (enc : Point → Except Cause (List Byte)) (q : QReg) (k : DescSel) (s : State) : Out :=
  if s.descOk k = false then .next (s.raise .descRange)
  else if s.cfgok = false then .next (s.raise .cfgNotOk)
  else if s.descLen k ≠ n then .next (s.raise .length)
  else .next ((s.noteReads [.q q]).finishBuf (s.descOff k) (s.ptRead q >>= enc))

theorem exec_penc (q : QReg) (k : DescSel) (s : State) :
    exec (.penc q k) s = encodeCommand (1 + 2 * s.bl) (encodeBE s.bl) q k s := by
  rw [exec, execPenc, encodeCommand]
  rcases s.ptRead q with c | _ | ⟨x, y⟩ <;> rfl

theorem exec_pencle (q : QReg) (k : DescSel) (s : State) :
    exec (.pencle q k) s = encodeCommand (2 * s.bl) (encodeLE s.bl) q k s := by
  rw [exec, execPencle, encodeCommand]
  rcases s.ptRead q with c | _ | ⟨x, y⟩ <;> rfl

section
variable {i : Instr} {n : Nat} {enc : Point → Except Cause (List Byte)} {q : QReg} {k : DescSel} {s : State}
  (hi : exec i s = encodeCommand n enc q k s) (hd : off s k + len s k ≤ 1024)
include hi hd

theorem leads_encode_notConfigured (hc : s.cfgok = false) : leads i s (failed 2 0x11 s) :=
  leads_cfgNotOk (by rw [hi, encodeCommand, if_neg (State.descOk_of_within hd), if_pos hc])

variable (hc : s.cfgok = true)
include hc

theorem leads_encode_length (hl : len s k ≠ n) : leads i s (failed 3 0x20 s) := by
  refine leads_raise (c := .length) ?_
  rw [hi, encodeCommand, if_neg (State.descOk_of_within hd), if_neg (ne_false_of_eq_true hc), State.descLen_eq, if_pos hl]

variable (hl : len s k = n) (hr : readable s [.q q])
include hl hr

theorem exec_encode : exec i s = .next (s.finishBuf (off s k) (s.ptRead q >>= enc)) := by
  rw [hi, encodeCommand, if_neg (State.descOk_of_within hd), if_neg (ne_false_of_eq_true hc), State.descLen_eq,
    if_neg (not_not.mpr hl), State.noteReads_of_readable hr, State.descOff_eq]

theorem leads_encode_coordRange (hq : ¬ coordsOk s q) : leads i s (failed 4 0x32 s) := by
  refine leads_raise (c := .coordRange) ?_
  rw [exec_encode hi hd hc hl hr, State.ptRead_of_not_coordsOk hq]
  rfl

variable (hq : coordsOk s q)
include hq

theorem exec_encode_canonical : exec i s = .next (s.finishBuf (off s k) (enc (pt s q))) := by
  rw [exec_encode hi hd hc hl hr, State.ptRead_of_coordsOk hq]
  rfl

/-- A point without a byte string: IDENTITY (43_codec.md R118). -/
theorem leads_encode_identity (he : enc (pt s q) = .error .identity) : leads i s (failed 4 0x35 s) := by
  refine leads_raise (c := .identity) ?_
  rw [exec_encode_canonical hi hd hc hl hr hq, he, State.finishBuf]

theorem leads_encode_bytes {bs : List Byte} (he : enc (pt s q) = .ok bs) : leads i s (wroteBuf (off s k) bs s) := by
  refine ⟨_, ?_, s.complete_writeBuf_wroteBuf _ _⟩
  rw [exec_encode_canonical hi hd hc hl hr hq, he, State.finishBuf]

end

/-! ## PDEC -/

/-- DecodePoint on a string of the right length, split into its prefix byte and its coordinates (43_codec.md R117). -/
theorem State.decodePoint_cons_append {s : State} (b : Byte) {xb yb : List Byte} (hx : xb.length = s.bytelen.toNat)
    (hy : yb.length = s.bytelen.toNat) : s.decodePoint (b :: (xb ++ yb)) =
      if b ≠ 0x04 then .error .prefixByte
      else if s.prmVal .p ≤ beSum xb ∨ s.prmVal .p ≤ beSum yb then .error .coordRange
      else if onCurve s.curve (beSum xb) (beSum yb) then .ok (.affine (beSum xb) (beSum yb)) else .error .notOnCurve := by
  have hlen : (b :: (xb ++ yb)).length = 1 + 2 * s.bl := by
    rw [List.length_cons, List.length_append, hx, hy, State.bl_eq]
    omega
  have htake : ((b :: (xb ++ yb)).drop 1).take s.bl = xb := List.take_left' hx
  have hdrop : (b :: (xb ++ yb)).drop (1 + s.bl) = yb := by
    rw [Nat.add_comm]
    exact List.drop_left' hx
  simp only [State.decodePoint, hlen, htake, hdrop, be_eq_beSum, List.head?_cons, Option.some.injEq, ne_eq, not_true_eq_false,
    if_false]

section
variable {q : QReg} {k : DescSel} {s : State} (hd : off s k + len s k ≤ 1024) (hc : s.cfgok = true)
include hd hc

theorem leads_pdec_length (hl : len s k ≠ 1 + 2 * s.bytelen.toNat) : leads (.pdec q k) s (failed 3 0x20 s) := by
  refine leads_raise (c := .length) ?_
  rw [exec, execPdec, if_neg (State.descOk_of_within hd), if_neg (ne_false_of_eq_true hc), State.descLen_eq, State.bl_eq,
    if_pos hl]

variable (hl : len s k = 1 + 2 * s.bytelen.toNat)
include hl

theorem exec_pdec {bs : List Byte} (hn : bs.length = len s k) (hb : bufHolds s (off s k) bs) :
    exec (.pdec q k) s = .next (s.finishQ q (s.decodePoint bs)) := by
  have hr : s.descBytes k = .ok bs := by
    rw [← readBytes_of_bufHolds hb, hn]
    rfl
  rw [exec, execPdec, if_neg (State.descOk_of_within hd), if_neg (ne_false_of_eq_true hc), State.descLen_eq,
    State.bl_eq, if_neg (not_not.mpr hl), hr]

variable {b : Byte} {xb yb : List Byte} (hx : xb.length = s.bytelen.toNat) (hy : yb.length = s.bytelen.toNat)
  (hb : bufHolds s (off s k) (b :: (xb ++ yb)))
include hx hy hb

theorem exec_pdec_cons_append : exec (.pdec q k) s = .next (s.finishQ q (s.decodePoint (b :: (xb ++ yb)))) := by
  refine exec_pdec hd hc hl ?_ hb
  rw [List.length_cons, List.length_append, hx, hy, hl]
  omega

theorem leads_pdec_prefixByte (h4 : b ≠ 0x04) : leads (.pdec q k) s (failed 3 0x21 s) := by
  refine leads_raise (c := .prefixByte) ?_
  rw [exec_pdec_cons_append hd hc hl hx hy hb, State.decodePoint_cons_append b hx hy, if_pos h4, State.finishQ_error]

variable (h4 : b = 0x04)
include h4

theorem leads_pdec_coordRange (h : s.prmVal .p ≤ beSum xb ∨ s.prmVal .p ≤ beSum yb) :
    leads (.pdec q k) s (failed 4 0x32 s) := by
  refine leads_raise (c := .coordRange) ?_
  rw [exec_pdec_cons_append hd hc hl hx hy hb, State.decodePoint_cons_append b hx hy, if_neg (not_not.mpr h4), if_pos h,
    State.finishQ_error]

variable (hxp : beSum xb < s.prmVal .p) (hyp : beSum yb < s.prmVal .p)
include hxp hyp

/-- With every check but the last passed, PDEC ends by the curve equation (43_codec.md R117). -/
theorem exec_pdec_canonical : exec (.pdec q k) s = .next (s.finishQ q
    (if onCurve s.curve (beSum xb) (beSum yb) then .ok (.affine (beSum xb) (beSum yb)) else .error .notOnCurve)) := by
  rw [exec_pdec_cons_append hd hc hl hx hy hb, State.decodePoint_cons_append b hx hy, if_neg (not_not.mpr h4),
    if_neg (show ¬ (_ ∨ _) by omega)]

theorem leads_pdec_notOnCurve (h : ¬ onCurveAt s (beSum xb) (beSum yb)) : leads (.pdec q k) s (failed 4 0x31 s) := by
  refine leads_raise (c := .notOnCurve) ?_
  rw [exec_pdec_canonical hd hc hl hx hy hb h4 hxp hyp,
    if_neg (mt (onCurve_iff_onCurveAt s _ _ (Nat.zero_lt_of_lt hxp)).mp h), State.finishQ_error]

theorem leads_pdec_onCurve (h : onCurveAt s (beSum xb) (beSum yb)) :
    leads (.pdec q k) s (wroteQ q (beSum xb) (beSum yb) false s) := by
  refine leads_setQ ?_ (hxp.trans (s.prmVal_lt .p)) (hyp.trans (s.prmVal_lt .p))
  rw [exec_pdec_canonical hd hc hl hx hy hb h4 hxp hyp,
    if_pos ((onCurve_iff_onCurveAt s _ _ (Nat.zero_lt_of_lt hxp)).mpr h), State.finishQ_ok, State.setPoint_affine]

end

/-! ## The obligations on the point codec -/

/-- Settles O53: PENC and PENCLE are one encoder, and the strings of a coordinate below p < 2^(8·BL) have its value. -/
theorem pointEncoding : Obligations.PointEncoding := by
  intro q k s
  have hbe := exec_penc q k s
  have hle := exec_pencle q k s
  refine ⟨⟨decode_cmdWord (f1 := pointField q) (f2 := 0) (f3 := 0) rfl (by decide) rfl,
    decode_cmdWord (f1 := pointField q) (f2 := 0) (f3 := 0) rfl (by decide) rfl⟩,
    fun hd hc => ⟨leads_encode_notConfigured hbe hd hc, leads_encode_notConfigured hle hd hc⟩,
    fun hd hc hcfg => ⟨leads_encode_length hbe hd hc, leads_encode_length hle hd hc,
      fun hl hr => ⟨fun hpt => ?_, leads_encode_coordRange hbe hd hc hl hr, fun hq x y hpt => ?_⟩,
      fun hl hr => ⟨fun hpt => ?_, leads_encode_coordRange hle hd hc hl hr, fun hq x y hpt => ?_⟩⟩⟩
  · exact leads_encode_identity hbe hd hc hl hr (coordsOk_of_pt_infinity hpt) (by rw [hpt, encodeBE])
  · obtain ⟨hx, hy⟩ := coordinates_fit hc hcfg hq hpt
    exact ⟨_, _, beBytes_length _ _, beBytes_length _ _, by rw [← be_eq_beSum, be_beBytes hx],
      by rw [← be_eq_beSum, be_beBytes hy], leads_encode_bytes hbe hd hc hl hr hq (by rw [hpt, encodeBE, State.bl_eq])⟩
  · refine leads_encode_bytes hle hd hc hl hr (coordsOk_of_pt_infinity hpt) ?_
    rw [hpt, encodeLE, leBytes_zero, List.replicate_append_replicate, ← Nat.two_mul, State.bl_eq]
  · obtain ⟨hx, hy⟩ := coordinates_fit hc hcfg hq hpt
    exact ⟨_, _, leBytes_length _ _, leBytes_length _ _, by rw [← le_eq_leSum, le_leBytes hx],
      by rw [← le_eq_leSum, le_leBytes hy], leads_encode_bytes hle hd hc hl hr hq (by rw [hpt, encodeLE, State.bl_eq])⟩

/-- Settles O54: PDEC ends in the first check of DecodePoint that fails, or in a write of Q[q]. -/
theorem pointDecoding : Obligations.PointDecoding := by
  intro q k s
  exact ⟨decode_cmdWord (f1 := pointField q) (f2 := 0) (f3 := 0) rfl (by decide) rfl,
    fun hd hc => leads_cfgNotOk ((if_neg (State.descOk_of_within hd)).trans (if_pos hc)), fun hd hc => leads_pdec_length hd hc,
    fun hd hc hl b xb yb hx hy hb => ⟨leads_pdec_prefixByte hd hc hl hx hy hb,
      fun h4 => ⟨leads_pdec_coordRange hd hc hl hx hy hb h4, fun hxp hyp =>
        ⟨leads_pdec_notOnCurve hd hc hl hx hy hb h4 hxp hyp, leads_pdec_onCurve hd hc hl hx hy hb h4 hxp hyp⟩⟩⟩⟩

end Sys2Proof.Machine
end

section
/-! SUPPORT. The Edwards family (45_edwards.md R132 to R138): ComputeST check by check, the two conversions as equations in the
residues mod p, and the shared body of UV2XY and XY2UV by the checks it makes. -/

namespace Sys2Proof.Machine

open Sys2Proof.Claims

/-! ## Residues and inverses -/

theorem emod_eq_zero_iff_intCast (z : Int) (p : Nat) : z % (p : Int) = 0 ↔ (z : ZMod p) = 0 := by
  rw [ZMod.intCast_zmod_eq_zero_iff_dvd, Int.dvd_iff_emod_eq_zero]

theorem modp_modEq (z : Int) {p : Nat} (hp : 0 < p) : (modp z p : Int) ≡ z [ZMOD p] := by
  rw [modp_cast z p hp]
  exact Int.mod_modEq z p

/-- Inv reads its operand only mod M (40_field.md R76). -/
theorem inv_congr {a b : Int} {M : Nat} (h : a ≡ b [ZMOD M]) : inv a M = inv b M := by
  have hab : modp a M = modp b M := congrArg Int.toNat h
  rw [inv, inv, hab]

theorem exists_inv_mul_eq_one {a : Int} {p : Nat} (hp : 2 ≤ p) (h : Int.gcd a p = 1) :
    ∃ i, inv a p = some i ∧ (a : ZMod p) * i = 1 := by
  obtain ⟨i, hi, _⟩ := (inverseIsCorrect a p hp).2 h
  refine ⟨i, hi, sub_eq_zero.mp ?_⟩
  exact_mod_cast (ZMod.intCast_zmod_eq_zero_iff_dvd _ p).mpr (inv_mul a p i (by omega) hi)

theorem ne_zero_of_mul_eq_one {p : Nat} (hp : 2 ≤ p) {a b : ZMod p} (h : a * b = 1) : a ≠ 0 := by
  have : Fact (1 < p) := ⟨hp⟩
  exact left_ne_zero_of_mul_eq_one h

/-! ## ComputeST -/

section
variable {s : State}

theorem State.computeST_noEdwards (he : s.edw = false) : s.computeST = .error .noEdwards := if_pos he

variable (he : s.edw = true)
include he

theorem State.computeST_modulus (hm : ¬ goodModulus (s.prmVal .p)) : s.computeST = .error .modulus := by
  rw [← modOK_iff_goodModulus, Bool.not_eq_true] at hm
  simp only [State.computeST]
  rw [if_neg (ne_false_of_eq_true he), if_pos hm]

theorem State.memoReads_badModulus (hm : ¬ goodModulus (s.prmVal .p)) : s.memoReads = [.prm .p] := by
  rw [← modOK_iff_goodModulus, Bool.not_eq_true] at hm
  rw [State.memoReads, if_neg (ne_false_of_eq_true he), if_pos hm]

variable (hm : goodModulus (s.prmVal .p))
include hm

theorem State.memoReads_goodModulus : s.memoReads = memoRegs s := by
  rw [← modOK_iff_goodModulus] at hm
  rw [State.memoReads, if_neg (ne_false_of_eq_true he), if_neg (ne_false_of_eq_true hm), memoRegs]

theorem State.computeST_stored (hs : s.stv = true) : s.computeST = .ok ⟨s.prmVal .s, s.prmVal .t, false⟩ := by
  rw [← modOK_iff_goodModulus] at hm
  simp only [State.computeST]
  rw [if_neg (ne_false_of_eq_true he), if_neg (ne_false_of_eq_true hm), if_pos hs]

/-- An odd modulus has an inverse of 4, so with STV = 0 only the inverse of 6 can fail (45_edwards.md R134). -/
theorem State.computeST_divided (hs : s.stv = false) : ∃ i4 : Nat, (4 : ZMod (s.prmVal .p)) * i4 = 1 ∧
    s.computeST = orNotInvertible ((inv 6 (s.prmVal .p)).map fun i6 =>
      ⟨modp (((s.prmVal .e : Int) - s.prmVal .d) * i4) (s.prmVal .p),
        modp (((s.prmVal .e : Int) + s.prmVal .d) * i6) (s.prmVal .p), true⟩) := by
  have h4 : Nat.gcd 4 (s.prmVal .p) = 1 := (Nat.coprime_two_left.mpr (Nat.odd_iff.mpr hm.1)).pow_left 2
  obtain ⟨i4, hi4, hone⟩ := exists_inv_mul_eq_one (a := 4) (two_le_of_goodModulus hm) h4
  rw [← modOK_iff_goodModulus] at hm
  refine ⟨i4, by exact_mod_cast hone, ?_⟩
  simp only [State.computeST]
  rw [if_neg (ne_false_of_eq_true he), if_neg (ne_false_of_eq_true hm), if_neg (Bool.eq_false_iff.mp hs), hi4]
  cases inv 6 (s.prmVal .p) <;> rfl

theorem State.computeST_notInvertible (hs : s.stv = false) (h6 : Nat.gcd 6 (s.prmVal .p) ≠ 1) :
    s.computeST = .error .notInvertible := by
  obtain ⟨i4, _, hst⟩ := State.computeST_divided he hm hs
  rw [hst, (inverseIsCorrect 6 _ (two_le_of_goodModulus hm)).1 h6, Option.map_none, orNotInvertible_none]

/-- ComputeST answers the stored memo, or the only residues that solve its two divisions (45_edwards.md R134). -/
theorem State.computeST_of_memoIs {sv tv : Nat} (h : memoIs s sv tv) : s.computeST = .ok ⟨sv, tv, !s.stv⟩ := by
  obtain ⟨hstored, hdivided⟩ := h
  cases hs : s.stv with
  | true =>
    obtain ⟨rfl, rfl⟩ := hstored hs
    exact State.computeST_stored he hm hs
  | false =>
    obtain ⟨hsv, htv, h6, hs4, ht6⟩ := hdivided hs
    have hpos : 0 < s.prmVal .p := by omega
    obtain ⟨i4, hi4, hst⟩ := State.computeST_divided he hm hs
    obtain ⟨i6, hinv6, hi6⟩ := exists_inv_mul_eq_one (a := 6) (two_le_of_goodModulus hm) h6
    rw [emod_eq_zero_iff_intCast] at hs4 ht6
    push_cast at hs4 ht6 hi6
    have hsv' : modp (((s.prmVal .e : Int) - s.prmVal .d) * i4) (s.prmVal .p) = sv := by
      refine natCast_inj_of_lt _ _ _ (modp_lt _ _ hpos) hsv ?_
      push_cast [natCast_modp _ _ hpos]
      linear_combination (sv : ZMod (s.prmVal .p)) * hi4 - (i4 : ZMod (s.prmVal .p)) * hs4
    have htv' : modp (((s.prmVal .e : Int) + s.prmVal .d) * i6) (s.prmVal .p) = tv := by
      refine natCast_inj_of_lt _ _ _ (modp_lt _ _ hpos) htv ?_
      push_cast [natCast_modp _ _ hpos]
      linear_combination (tv : ZMod (s.prmVal .p)) * hi6 - (i6 : ZMod (s.prmVal .p)) * ht6
    rw [hst, hinv6, Option.map_some, orNotInvertible_some, hsv', htv', Bool.not_false]

end

/-! ## The formulas of UV2XY -/

section
variable {p : Nat} (m : Memo) {u v : Nat}

theorem inv_oneMinus (hp : 0 < p) (v : Nat) : inv (modp (1 - (v : Int)) p) p = inv (1 - (v : Int)) p :=
  inv_congr (modp_modEq _ hp)

theorem inv_mul_oneMinus (hp : 0 < p) (u v : Nat) :
    inv ((u : Int) * modp (1 - (v : Int)) p) p = inv ((u : Int) * (1 - v)) p :=
  inv_congr ((modp_modEq _ hp).mul_left u)

theorem edwardsToWeierstrass_notInvertible (hp : 2 ≤ p) (h : Int.gcd ((u : Int) * (1 - v)) p ≠ 1) :
    edwardsToWeierstrass p m u v = .error .notInvertible := by
  simp only [edwardsToWeierstrass, inv_mul_oneMinus (Nat.zero_lt_of_lt hp), (inverseIsCorrect _ p hp).1 h]
  split
  · rfl
  · cases inv (modp (1 - (v : Int)) p) p <;> rfl

/-- Where u·(1 - v) is invertible, both divisors are, and the formulas solve the conversion's equations (45_edwards.md R137). -/
theorem edwardsToWeierstrass_solves (hp : 2 ≤ p) (h : Int.gcd ((u : Int) * (1 - v)) p = 1) :
    ∃ x y, edwardsToWeierstrass p m u v = .ok (.affine x y) ∧ x < p ∧ y < p ∧
      (((x : Int) - m.t) * (1 - v) - m.s * (1 + v)) % (p : Int) = 0 ∧
      ((y : Int) * (u * (1 - v)) - m.s * (1 + v)) % (p : Int) = 0 := by
  have hpos : 0 < p := Nat.zero_lt_of_lt hp
  have h1v : Int.gcd (1 - (v : Int)) p = 1 :=
    Int.isCoprime_iff_gcd_eq_one.mp (Int.isCoprime_iff_gcd_eq_one.mpr h).of_mul_left_right
  obtain ⟨i, hi, hi1⟩ := exists_inv_mul_eq_one hp h1v
  obtain ⟨j, hj, hj1⟩ := exists_inv_mul_eq_one hp h
  have honev := natCast_modp (1 - (v : Int)) p hpos
  push_cast at honev hi1 hj1
  have hne : ¬ (modp (1 - (v : Int)) p = 0 ∨ u = 0) := by
    rintro (h0 | rfl)
    · exact ne_zero_of_mul_eq_one hp hi1 (by rw [← honev, h0, Nat.cast_zero])
    · exact ne_zero_of_mul_eq_one hp hj1 (by rw [Nat.cast_zero, zero_mul])
  have hxy : edwardsToWeierstrass p m u v =
      .ok (.affine ((m.t + m.s * (1 + v) % p * i) % p) (m.s * (1 + v) % p * j % p)) := by
    simp only [edwardsToWeierstrass, if_neg hne, inv_oneMinus hpos, inv_mul_oneMinus hpos, hi, hj]
  refine ⟨_, _, hxy, Nat.mod_lt _ hpos, Nat.mod_lt _ hpos, ?_, ?_⟩
  · rw [emod_eq_zero_iff_intCast]
    push_cast [ZMod.natCast_mod]
    linear_combination (m.s * (1 + v) : ZMod p) * hi1
  · rw [emod_eq_zero_iff_intCast]
    push_cast [ZMod.natCast_mod]
    linear_combination (m.s * (1 + v) : ZMod p) * hj1

end

/-! ## The formulas of XY2UV -/

section
variable {p : Nat} (m : Memo) {x y : Nat}

theorem inv_shift_add (hp : 0 < p) (x : Nat) :
    inv ((modp ((x : Int) - m.t) p : Int) + m.s) p = inv ((x : Int) - m.t + m.s) p :=
  inv_congr ((modp_modEq _ hp).add_right m.s)

theorem weierstrassToEdwards_notInvertible (hp : 2 ≤ p) (h : Nat.gcd y p ≠ 1 ∨ Int.gcd ((x : Int) - m.t + m.s) p ≠ 1) :
    weierstrassToEdwards p m x y = .error .notInvertible := by
  simp only [weierstrassToEdwards, inv_shift_add m (Nat.zero_lt_of_lt hp)]
  split
  · rfl
  · obtain hy | hxt := h
    · rw [(inv_natCast y hp).1 hy]
    · rw [(inverseIsCorrect _ p hp).1 hxt]
      cases inv y p <;> rfl

/-- Where both divisors are invertible, the formulas solve the conversion's equations (45_edwards.md R138). -/
theorem weierstrassToEdwards_solves (hp : 2 ≤ p) (hy : Nat.gcd y p = 1) (hxt : Int.gcd ((x : Int) - m.t + m.s) p = 1) :
    ∃ u v, weierstrassToEdwards p m x y = .ok (.affine u v) ∧ u < p ∧ v < p ∧
      ((u : Int) * y - (x - m.t)) % (p : Int) = 0 ∧
      ((v : Int) * (x - m.t + m.s) - (x - m.t - m.s)) % (p : Int) = 0 := by
  have hpos : 0 < p := Nat.zero_lt_of_lt hp
  obtain ⟨i, hi, hi1⟩ := exists_inv_mul_eq_one (a := y) hp hy
  obtain ⟨j, hj, hj1⟩ := exists_inv_mul_eq_one hp hxt
  have hshift := natCast_modp ((x : Int) - m.t) p hpos
  push_cast at hshift hi1 hj1
  have hne : ¬ (y = 0 ∨ (modp ((x : Int) - m.t) p + m.s) % p = 0) := by
    rintro (rfl | h0)
    · exact ne_zero_of_mul_eq_one hp hi1 Nat.cast_zero
    · exact ne_zero_of_mul_eq_one hp hj1 (by rw [← hshift, ← Nat.cast_add, ← ZMod.natCast_mod, h0, Nat.cast_zero])
  have huv : weierstrassToEdwards p m x y = .ok (.affine (modp ((x : Int) - m.t) p * i % p)
      (modp (((modp ((x : Int) - m.t) p : Int) - m.s) * j) p)) := by
    simp only [weierstrassToEdwards, if_neg hne, inv_shift_add m hpos, hi, hj]
  refine ⟨_, _, huv, Nat.mod_lt _ hpos, modp_lt _ _ hpos, ?_, ?_⟩
  · rw [emod_eq_zero_iff_intCast]
    push_cast [ZMod.natCast_mod, hshift]
    linear_combination (x - m.t : ZMod p) * hi1
  · rw [emod_eq_zero_iff_intCast]
    push_cast [natCast_modp _ _ hpos]
    linear_combination (x - m.t - m.s : ZMod p) * hj1

end

/-! ## The memo and the frame of a command that succeeds -/

section
variable (s : State) (m : Memo)

theorem State.writeMemo_q : (s.writeMemo m).q = s.q := by
  cases hw : m.write with
  | false => rw [State.writeMemo_skipped s hw]
  | true => rw [State.writeMemo_written s hw]; rfl

/-- The memo write changes no register but the parameter registers and no flag but STV, whatever the point registers then get
(45_edwards.md R134, 60_exceptions.md R142). -/
theorem edwardsFrame_writeMemo (q : Vector PointReg 8) : edwardsFrame s { s.writeMemo m with q := q }.complete := by
  have hframe (prm : Vector WideReg 10) (stv : Bool) : edwardsFrame s { s with prm := prm, stv := stv, q := q }.complete :=
    ⟨⟨rfl, rfl, rfl, rfl, rfl⟩, rfl, fun _ => rfl, rfl, rfl, rfl, rfl, rfl,
      ⟨rfl, rfl, rfl, rfl, rfl, rfl, rfl, rfl, rfl, rfl, rfl, rfl, rfl⟩⟩
  cases hw : m.write with
  | false =>
    rw [State.writeMemo_skipped s hw]
    exact hframe s.prm s.stv
  | true =>
    rw [State.writeMemo_written s hw]
    exact hframe _ true

end

/-- The memo write is the rule's: S, T and STV where STV was 0, and nothing where it was 1 (45_edwards.md R134, R135). -/
theorem memoWritten_writeMemo {s : State} {sv tv : Nat} (h : memoIs s sv tv) :
    memoWritten s (s.writeMemo ⟨sv, tv, !s.stv⟩) sv tv := by
  refine ⟨fun hs => ?_, fun hs => ?_⟩
  · rw [State.writeMemo_skipped s (by simp [hs])]
    exact ⟨rfl, hs⟩
  · obtain ⟨hsv, htv, _⟩ := h.2 hs
    have hw := State.writeMemo_written (m := ⟨sv, tv, !s.stv⟩) s (by simp [hs])
    have hS : (s.writeMemo ⟨sv, tv, !s.stv⟩).prmReg .s = .written sv := by
      rw [hw]
      exact (State.setPrm_other _ .t .s _ (by decide)).trans (State.setPrm_same _ .s _)
    have hT : (s.writeMemo ⟨sv, tv, !s.stv⟩).prmReg .t = .written tv := by
      rw [hw]
      exact State.setPrm_same _ .t _
    refine ⟨?_, ?_, ?_, ?_, by rw [hw], fun r => State.writeMemo_prmReg_other s _⟩
    · rw [State.prmVal, hS, WideReg.written_val sv (hsv.trans (s.prmVal_lt .p))]
    · rw [State.prmVal, hT, WideReg.written_val tv (htv.trans (s.prmVal_lt .p))]
    · rw [State.regWritten, hS, WideReg.written_isWritten]
    · rw [State.regWritten, hT, WideReg.written_isWritten]

/-! ## ComputeST's errors and STCOMP -/

/-- A command that first of all raises what ComputeST raises meets its errors (45_edwards.md R134). -/
theorem memoErrors_of_computeST {i : Instr} {s : State}
    (hi : ∀ c, s.computeST = .error c → exec i s = .next ((s.noteReads s.memoReads).raise c)) : memoErrors i s := by
  refine ⟨fun he => leads_raise (c := .noEdwards) ?_, fun he hm hr => leads_raise (c := .modulus) ?_,
    fun he hm hs h6 hr => leads_raise (c := .notInvertible) ?_⟩
  · have hreads : s.memoReads = [] := if_pos he
    rw [hi _ (State.computeST_noEdwards he), hreads, State.noteReads_nil]
  · rw [hi _ (State.computeST_modulus he hm), State.memoReads_badModulus he hm, State.noteReads_of_readable hr]
  · rw [hi _ (State.computeST_notInvertible he hm hs h6), State.memoReads_goodModulus he hm, State.noteReads_of_readable hr]

theorem memoErrors_stcomp (s : State) : memoErrors .stcomp s :=
  memoErrors_of_computeST fun c h => by rw [exec, execStcomp, h]

theorem leads_stcomp {s : State} {sv tv : Nat} (he : s.edw = true) (hm : goodModulus (s.prmVal .p))
    (hr : readable s (memoRegs s)) (h : memoIs s sv tv) :
    leads .stcomp s (fun t => edwardsFrame s t ∧ memoWritten s t sv tv ∧ t.q = s.q) := by
  refine ⟨(s.writeMemo ⟨sv, tv, !s.stv⟩).complete, ?_, edwardsFrame_writeMemo s _ (s.writeMemo _).q,
    memoWritten_writeMemo h, s.writeMemo_q _⟩
  rw [exec, execStcomp, State.computeST_of_memoIs he hm h, State.memoReads_goodModulus he hm, State.noteReads_of_readable hr]

/-! ## The shared body of UV2XY and XY2UV -/

/-- A conversion whose formulas gave a point, which is written together with the memo, or an error (45_edwards.md R134). -/
def State.finishConversion (m : Memo) (qd : QReg) (r : Except Cause Point) (s : State) : State :=
  match r with
  | .error c => s.raise c
  | .ok pt => ((s.writeMemo m).setPoint qd pt).complete

theorem coordinates_of_pt {s : State} {q : QReg} {x y : Nat} (h : pt s q = .affine x y) :
    ¬ s.q[q].inf = true ∧ s.q[q].x.val.toNat = x ∧ s.q[q].y.val.toNat = y := by
  unfold pt at h
  split at h
  case isTrue => cases h
  case isFalse hinf =>
    injection h with hx hy
    exact ⟨hinf, hx, hy⟩

section
variable {i : Instr} {f : Nat → Memo → Nat → Nat → Except Cause Point} {qd qa : QReg} {s : State}
  (hi : exec i s = convert f qd qa s)
include hi

theorem memoErrors_convert : memoErrors i s :=
  memoErrors_of_computeST fun c h => by rw [hi, convert, h]

variable (he : s.edw = true) (hm : goodModulus (s.prmVal .p)) (hr : readable s (.q qa :: memoRegs s)) {sv tv : Nat}
  (h : memoIs s sv tv)
include he hm hr h

/-- With ComputeST's answer and written registers, a conversion checks its operand and runs its formulas (45_edwards.md R137,
R138). -/
theorem exec_convert : exec i s = if s.q[qa].inf then .next (s.raise .identity)
    else if s.prmVal .p ≤ s.q[qa].x.val.toNat ∨ s.prmVal .p ≤ s.q[qa].y.val.toNat then .next (s.raise .coordRange)
    else .next (s.finishConversion ⟨sv, tv, !s.stv⟩ qd
      (f (s.prmVal .p) ⟨sv, tv, !s.stv⟩ s.q[qa].x.val.toNat s.q[qa].y.val.toNat)) := by
  rw [hi, convert, State.computeST_of_memoIs he hm h, State.memoReads_goodModulus he hm]
  simp only [State.noteReads_of_readable hr]
  cases f (s.prmVal .p) ⟨sv, tv, !s.stv⟩ s.q[qa].x.val.toNat s.q[qa].y.val.toNat <;> rfl

theorem leads_convert_identity (hinf : s.q[qa].inf = true) : leads i s (failed 4 0x35 s) := by
  refine leads_raise (c := .identity) ?_
  rw [exec_convert hi he hm hr h, if_pos hinf]

theorem leads_convert_coordRange (hq : ¬ coordsOk s qa) : leads i s (failed 4 0x32 s) := by
  obtain ⟨hinf, hxy⟩ := not_or.mp hq
  refine leads_raise (c := .coordRange) ?_
  rw [exec_convert hi he hm hr h, if_neg hinf, if_pos (by omega)]

variable (hq : coordsOk s qa) {a b : Nat} (hpt : pt s qa = .affine a b)
include hq hpt

theorem exec_convert_canonical :
    exec i s = .next (s.finishConversion ⟨sv, tv, !s.stv⟩ qd (f (s.prmVal .p) ⟨sv, tv, !s.stv⟩ a b)) := by
  obtain ⟨hinf, rfl, rfl⟩ := coordinates_of_pt hpt
  obtain ⟨hx, hy⟩ := hq.resolve_left hinf
  rw [exec_convert hi he hm hr h, if_neg hinf, if_neg (show ¬ (_ ∨ _) by omega)]

theorem leads_convert_notInvertible (hf : f (s.prmVal .p) ⟨sv, tv, !s.stv⟩ a b = .error .notInvertible) :
    leads i s (failed 4 0x30 s) := by
  refine leads_raise (c := .notInvertible) ?_
  rw [exec_convert_canonical hi he hm hr h hq hpt, hf, State.finishConversion]

theorem leads_convert_affine {x y : Nat} (hf : f (s.prmVal .p) ⟨sv, tv, !s.stv⟩ a b = .ok (.affine x y))
    (hx : x < s.prmVal .p) (hy : y < s.prmVal .p) :
    leads i s (fun t => edwardsFrame s t ∧ memoWritten s t sv tv ∧ holdsQ qd x y false s t) := by
  obtain ⟨_, ⟨hqx, hqy, hqinf, hqw, hother⟩, _⟩ := State.complete_setQ_wroteQ (s.writeMemo ⟨sv, tv, !s.stv⟩) qd false
    (hx.trans (s.prmVal_lt .p)) (hy.trans (s.prmVal_lt .p))
  refine ⟨_, ?_, edwardsFrame_writeMemo s ⟨sv, tv, !s.stv⟩ _, memoWritten_writeMemo h, hqx, hqy, hqinf, hqw, fun j hj => ?_⟩
  · rw [exec_convert_canonical hi he hm hr h hq hpt, hf, State.finishConversion, State.setPoint_affine]
    rfl
  · rw [← State.writeMemo_q s ⟨sv, tv, !s.stv⟩]
    exact hother j hj

end

theorem exec_uv2xy (qd qa : QReg) (s : State) : exec (.uv2xy qd qa) s = convert edwardsToWeierstrass qd qa s := rfl

theorem exec_xy2uv (qd qa : QReg) (s : State) : exec (.xy2uv qd qa) s = convert weierstrassToEdwards qd qa s := rfl

/-! ## The obligation on the Edwards family -/

/-- Settles O59: the errors are ComputeST's and then the shared checks of the conversions, and the formulas of each conversion
answer the solution of its equations exactly where its divisors are invertible. -/
theorem edwardsCommands : Obligations.EdwardsCommands := by
  intro qd qa s
  have huv := exec_uv2xy qd qa s
  have hxy := exec_xy2uv qd qa s
  refine ⟨⟨decode_cmdWord (f1 := 0) (f2 := 0) (f3 := 0) (k := 0) rfl (by decide) rfl,
    decode_cmdWord (f1 := pointField qd) (f2 := pointField qa) (f3 := 0) (k := 0) rfl (by decide) rfl,
    decode_cmdWord (f1 := pointField qd) (f2 := pointField qa) (f3 := 0) (k := 0) rfl (by decide) rfl⟩,
    ⟨memoErrors_stcomp s, memoErrors_convert huv, memoErrors_convert hxy⟩,
    fun he hm hr sv tv h => leads_stcomp he hm hr h, fun he hm hr sv tv h =>
      ⟨fun hinf => ⟨leads_convert_identity huv he hm hr h hinf, leads_convert_identity hxy he hm hr h hinf⟩,
      fun hq => ⟨leads_convert_coordRange huv he hm hr h hq, leads_convert_coordRange hxy he hm hr h hq⟩,
      fun hq a b hpt => ⟨fun hg => ?_, fun hg => ?_, fun hg => ?_, fun hgb hg => ?_⟩⟩⟩
  · exact leads_convert_notInvertible huv he hm hr h hq hpt
      (edwardsToWeierstrass_notInvertible _ (two_le_of_goodModulus hm) hg)
  · obtain ⟨x, y, hf, hx, hy, hex, hey⟩ := edwardsToWeierstrass_solves ⟨sv, tv, !s.stv⟩ (two_le_of_goodModulus hm) hg
    exact ⟨x, y, hx, hy, hex, hey, leads_convert_affine huv he hm hr h hq hpt hf hx hy⟩
  · exact leads_convert_notInvertible hxy he hm hr h hq hpt
      (weierstrassToEdwards_notInvertible _ (two_le_of_goodModulus hm) hg)
  · obtain ⟨u, v, hf, hu, hv, heu, hev⟩ := weierstrassToEdwards_solves ⟨sv, tv, !s.stv⟩ (two_le_of_goodModulus hm) hgb hg
    exact ⟨u, v, hu, hv, heu, hev, leads_convert_affine hxy he hm hr h hq hpt hf hu hv⟩

end Sys2Proof.Machine
end

section
/-! SUPPORT. The two resets (70_reset_and_hazards.md R157, R158): the step that each of them is, the state it leaves, and what an
entropy answer does after it. -/

namespace Sys2Proof.Machine

open Sys2Proof.Claims

/-! ## The soft reset -/

/-- A write of CTRL starts no command (60_exceptions.md R141), BUSY = 1 or not. -/
theorem State.writeCtrl_busy (s : State) (w : Word) (hb : s.busy = false) : (s.writeCtrl w).busy = false :=
  State.performWrite_busy s .ctrl w (.inl (by simp)) hb

/-- A full-width write of CTRL is performed in every state (20_memory.md R45, R50). -/
theorem step_hostW_ctrl (s : State) (w : Word) : step (facing (hostW 0x04 w) s) = .next (s.writeCtrl w) := by
  have ha : hostAccess ⟨0x04, 0xF, .write w⟩ s = .next (s.writeCtrl w) :=
    (hostAccess_write s _ .ctrl w (Access.target_full _ _) rfl).trans (congrArg _ (State.hostWrite_always s .ctrl w rfl))
  refine (step_host s _).trans ?_
  cases hb : s.busy with
  | false => exact hostMove_quiet s _ _ ha (s.writeCtrl_busy w hb)
  | true => exact (hostMove_busy s _ hb).trans ha

/-- CTRL's bit 0 is the soft reset (10_state.md R23). -/
theorem State.writeCtrl_of_srst (s : State) {w : Word} (hw : w.getLsbD 0 = true) : s.writeCtrl w = s.softReset := if_pos hw

/-- The model's soft reset is the one of the statements. -/
theorem softResetOf_eq_softReset (s : State) : softResetOf s = s.softReset := rfl

/-- With no command in flight no entropy request is pending, so an answer is discarded (60_exceptions.md R149). -/
theorem entropyAnswer_of_idle {s : State} (h : s.phase = .idle) (req : Nat) (bytes : List Byte) :
    entropyAnswer req bytes s = s := by
  simp [entropyAnswer, h]

/-- Settles O12: the step is `State.softReset`, which leaves DONE = 0 and no request pending. -/
theorem softReset : Obligations.SoftReset := by
  intro s w hw
  rw [softResetOf_eq_softReset]
  refine ⟨?_, by simp [State.irq], fun req bytes => ?_⟩
  · rw [step_hostW_ctrl, State.writeCtrl_of_srst s hw]
  · rw [step_facing, perform, entropyAnswer_of_idle s.softReset_phase]

/-! ## The hardware reset -/

/-- `State.reset` is what a hardware reset makes of itself. -/
theorem State.reset_hardReset : State.reset.hardReset = State.reset := rfl

section
variable (s : State)

/-! The elements of the arrays after a hardware reset (70_reset_and_hazards.md R157). -/

theorem State.hardReset_prmReg (r : Prm) : s.hardReset.prmReg r = WideReg.reset := Vector.getElem_replicate _

theorem State.hardReset_x (i : XReg) : s.hardReset.x[i] = WideReg.reset := Vector.getElem_replicate _

theorem State.hardReset_q (j : QReg) : s.hardReset.q[j] = PointReg.reset := Vector.getElem_replicate _

theorem State.hardReset_desc (k : DescSel) : s.hardReset.desc[k] = ⟨0, 0⟩ := Vector.getElem_replicate _

end

/-- The hardware reset leaves the state of 70_reset_and_hazards.md R157, whatever the model's agenda and counters hold. -/
theorem resetFacts_hardReset (s : State) : resetFacts s.hardReset := by
  have hcsr : s.hardReset.irqen = false ∧ s.hardReset.cmd = 0 ∧ statusVal s.hardReset = 0 ∧ s.hardReset.cause = 0 ∧
      s.hardReset.iter = 0 ∧ s.hardReset.itercap = 0 ∧ s.hardReset.bytelen = 0 ∧ s.hardReset.h = 0 :=
    ⟨rfl, rfl, rfl, rfl, rfl, rfl, rfl, rfl⟩
  have hdesc (k : DescSel) : off s.hardReset k = 0 ∧ len s.hardReset k = 0 := by
    rw [off, len, State.hardReset_desc]
    exact ⟨rfl, rfl⟩
  have hprm (r : Prm) : (s.hardReset.prmReg r).marks = 0 := by rw [State.hardReset_prmReg, WideReg.reset]
  have hx (i : XReg) : s.hardReset.x[i].marks = 0 := by rw [State.hardReset_x, WideReg.reset]
  have hq (j : QReg) : s.hardReset.q[j].x.marks = 0 ∧ s.hardReset.q[j].y.marks = 0 ∧ s.hardReset.q[j].infMark = false := by
    rw [State.hardReset_q]
    exact ⟨rfl, rfl, rfl⟩
  exact ⟨hcsr, ⟨rfl, rfl, hdesc⟩, hprm, hx, hq, Memory.read_nil, rfl, rfl⟩

/-- A full-width read of ID returns its constant in every state (10_state.md R22, 20_memory.md R50). -/
theorem moves_hostR_id (s : State) : moves (hostR 0x00) s (fun t => t.busRead = some 0x47430001) :=
  ⟨_, step_hostR_written (g := .id) (v := Config.idValue) (.inr rfl) rfl rfl rfl rfl, rfl⟩

/-- Settles O22: `State.reset` is a hardware reset too, and a read of ID returns its constant in every state. -/
theorem resetState : Obligations.ResetState :=
  ⟨State.reset_hardReset ▸ resetFacts_hardReset State.reset, fun s => ⟨s.hardReset, rfl, resetFacts_hardReset s⟩,
    fun s _ => moves_hostR_id s⟩

end Sys2Proof.Machine
end

section
/-! SUPPORT. What one step can do, said once for each agent: the core's move, the ways a signing loop's step ends, the host's move,
and how an invariant follows for every step (10_state.md R15, 60_exceptions.md R141, R142, R149). -/

namespace Sys2Proof.Machine

open Sys2Proof.Claims

/-! ## The core's move -/

section
variable {s t : State}

theorem runnable_of_accepted (h : s.phase = .accepted) : runnable s := .inl h

theorem runnable_of_entropyGot {k : SignLoop} {bytes : List Byte} (h : s.phase = .entropyGot k bytes) : runnable s :=
  .inr ⟨k, bytes, h⟩

theorem busy_of_runnable (h : runnable s) : s.busy = true := by
  obtain h | ⟨k, bytes, h⟩ := h <;> simp [State.busy, h]

/-- An accepted or answered command goes on (60_exceptions.md R141, R149). -/
theorem coreStep_of_runnable (h : runnable s) : coreStep s = runCommand s := by
  obtain h | ⟨k, bytes, h⟩ := h <;> simp [coreStep, h]

/-- An idle or waiting core does not move (60_exceptions.md R149, R156). -/
theorem coreStep_of_not_runnable (h : ¬ runnable s) : coreStep s = .next s := by
  unfold coreStep
  split
  · rfl
  · rfl
  · next hp => exact absurd (runnable_of_accepted hp) h
  · next hp => exact absurd (runnable_of_entropyGot hp) h

theorem runCommand_ok {i : Instr} (h : decode s.cmd = .ok i) : runCommand s = exec i s := by simp only [runCommand, h]

theorem runCommand_error {c : Cause} (h : decode s.cmd = .error c) : runCommand s = .next (s.raise c) := by
  simp only [runCommand, h]

/-- All the core can do in one move: nothing, the error of a word that is no command, or the command. -/
theorem coreStep_cases (h : coreStep s = .next t) :
    t = s ∨ (runnable s ∧ ∃ c, t = s.raise c) ∨ (runnable s ∧ ∃ i, decode s.cmd = .ok i ∧ Effect i s t) := by
  by_cases hr : runnable s
  case neg =>
    rw [coreStep_of_not_runnable hr] at h
    cases h
    exact .inl rfl
  case pos =>
    rw [coreStep_of_runnable hr] at h
    cases hd : decode s.cmd with
    | error c =>
      rw [runCommand_error hd] at h
      cases h
      exact .inr (.inl ⟨hr, c, rfl⟩)
    | ok i =>
      rw [runCommand_ok hd] at h
      exact .inr (.inr ⟨hr, i, rfl, exec_effect i s t h⟩)

end

/-! ## The signing loop -/

/-- An iteration fails only where the point arithmetic meets a failing inverse (44_signature.md R126). -/
theorem attemptSign_failed {c : Curve} {g : Point} {n e d : Nat} {bytes : List Byte} {cause : Cause}
    (h : attemptSign c g n e d bytes = .failed cause) : cause = .notInvertible := by
  simp only [attemptSign] at h
  split at h
  · cases h
  · split at h
    · cases h; rfl
    · split_ifs at h

/-- How a step inside the signing loop ends from iteration `k.it` (44_signature.md R126, R128; 60_exceptions.md R149). -/
inductive LoopEnd (k : SignLoop) (s : State) : State → Prop
  /-- a failing inverse -/
  | failed : LoopEnd k s (s.raise .notInvertible)
  /-- the cap -/
  | capped : LoopEnd k s ({ s with iter := BitVec.ofNat 32 k.it }.raise .iterCap)
  /-- the request of the next iteration -/
  | waits (hcap : s.itercap ≠ 0 → k.it + 1 ≤ s.itercap.toNat) :
      LoopEnd k s { s with phase := .entropyWait { k with it := k.it + 1 }, requests := s.requests + 1 }
  /-- the signature in the range of DESC2 -/
  | signed (r sg : Nat) : LoopEnd k s (({ s with iter := BitVec.ofNat 32 (min k.it 0xFFFFFFFF) }.writeBuf (s.descOff 2)
      (beBytes r s.bl ++ beBytes sg s.bl)).complete)

theorem State.drawNext_end (k : SignLoop) (s : State) : LoopEnd k s (s.drawNext k) := by
  obtain ⟨_, _, h⟩ | ⟨hcap, h⟩ := State.drawNext_cases k s <;> rw [h]
  · exact .capped
  · refine .waits fun h0 => ?_
    by_contra hlt
    exact hcap ⟨h0, Nat.lt_of_not_le hlt⟩

theorem State.iterate_end (k : SignLoop) (bytes : List Byte) (s : State) : LoopEnd k s (s.iterate k bytes) := by
  obtain ⟨c, hc, h⟩ | ⟨_, h⟩ | ⟨r, sg, _, h⟩ := State.iterate_cases k bytes s <;> rw [h]
  · rw [attemptSign_failed hc]
    exact .failed
  · exact State.drawNext_end k s
  · exact .signed r sg

/-- The loop starts at iteration 0, or at iteration 1 with the seed in hand (44_signature.md R126 step a). -/
theorem State.enterLoop_end (k : SignLoop) (s : State) :
    LoopEnd k s (s.enterLoop k) ∨ LoopEnd { k with it := 1 } s (s.enterLoop k) := by
  unfold State.enterLoop
  split
  · exact .inr (State.iterate_end _ _ s)
  · exact .inl (State.drawNext_end k s)

/-! ## The host's move -/

/-- The ways a host access can change the state (20_memory.md R45 to R50, 60_exceptions.md R141, R142). -/
inductive HostEffect (a : Access) (s : State) : State → Prop
  /-- a read, or an access that is not performed: BUSERR rises only without a target, and while BUSY = 1 no record is left of an
  unwritten word (log 21) -/
  | recorded (b : Bool) (v : Option Word) (n : Nat) (u : Bool) (hb : b = s.buserr ∨ a.target = none)
      (hu : s.busy = true → u = s.unwrittenRead) :
      HostEffect a s { s with buserr := b, busRead := v, draws := n, unwrittenRead := u }
  /-- a write that BUSY drops -/
  | dropped (ho : a.op ≠ .read) (hb : s.busy = true) : HostEffect a s { s with werr := true }
  /-- a CMD write that is dropped -/
  | refused (ho : a.op ≠ .read) (h : s.busy = true ∨ s.err = true) : HostEffect a s { s with ovf := true }
  /-- a CMD write that is accepted, with the reads of the command -/
  | accepted (w : Word) (u : Bool) (ho : a.op ≠ .read) (hb : s.busy = false) (he : s.err = false) :
      HostEffect a s { s.accept w with unwrittenRead := u }
  /-- any other write -/
  | performed (g : Target) (w : Word) (hg : g ≠ .cmd) (ht : a.target = some g) (ho : a.op = .write w)
      (hb : s.busy = true → g.writableBusy = true) : HostEffect a s (s.performWrite g w)

/-- A register that a host reads exactly while BUSY = 1 has no written mark to lack. -/
theorem wordWritten_of_readableBusy {g : Target} (s : State) (h : g.readableBusy = true) : s.wordWritten g = true := by
  cases g with
  | id | ctrl | cmd | status | errinfo | iter | itercap => rfl
  | bytelen | h | cfgf | desc | prm | x | qx | qy | qinf | qres | buf => cases h

theorem hostRead_effect {a : Access} {g : Target} {s t : State} (h : hostRead g s = .next t) : HostEffect a s t := by
  unfold hostRead at h
  split at h
  · cases h
    exact .recorded s.buserr _ _ s.unwrittenRead (.inl rfl) fun _ => rfl
  · next hr =>
    split at h <;> cases h
    refine .recorded s.buserr _ s.draws _ (.inl rfl) fun hb => ?_
    rw [wordWritten_of_readableBusy s (by simpa [hb] using hr), Bool.not_true, Bool.or_false]

/-- A mapped write that starts no command. -/
theorem State.hostWrite_effect {a : Access} {g : Target} {w : Word} {s : State} (ht : a.target = some g) (ho : a.op = .write w)
    (hq : s.busy = false → (s.hostWrite g w).busy = false) : HostEffect a s (s.hostWrite g w) := by
  by_cases hd : s.busy = true ∧ g.writableBusy = false
  case pos =>
    rw [State.hostWrite_busy s g w hd.1 hd.2]
    exact .dropped (by simp [ho]) hd.1
  case neg =>
    have hb : s.busy = true → g.writableBusy = true := fun hb => by
      by_contra hg
      exact hd ⟨hb, Bool.eq_false_iff.mpr hg⟩
    have hw : s.hostWrite g w = s.performWrite g w := by
      cases hs : s.busy with
      | false => exact State.hostWrite_idle s g w hs
      | true => exact State.hostWrite_always s g w (hb hs)
    rw [hw] at hq ⊢
    by_cases hg : g = .cmd
    case neg => exact .performed g w hg ht ho hb
    case pos =>
      subst hg
      by_cases hr : s.busy = true ∨ s.err = true
      case pos =>
        rw [State.performWrite, State.issue, if_pos hr]
        exact .refused (by simp [ho]) hr
      case neg =>
        obtain ⟨hs, _⟩ := not_or.mp hr
        rw [State.performWrite, State.issue, if_neg hr] at hq
        cases hq (Bool.eq_false_iff.mpr hs)

theorem hostMove_effect {a : Access} {s t : State} (h : hostMove a s = .next t) : HostEffect a s t := by
  obtain ⟨ha, hq⟩ | ⟨w, u, hb, he, _, ho, rfl⟩ := hostMove_cases s t a h
  case inr => exact .accepted w u (by simp [ho]) hb he
  case inl =>
    cases ht : a.target with
    | none =>
      rw [hostAccess_none s a ht] at ha
      cases ha
      split
      · exact .recorded true (some 0) s.draws s.unwrittenRead (.inr ht) fun _ => rfl
      · exact .recorded true s.busRead s.draws s.unwrittenRead (.inr ht) fun _ => rfl
    | some g =>
      cases ho : a.op with
      | read => exact hostRead_effect ((hostAccess_read s a g ht ho).symm.trans ha)
      | write w =>
        cases (hostAccess_write s a g w ht ho).symm.trans ha
        exact State.hostWrite_effect ht ho hq

/-! ## The entropy source's move -/

/-- An answer is discarded, or ends the wait with BL bytes (60_exceptions.md R149). -/
theorem entropyAnswer_cases (req : Nat) (bytes : List Byte) (s : State) :
    entropyAnswer req bytes s = s ∨ ∃ k, s.phase = .entropyWait k ∧ bytes.length = s.bl ∧
      entropyAnswer req bytes s = { s with phase := .entropyGot k bytes } := by
  unfold entropyAnswer
  split
  case h_1 k hp =>
    split_ifs with h
    · exact .inr ⟨k, hp, h.2, rfl⟩
    · exact .inl rfl
  all_goals exact .inl rfl

/-! ## Invariants -/

/-- A predicate that does not speak of the agenda and that every move keeps is kept by every step. -/
theorem step_invariant {I : State → Prop} (hagenda : ∀ s l, I s → I { s with agenda := l })
    (hmove : ∀ e s t, I s → perform e s = .next t → I t) : ∀ s t, I s → step s = .next t → I t := by
  intro s t hs h
  unfold step at h
  split at h
  · exact hmove .core s t hs h
  · next e rest _ => exact hmove e _ t (hagenda s rest hs) h

end Sys2Proof.Machine
end

section
/-! SUPPORT. What every command keeps, from the inversion of `exec`: the inputs no command writes, and the three ways a command's
step ends (60_exceptions.md R141, R142, R149). -/

namespace Sys2Proof.Machine

open Sys2Proof.Claims

theorem LoopEnd.keeps_inputs {k : SignLoop} {s t : State} (h : LoopEnd k s t) : inputsSame s t := by
  cases h <;> exact ⟨rfl, rfl, rfl, rfl, rfl, rfl, rfl, rfl, rfl, rfl, rfl, rfl, rfl⟩

theorem State.writeMemo_keeps_inputs (s : State) (m : Memo) : inputsSame s (s.writeMemo m) := by
  cases hw : m.write with
  | false =>
    rw [State.writeMemo_skipped s hw]
    exact ⟨rfl, rfl, rfl, rfl, rfl, rfl, rfl, rfl, rfl, rfl, rfl, rfl, rfl⟩
  | true =>
    rw [State.writeMemo_written s hw]
    exact ⟨rfl, rfl, rfl, rfl, rfl, rfl, rfl, rfl, rfl, rfl, rfl, rfl, rfl⟩

theorem State.writeMemo_buf (s : State) (m : Memo) : (s.writeMemo m).buf = s.buf := by
  unfold State.writeMemo
  split <;> rfl

/-- No command writes its inputs. -/
theorem Effect.keeps_inputs {i : Instr} {s t : State} (h : Effect i s t) : inputsSame s t := by
  cases h with
  | raised | cfgFailed | cfgPassed | wroteX | wroteQ | wroteBuf | wroteResult =>
    exact ⟨rfl, rfl, rfl, rfl, rfl, rfl, rfl, rfl, rfl, rfl, rfl, rfl, rfl⟩
  | memoized l m | converted l m => exact State.writeMemo_keeps_inputs (s.noteReads l) m
  | entered ra hi k =>
    obtain h | h := State.enterLoop_end k (s.noteReads [.x ra])
    · exact h.keeps_inputs
    · exact h.keeps_inputs
  | resumed ra hi k bytes => exact (State.iterate_end k bytes s).keeps_inputs

/-- SIGN waits for the bytes of the iteration k.it, and nothing is written but the record of its reads. -/
def waitsIn (k : SignLoop) (s t : State) : Prop :=
  ∃ u, t = { s with unwrittenRead := u, phase := .entropyWait k, requests := s.requests + 1 }

/-- The three ways a command's step ends: without error, with an error, or in SIGN's wait. -/
def commandEnds (i : Instr) (s t : State) : Prop :=
  (completed s t ∧ t.requests = s.requests) ∨ (∃ (u : State) (c : Cause), t = u.raise c ∧ u.requests = s.requests) ∨
    ∃ ra k, i = .sign ra ∧ waitsIn k s t

theorem LoopEnd.ends {k : SignLoop} {s t : State} (ra : XReg) (l : List RegName) (h : LoopEnd k (s.noteReads l) t) :
    commandEnds (.sign ra) s t := by
  cases h with
  | failed => exact .inr (.inl ⟨s.noteReads l, _, rfl, rfl⟩)
  | capped => exact .inr (.inl ⟨_, .iterCap, rfl, rfl⟩)
  | waits => exact .inr (.inr ⟨ra, _, rfl, _, rfl⟩)
  | signed => exact .inl ⟨⟨rfl, rfl, rfl, rfl, rfl⟩, rfl⟩

theorem Effect.ends {i : Instr} {s t : State} (h : Effect i s t) : commandEnds i s t := by
  cases h with
  | raised l c => exact .inr (.inl ⟨s.noteReads l, c, rfl, rfl⟩)
  | cfgFailed c => exact .inr (.inl ⟨_, c, rfl, rfl⟩)
  | cfgPassed | wroteX | wroteQ | wroteBuf | wroteResult => exact .inl ⟨⟨rfl, rfl, rfl, rfl, rfl⟩, rfl⟩
  | memoized l m =>
    obtain ⟨hc, _, _, _, _, _, hr, _⟩ := edwardsFrame_writeMemo (s.noteReads l) m ((s.noteReads l).writeMemo m).q
    exact .inl ⟨hc, hr⟩
  | converted l m qd x y =>
    obtain ⟨hc, _, _, _, _, _, hr, _⟩ :=
      edwardsFrame_writeMemo (s.noteReads l) m (((s.noteReads l).writeMemo m).setQ qd x y false).q
    exact .inl ⟨hc, hr⟩
  | entered ra hi k =>
    subst hi
    obtain h | h := State.enterLoop_end k (s.noteReads [.x ra])
    · exact h.ends ra [.x ra]
    · exact h.ends ra [.x ra]
  | resumed ra hi k bytes =>
    subst hi
    exact LoopEnd.ends ra [] (by rw [s.noteReads_nil]; exact State.iterate_end k bytes s)

end Sys2Proof.Machine
end

section
/-! SUPPORT. The four invariants, each kept by every step from every state that has it, and held at reset: the error record
(60_exceptions.md R142 to R147), the promise of CFGOK (10_state.md R34), BUF with a signing loop's output range, and the command in
flight (60_exceptions.md R141, R149; 44_signature.md R126). -/

namespace Sys2Proof.Machine

open Sys2Proof.Claims

/-! ## The error record -/

theorem errorRecordOk_of_same {s t : State} (h : errorRecordOk s) (he : t.err = s.err) (hc : t.errcode = s.errcode)
    (ha : t.cause = s.cause) : errorRecordOk t := by
  unfold errorRecordOk
  rw [he, hc, ha]
  exact h

theorem errorRecordOk_of_clear {t : State} (he : t.err = false) (hc : t.errcode = 0) (ha : t.cause = 0) : errorRecordOk t :=
  ⟨fun _ => ⟨hc, ha⟩, fun h => by simp [he] at h⟩

/-- The code of every cause is in the table of 60_exceptions.md R145, beside its class. -/
theorem cause_mem_errorTable (c : Cause) : ((classCode (classOf c)).toNat, (causeCode c).toNat) ∈ errorTable := by
  cases c <;> decide

theorem errorRecordOk_raise (s : State) (c : Cause) : errorRecordOk (s.raise c) :=
  ⟨fun h => (by cases h), fun _ => cause_mem_errorTable c⟩

theorem Effect.keeps_errorRecordOk {i : Instr} {s t : State} (h : Effect i s t) (hs : errorRecordOk s) : errorRecordOk t := by
  obtain ⟨⟨_, _, he, hc, ha⟩, _⟩ | ⟨u, c, rfl, _⟩ | ⟨ra, k, _, u, rfl⟩ := h.ends
  · exact errorRecordOk_of_same hs he hc ha
  · exact errorRecordOk_raise u c
  · exact hs

theorem HostEffect.keeps_errorRecordOk {a : Access} {s t : State} (h : HostEffect a s t) (hs : errorRecordOk s) :
    errorRecordOk t := by
  cases h with
  | recorded | dropped | refused | accepted => exact hs
  | performed g w hg =>
    cases g with
    | cmd => exact absurd rfl hg
    | ctrl =>
      simp only [State.performWrite, State.writeCtrl]
      split
      · exact errorRecordOk_of_clear rfl rfl rfl
      · exact hs
    | status =>
      simp only [State.performWrite]
      cases hw : w.getLsbD 2 with
      | true =>
        exact errorRecordOk_of_clear (by simp only [State.clearStatus_err, hw, Bool.not_true, Bool.and_false]) (if_pos hw)
          (if_pos hw)
      | false =>
        have hn := ne_true_of_eq_false hw
        exact errorRecordOk_of_same hs (by simp only [State.clearStatus_err, hw, Bool.not_false, Bool.and_true]) (if_neg hn)
          (if_neg hn)
    | prm r => cases r <;> exact hs
    | id | errinfo | iter | itercap | bytelen | h | cfgf | desc | x | qx | qy | qinf | qres | buf => exact hs

/-- Settles O28: an error writes a row of the table, a STATUS write clears the record with ERR, and nothing else writes it. -/
theorem stepKeepsErrorRecord : Obligations.StepKeepsErrorRecord := by
  refine step_invariant (fun s l h => h) fun e s t hs h => ?_
  cases e with
  | host a => exact (hostMove_effect h).keeps_errorRecordOk hs
  | core =>
    obtain rfl | ⟨_, c, rfl⟩ | ⟨_, i, _, heff⟩ := coreStep_cases h
    · exact hs
    · exact errorRecordOk_raise s c
    · exact heff.keeps_errorRecordOk hs
  | entropy req bytes =>
    cases h
    obtain h | ⟨k, _, _, h⟩ := entropyAnswer_cases req bytes s <;> rw [h] <;> exact hs
  | hwReset =>
    cases h
    exact errorRecordOk_of_clear rfl rfl rfl

/-! ## The promise of CFGOK -/

/-- What CFGCHK reads is the same in both states (41_regmove.md R95). -/
def checkedSame (s t : State) : Prop :=
  (∀ r ∈ [Prm.p, .a, .b, .gx, .gy, .n], t.prmReg r = s.prmReg r) ∧ t.bytelen = s.bytelen ∧ t.h = s.h

theorem firstConfigFailure_congr {s t : State} (h : checkedSame s t) (c : Option Nat) :
    firstConfigFailure t c ↔ firstConfigFailure s c := by
  obtain ⟨hprm, hbl, hh⟩ := h
  have hval : ∀ r ∈ [Prm.p, .a, .b, .gx, .gy, .n], t.prmVal r = s.prmVal r := fun r hr => by
    rw [State.prmVal, hprm r hr, State.prmVal]
  simp only [List.forall_mem_cons] at hval
  obtain ⟨hp, ha, hb, hgx, hgy, hn, _⟩ := hval
  simp only [firstConfigFailure, onCurveAt, hp, ha, hb, hgx, hgy, hn, hbl, hh]

theorem checkedSame_of_prm_eq {s t : State} (hp : t.prm = s.prm) (hb : t.bytelen = s.bytelen) (hh : t.h = s.h) : checkedSame s t :=
  ⟨fun r _ => by rw [State.prmReg, hp, State.prmReg], hb, hh⟩

/-- A command leaves what CFGCHK reads (10_state.md R38). -/
theorem Effect.keeps_checked {i : Instr} {s t : State} (h : Effect i s t) : checkedSame s t := by
  obtain ⟨_, _, _, _, _, _, hb, hh, _⟩ := h.keeps_inputs
  obtain ⟨hprm, _⟩ | ⟨_, l, m, _, hprm, _⟩ := h.parameters
  · exact checkedSame_of_prm_eq hprm hb hh
  · refine ⟨fun r hr => ?_, hb, hh⟩
    have hne : r ≠ .s ∧ r ≠ .t := by
      constructor <;> rintro rfl <;> simp at hr
    calc t.prmReg r = ((s.noteReads l).writeMemo m).prmReg r := by rw [State.prmReg, hprm, State.prmReg]
      _ = s.prmReg r := State.writeMemo_prmReg_other _ m hne.1 hne.2

/-- A performed write that leaves CFGOK at 1 leaves what CFGCHK reads (10_state.md R34). -/
theorem State.performWrite_checkedSame {s : State} {g : Target} {w : Word} (hg : g ≠ .cmd)
    (h : (s.performWrite g w).cfgok = true) : checkedSame s (s.performWrite g w) := by
  cases g with
  | cmd => exact absurd rfl hg
  | bytelen | h => cases h
  | ctrl =>
    simp only [State.performWrite, State.writeCtrl] at h ⊢
    split at h
    · cases h
    · next hw =>
      rw [if_neg hw]
      exact checkedSame_of_prm_eq rfl rfl rfl
  | prm r j =>
    have hother : ∀ r' ∈ [Prm.p, .a, .b, .gx, .gy, .n], r' ≠ r := by
      cases r with
      | p | a | b | gx | gy | n => cases h
      | e | d | s | t => simp
    refine ⟨fun r' hr' => ?_, ?_⟩
    · rw [State.performWrite_prm_prmReg, State.setPrm_other s r r' _ (hother r' hr')]
    · cases r <;> exact ⟨rfl, rfl⟩
  | id | status | errinfo | iter | itercap | cfgf | desc | x | qx | qy | qinf | qres | buf =>
    exact checkedSame_of_prm_eq rfl rfl rfl

theorem HostEffect.checkedSame_of_cfgok {a : Access} {s t : State} (h : HostEffect a s t) (ht : t.cfgok = true) :
    checkedSame s t := by
  cases h with
  | recorded | dropped | refused | accepted => exact checkedSame_of_prm_eq rfl rfl rfl
  | performed g w hg => exact State.performWrite_checkedSame hg ht

/-- A move that leaves CFGOK at 1 leaves what CFGCHK reads. -/
theorem perform_checkedSame {e : Event} {s t : State} (h : perform e s = .next t) (ht : t.cfgok = true) : checkedSame s t := by
  cases e with
  | host a => exact (hostMove_effect h).checkedSame_of_cfgok ht
  | core =>
    obtain rfl | ⟨_, c, rfl⟩ | ⟨_, i, _, heff⟩ := coreStep_cases h
    · exact checkedSame_of_prm_eq rfl rfl rfl
    · exact checkedSame_of_prm_eq rfl rfl rfl
    · exact heff.keeps_checked
  | entropy req bytes =>
    cases h
    obtain h | ⟨k, _, _, h⟩ := entropyAnswer_cases req bytes s <;> rw [h] <;> exact checkedSame_of_prm_eq rfl rfl rfl
  | hwReset => cases h; cases ht

/-- Settles O29: where CFGOK is 1 after a step, it was so before, or the step is a passing CFGCHK, and the step has left what CFGCHK
reads. -/
theorem stepKeepsCheckedConfiguration : Obligations.StepKeepsCheckedConfiguration := by
  refine step_invariant (fun s l h => h) fun e s t hs h ht => ?_
  rw [firstConfigFailure_congr (perform_checkedSame h ht)]
  obtain hc | ⟨_, _, hc⟩ := step_cfgok_set (s := s) (e := e) h ht
  · exact hs hc
  · exact hc

/-! ## BUF and the output range of a signing loop -/

theorem signing_of_idle {s : State} (h : s.phase = .idle) : signing s = none := by simp [signing, h]

theorem signing_of_accepted {s : State} (h : s.phase = .accepted) : signing s = none := by simp [signing, h]

theorem bufOk_of_not_signing {s : State} (h : s.buf.wf) (hs : signing s = none) : bufOk s :=
  ⟨h, fun k hk => by rw [hs] at hk; cases hk⟩

/-- A command's step inside the loop keeps BUF's form, and a wait keeps the output range (44_signature.md R126). -/
theorem LoopEnd.keeps_bufOk {k : SignLoop} {s t : State} (h : LoopEnd k s t) (hwf : s.buf.wf)
    (hout : off s 2 + len s 2 ≤ 1024 ∧ len s 2 = 2 * s.bytelen.toNat) : bufOk t := by
  cases h with
  | failed | capped => exact bufOk_of_not_signing hwf rfl
  | waits => exact ⟨hwf, fun _ _ => hout⟩
  | signed r sg =>
    refine bufOk_of_not_signing (Memory.writeBytes_wf _ _ _ hwf ?_) rfl
    obtain ⟨hin, hlen⟩ := hout
    rw [List.length_append, beBytes_length, beBytes_length, State.bl_eq]
    rw [State.descOff_eq]
    show _ ≤ 1024
    omega

theorem Effect.keeps_bufOk {i : Instr} {s t : State} (h : Effect i s t) (hs : bufOk s) : bufOk t := by
  obtain ⟨hwf, hout⟩ := hs
  cases h with
  | raised | cfgFailed | cfgPassed | wroteX | wroteQ | wroteResult => exact bufOk_of_not_signing hwf rfl
  | wroteBuf l k bs hk hl =>
    exact bufOk_of_not_signing (Memory.writeBytes_wf _ _ _ hwf (hl ▸ of_decide_eq_true hk)) rfl
  | memoized l m | converted l m =>
    refine bufOk_of_not_signing ?_ rfl
    have hb : ((s.noteReads l).writeMemo m).buf = s.buf := State.writeMemo_buf _ m
    simpa [hb] using hwf
  | entered ra hi k hp hc h2 hl =>
    have hout : off s 2 + len s 2 ≤ 1024 ∧ len s 2 = 2 * s.bytelen.toNat := ⟨of_decide_eq_true h2, hl⟩
    obtain h | h := State.enterLoop_end k (s.noteReads [.x ra])
    · exact h.keeps_bufOk hwf hout
    · exact h.keeps_bufOk hwf hout
  | resumed ra hi k bytes hp =>
    exact (State.iterate_end k bytes s).keeps_bufOk hwf (hout k (by simp [signing, hp]))

/-- A performed write keeps BUF's form. -/
theorem State.performWrite_wf {s : State} (g : Target) (w : Word) (h : s.buf.wf) : (s.performWrite g w).buf.wf := by
  cases g with
  | cmd =>
    simp only [State.performWrite, State.issue]
    split <;> exact h
  | ctrl =>
    simp only [State.performWrite, State.writeCtrl]
    split <;> exact h
  | prm r => cases r <;> exact h
  | buf k =>
    refine Memory.writeBytes_wf _ _ _ h ?_
    rw [leBytes_length]
    show _ ≤ 1024
    omega
  | id | status | errinfo | iter | itercap | bytelen | h | cfgf | desc | x | qx | qy | qinf | qres => exact h

/-- While BUSY = 1 a performed write is a soft reset, or one of CTRL or STATUS that keeps every operand (20_memory.md R50). -/
theorem State.performWrite_of_busy {s : State} {g : Target} (w : Word) (hg : g ≠ .cmd) (hb : g.writableBusy = true) :
    s.performWrite g w = s.softReset ∨ s.performWrite g w = { s with irqen := w.getLsbD 1 } ∨
    s.performWrite g w = s.clearStatus w := by
  cases g with
  | ctrl =>
    simp only [State.performWrite, State.writeCtrl]
    split
    · exact .inl rfl
    · exact .inr (.inl rfl)
  | status => exact .inr (.inr rfl)
  | cmd => exact absurd rfl hg
  | id | errinfo | iter | itercap | bytelen | h | cfgf | desc | prm | x | qx | qy | qinf | qres | buf => cases hb

theorem HostEffect.keeps_bufOk {a : Access} {s t : State} (h : HostEffect a s t) (hs : bufOk s) : bufOk t := by
  cases h with
  | recorded | dropped | refused => exact hs
  | accepted => exact bufOk_of_not_signing hs.1 rfl
  | performed g w hg _ _ hb =>
    cases hbusy : s.busy with
    | true =>
      obtain h | h | h := s.performWrite_of_busy w hg (hb hbusy) <;> rw [h]
      · exact bufOk_of_not_signing hs.1 rfl
      · exact hs
      · exact hs
    | false =>
      have hidle := (s.performWrite g w).busy_eq_false_iff.mp (s.performWrite_busy g w (.inl hg) hbusy)
      exact bufOk_of_not_signing (s.performWrite_wf g w hs.1) (signing_of_idle hidle)

/-- Settles O30: every write of BUF is inside a range that was checked, and the output range of a loop is the one SIGN checked at
its start, which nothing changes while BUSY = 1. -/
theorem stepKeepsBuf : Obligations.StepKeepsBuf := by
  refine step_invariant (fun s l h => h) fun e s t hs h => ?_
  cases e with
  | host a => exact (hostMove_effect h).keeps_bufOk hs
  | core =>
    obtain rfl | ⟨_, c, rfl⟩ | ⟨_, i, _, heff⟩ := coreStep_cases h
    · exact hs
    · exact bufOk_of_not_signing hs.1 rfl
    · exact heff.keeps_bufOk hs
  | entropy req bytes =>
    cases h
    obtain h | ⟨k, hp, _, h⟩ := entropyAnswer_cases req bytes s <;> rw [h]
    · exact hs
    · exact ⟨hs.1, fun _ _ => hs.2 k (by simp [signing, hp])⟩
  | hwReset =>
    cases h
    exact bufOk_of_not_signing ⟨List.Pairwise.nil, fun _ h => by cases h⟩ rfl

/-! ## The command in flight -/

/-- What is true of a signing loop (44_signature.md R126, R128). -/
def loopOk (k : SignLoop) (s : State) : Prop :=
  (∃ ra, decode s.cmd = .ok (.sign ra)) ∧ s.cfgok = true ∧ (1 ≤ k.d ∧ k.d < s.prmVal .n) ∧ (1 ≤ k.e ∧ k.e < s.prmVal .n) ∧
    1 ≤ k.it ∧ (s.itercap ≠ 0 → k.it ≤ s.itercap.toNat)

theorem flightOk_of_idle {s : State} (h : s.phase = .idle) : flightOk s :=
  ⟨fun hb => by simp [State.busy, h] at hb, fun k hk => by simp [signing, h] at hk, fun k bytes hk => by simp [h] at hk⟩

theorem flightOk_of_accepted {s : State} (h : s.phase = .accepted) (hd : s.done = false) (he : s.err = false) : flightOk s :=
  ⟨fun _ => ⟨hd, he⟩, fun k hk => by simp [signing, h] at hk, fun k bytes hk => by simp [h] at hk⟩

theorem flightOk_of_wait {s : State} {k : SignLoop} (h : s.phase = .entropyWait k) (hd : s.done = false) (he : s.err = false)
    (hk : loopOk k s) : flightOk s := by
  refine ⟨fun _ => ⟨hd, he⟩, fun k' hk' => ?_, fun k' bytes hk' => by simp [h] at hk'⟩
  obtain rfl : k = k' := by simpa [signing, h] using hk'
  exact hk

/-- DigestScalar is in [1, n) (44_signature.md R123). -/
theorem digestScalar_range (bs : List Byte) {n : Nat} (hn : 2 ≤ n) : 1 ≤ digestScalar bs n ∧ digestScalar bs n < n := by
  have hlt := reduceBytes_lt bs n (by omega)
  unfold digestScalar
  split <;> omega

/-- A step from inside the loop ends idle, or waits with the next iteration begun. -/
theorem LoopEnd.flightOk_of_loop {k : SignLoop} {s t : State} (h : LoopEnd k s t) (hd : s.done = false) (he : s.err = false)
    (hsign : ∃ ra, decode s.cmd = .ok (.sign ra)) (hc : s.cfgok = true) (hkd : 1 ≤ k.d ∧ k.d < s.prmVal .n)
    (hke : 1 ≤ k.e ∧ k.e < s.prmVal .n) : flightOk t := by
  cases h with
  | failed | capped | signed => exact flightOk_of_idle rfl
  | waits hcap => exact flightOk_of_wait rfl hd he ⟨hsign, hc, hkd, hke, Nat.le_add_left 1 k.it, hcap⟩

theorem Effect.keeps_flightOk {i : Instr} {s t : State} (h : Effect i s t) (hd : decode s.cmd = .ok i) (hr : runnable s)
    (hs : flightOk s) : flightOk t := by
  obtain ⟨hflags, hloop, _⟩ := hs
  obtain ⟨hdone, herr⟩ := hflags (busy_of_runnable hr)
  cases h with
  | raised | cfgFailed | cfgPassed | wroteX | wroteQ | wroteBuf | wroteResult | memoized | converted => exact flightOk_of_idle rfl
  | entered ra hi k hp hc h2 hl hx hk =>
    subst hi
    obtain ⟨hkd, _, dig, hke⟩ := hk
    have hd' : 1 ≤ k.d ∧ k.d < s.prmVal .n := hkd ▸ hx
    have he' : 1 ≤ k.e ∧ k.e < s.prmVal .n := hke ▸ digestScalar_range dig (by omega)
    obtain h | h := State.enterLoop_end k (s.noteReads [.x ra])
    · exact h.flightOk_of_loop hdone herr ⟨ra, hd⟩ hc hd' he'
    · exact h.flightOk_of_loop hdone herr ⟨ra, hd⟩ hc hd' he'
  | resumed ra hi k bytes hp =>
    obtain ⟨hsign, hc, hkd, hke, _⟩ := hloop k (by simp [signing, hp])
    exact (State.iterate_end k bytes s).flightOk_of_loop hdone herr hsign hc hkd hke

theorem HostEffect.keeps_flightOk {a : Access} {s t : State} (h : HostEffect a s t) (hs : flightOk s) : flightOk t := by
  cases h with
  | recorded | dropped | refused => exact hs
  | accepted w u _ _ he => exact flightOk_of_accepted rfl rfl he
  | performed g w hg _ _ hb =>
    cases hbusy : s.busy with
    | true =>
      obtain h | h | h := s.performWrite_of_busy w hg (hb hbusy) <;> rw [h]
      · exact flightOk_of_idle rfl
      · exact hs
      · obtain ⟨hflags, hloop⟩ := hs
        obtain ⟨hdone, herr⟩ := hflags hbusy
        exact ⟨fun _ => ⟨by simp [hdone], by simp [herr]⟩, hloop⟩
    | false => exact flightOk_of_idle ((s.performWrite g w).busy_eq_false_iff.mp (s.performWrite_busy g w (.inl hg) hbusy))

/-- Settles O31: a loop starts from SIGN's checks, each iteration stays within the cap, and an answer has BL bytes. -/
theorem stepKeepsFlight : Obligations.StepKeepsFlight := by
  refine step_invariant (fun s l h => h) fun e s t hs h => ?_
  cases e with
  | host a => exact (hostMove_effect h).keeps_flightOk hs
  | core =>
    obtain rfl | ⟨_, c, rfl⟩ | ⟨hr, i, hd, heff⟩ := coreStep_cases h
    · exact hs
    · exact flightOk_of_idle rfl
    · exact heff.keeps_flightOk hd hr hs
  | entropy req bytes =>
    cases h
    obtain h | ⟨k, hp, hlen, h⟩ := entropyAnswer_cases req bytes s <;> rw [h]
    · exact hs
    · obtain ⟨hflags, hloop, _⟩ := hs
      refine ⟨fun _ => hflags (by simp [State.busy, hp]), fun k' hk' => ?_, fun k' bytes' hk' => ?_⟩
      · obtain rfl : k = k' := by simpa [signing] using hk'
        exact hloop k (by simp [signing, hp])
      · cases hk'
        exact hlen
  | hwReset =>
    cases h
    exact flightOk_of_idle rfl

/-! ## The invariants at reset -/

/-- Settles O23: nothing is recorded, checked, written or in flight. -/
theorem resetHasInvariants : Obligations.ResetHasInvariants :=
  ⟨errorRecordOk_of_clear rfl rfl rfl, fun h => (by cases h),
    bufOk_of_not_signing ⟨List.Pairwise.nil, fun _ h => by cases h⟩ rfl, flightOk_of_idle rfl⟩

end Sys2Proof.Machine
end

section
/-! SUPPORT. Whole-machine rules of the commands: the step that runs the command in flight (60_exceptions.md R141, R149), how it
ends and when the interrupt output rises (R142, R148), precise errors (R142, R143) and the writers of RESULT (10_state.md R33). -/

namespace Sys2Proof.Machine

open Sys2Proof.Claims

/-! ## The step of the core -/

/-- With no move on the agenda the core moves (70_reset_and_hazards.md R163). -/
theorem step_of_agenda_nil {s : State} (h : s.agenda = []) : step s = coreStep s := by simp only [step, h]

theorem coreStep_ok {s : State} {i : Instr} (hr : runnable s) (hd : decode s.cmd = .ok i) : coreStep s = exec i s :=
  (coreStep_of_runnable hr).trans (runCommand_ok hd)

theorem coreStep_error {s : State} {c : Cause} (hr : runnable s) (hd : decode s.cmd = .error c) : coreStep s = .next (s.raise c) :=
  (coreStep_of_runnable hr).trans (runCommand_error hd)

/-- The causes that the decoder gives, by their numbers (30_encoding.md R66, 60_exceptions.md R145). -/
theorem cause_decode_error {w : Word} {c : Cause} (h : decode w = .error c) :
    (c, (causeCode c).toNat) ∈ [(Cause.opcode, 1), (.reservedBits, 2), (.pointIndex, 3), (.paramSel, 4)] := by
  obtain rfl | rfl | rfl | rfl := decode_error_cases h <;> decide

/-- Settles O6: the core's move is `runCommand` where a command can go on, and none elsewhere. -/
theorem stepRunsTheCommandInFlight : Obligations.StepRunsTheCommandInFlight := by
  intro s
  refine ⟨fun hr i hd => ⟨coreStep_ok hr hd, fun ha => (step_of_agenda_nil ha).trans (coreStep_ok hr hd)⟩, fun hr c hd => ?_,
    fun hr => ⟨coreStep_of_not_runnable hr, fun ha => (step_of_agenda_nil ha).trans (coreStep_of_not_runnable hr)⟩⟩
  have hf := s.raise_failed c
  rw [classOf_decode_error hd] at hf
  have hcore := coreStep_error hr hd
  exact ⟨_, cause_decode_error hd, ⟨_, hcore, hf⟩, fun ha => ⟨_, (step_of_agenda_nil ha).trans hcore, hf⟩⟩

/-- Settles O7: the placed state faces a core move, with the encoded word in CMD. -/
theorem fetchWordRunsTheEncodedCommand : Obligations.FetchWordRunsTheEncodedCommand := by
  intro i s nbits hw
  have hword : BitVec.ofNat 32 (encode i).toNat = encode i := (BitVec.ofNat_toNat _ _).trans (BitVec.setWidth_eq _)
  have hstep : step (s.withFetchWord nbits (encode i).toNat) = coreStep (s.accept (BitVec.ofNat 32 (encode i).toNat)) := rfl
  rw [hstep, hword]
  exact coreStep_ok (runnable_of_accepted rfl) (decodeOfEncode i hw)

/-! ## The entropy port -/

theorem entw_iff (s : State) : s.entw = true ↔ ∃ k, s.phase = .entropyWait k := by
  unfold State.entw
  cases s.phase <;> simp

theorem busy_of_entw {s : State} (h : s.entw = true) : s.busy = true := by
  obtain ⟨k, hk⟩ := (entw_iff s).mp h
  simp [State.busy, hk]

/-- Settles O57: only the answer of BL bytes to the pending request is taken. -/
theorem entropyPort : Obligations.EntropyPort := by
  intro s req bytes
  refine ⟨entw_iff s, busy_of_entw, fun k hk hl => ?_, fun h => ?_⟩
  · have hans : entropyAnswer s.requests bytes s = { s with phase := .entropyGot k bytes } := by
      simp [entropyAnswer, hk, hl, State.bl_eq]
    have hstep : step (facing (.entropy s.requests bytes) s) = .next { s with phase := .entropyGot k bytes } := by
      rw [step_facing, perform, hans]
    exact ⟨hstep, _, hstep, rfl, rfl⟩
  · rw [step_facing, perform]
    obtain h' | ⟨k, hk, _, h'⟩ := entropyAnswer_cases req bytes s
    · rw [h']
    · have hlt : req < s.requests := h.resolve_right fun he => by simp [(entw_iff s).mpr ⟨k, hk⟩] at he
      simp [entropyAnswer, hk, Nat.ne_of_lt hlt]

/-! ## The interrupt output -/

theorem irq_iff (s : State) : s.irq = true ↔ s.done = true ∧ s.irqen = true := Bool.and_eq_true_iff

theorem not_irq_of_same {s u : State} (hs : s.irq = false) (hd : u.done = s.done) (he : u.irqen = s.irqen) : ¬ u.irq = true := by
  rw [irq_iff, hd, he, ← irq_iff, hs]
  exact Bool.false_ne_true

/-- Only the offset 0x04 is CTRL (20_memory.md R40). -/
theorem targetAt_eq_ctrl {o : Nat} (ho : o % 4 = 0) (h : targetAt o = some .ctrl) : o = 4 := by
  unfold targetAt at h
  split_ifs at h with h1
  · have hcsr : ∀ k : Fin 16, csrAt k = some .ctrl → k = 1 := by decide
    have hk := hcsr ⟨o / 4, by omega⟩ h
    have hdiv : o / 4 = 1 := congrArg Fin.val hk
    omega
  · simp at h
  · cases h
  · simp only [pointWordAt, Option.some.injEq] at h
    split_ifs at h
  · cases h

/-- The only performed write of CTRL is the full-width write at its offset. -/
theorem access_of_target_ctrl {a : Access} {w : Word} (ht : a.target = some .ctrl) (ho : a.op = .write w) :
    a = ⟨4, 0xF, .write w⟩ := by
  obtain ⟨o, lanes, op⟩ := a
  unfold Access.target at ht
  split at ht
  · next h =>
    obtain ⟨hal, rfl⟩ : o % 4 = 0 ∧ lanes = 0xF := h
    rw [targetAt_eq_ctrl hal ht]
    exact congrArg _ ho
  · cases ht

/-- A host access raises the interrupt output only by enabling it over DONE = 1 (60_exceptions.md R148). -/
theorem HostEffect.irq_rises {a : Access} {s t : State} (h : HostEffect a s t) (hs : s.irq = false) (ht : t.irq = true) :
    ∃ w, a = ⟨4, 0xF, .write w⟩ ∧ w.getLsbD 0 = false ∧ w.getLsbD 1 = true ∧ s.done = true := by
  cases h with
  | recorded | dropped | refused => exact absurd ht (not_irq_of_same hs rfl rfl)
  | accepted => cases ht
  | performed g w hg htar hop =>
    cases g with
    | ctrl =>
      simp only [State.performWrite, State.writeCtrl] at ht
      split at ht
      · cases ht
      · next hw =>
        obtain ⟨hd, he⟩ := (irq_iff _).mp ht
        exact ⟨w, access_of_target_ctrl htar hop, by simpa using hw, he, hd⟩
    | status =>
      obtain ⟨hd, he⟩ := (irq_iff _).mp ht
      have hd' : s.done = true := (Bool.and_eq_true_iff.mp hd).1
      exact absurd ((irq_iff s).mpr ⟨hd', he⟩) (by simp [hs])
    | prm r => cases r <;> exact absurd ht (not_irq_of_same hs rfl rfl)
    | cmd => exact absurd rfl hg
    | id | errinfo | iter | itercap | bytelen | h | cfgf | desc | x | qx | qy | qinf | qres | buf =>
      exact absurd ht (not_irq_of_same hs rfl rfl)

/-- A command that answers has completed, or is SIGN in a wait (60_exceptions.md R142, R149). -/
theorem Effect.done_or_waiting {i : Instr} {s t : State} (h : Effect i s t) :
    (t.phase = .idle ∧ t.done = true ∧ t.requests = s.requests) ∨
    ∃ ra k, i = .sign ra ∧ t.phase = .entropyWait k ∧ t.done = s.done ∧ t.requests = s.requests + 1 := by
  obtain ⟨⟨hp, hd, _⟩, hr⟩ | ⟨u, c, rfl, hr⟩ | ⟨ra, k, hi, u, rfl⟩ := h.ends
  · exact .inl ⟨hp, hd, hr⟩
  · exact .inl ⟨rfl, rfl, hr⟩
  · exact .inr ⟨ra, k, hi, rfl, rfl, rfl⟩

/-- Settles O24: the endings of a command, and what each agent's move does to DONE and IRQEN. -/
theorem commandsEndDoneOrWaiting : Obligations.CommandsEndDoneOrWaiting := by
  refine ⟨fun i s t h => ?_, irq_iff, fun s t e h hs ht => ?_⟩
  · have heff := exec_effect i s t h
    have hirqen := heff.keeps_inputs.1
    obtain ⟨hp, hd, hr⟩ | ⟨ra, k, hi, hp, hd, hr⟩ := heff.done_or_waiting
    · exact .inl ⟨hp, by simp [State.busy, hp], by simp [State.entw, hp], hd, by simp [State.irq, hd, hirqen], hr⟩
    · exact .inr ⟨ra, k, hi, hp, by simp [State.busy, hp], by simp [State.entw, hp], hd, hr⟩
  · rw [step_facing] at h
    cases e with
    | host a =>
      obtain ⟨w, rfl, h0, h1, hd⟩ := (hostMove_effect h).irq_rises hs ht
      exact .inr ⟨w, rfl, h0, h1, hd⟩
    | core =>
      obtain ⟨htd, hte⟩ := (irq_iff t).mp ht
      obtain rfl | ⟨hr, c, rfl⟩ | ⟨hr, i, _, heff⟩ := coreStep_cases h
      · exact absurd ht (by simp [hs])
      · exact .inl ⟨rfl, hr, rfl, rfl, hte⟩
      · have hse : s.irqen = true := heff.keeps_inputs.1 ▸ hte
        obtain ⟨hp, _⟩ | ⟨_, _, _, _, hd, _⟩ := heff.done_or_waiting
        · exact .inl ⟨rfl, hr, hp, htd, hse⟩
        · exact absurd ((irq_iff s).mpr ⟨hd ▸ htd, hse⟩) (by simp [hs])
    | entropy req bytes =>
      cases h
      obtain h | ⟨k, _, _, h⟩ := entropyAnswer_cases req bytes s <;> rw [h] at ht <;> exact absurd ht (not_irq_of_same hs rfl rfl)
    | hwReset => cases h; cases ht

/-! ## Precise errors -/

/-- A command that newly sets ERR has raised a cause and written nothing else, but for CFGOK of a failing CFGCHK and ITER of a
capped SIGN. -/
inductive RaisedEnd (i : Instr) (s : State) : State → Prop
  | plain (l : List RegName) (c : Cause) : RaisedEnd i s ((s.noteReads l).raise c)
  | check (l : List RegName) (c : Cause) (hi : i = .cfgchk) : RaisedEnd i s ({ s.noteReads l with cfgok := false }.raise c)
  | capped (l : List RegName) (n : Word) (ra : XReg) (hi : i = .sign ra) :
      RaisedEnd i s ({ s.noteReads l with iter := n }.raise .iterCap)

theorem LoopEnd.raisedEnd {k : SignLoop} {s t : State} (ra : XReg) (l : List RegName) (h : LoopEnd k (s.noteReads l) t)
    (hs : s.err = false) (ht : t.err = true) : RaisedEnd (.sign ra) s t := by
  cases h with
  | failed => exact .plain l _
  | capped => exact .capped l _ ra rfl
  | waits | signed => exact absurd (hs.symm.trans ht) Bool.false_ne_true

theorem Effect.raisedEnd {i : Instr} {s t : State} (h : Effect i s t) (hs : s.err = false) (ht : t.err = true) :
    RaisedEnd i s t := by
  cases h with
  | raised l c => exact .plain l c
  | cfgFailed c hi => exact .check curveRegs c hi
  | cfgPassed | wroteX | wroteQ | wroteBuf | wroteResult => exact absurd (hs.symm.trans ht) Bool.false_ne_true
  | memoized l m =>
    obtain ⟨⟨_, _, he, _⟩, _⟩ := edwardsFrame_writeMemo (s.noteReads l) m ((s.noteReads l).writeMemo m).q
    exact absurd (hs.symm.trans (he.symm.trans ht)) Bool.false_ne_true
  | converted l m qd x y =>
    obtain ⟨⟨_, _, he, _⟩, _⟩ := edwardsFrame_writeMemo (s.noteReads l) m (((s.noteReads l).writeMemo m).setQ qd x y false).q
    exact absurd (hs.symm.trans (he.symm.trans ht)) Bool.false_ne_true
  | entered ra hi k =>
    subst hi
    obtain h | h := State.enterLoop_end k (s.noteReads [.x ra])
    · exact h.raisedEnd ra [.x ra] hs ht
    · exact h.raisedEnd ra [.x ra] hs ht
  | resumed ra hi k bytes =>
    subst hi
    exact LoopEnd.raisedEnd ra [] (by rw [s.noteReads_nil]; exact State.iterate_end k bytes s) hs ht

/-- Settles O25: each way to raise leaves what `RaisedEnd` shows. -/
theorem preciseErrors : Obligations.PreciseErrors := by
  intro i s t h hs ht
  have heff := exec_effect i s t h
  have hinputs := heff.keeps_inputs
  cases heff.raisedEnd hs ht with
  | plain l c =>
    exact ⟨⟨rfl, rfl, cause_mem_errorTable c⟩, ⟨rfl, rfl, rfl, fun _ => rfl⟩, rfl, rfl, rfl, hinputs, .inl rfl, .inl rfl⟩
  | check l c hi =>
    exact ⟨⟨rfl, rfl, cause_mem_errorTable c⟩, ⟨rfl, rfl, rfl, fun _ => rfl⟩, rfl, rfl, rfl, hinputs, .inr ⟨hi, rfl⟩, .inl rfl⟩
  | capped l n ra hi =>
    exact ⟨⟨rfl, rfl, cause_mem_errorTable .iterCap⟩, ⟨rfl, rfl, rfl, fun _ => rfl⟩, rfl, rfl, rfl, hinputs, .inl rfl,
      .inr ⟨⟨ra, hi⟩, rfl, rfl⟩⟩

/-! ## RESULT -/

theorem LoopEnd.keeps_result {k : SignLoop} {s t : State} (h : LoopEnd k s t) : t.result = s.result := by cases h <;> rfl

/-- Settles O26: the one ending that writes RESULT is the one of XCMP, PCHK and VERIFY, which is a completion without error. -/
theorem resultWriters : Obligations.ResultWriters := by
  intro i s t h hne
  cases exec_effect i s t h with
  | wroteResult l b hi => exact ⟨hi, rfl, rfl, rfl, rfl, rfl⟩
  | raised | cfgFailed | cfgPassed | wroteX | wroteQ | wroteBuf => exact absurd rfl hne
  | memoized l m =>
    obtain ⟨_, _, _, _, hr, _⟩ := edwardsFrame_writeMemo (s.noteReads l) m ((s.noteReads l).writeMemo m).q
    exact absurd hr hne
  | converted l m qd x y =>
    obtain ⟨_, _, _, _, hr, _⟩ := edwardsFrame_writeMemo (s.noteReads l) m (((s.noteReads l).writeMemo m).setQ qd x y false).q
    exact absurd hr hne
  | entered ra hi k =>
    obtain h | h := State.enterLoop_end k (s.noteReads [.x ra])
    · exact absurd h.keeps_result hne
    · exact absurd h.keeps_result hne
  | resumed ra hi k bytes => exact absurd (State.iterate_end k bytes s).keeps_result hne

end Sys2Proof.Machine
end

section
/-! SUPPORT. The host's accesses of the window in every state: which offsets are mapped (20_memory.md R40, R43, R46), the control
and status registers word by word (10_state.md section 3), what BUSY lets a host do (20_memory.md R50), and what a read changes
(R49). -/

namespace Sys2Proof.Machine

open Sys2Proof.Claims

/-! ## Mapped offsets -/

theorem targetAt_of_mapped {o : Nat} (h : mapped o) : o % 4 = 0 ∧ ∃ g, targetAt o = some g := by
  obtain ⟨ho, h⟩ := h
  refine ⟨ho, Option.isSome_iff_exists.mp ((targetAt_isSome_iff o).mpr ?_)⟩
  omega

theorem mapped_of_targetAt {o : Nat} (ho : o % 4 = 0) {g : Target} (h : targetAt o = some g) : mapped o := by
  have hs := (targetAt_isSome_iff o).mp (by simp [h])
  refine ⟨ho, ?_⟩
  omega

/-- An access is performed exactly with all four lanes at a mapped offset (20_memory.md R45, R46). -/
theorem Access.target_eq_none_iff (a : Access) : a.target = none ↔ ¬ (mapped a.off ∧ a.lanes = 0xF) := by
  unfold Access.target
  split
  · next h =>
    refine ⟨fun hn hm => ?_, fun hn => ?_⟩
    · obtain ⟨_, g, hg⟩ := targetAt_of_mapped hm.1
      simp [hn] at hg
    · cases hg : targetAt a.off with
      | none => rfl
      | some g => exact absurd ⟨mapped_of_targetAt h.1 hg, h.2⟩ hn
  · next h => exact ⟨fun _ hm => h ⟨hm.1.1, hm.2⟩, fun _ => rfl⟩

/-- The offsets of the seven registers that a host reads exactly while BUSY = 1 (20_memory.md R40, R50). -/
theorem targetAt_readableBusy {o : Nat} {g : Target} (ho : o % 4 = 0) (h : targetAt o = some g) (hg : g.readableBusy = true) :
    (o, g) ∈ [(0x00, Target.id), (0x04, .ctrl), (0x08, .cmd), (0x0C, .status), (0x10, .errinfo), (0x14, .iter),
      (0x18, .itercap)] := by
  unfold targetAt at h
  split_ifs at h with h1
  · have hcsr : ∀ k : Fin 16, ∀ g ∈ csrAt k, g.readableBusy = true →
        (4 * k.val, g) ∈ [(0x00, Target.id), (0x04, .ctrl), (0x08, .cmd), (0x0C, .status), (0x10, .errinfo), (0x14, .iter),
          (0x18, .itercap)] := by decide
    have hk := hcsr ⟨o / 4, by omega⟩ g h hg
    rwa [show 4 * (o / 4) = o by omega] at hk
  · obtain ⟨r, _, rfl⟩ := Option.map_eq_some_iff.mp h
    cases hg
  · cases h; cases hg
  · simp only [pointWordAt, Option.some.injEq] at h
    split_ifs at h <;> cases h <;> cases hg
  · cases h; cases hg

/-! ## The words of the control and status registers -/

/-- One more bit above a word's bits (10_state.md R25). -/
theorem or_bitAt_toNat {x : Word} {n : Nat} (b : Bool) (k : Nat) (hk : k < 32) (hx : x.toNat = n) (hn : n < 2 ^ k) :
    (x ||| bitAt b k).toNat = n + 2 ^ k * bit b ∧ n + 2 ^ k * bit b < 2 ^ (k + 1) := by
  have hpow : 2 ^ (k + 1) = 2 * 2 ^ k := by ring
  have hlt : 2 ^ k < 2 ^ 32 := Nat.pow_lt_pow_right (by decide) hk
  cases b with
  | false => simp [bitAt, bit, hx]; omega
  | true =>
    have hor := shift_or_eq_add 1 n k hn
    rw [one_mul] at hor
    rw [BitVec.toNat_or, hx, bitAt, if_pos rfl, BitVec.toNat_ofNat, Nat.mod_eq_of_lt hlt, Nat.lor_comm, hor, bit, if_pos rfl]
    omega

theorem bitAt_toNat (b : Bool) : (bitAt b 0).toNat = bit b := by cases b <;> rfl

theorem bit_lt (b : Bool) : bit b < 2 := by cases b <;> decide

/-- The STATUS word by its fields (10_state.md R25). -/
theorem State.statusWord_eq (s : State) : s.statusWord = BitVec.ofNat 32 (statusVal s) := by
  obtain ⟨e1, l1⟩ := or_bitAt_toNat s.done 1 (by decide) (bitAt_toNat s.busy) (bit_lt _)
  obtain ⟨e2, l2⟩ := or_bitAt_toNat s.err 2 (by decide) e1 l1
  obtain ⟨e3, l3⟩ := or_bitAt_toNat s.cfgok 3 (by decide) e2 l2
  obtain ⟨e4, l4⟩ := or_bitAt_toNat s.result 4 (by decide) e3 l3
  obtain ⟨e5, l5⟩ := or_bitAt_toNat s.entw 5 (by decide) e4 l4
  obtain ⟨e6, l6⟩ := or_bitAt_toNat s.ovf 6 (by decide) e5 l5
  obtain ⟨e7, l7⟩ := or_bitAt_toNat s.werr 7 (by decide) e6 l6
  obtain ⟨e8, l8⟩ := or_bitAt_toNat s.buserr 8 (by decide) e7 l7
  have hcode := s.errcode.isLt
  have hshift : (s.errcode.setWidth 32 <<< 12).toNat = s.errcode.toNat * 2 ^ 12 := by
    rw [BitVec.toNat_shiftLeft, BitVec.toNat_setWidth, Nat.shiftLeft_eq]
    omega
  have hval : s.statusWord.toNat = statusVal s := by
    rw [State.statusWord, BitVec.toNat_or, hshift, e8, Nat.lor_comm, shift_or_eq_add _ _ 12 (by omega), statusVal]
    ring
  rw [← hval, BitVec.ofNat_toNat, BitVec.setWidth_eq]

theorem State.ctrlWord_eq (s : State) : s.ctrlWord = BitVec.ofNat 32 (2 * bit s.irqen) := by
  unfold State.ctrlWord
  cases s.irqen <;> rfl

theorem State.cfgfWord_eq (s : State) : s.cfgfWord = BitVec.ofNat 32 (bit s.edw + 2 * bit s.stv) := by
  unfold State.cfgfWord
  cases s.edw <;> cases s.stv <;> rfl

theorem setWidth_eq_ofNat {n m : Nat} (v : BitVec n) : v.setWidth m = BitVec.ofNat m v.toNat := (BitVec.ofNat_toNat m v).symm

theorem ok_eq_ofNat {ε : Type} (v : Word) : (Except.ok v : Except ε Word) = .ok (BitVec.ofNat 32 v.toNat) := by
  rw [BitVec.ofNat_toNat, BitVec.setWidth_eq]

/-- A descriptor's word by its fields (10_state.md R32). -/
theorem Desc.word_eq (d : Desc) : d.word = BitVec.ofNat 32 (d.off.toNat + 2 ^ 16 * d.len.toNat) := by
  have ho := d.off.isLt
  have hl := d.len.isLt
  have hshift : (d.len.setWidth 32 <<< 16).toNat = d.len.toNat * 2 ^ 16 := by
    rw [BitVec.toNat_shiftLeft, BitVec.toNat_setWidth, Nat.shiftLeft_eq]
    omega
  have hval : d.word.toNat = d.off.toNat + 2 ^ 16 * d.len.toNat := by
    rw [Desc.word, BitVec.toNat_or, hshift, BitVec.toNat_setWidth, Nat.lor_comm, shift_or_eq_add _ _ 16 (by omega)]
    omega
  rw [← hval, BitVec.ofNat_toNat, BitVec.setWidth_eq]

/-- The model's acknowledgement is the one of the statements. -/
theorem clearStatus_eq_w1c (s : State) (w : Word) : s.clearStatus w = w1c w s := by
  have hb : ∀ b c : Bool, (b && !c) = if c = true then false else b := by decide
  simp only [State.clearStatus, w1c, hb]

/-- A host reads each of the seven registers exactly in every state (20_memory.md R50). -/
theorem step_hostR_exact {s : State} {o v : Nat} (h : (o, v) ∈ exactReads s) :
    step (facing (hostR o) s) = .next { s with busRead := some (BitVec.ofNat 32 v) } := by
  simp only [exactReads, List.mem_cons, List.not_mem_nil, or_false, Prod.mk.injEq] at h
  obtain ⟨rfl, rfl⟩ | ⟨rfl, rfl⟩ | ⟨rfl, rfl⟩ | ⟨rfl, rfl⟩ | ⟨rfl, rfl⟩ | ⟨rfl, rfl⟩ | ⟨rfl, rfl⟩ := h
  · exact step_hostR_written (g := .id) (.inr rfl) rfl rfl rfl rfl
  · exact step_hostR_written (g := .ctrl) (.inr rfl) rfl rfl (congrArg _ s.ctrlWord_eq) rfl
  · exact step_hostR_written (g := .cmd) (.inr rfl) rfl rfl (ok_eq_ofNat _) rfl
  · exact step_hostR_written (g := .status) (.inr rfl) rfl rfl (congrArg _ s.statusWord_eq) rfl
  · exact step_hostR_written (g := .errinfo) (.inr rfl) rfl rfl (congrArg _ (setWidth_eq_ofNat _)) rfl
  · exact step_hostR_written (g := .iter) (.inr rfl) rfl rfl (ok_eq_ofNat _) rfl
  · exact step_hostR_written (g := .itercap) (.inr rfl) rfl rfl (ok_eq_ofNat _) rfl

/-! ## Steps of the host -/

/-- A full-width write of STATUS is performed in every state (20_memory.md R50). -/
theorem step_hostW_status (s : State) (w : Word) : step (facing (hostW 0x0C w) s) = .next (w1c w s) := by
  rw [← clearStatus_eq_w1c]
  cases hb : s.busy with
  | false => exact step_hostW_idle (g := .status) w hb rfl rfl (by simp)
  | true =>
    have ha := (hostAccess_write s ⟨0x0C, 0xF, .write w⟩ .status w (Access.target_full _ _) rfl).trans
      (congrArg _ (State.hostWrite_always s .status w rfl))
    exact (step_host s _).trans ((hostMove_busy s _ hb).trans ha)

/-- A CMD write while BUSY = 1 or ERR = 1 is dropped with OVF (60_exceptions.md R141). -/
theorem step_hostW_cmd_dropped {s : State} (w : Word) (h : s.busy = true ∨ s.err = true) :
    step (facing (hostW 0x08 w) s) = .next { s with ovf := true } := by
  have hissue : s.issue w = { s with ovf := true } := if_pos h
  have ha : hostAccess ⟨0x08, 0xF, .write w⟩ s = .next { s with ovf := true } := by
    rw [hostAccess_write s _ .cmd w (Access.target_full _ _) rfl, State.hostWrite_always s .cmd w rfl, State.performWrite, hissue]
  refine (step_host s _).trans ?_
  cases hb : s.busy with
  | false => exact hostMove_quiet s _ _ ha hb
  | true => exact (hostMove_busy s _ hb).trans ha

/-- A read that BUSY hides is a draw (20_memory.md R50; log 7, 21). -/
theorem step_hostR_hidden {s : State} {o : Nat} {g : Target} (hb : s.busy = true) (ho : o % 4 = 0) (hg : targetAt o = some g)
    (hr : g.readableBusy = false) : step (facing (hostR o) s) =
      .next { s with busRead := some (Config.busyRead s.draws), draws := s.draws + 1 } := by
  have ht : (⟨o, 0xF, .read⟩ : Access).target = some g := by rw [Access.target_full, if_pos ho, hg]
  refine (step_host s _).trans ((hostMove_busy s _ hb).trans ((hostAccess_read s _ g ht rfl).trans ?_))
  simp [hostRead, hb, hr]

theorem readableBusy_of_writableBusy {g : Target} (h : g.writableBusy = true) : g.readableBusy = true := by
  cases g with
  | ctrl | cmd | status => rfl
  | id | errinfo | iter | itercap | bytelen | h | cfgf | desc | prm | x | qx | qy | qinf | qres | buf => cases h

/-- Settles O9: CTRL, STATUS and CMD keep their own rules, every other write is dropped, and every read but those of the seven
registers is a draw. -/
theorem busyWindow : Obligations.BusyWindow := by
  intro s hb
  refine ⟨step_hostW_ctrl s, step_hostW_status s, fun w => step_hostW_cmd_dropped w (.inl hb), fun o w hm h4 h8 hc => ?_,
    fun o v => step_hostR_exact, fun o hm hv => ?_⟩
  · obtain ⟨ho, g, hg⟩ := targetAt_of_mapped hm
    refine step_hostW_busy w hb ho hg (Bool.eq_false_iff.mpr fun hw => ?_)
    have hmem := targetAt_readableBusy ho hg (readableBusy_of_writableBusy hw)
    simp only [List.mem_cons, List.not_mem_nil, or_false, Prod.mk.injEq] at hmem
    obtain ⟨_, rfl⟩ | ⟨h, _⟩ | ⟨h, _⟩ | ⟨h, _⟩ | ⟨_, rfl⟩ | ⟨_, rfl⟩ | ⟨_, rfl⟩ := hmem
    · cases hw
    · exact h4 h
    · exact h8 h
    · exact hc h
    all_goals cases hw
  · obtain ⟨ho, g, hg⟩ := targetAt_of_mapped hm
    refine ⟨_, step_hostR_hidden hb ho hg (Bool.eq_false_iff.mpr fun hr => ?_)⟩
    have hmem := targetAt_readableBusy ho hg hr
    simp only [exactReads, List.mem_cons, List.not_mem_nil, or_false, Prod.mk.injEq, not_or, not_and] at hmem hv
    obtain ⟨rfl, _⟩ | ⟨rfl, _⟩ | ⟨rfl, _⟩ | ⟨rfl, _⟩ | ⟨rfl, _⟩ | ⟨rfl, _⟩ | ⟨rfl, _⟩ := hmem <;> simp at hv

/-! ## While a command is in flight -/

/-- What a host access but a soft reset may change while BUSY = 1: its own flags, the interrupt enable and the model's record of
what was read; or a STATUS write (20_memory.md R50). -/
theorem HostEffect.of_busy {a : Access} {s t : State} (h : HostEffect a s t) (hb : s.busy = true) (hn : notSoftReset a) :
    t = { s with irqen := t.irqen, ovf := t.ovf, werr := t.werr, buserr := t.buserr, draws := t.draws, busRead := t.busRead } ∨
    ∃ w, t = s.clearStatus w := by
  cases h with
  | recorded b v n u _ hu =>
    rw [hu hb]
    exact .inl rfl
  | dropped | refused => exact .inl rfl
  | accepted w u _ hidle => exact absurd (hidle.symm.trans hb) Bool.false_ne_true
  | performed g w hg ht ho hw =>
    cases g with
    | status => exact .inr ⟨w, rfl⟩
    | ctrl =>
      have ha := access_of_target_ctrl ht ho
      have h0 : ¬ w.getLsbD 0 = true := fun h0 => hn ⟨by rw [ha], by rw [ha], w, ho, h0⟩
      rw [State.performWrite, State.writeCtrl, if_neg h0]
      exact .inl rfl
    | cmd => exact absurd rfl hg
    | id | errinfo | iter | itercap | bytelen | h | cfgf | desc | prm | x | qx | qy | qinf | qres | buf => cases hw hb

/-- Settles O10: no operand, result or hidden state is among what a host access may change. -/
theorem operandsStableWhileBusy : Obligations.OperandsStableWhileBusy := by
  intro s t a hb hn h
  rw [step_facing] at h
  obtain h | ⟨w, rfl⟩ := (hostMove_effect h).of_busy hb hn
  · rw [h]
    exact ⟨rfl, rfl, rfl, rfl, rfl, rfl, rfl, rfl, rfl, rfl, rfl, rfl, rfl, rfl, rfl, rfl⟩
  · exact ⟨rfl, rfl, rfl, rfl, rfl, rfl, rfl, rfl, rfl, rfl, rfl, rfl, rfl, rfl, rfl, rfl⟩

/-! ## Accesses that are not performed -/

theorem hostMove_of_same_busy {a : Access} {s t : State} (h : hostAccess a s = .next t) (hb : t.busy = s.busy) :
    hostMove a s = .next t := by
  cases hs : s.busy with
  | false => exact hostMove_quiet s t a h (hb.trans hs)
  | true => exact (hostMove_busy s a hs).trans h

theorem hostMove_of_target_none {a : Access} {s : State} (h : a.target = none) : hostMove a s =
    .next (if a.op = .read then { s with buserr := true, busRead := some 0 } else { s with buserr := true }) := by
  refine hostMove_of_same_busy (hostAccess_none s a h) ?_
  split <;> rfl

/-- A performed access does not raise BUSERR (20_memory.md R45, R46). -/
theorem HostEffect.buserr_of_target {a : Access} {s t : State} (h : HostEffect a s t) (ha : a.target ≠ none)
    (ht : t.buserr = true) : s.buserr = true := by
  cases h with
  | recorded b v n u hb => exact (hb.resolve_right ha) ▸ ht
  | dropped | refused | accepted => exact ht
  | performed g w hg =>
    cases g with
    | status => exact (Bool.and_eq_true_iff.mp ht).1
    | ctrl =>
      simp only [State.performWrite, State.writeCtrl] at ht
      split at ht
      · cases ht
      · exact ht
    | prm r => cases r <;> exact ht
    | cmd => exact absurd rfl hg
    | id | errinfo | iter | itercap | bytelen | h | cfgf | desc | x | qx | qy | qinf | qres | buf => exact ht

/-- Settles O14: such an access has no target, and one with a target does not raise BUSERR. -/
theorem badAccesses : Obligations.BadAccesses := by
  intro s a
  refine ⟨fun h => ?_, fun h t ht => (hostMove_effect ht).buserr_of_target fun hn => (a.target_eq_none_iff.mp hn) h⟩
  have hm := hostMove_of_target_none (s := s) (a.target_eq_none_iff.mpr h)
  exact ⟨fun w ho => hm.trans (by simp [ho]), fun ho => hm.trans (by simp [ho])⟩

/-! ## Reads -/

/-- A read changes nothing but its outcome (20_memory.md R49). -/
theorem HostEffect.of_read {a : Access} {s t : State} (h : HostEffect a s t) (ho : a.op = .read) :
    t = { s with buserr := t.buserr, busRead := t.busRead, draws := t.draws, unwrittenRead := t.unwrittenRead } ∧
    (t.buserr = s.buserr ∨ a.target = none) := by
  cases h with
  | recorded b v n u hb => exact ⟨rfl, hb⟩
  | dropped hne | refused hne | accepted _ _ hne => exact absurd ho hne
  | performed g w _ _ hw => rw [ho] at hw; cases hw

/-- A second read of the same word returns the same (20_memory.md R49). -/
theorem hostMove_read_again {a : Access} {s t : State} (hb : s.busy = false) (ho : a.op = .read) (h : hostMove a s = .next t) :
    ∃ t', hostMove a t = .next t' ∧ t'.busRead = t.busRead := by
  cases hta : a.target with
  | none =>
    rw [hostMove_of_target_none hta, if_pos ho] at h
    cases h
    exact ⟨_, (hostMove_of_target_none hta).trans (by rw [if_pos ho]), rfl⟩
  | some g =>
    have hread (u : State) : hostAccess a u = hostRead g u := hostAccess_read u a g hta ho
    cases hv : s.wordAt g with
    | error i =>
      have hf : hostAccess a s = .fault (.unwrittenRead i) := by simp [hread, hostRead, hb, hv]
      rw [hostMove_fault s a _ hf] at h
      cases h
    | ok w =>
      have hs := (hread s).trans (hostRead_exact s g w (.inl hb) hv)
      rw [hostMove_quiet s _ a hs hb] at h
      cases h
      have hs' := (hread _).trans (hostRead_exact { s with busRead := some w, unwrittenRead := s.unwrittenRead || !s.wordWritten g }
        g w (.inl hb) hv)
      exact ⟨_, hostMove_quiet _ _ a hs' hb, rfl⟩

/-- Settles O21: a read is the effect `recorded`, and what it returns is the value of a word that no read changes. -/
theorem hostReadsHaveNoSideEffects : Obligations.HostReadsHaveNoSideEffects := by
  intro s t a ho h
  obtain ⟨ht, hbus⟩ := (hostMove_effect h).of_read ho
  exact ⟨ht, fun hm hl => hbus.resolve_right fun hn => (a.target_eq_none_iff.mp hn) ⟨hm, hl⟩,
    fun hb => hostMove_read_again hb ho h⟩

/-! ## The control and status registers while BUSY = 0 -/

theorem getElem_set_fin_self {α : Type} {n : Nat} (v : Vector α n) (i : Fin n) (a : α) : (v.set i a)[i] = a :=
  Vector.getElem_set_self _

/-- Settles O18: the effect of each performed write, and the word of each register by its fields. -/
theorem controlRegisterAccess : Obligations.ControlRegisterAccess := by
  intro s w hb
  refine ⟨fun o ho => ?_, fun h0 => ?_, step_hostW_idle (g := .itercap) w hb rfl rfl (by simp), ?_,
    step_hostW_idle (g := .h) w hb rfl rfl (by simp), fun k => ?_, fun o v h => ?_, fun k => ?_⟩
  · simp only [List.mem_cons, List.not_mem_nil, or_false] at ho
    obtain rfl | rfl | rfl := ho
    · exact step_hostW_idle (g := .id) w hb rfl rfl (by simp)
    · exact step_hostW_idle (g := .errinfo) w hb rfl rfl (by simp)
    · exact step_hostW_idle (g := .iter) w hb rfl rfl (by simp)
  · rw [step_hostW_ctrl, State.writeCtrl, if_neg (ne_true_of_eq_false h0)]
  · rw [step_hostW_idle (g := .bytelen) w hb rfl rfl (by simp), State.performWrite, setWidth_eq_ofNat]
  · have hk : (0x30 + 4 * k.val) % 4 = 0 := by omega
    refine moves_hostW_idle hb hk (targetAt_desc k) (by simp) ?_
    have hd : (s.performWrite (.desc k) w).desc[k] = Desc.ofWord w := getElem_set_fin_self _ _ _
    refine ⟨?_, ?_, fun k' hk' => getElem_set_fin_ne _ _ hk', rfl⟩
    · rw [off, hd, Desc.ofWord, BitVec.extractLsb'_toNat, Nat.shiftRight_zero]
    · rw [len, hd, Desc.ofWord, BitVec.extractLsb'_toNat, Nat.shiftRight_eq_div_pow]
  · rw [List.mem_append] at h
    obtain h | h := h
    · exact step_hostR_exact h
    · simp only [List.mem_cons, List.not_mem_nil, or_false, Prod.mk.injEq] at h
      obtain ⟨rfl, rfl⟩ | ⟨rfl, rfl⟩ | ⟨rfl, rfl⟩ := h
      · exact step_hostR_written (g := .bytelen) (.inl hb) rfl rfl (congrArg _ (setWidth_eq_ofNat _)) rfl
      · exact step_hostR_written (g := .h) (.inl hb) rfl rfl (ok_eq_ofNat _) rfl
      · exact step_hostR_written (g := .cfgf) (.inl hb) rfl rfl (congrArg _ s.cfgfWord_eq) rfl
  · have hk : (0x30 + 4 * k.val) % 4 = 0 := by omega
    exact step_hostR_written (.inl hb) hk (targetAt_desc k) (congrArg _ s.desc[k].word_eq) rfl

end Sys2Proof.Machine
end

section
/-! SUPPORT. What a command reads (10_state.md R21; log 2, 3, 11, 18): for each shared body and each command, the BUF ranges at
which it can stop and the registers whose unwritten words it records, and the accept step, which makes the same reads (60_exceptions.md
R142). -/

namespace Sys2Proof.Machine

open Sys2Proof.Claims

/-! ## Ranges of BUF -/

theorem rangeWritten_iff {s : State} {k : DescSel} :
    rangeWritten s k = true ↔ ∀ a, off s k ≤ a → a < off s k + len s k → s.buf.read a ≠ none := by
  simp only [rangeWritten, List.all_eq_true, List.mem_range, Option.isSome_iff_ne_none]
  refine ⟨fun h a h1 h2 => ?_, fun h j hj => h _ (by omega) (by omega)⟩
  have hj := h (a - off s k) (by omega)
  rwa [Nat.add_sub_cancel' h1] at hj

theorem rangeWritten_of_descBytes {s : State} {k : DescSel} {bs : List Byte} (h : s.descBytes k = .ok bs) :
    rangeWritten s k = true := by
  obtain ⟨hl, hr⟩ := s.buf.readBytes_ok _ _ bs h
  simp only [rangeWritten, List.all_eq_true, List.mem_range]
  intro j hj
  rw [show s.buf.read (off s k + j) = bs[j]? from hr j hj, List.getElem?_eq_getElem (hl ▸ hj)]
  rfl

theorem unwritten_of_descBytes {s : State} {k : DescSel} {a : Nat} (h : s.descBytes k = .error a) :
    s.buf.read a = none ∧ off s k ≤ a ∧ a < off s k + len s k := by
  obtain ⟨h1, h2, hn⟩ := s.buf.readBytes_error _ _ a h
  exact ⟨hn, h1, h2⟩

/-! ## The outcome of reads -/

/-- The outcome of a command that reads the ranges of the descriptors `ks` and then the registers `l`: it stops at an unwritten byte
of a range, before it has read a register, or it answers, with the registers' unwritten words recorded. -/
def readsAs (s : State) (ks : List DescSel) (l : List RegName) (o : Out) : Prop :=
  (∃ t, o = .next t ∧ (∀ k ∈ ks, rangeWritten s k = true) ∧ t.unwrittenRead = (s.noteReads l).unwrittenRead) ∨
  (l = [] ∧ ∃ a, o = .fault (.unwrittenRead a) ∧ s.buf.read a = none ∧ ∃ k ∈ ks, off s k ≤ a ∧ a < off s k + len s k)

section
variable {s t : State} {ks : List DescSel} {l : List RegName} {o : Out}

theorem readsAs_next (h : t.unwrittenRead = (s.noteReads l).unwrittenRead) : readsAs s [] l (.next t) :=
  .inl ⟨t, rfl, by simp, h⟩

theorem readsAs_nothing (h : t.unwrittenRead = s.unwrittenRead) : readsAs s [] [] (.next t) :=
  readsAs_next (by rw [h, State.noteReads_nil])

theorem readsAs_written (hk : ∀ k ∈ ks, rangeWritten s k = true) (h : t.unwrittenRead = (s.noteReads l).unwrittenRead) :
    readsAs s ks l (.next t) := .inl ⟨t, rfl, hk, h⟩

theorem readsAs_stop {k : DescSel} {a : Nat} (hk : k ∈ ks) (h : s.descBytes k = .error a) :
    readsAs s ks [] (.fault (.unwrittenRead a)) := by
  obtain ⟨hn, h1, h2⟩ := unwritten_of_descBytes h
  exact .inr ⟨rfl, a, rfl, hn, k, hk, h1, h2⟩

/-- A command that needs the configuration reads only with it (42_curve.md R96). -/
theorem readsAs_configured (h : s.cfgok = true → readsAs s [] l o) :
    readsAs s [] (if s.cfgok = true then l else []) (if s.cfgok = false then .next (s.raise .cfgNotOk) else o) := by
  cases hc : s.cfgok with
  | true => exact h hc
  | false => exact readsAs_nothing rfl

end

/-! ## The shared bodies -/

section
variable (s : State)

theorem fieldCommand_reads (m : Modulus) (rd : XReg) (srcs : List XReg) (f : Nat → Except Cause Nat) :
    readsAs s [] (fieldReads m (srcs.map .x) s) (fieldCommand m rd srcs f s) := by
  unfold fieldCommand fieldReads
  rw [modulusVal_eq, modulusReg_eq]
  by_cases hm : modOK (s.prmVal (modReg m)) = true
  · rw [if_pos hm, if_pos ((modOK_iff _).mp hm)]
    exact readsAs_next (State.finishX_unwrittenRead _ _ _)
  · rw [if_neg hm, if_neg (mt (modOK_iff _).mpr hm)]
    exact readsAs_next rfl

theorem loadBytes_reads (value : List Byte → Nat) (r : XReg) (k : DescSel) :
    readsAs s (if off s k + len s k ≤ 1024 ∧ len s k ≤ 64 then [k] else []) [] (loadBytes value r k s) := by
  unfold loadBytes
  by_cases hd : off s k + len s k ≤ 1024
  case neg =>
    rw [if_neg fun h => hd h.1, if_pos (State.descOk_eq_false_iff.mpr (Nat.lt_of_not_le hd))]
    exact readsAs_nothing rfl
  rw [if_neg (State.descOk_of_within hd), State.descLen_eq]
  by_cases hl : len s k ≤ 64
  case neg =>
    rw [if_neg fun h => hl h.2, if_pos (Nat.lt_of_not_le hl)]
    exact readsAs_nothing rfl
  rw [if_pos ⟨hd, hl⟩, if_neg (Nat.not_lt.mpr hl)]
  cases hb : s.descBytes k with
  | error a => exact readsAs_stop (List.mem_singleton_self k) hb
  | ok bs =>
    refine readsAs_written (fun k' hk' => ?_) (by rw [State.noteReads_nil]; rfl)
    rw [List.mem_singleton.mp hk']
    exact rangeWritten_of_descBytes hb

theorem storeBytes_reads (bytes : Nat → Nat → List Byte) (r : XReg) (k : DescSel) :
    readsAs s [] (if off s k + len s k ≤ 1024 ∧ len s k ≤ 64 then [.x r] else []) (storeBytes bytes r k s) := by
  unfold storeBytes
  by_cases hd : off s k + len s k ≤ 1024
  case neg =>
    rw [if_neg fun h => hd h.1, if_pos (State.descOk_eq_false_iff.mpr (Nat.lt_of_not_le hd))]
    exact readsAs_nothing rfl
  rw [if_neg (State.descOk_of_within hd), State.descLen_eq]
  by_cases hl : len s k ≤ 64
  case neg =>
    rw [if_neg fun h => hl h.2, if_pos (Nat.lt_of_not_le hl)]
    exact readsAs_nothing rfl
  rw [if_pos ⟨hd, hl⟩, if_neg (Nat.not_lt.mpr hl)]
  split
  · exact readsAs_next rfl
  · exact readsAs_next rfl

theorem encodeCommand_reads (n : Nat) (enc : Point → Except Cause (List Byte)) (q : QReg) (k : DescSel) :
    readsAs s [] (if off s k + len s k ≤ 1024 ∧ s.cfgok = true ∧ len s k = n then [.q q] else [])
      (encodeCommand n enc q k s) := by
  unfold encodeCommand
  by_cases hd : off s k + len s k ≤ 1024
  case neg =>
    rw [if_neg fun h => hd h.1, if_pos (State.descOk_eq_false_iff.mpr (Nat.lt_of_not_le hd))]
    exact readsAs_nothing rfl
  rw [if_neg (State.descOk_of_within hd), State.descLen_eq]
  cases hc : s.cfgok with
  | false =>
    rw [if_neg (by simp), if_pos rfl]
    exact readsAs_nothing rfl
  | true =>
    by_cases hl : len s k = n
    case neg =>
      rw [if_neg fun h => hl h.2.2, if_neg (by decide), if_pos hl]
      exact readsAs_nothing rfl
    rw [if_pos ⟨hd, rfl, hl⟩, if_neg (by decide), if_neg (not_not.mpr hl)]
    exact readsAs_next (State.finishBuf_unwrittenRead _ _ _)

theorem execPdec_reads (q : QReg) (k : DescSel) :
    readsAs s (if off s k + len s k ≤ 1024 ∧ s.cfgok = true ∧ len s k = 1 + 2 * s.bytelen.toNat then [k] else []) []
      (execPdec q k s) := by
  unfold execPdec
  by_cases hd : off s k + len s k ≤ 1024
  case neg =>
    rw [if_neg fun h => hd h.1, if_pos (State.descOk_eq_false_iff.mpr (Nat.lt_of_not_le hd))]
    exact readsAs_nothing rfl
  rw [if_neg (State.descOk_of_within hd), State.descLen_eq, State.bl_eq]
  cases hc : s.cfgok with
  | false =>
    rw [if_neg (by simp), if_pos rfl]
    exact readsAs_nothing rfl
  | true =>
    by_cases hl : len s k = 1 + 2 * s.bytelen.toNat
    case neg =>
      rw [if_neg fun h => hl h.2.2, if_neg (by decide), if_pos hl]
      exact readsAs_nothing rfl
    rw [if_pos ⟨hd, rfl, hl⟩, if_neg (by decide), if_neg (not_not.mpr hl)]
    cases hb : s.descBytes k with
    | error a => exact readsAs_stop (List.mem_singleton_self k) hb
    | ok bs =>
      refine readsAs_written (fun k' hk' => ?_) (by rw [State.finishQ_unwrittenRead, State.noteReads_nil])
      rw [List.mem_singleton.mp hk']
      exact rangeWritten_of_descBytes hb

/-- The three descriptors of SIGN and VERIFY are in range (30_encoding.md R67). -/
theorem descsOk_three {s : State} : ¬ (s.descOk 0 = false ∨ s.descOk 1 = false ∨ s.descOk 2 = false) ↔
    off s 0 + len s 0 ≤ 1024 ∧ off s 1 + len s 1 ≤ 1024 ∧ off s 2 + len s 2 ≤ 1024 := by
  simp only [State.descOk_eq_false_iff, not_or, Nat.not_lt]

theorem execVerify_reads : readsAs s
    (if (off s 0 + len s 0 ≤ 1024 ∧ off s 1 + len s 1 ≤ 1024 ∧ off s 2 + len s 2 ≤ 1024) ∧ s.cfgok = true then [0, 1, 2] else [])
    [] (execVerify s) := by
  unfold execVerify
  by_cases hd : off s 0 + len s 0 ≤ 1024 ∧ off s 1 + len s 1 ≤ 1024 ∧ off s 2 + len s 2 ≤ 1024
  case neg =>
    rw [if_neg fun h => hd h.1, if_pos (not_not.mp (mt descsOk_three.mp hd))]
    exact readsAs_nothing rfl
  rw [if_neg (descsOk_three.mpr hd)]
  cases hc : s.cfgok with
  | false =>
    rw [if_neg (by simp), if_pos rfl]
    exact readsAs_nothing rfl
  | true =>
    rw [if_pos ⟨hd, rfl⟩, if_neg (by decide)]
    cases h0 : s.descBytes 0 with
    | error a => exact readsAs_stop (by simp) h0
    | ok pk =>
      cases h1 : s.descBytes 1 with
      | error a => exact readsAs_stop (by simp) h1
      | ok dig =>
        cases h2 : s.descBytes 2 with
        | error a => exact readsAs_stop (by simp) h2
        | ok sig =>
          have hk : ∀ k ∈ [(0 : DescSel), 1, 2], rangeWritten s k = true := by
            simp [rangeWritten_of_descBytes h0, rangeWritten_of_descBytes h1, rangeWritten_of_descBytes h2]
          dsimp only
          split
          · exact readsAs_written hk (by rw [State.noteReads_nil]; rfl)
          · exact readsAs_written hk (by rw [State.noteReads_nil]; rfl)

/-- SIGN from its start reads its two strings, and then its key where the lengths are right (44_signature.md R126; log 18). -/
theorem startSign_reads (ra : XReg) : readsAs s
    (if (off s 0 + len s 0 ≤ 1024 ∧ off s 1 + len s 1 ≤ 1024 ∧ off s 2 + len s 2 ≤ 1024) ∧ s.cfgok = true then [0, 1] else [])
    (if (off s 0 + len s 0 ≤ 1024 ∧ off s 1 + len s 1 ≤ 1024 ∧ off s 2 + len s 2 ≤ 1024) ∧ s.cfgok = true ∧
      rangeWritten s 0 = true ∧ rangeWritten s 1 = true ∧ (len s 1 = 0 ∨ len s 1 = s.bytelen.toNat) ∧
      len s 2 = 2 * s.bytelen.toNat then [.x ra] else []) (startSign ra s) := by
  unfold startSign
  by_cases hd : off s 0 + len s 0 ≤ 1024 ∧ off s 1 + len s 1 ≤ 1024 ∧ off s 2 + len s 2 ≤ 1024
  case neg =>
    rw [if_neg fun h => hd h.1, if_neg fun h => hd h.1, if_pos (not_not.mp (mt descsOk_three.mp hd))]
    exact readsAs_nothing rfl
  rw [if_neg (descsOk_three.mpr hd)]
  cases hc : s.cfgok with
  | false =>
    rw [if_neg (by simp), if_neg (by simp), if_pos rfl]
    exact readsAs_nothing rfl
  | true =>
    rw [if_pos ⟨hd, rfl⟩, if_neg (show ¬ true = false by decide)]
    have hstop {k : DescSel} {a : Nat} (h : s.descBytes k = .error a) : rangeWritten s k ≠ true := fun hw => by
      obtain ⟨hn, h1, h2⟩ := unwritten_of_descBytes h
      exact rangeWritten_iff.mp hw a h1 h2 hn
    cases h0 : s.descBytes 0 with
    | error a =>
      rw [if_neg fun h => hstop h0 h.2.2.1]
      exact readsAs_stop (by simp) h0
    | ok dig =>
      cases h1 : s.descBytes 1 with
      | error a =>
        rw [if_neg fun h => hstop h1 h.2.2.2.1]
        exact readsAs_stop (by simp) h1
      | ok seed =>
        have hw0 := rangeWritten_of_descBytes h0
        have hw1 := rangeWritten_of_descBytes h1
        have hk : ∀ k ∈ [(0 : DescSel), 1], rangeWritten s k = true := by simp [hw0, hw1]
        dsimp only
        rw [State.descLen_eq, State.descLen_eq, State.bl_eq]
        by_cases hl1 : len s 1 ≠ 0 ∧ len s 1 ≠ s.bytelen.toNat
        · rw [if_pos hl1, if_neg fun h => h.2.2.2.2.1.elim hl1.1 hl1.2]
          exact readsAs_written hk (by rw [State.noteReads_nil]; rfl)
        rw [if_neg hl1]
        by_cases hl2 : len s 2 = 2 * s.bytelen.toNat
        case neg =>
          rw [if_pos hl2, if_neg fun h => hl2 h.2.2.2.2.2]
          exact readsAs_written hk (by rw [State.noteReads_nil]; rfl)
        rw [if_neg (not_not.mpr hl2), if_pos ⟨hd, rfl, hw0, hw1, by tauto, hl2⟩]
        split
        · exact readsAs_written hk rfl
        · exact readsAs_written hk (State.enterLoop_unwrittenRead _ _)

/-! ## The Edwards family -/

theorem memoReadsOf_eq : memoReadsOf s = s.memoReads := by
  unfold memoReadsOf
  cases he : s.edw with
  | false => exact (if_pos he).symm
  | true =>
    by_cases hm : goodModulus (s.prmVal .p)
    · rw [State.memoReads_goodModulus he hm]
      exact if_pos hm
    · rw [State.memoReads_badModulus he hm]
      exact if_neg hm

/-- ComputeST answers exactly where it meets none of its errors (45_edwards.md R134). -/
theorem State.computeST_isOk_iff : (∃ m, s.computeST = .ok m) ↔
    s.edw = true ∧ goodModulus (s.prmVal .p) ∧ (s.stv = true ∨ Nat.gcd 6 (s.prmVal .p) = 1) := by
  cases he : s.edw with
  | false => simp [State.computeST_noEdwards he]
  | true =>
    by_cases hm : goodModulus (s.prmVal .p)
    case neg => simp [State.computeST_modulus he hm, hm]
    cases hs : s.stv with
    | true => simp [State.computeST_stored he hm hs, hm]
    | false =>
      by_cases h6 : Nat.gcd 6 (s.prmVal .p) = 1
      · obtain ⟨i4, _, hst⟩ := State.computeST_divided he hm hs
        obtain ⟨i6, hi6, _⟩ := (inv_natCast 6 (two_le_of_goodModulus hm)).2 h6
        have hi6' : inv 6 (s.prmVal .p) = some i6 := hi6
        simp [hst, hi6', hm, h6]
      · simp [State.computeST_notInvertible he hm hs h6, h6]

theorem execStcomp_reads : readsAs s [] (memoReadsOf s) (execStcomp s) := by
  unfold execStcomp
  rw [memoReadsOf_eq]
  split
  · exact readsAs_next rfl
  · exact readsAs_next (State.writeMemo_unwrittenRead _ _)

theorem convert_reads (f : Nat → Memo → Nat → Nat → Except Cause Point) (qd qa : QReg) :
    readsAs s [] (conversionReads qa s) (convert f qd qa s) := by
  unfold convert conversionReads
  rw [memoReadsOf_eq]
  have hiff := s.computeST_isOk_iff
  unfold goodModulus at hiff
  cases hst : s.computeST with
  | error c =>
    rw [if_neg (hiff.not.mp (by simp [hst]))]
    exact readsAs_next rfl
  | ok m =>
    rw [if_pos (hiff.mp ⟨m, hst⟩)]
    dsimp only
    split
    · exact readsAs_next rfl
    · split
      · exact readsAs_next rfl
      · split
        · exact readsAs_next rfl
        · exact readsAs_next ((State.setPoint_unwrittenRead _ _ _).trans (State.writeMemo_unwrittenRead _ _))

end

/-! ## Every command -/

theorem selectedRegs_eq (sel : Fin 16) : selectedRegs sel.val = (selPrm sel).toList.map .prm := by
  revert sel
  decide

/-- A command other than SIGN reads what `bytesOf` and `readsOf` list. -/
theorem exec_reads_of_ne_sign {i : Instr} (s : State) (hi : ∀ ra, i ≠ .sign ra) :
    readsAs s (bytesOf i s) (readsOf i s) (exec i s) := by
  cases i with
  | madd | msub | mmul | mdiv =>
    simp only [exec, execMadd, execMsub, execMmul, execMdiv]
    exact fieldCommand_reads s _ _ [_, _] _
  | msqr | mneg | msmul | minv | mred =>
    simp only [exec, execMsqr, execMneg, execMsmul, execMinv, execMred]
    exact fieldCommand_reads s _ _ [_] _
  | xmov | xcmp | pgetx | pgety | pmov => exact readsAs_next rfl
  | xldi | pinf => exact readsAs_nothing rfl
  | xldp rd sel =>
    rw [exec, execXldp, readsOf, selectedRegs_eq]
    cases selPrm sel with
    | some r => exact readsAs_next rfl
    | none =>
      dsimp only
      split
      · exact readsAs_nothing rfl
      · split <;> exact readsAs_nothing rfl
  | ldbe r k => exact loadBytes_reads s be r k
  | ldle r k => exact loadBytes_reads s le r k
  | stbe r k => exact storeBytes_reads s beBytes r k
  | stle r k => exact storeBytes_reads s leBytes r k
  | cfgchk =>
    rw [exec, execCfgchk]
    split <;> exact readsAs_next rfl
  | pgen =>
    rw [exec, execPgen]
    split <;> exact readsAs_nothing rfl
  | pset =>
    refine readsAs_configured fun _ => ?_
    split <;> exact readsAs_next rfl
  | padd | pdbl | pneg | pmul | pubk => exact readsAs_configured fun _ => readsAs_next (State.finishQ_unwrittenRead _ _ _)
  | pchk => exact readsAs_configured fun _ => readsAs_next rfl
  | penc q k =>
    rw [exec_penc]
    exact encodeCommand_reads s _ _ q k
  | pencle q k =>
    rw [exec_pencle]
    exact encodeCommand_reads s _ _ q k
  | pdec q k => exact execPdec_reads s q k
  | sign ra => exact absurd rfl (hi ra)
  | verify => exact execVerify_reads s
  | stcomp => exact execStcomp_reads s
  | uv2xy qd qa => exact convert_reads s edwardsToWeierstrass qd qa
  | xy2uv qd qa => exact convert_reads s weierstrassToEdwards qd qa

/-- A command in flight reads what `bytesOf` and `readsOf` list: SIGN in its loop reads nothing more. -/
theorem exec_reads {s : State} (i : Instr) (hr : runnable s) : readsAs s (bytesOf i s) (readsOf i s) (exec i s) := by
  by_cases hi : ∃ ra, i = .sign ra
  case neg => exact exec_reads_of_ne_sign s fun ra h => hi ⟨ra, h⟩
  obtain ⟨ra, rfl⟩ := hi
  rw [exec, readsOf, bytesOf]
  obtain hp | ⟨k, bytes, hp⟩ := hr
  · have hstart : execSign ra s = startSign ra s := execSign_of_not_signing ra (signing_of_accepted hp)
    simpa only [hstart, hp, true_and] using startSign_reads s ra
  · have hgo : execSign ra s = .next (s.iterate k bytes) := by simp only [execSign, hp]
    rw [hgo, if_neg (by simp [hp]), if_neg (by simp [hp])]
    exact readsAs_nothing (State.iterate_unwrittenRead _ _ _)

/-! ## No command is refused -/

theorem mem_of_mem_ite_nil {α : Type} {c : Prop} [Decidable c] {x : α} {l : List α} (h : x ∈ if c then l else []) : x ∈ l := by
  split at h
  · exact h
  · cases h

/-- Only five commands read BUF, in ranges of their descriptors (30_encoding.md R67). -/
theorem descsOf_of_mem_bytesOf {i : Instr} {s : State} {k : DescSel} (h : k ∈ bytesOf i s) : k ∈ descsOf i ∧
    ((∃ r k, i = .ldbe r k) ∨ (∃ r k, i = .ldle r k) ∨ (∃ q k, i = .pdec q k) ∨ (∃ ra, i = .sign ra) ∨ i = .verify) := by
  cases i with
  | ldbe r k' => exact ⟨mem_of_mem_ite_nil h, .inl ⟨r, k', rfl⟩⟩
  | ldle r k' => exact ⟨mem_of_mem_ite_nil h, .inr (.inl ⟨r, k', rfl⟩)⟩
  | pdec q k' => exact ⟨mem_of_mem_ite_nil h, .inr (.inr (.inl ⟨q, k', rfl⟩))⟩
  | sign ra => exact ⟨List.mem_append_left [2] (mem_of_mem_ite_nil h), .inr (.inr (.inr (.inl ⟨ra, rfl⟩)))⟩
  | verify => exact ⟨mem_of_mem_ite_nil h, .inr (.inr (.inr (.inr rfl)))⟩
  | _ => cases h

/-- Settles O32: SIGN in its loop answers, SIGN from its start and every other command answers or stops in a range it reads. -/
theorem commandsAnswer : Obligations.CommandsAnswer := by
  intro i s
  by_cases hi : ∃ ra, i = .sign ra
  case neg =>
    obtain ⟨t, ht, _⟩ | ⟨_, a, ha, hn, k, hk, hin⟩ := exec_reads_of_ne_sign s fun ra h => hi ⟨ra, h⟩
    · exact .inl ⟨t, ht⟩
    · obtain ⟨hk', hcmd⟩ := descsOf_of_mem_bytesOf hk
      exact .inr ⟨a, ha, hn, ⟨k, hk', hin⟩, hcmd⟩
  obtain ⟨ra, rfl⟩ := hi
  by_cases hp : ∃ k bytes, s.phase = .entropyGot k bytes
  case pos =>
    obtain ⟨k, bytes, hp⟩ := hp
    exact .inl ⟨s.iterate k bytes, by simp only [exec, execSign, hp]⟩
  have hstart : exec (.sign ra) s = startSign ra s := by
    rw [exec, execSign]
    split
    · next k bytes h => exact absurd ⟨k, bytes, h⟩ hp
    all_goals rfl
  rw [hstart]
  obtain ⟨t, ht, _⟩ | ⟨_, a, ha, hn, k, hk, hin⟩ := startSign_reads s ra
  · exact .inl ⟨t, ht⟩
  · exact .inr ⟨a, ha, hn, ⟨k, List.mem_append_left [2] (mem_of_mem_ite_nil hk), hin⟩, .inr (.inr (.inr (.inl ⟨ra, rfl⟩)))⟩

/-! ## The reads of a command in flight -/

section
variable {s : State} {i : Instr} (hr : runnable s)
include hr

theorem exec_stops {k : DescSel} (hk : k ∈ bytesOf i s) (hw : rangeWritten s k = false) :
    ∃ a, exec i s = .fault (.unwrittenRead a) ∧ s.buf.read a = none ∧ ∃ k ∈ bytesOf i s, off s k ≤ a ∧ a < off s k + len s k := by
  obtain ⟨t, _, hall, _⟩ | ⟨_, a, ha, hn, hin⟩ := exec_reads i hr
  · exact absurd (hall k hk) (ne_true_of_eq_false hw)
  · exact ⟨a, ha, hn, hin⟩

theorem exec_answers (hw : ∀ k ∈ bytesOf i s, rangeWritten s k = true) :
    ∃ t, exec i s = .next t ∧ t.unwrittenRead = (s.noteReads (readsOf i s)).unwrittenRead := by
  obtain ⟨t, ht, _, hu⟩ | ⟨_, a, _, hn, k, hk, h1, h2⟩ := exec_reads i hr
  · exact ⟨t, ht, hu⟩
  · exact absurd hn (rangeWritten_iff.mp (hw k hk) a h1 h2)

/-- A command that reads a register has met no unwritten byte. -/
theorem exec_answers_of_mem_readsOf {r : RegName} (h : r ∈ readsOf i s) :
    ∃ t, exec i s = .next t ∧ t.unwrittenRead = (s.noteReads (readsOf i s)).unwrittenRead := by
  obtain ⟨t, ht, _, hu⟩ | ⟨hl, _⟩ := exec_reads i hr
  · exact ⟨t, ht, hu⟩
  · rw [hl] at h
    cases h

end

theorem noteReads_unwrittenRead_of_readable {s : State} {l : List RegName} (h : readable s l) :
    (s.noteReads l).unwrittenRead = s.unwrittenRead := by rw [State.noteReads_of_readable h]

theorem noteReads_unwrittenRead_of_not_readable {s : State} {l : List RegName} (h : ¬ readable s l) :
    (s.noteReads l).unwrittenRead = true := by
  have hany : (l.any fun r => !s.regWritten r) = true := by
    by_contra hn
    refine h fun r hr => ?_
    simpa using List.any_eq_false.mp (Bool.eq_false_iff.mpr hn) r hr
  rw [State.noteReads_unwrittenRead, hany, Bool.or_true]

/-! ## The spec's step relation -/

section
variable {s t : State}

theorem strictStep_stops (h : step s = .next t) (hs : s.unwrittenRead = false) (ht : t.unwrittenRead = true) :
    strictStep s = .fault .unwrittenRegister := by simp [strictStep, h, hs, ht]

theorem strictStep_goes (h : step s = .next t) (ht : t.unwrittenRead = false) : strictStep s = .next t := by
  simp [strictStep, h, ht]

/-! ## Host reads of words never written -/

variable {o : Nat} {g : Target} (hb : s.busy = false) (ho : o % 4 = 0) (hg : targetAt o = some g)
include hb ho hg

/-- A host read of a register word never written returns what the register holds and is recorded (10_state.md R21; log 2). -/
theorem hostReadsUnwritten_idle {v : Word} {P : Word → Prop} (hv : s.wordAt g = .ok v) (h : P v) (hs : s.unwrittenRead = false)
    (hw : s.wordWritten g = false) : hostReadsUnwritten o s P := by
  have ht : (⟨o, 0xF, .read⟩ : Access).target = some g := by rw [Access.target_full, if_pos ho, hg]
  have ha : hostAccess ⟨o, 0xF, .read⟩ s = .next { s with busRead := some v, unwrittenRead := true } := by
    rw [hostAccess_read s _ g ht rfl, hostRead_exact s g v (.inl hb) hv, hw, Bool.not_false, Bool.or_true]
  have hstep : step (facing (hostR o) s) = .next { s with busRead := some v, unwrittenRead := true } :=
    (step_host s _).trans (hostMove_quiet s _ _ ha hb)
  exact ⟨strictStep_stops hstep hs rfl, v, hstep, h⟩

/-- A host read of a word whose value BUF does not have stops (10_state.md R21; log 3). -/
theorem step_hostR_stops {a : Nat} (hv : s.wordAt g = .error a) : step (facing (hostR o) s) = .fault (.unwrittenRead a) := by
  have ht : (⟨o, 0xF, .read⟩ : Access).target = some g := by rw [Access.target_full, if_pos ho, hg]
  refine (step_host s _).trans (hostMove_fault s _ _ ?_)
  rw [hostAccess_read s _ g ht rfl]
  simp [hostRead, hb, hv]

end

/-- Settles O33: `exec_reads` for a command in flight, and the value of a mapped word for a host read. -/
theorem unwrittenReads : Obligations.UnwrittenReads := by
  refine ⟨fun i s hr hd => ⟨?_, fun hw => ?_⟩, fun i s hr hd hu => ⟨fun r hmem hw => ?_, fun hread t ht => ?_⟩,
    fun s rd ra hr hd hw => ?_,
    fun s j hb hu => ⟨fun r hw => ?_, fun i hw => ?_, fun q => ⟨fun hw => ?_, fun hw => ?_, fun hw => ?_⟩⟩,
    fun s k hb hn => ?_⟩
  · rintro ⟨k, hk, hw⟩
    obtain ⟨a, ha, hn, hin⟩ := exec_stops hr hk hw
    exact ⟨a, (coreStep_ok hr hd).trans ha, hn, hin⟩
  · obtain ⟨t, ht, _⟩ := exec_answers hr hw
    exact ⟨t, (coreStep_ok hr hd).trans ht⟩
  · obtain ⟨t, ht, htu⟩ := exec_answers_of_mem_readsOf hr hmem
    have hnot : ¬ readable s (readsOf i s) := fun hread => by simp [hread r hmem] at hw
    rw [noteReads_unwrittenRead_of_not_readable hnot] at htu
    have hstep : step (facing .core s) = .next t := (coreStep_ok hr hd).trans ht
    exact ⟨strictStep_stops hstep hu htu, t, hstep, htu⟩
  · have hexec : exec i s = .next t := (coreStep_ok hr hd).symm.trans ht
    have htu : t.unwrittenRead = false := by
      obtain ⟨t', ht', _, htu⟩ | ⟨_, a, ha, _⟩ := exec_reads i hr
      · cases hexec.symm.trans ht'
        rw [htu, noteReads_unwrittenRead_of_readable hread, hu]
      · cases hexec.symm.trans ha
    exact ⟨htu, strictStep_goes ht htu⟩
  · have hnot : ¬ readable s [.x ra] := fun hread => by simp [hread _ (List.mem_singleton_self _)] at hw
    refine ⟨_, (coreStep_ok hr hd).trans (exec_xmov rd ra s), noteReads_unwrittenRead_of_not_readable hnot,
      ⟨rfl, rfl, rfl, rfl, rfl⟩, ?_⟩
    exact (s.noteReads [.x ra]).setX_xVal_same rd _ (s.xVal_lt ra)
  · have ho : (prmOff r + 4 * j) % 4 = 0 := by rw [prmOff_eq]; omega
    have hg : targetAt (prmOff r + 4 * j) = some (.prm r j) := by rw [prmOff_eq]; exact targetAt_prm r j
    exact hostReadsUnwritten_idle hb ho hg rfl (WideReg.word_holdsWord _ j) hu hw
  · exact hostReadsUnwritten_idle hb (by omega) (targetAt_x i j) rfl (WideReg.word_holdsWord _ j) hu hw
  · exact hostReadsUnwritten_idle hb (by omega) (targetAt_qx q j) rfl (WideReg.word_holdsWord _ j) hu hw
  · exact hostReadsUnwritten_idle hb (by omega) (targetAt_qy q j) rfl (WideReg.word_holdsWord _ j) hu hw
  · exact hostReadsUnwritten_idle hb (by omega) (targetAt_qinf q) rfl (by cases s.q[q].inf <;> rfl) hu hw
  · obtain ⟨l, hl, hnone⟩ := hn
    cases hrd : s.buf.readBytes (4 * k) 4 with
    | ok bs =>
      obtain ⟨hlen, hall⟩ := s.buf.readBytes_ok _ _ bs hrd
      rw [hall l hl, List.getElem?_eq_none_iff] at hnone
      omega
    | error a =>
      have hv : s.wordAt (.buf k) = .error a := by simp only [State.wordAt, hrd]
      exact ⟨a, step_hostR_stops hb (by omega) (targetAt_buf k) hv, (s.buf.readBytes_error _ _ a hrd).2.2⟩

/-! ## The accept step -/

/-- A CMD write on an idle CORE without an error is accepted, and the command makes its reads (60_exceptions.md R141, R142). -/
theorem step_hostW_cmd_accepted {s : State} (w : Word) (hb : s.busy = false) (he : s.err = false) :
    step (facing (hostW 0x08 w) s) = (accepted w s).readOperands :=
  (step_host s _).trans (hostMove_accept s _ w (Access.target_full _ _) rfl hb he)

theorem State.readOperands_of_next {s t : State} (h : runCommand s = .next t) :
    s.readOperands = .next { s with unwrittenRead := t.unwrittenRead } := by simp only [State.readOperands, h]

theorem runCommand_accepted {s : State} {w : Word} {i : Instr} (hd : decode w = .ok i) :
    runCommand (accepted w s) = exec i (accepted w s) := runCommand_ok (s := accepted w s) hd

/-- Settles O8: the accept step stops and records as the command in the state it leaves does. -/
theorem commandIssue : Obligations.CommandIssue := by
  intro s w
  refine ⟨step_hostW_cmd_dropped w, fun hb he => ⟨⟨rfl, rfl⟩, fun c hd => ?_, fun i hd => ⟨fun hop => ?_, fun hw hn => ?_, ?_⟩⟩⟩
  · have hrun : runCommand (accepted w s) = .next ((accepted w s).raise c) := runCommand_error hd
    rw [step_hostW_cmd_accepted w hb he, State.readOperands_of_next hrun, State.raise_unwrittenRead]
  · obtain ⟨hread, hw⟩ := hop
    obtain ⟨t, ht, htu⟩ := exec_answers (runnable_of_accepted rfl) hw
    rw [noteReads_unwrittenRead_of_readable hread] at htu
    rw [step_hostW_cmd_accepted w hb he, State.readOperands_of_next ((runCommand_accepted hd).trans ht), htu]
  · obtain ⟨t, ht, htu⟩ := exec_answers (s := accepted w s) (runnable_of_accepted rfl) hw
    rw [noteReads_unwrittenRead_of_not_readable (s := accepted w s) hn] at htu
    have hstep : step (facing (hostW 0x08 w) s) = .next { accepted w s with unwrittenRead := true } := by
      rw [step_hostW_cmd_accepted w hb he, State.readOperands_of_next ((runCommand_accepted hd).trans ht), htu]
    exact ⟨hstep, fun hu => strictStep_stops hstep hu rfl⟩
  · rintro ⟨k, hk, hw⟩
    obtain ⟨a, ha, hn, hin⟩ := exec_stops (s := accepted w s) (runnable_of_accepted rfl) hk hw
    refine ⟨a, ?_, hn, hin⟩
    rw [step_hostW_cmd_accepted w hb he, State.readOperands_fault]
    exact (runCommand_accepted hd).trans ha

/-! ## The acknowledgement -/

/-- A word whose command finds its operands written is accepted, and so is a word that is no command. -/
theorem step_hostW_cmd_operandsWritten {s : State} {w : Word} (hb : s.busy = false) (he : s.err = false)
    (h : ∀ i, decode w = .ok i → operandsWritten i (accepted w s)) : step (facing (hostW 0x08 w) s) = .next (accepted w s) := by
  obtain ⟨_, herr, hok⟩ := (commandIssue s w).2 hb he
  cases hd : decode w with
  | error c => exact herr c hd
  | ok i => exact (hok i hd).1 (h i hd)

/-- Settles O13: the write is `w1c`, and with ERR cleared an idle CORE accepts. -/
theorem statusAcknowledge : Obligations.StatusAcknowledge := by
  intro s w
  refine ⟨step_hostW_status s w, fun h1 => ?_, fun h1 => ?_, fun h2 hb c hop => ?_⟩
  · rw [State.irq, w1c, if_pos h1, Bool.false_and]
  · rw [State.irq, w1c, if_neg (ne_true_of_eq_false h1), State.irq]
  · exact step_hostW_cmd_operandsWritten hb (if_pos h2) hop

end Sys2Proof.Machine
end

section
/-! SUPPORT. XLDP by its selector (30_encoding.md R61, 41_regmove.md R89), and the double-and-add of the reference multiple
(42_curve.md R101). -/

namespace Sys2Proof.Machine

open Sys2Proof.Claims

/-! ## XLDP -/

/-- A word that spells an ill-formed command fails the decoder's last check only (30_encoding.md R66). -/
theorem decode_paramSel_of_spells {w : Word} {i : Instr} (h : Spells w i) (hw : i.wellFormed = false) :
    decode w = .error .paramSel := by
  obtain ⟨f, hr, hz⟩ := h
  have hp : ∀ k ∈ f.pointBits, w.getLsbD k = false := fun k hk =>
    (f.unusedZero_iff w).mp hz k (f.unusedBit_of_pointBits k hk)
  rw [decode_of_pointBits hr hp, if_neg (not_not.mpr ((f.mask_check_iff w).mpr hz)), if_pos hw]

theorem decode_xldp_beyond (rd : XReg) {sel : Fin 16} (h : 12 ≤ sel.val) :
    decode (cmdWord 0x12 0 rd sel 0 0) = .error .paramSel := by
  rw [cmdWord_eq_assemble (by omega) (by omega) rd.isLt sel.isLt (by omega) (by omega)]
  exact decode_paramSel_of_spells (spells_encode (.xldp rd sel)) (decide_eq_false (by omega))

theorem decode_xldp (rd : XReg) {sel : Fin 16} (h : sel.val ≤ 11) : decode (cmdWord 0x12 0 rd sel 0 0) = .ok (.xldp rd sel) :=
  decode_cmdWord (f3 := 0) (k := 0) (decide_eq_true h) (by decide) rfl

/-- The parameter registers of the selectors 0 to 9 (30_encoding.md R61). -/
theorem selPrm_of_mem_table {sel : Fin 16} {r : Prm} (h : (sel.val, r) ∈
    [(0, Prm.p), (1, .a), (2, .b), (3, .gx), (4, .gy), (5, .n), (6, .e), (7, .d), (8, .s), (9, .t)]) :
    sel.val ≤ 11 ∧ selPrm sel = some r := by
  fin_cases sel
  all_goals
    simp at h
  all_goals
    subst h
    decide

theorem exec_xldp_register (rd : XReg) {sel : Fin 16} {r : Prm} (h : selPrm sel = some r) (s : State) :
    exec (.xldp rd sel) s = .next ((s.noteReads [.prm r]).finishX rd (.ok (s.prmVal r))) := by
  rw [exec, execXldp, h]

/-- Settles O43: the selector names a parameter register, H or BYTELEN, or it makes the command ill-formed. -/
theorem parameterLoads : Obligations.ParameterLoads := by
  intro rd s
  refine ⟨fun sel r hmem => ?_, ⟨decode_xldp rd (sel := 10) (by decide), ?_⟩,
    ⟨decode_xldp rd (sel := 11) (by decide), ?_⟩, fun sel hsel => ?_⟩
  · obtain ⟨hle, hsel⟩ := selPrm_of_mem_table hmem
    have hexec := exec_xldp_register rd hsel s
    refine ⟨decode_xldp rd hle, fun hr => ?_, fun hr => ⟨_, hexec, ?_⟩⟩
    · exact leads_finishX (by rw [hexec, State.noteReads_of_readable hr]) (s.prmVal_lt r)
    · exact (State.finishX_unwrittenRead _ _ _).trans (noteReads_unwrittenRead_of_not_readable hr)
  · exact leads_finishX rfl (lt_of_fits_64_bytes (n := 4) s.h.isLt (by decide))
  · exact leads_finishX rfl (lt_of_fits_64_bytes (n := 4) (s.bytelen.isLt.trans_le (by decide)) (by decide))
  · have hd := decode_xldp_beyond rd hsel
    exact ⟨hd, fun hp hc => ⟨_, step_core_decode_error (hc ▸ hd) hp, s.raise_failed .paramSel⟩⟩

/-! ## Double-and-add -/

/-- One bit of ScalarMul: a doubling, and an addition of the point where the bit is 1 (42_curve.md R101). -/
def scalarStep (c : Curve) (P : Point) (b : Bool) (R : Point) : Option Point :=
  (pointDouble c R).bind fun R2 => if b = true then pointAdd c R2 P else some R2

theorem scalarStep_false (c : Curve) (P R : Point) : scalarStep c P false R = pointDouble c R :=
  Option.bind_fun_some _

theorem scalarStep_true (c : Curve) (P R : Point) :
    scalarStep c P true R = (pointDouble c R).bind fun R2 => pointAdd c R2 P := rfl

theorem scalarLoop_succ (c : Curve) (P : Point) (k i : Nat) (R : Point) :
    scalarLoop c P k (i + 1) R = (scalarStep c P (k.testBit i) R).bind (scalarLoop c P k i) := by
  rw [scalarLoop, scalarStep]
  cases pointDouble c R with
  | none => rfl
  | some R2 =>
    cases k.testBit i with
    | false => rfl
    | true => cases hR3 : pointAdd c R2 P <;> simp [hR3]

/-- The loop over a number's bits and one more bit below them is the loop over the number and then that bit. -/
theorem scalarLoop_bit (c : Curve) (P : Point) (b : Bool) (k : Nat) : ∀ (i : Nat) (R : Point),
    scalarLoop c P (Nat.bit b k) (i + 1) R = (scalarLoop c P k i R).bind (scalarStep c P b)
  | 0, R => by
    rw [scalarLoop_succ, Nat.testBit_bit_zero, scalarLoop, Option.bind_some]
    exact Option.bind_fun_some _
  | i + 1, R => by
    rw [scalarLoop_succ, Nat.testBit_bit_succ, scalarLoop_succ, Option.bind_assoc]
    exact congrArg _ (funext (scalarLoop_bit c P b k i))

theorem scalarMul_zero (c : Curve) (P : Point) : scalarMul c P 0 = some .infinity := rfl

theorem scalarMul_bit (c : Curve) (P : Point) (b : Bool) (k : Nat) (h : Nat.bit b k ≠ 0) :
    scalarMul c P (Nat.bit b k) = (scalarMul c P k).bind (scalarStep c P b) := by
  rw [scalarMul, bitlen_eq_size, Nat.size_bit h, scalarLoop_bit, scalarMul, bitlen_eq_size]

/-- Settles O35: the bits of 2k and 2k + 1 are those of k with one more below them, and the identity doubles to itself. -/
theorem scalarMulSteps : Obligations.ScalarMulSteps := by
  refine fun c P => ⟨scalarMul_zero c P, fun k => ⟨?_, ?_⟩⟩
  · obtain rfl | hk := Nat.eq_zero_or_pos k
    · rfl
    · rw [← Nat.bit_false_apply, scalarMul_bit c P false k (by rw [Nat.bit_false_apply]; omega)]
      exact congrArg _ (funext (scalarStep_false c P))
  · rw [← Nat.bit_true_apply, scalarMul_bit c P true k (by rw [Nat.bit_true_apply]; omega), Option.bind_assoc]
    rfl

end Sys2Proof.Machine
end

section
/-! SUPPORT. What a checked configuration is (41_regmove.md R95), and the group law of the model in the words of the statements:
the slope of a chord or tangent solves its equation in the field, or its divisor has no inverse (42_curve.md R99, R100); the
commands PADD, PDBL, PNEG, PMUL and PUBK as one operation on canonical operands (42_curve.md R110 to R113, 44_signature.md R125). -/

namespace Sys2Proof.Machine

open Sys2Proof.Claims

/-! ## A checked configuration -/

section
variable {s : State} (hc : s.cfgok = true) (h : configOk s)
include hc h

theorem checks_of_configOk :
    (s.prmVal .p % 2 = 1 ∧ 5 ≤ s.prmVal .p) ∧ s.bytelen.toNat = (Nat.size (s.prmVal .p) + 7) / 8 ∧
    (s.prmVal .n % 2 = 1 ∧ 3 ≤ s.prmVal .n ∧ s.prmVal .n < 2 ^ (8 * s.bytelen.toNat)) ∧
    (s.prmVal .a < s.prmVal .p ∧ s.prmVal .b < s.prmVal .p ∧ s.prmVal .gx < s.prmVal .p ∧ s.prmVal .gy < s.prmVal .p) ∧
    onCurveAt s (s.prmVal .gx) (s.prmVal .gy) ∧ 1 ≤ s.h.toNat := by
  have hcheck := h hc
  simpa only [firstConfigFailure, reduceCtorEq, and_false, false_or, and_true] using hcheck

theorem five_le_prime : 5 ≤ s.prmVal .p := by
  obtain ⟨⟨_, h5⟩, _⟩ := checks_of_configOk hc h
  exact h5

theorem three_le_order : 3 ≤ s.prmVal .n := by
  obtain ⟨_, _, ⟨_, h3, _⟩, _⟩ := checks_of_configOk hc h
  exact h3

theorem order_lt : s.prmVal .n < 2 ^ (8 * s.bytelen.toNat) := by
  obtain ⟨_, _, ⟨_, _, hn⟩, _⟩ := checks_of_configOk hc h
  exact hn

theorem gen_canonical : s.gen.canonical (s.prmVal .p) := by
  obtain ⟨_, _, _, ⟨_, _, hgen⟩, _⟩ := checks_of_configOk hc h
  exact hgen

theorem gen_onCurve : onCurveAt s (s.prmVal .gx) (s.prmVal .gy) := by
  obtain ⟨_, _, _, _, hon, _⟩ := checks_of_configOk hc h
  exact hon

end

/-! ## The chord and the tangent -/

theorem chord_chordPoint (c : Curve) (hp : 0 < c.p) (l x1 y1 x2 : Nat) :
    ∃ x3 y3, chordPoint c l x1 y1 x2 = .affine x3 y3 ∧ chord c.p l x1 y1 x2 x3 y3 :=
  ⟨_, _, rfl, modp_cast _ _ hp, modp_cast _ _ hp⟩

/-- The product with an inverse solves the equation of the slope. -/
theorem slope_solves {p i : Nat} (hp : 0 < p) {den : Int} (num : Int) (h : inv den p = some i) :
    ((modp (num * i) p : Int) * den - num) % (p : Int) = 0 := by
  have hi := (ZMod.intCast_zmod_eq_zero_iff_dvd _ p).mpr (inv_mul den p i hp h)
  refine Int.emod_eq_zero_of_dvd ((ZMod.intCast_zmod_eq_zero_iff_dvd _ p).mp ?_)
  push_cast [natCast_modp _ _ hp] at hi ⊢
  linear_combination (num : ZMod p) * hi

theorem pointDouble_zero_y (c : Curve) (x : Nat) : pointDouble c (.affine x 0) = some .infinity := rfl

section
variable {c : Curve} {x y : Nat} (hy : y ≠ 0) (hp : 2 ≤ c.p)
include hy hp

theorem pointDouble_failing (hg : Nat.gcd (2 * y) c.p ≠ 1) : pointDouble c (.affine x y) = none := by
  have hi := (inv_natCast (2 * y) hp).1 hg
  push_cast at hi
  rw [pointDouble, if_neg hy, hi]

theorem pointDouble_tangent (hg : Nat.gcd (2 * y) c.p = 1) : ∃ l x3 y3, l < c.p ∧
    l * (2 * y) % c.p = (3 * x * x + c.a) % c.p ∧ chord c.p l x y x x3 y3 ∧
    pointDouble c (.affine x y) = some (.affine x3 y3) := by
  obtain ⟨i, hi, -⟩ := (inv_natCast (2 * y) hp).2 hg
  push_cast at hi
  have hpos : 0 < c.p := by omega
  obtain ⟨x3, y3, he, hchord⟩ := chord_chordPoint c hpos (modp ((3 * x * x + c.a : Int) * i) c.p) x y x
  refine ⟨_, x3, y3, modp_lt _ _ hpos, ?_, hchord, by rw [pointDouble, if_neg hy, hi, ← he]⟩
  exact_mod_cast Int.emod_eq_emod_iff_emod_sub_eq_zero.mpr (slope_solves hpos (3 * x * x + c.a : Int) hi)

end

theorem pointAdd_infinity (c : Curve) (P : Point) : pointAdd c P .infinity = some P := by cases P <;> rfl

theorem pointAdd_same (c : Curve) (P : Point) : pointAdd c P P = pointDouble c P := by
  cases P with
  | infinity => rfl
  | affine x y => rw [pointAdd, if_pos rfl, if_pos rfl]

theorem pointAdd_opposite (c : Curve) (x : Nat) {y1 y2 : Nat} (h : y1 ≠ y2) :
    pointAdd c (.affine x y1) (.affine x y2) = some .infinity := by
  rw [pointAdd, if_pos rfl, if_neg h]

section
variable {c : Curve} {x1 x2 : Nat} (y1 y2 : Nat) (hx : x1 ≠ x2) (hp : 2 ≤ c.p)
include hx hp

theorem pointAdd_failing (hg : Int.gcd ((x2 : Int) - x1) c.p ≠ 1) :
    pointAdd c (.affine x1 y1) (.affine x2 y2) = none := by
  rw [pointAdd, if_neg hx, (inverseIsCorrect _ _ hp).1 hg]

theorem pointAdd_chord (hg : Int.gcd ((x2 : Int) - x1) c.p = 1) : ∃ l x3 y3, l < c.p ∧
    ((l : Int) * ((x2 : Int) - x1) - ((y2 : Int) - y1)) % (c.p : Int) = 0 ∧ chord c.p l x1 y1 x2 x3 y3 ∧
    pointAdd c (.affine x1 y1) (.affine x2 y2) = some (.affine x3 y3) := by
  obtain ⟨i, hi, -⟩ := (inverseIsCorrect _ _ hp).2 hg
  have hpos : 0 < c.p := by omega
  obtain ⟨x3, y3, he, hchord⟩ := chord_chordPoint c hpos (modp (((y2 : Int) - y1) * i) c.p) x1 y1 x2
  exact ⟨_, x3, y3, modp_lt _ _ hpos, slope_solves hpos _ hi, hchord, by rw [pointAdd, if_neg hx, hi, ← he]⟩

end

/-! ## Operands and endings -/

theorem pt_canonical {s : State} {q : QReg} (h : coordsOk s q) : (pt s q).canonical (s.prmVal .p) :=
  s.ptRead_canonical q _ (State.ptRead_of_coordsOk h)

section
variable {i : Instr} {s : State} {qd : QReg}

set_option exponentiation.threshold 512 in
theorem leads_finishQ_point {R : Point} (h : exec i s = .next (s.finishQ qd (.ok R))) (hR : R.canonical (s.prmVal .p)) :
    leads i s (wrotePoint qd R s) := by
  cases R with
  | infinity => exact leads_setQ h (Nat.two_pow_pos _) (Nat.two_pow_pos _)
  | affine x y => exact leads_setQ h (hR.1.trans (s.prmVal_lt .p)) (hR.2.trans (s.prmVal_lt .p))

variable {o : Option Point} (h : exec i s = .next (s.finishQ qd (orNotInvertible o)))
include h

theorem leads_group_some {R : Point} (ho : o = some R) (hR : R.canonical (s.prmVal .p)) : leads i s (wrotePoint qd R s) :=
  leads_finishQ_point (by rw [h, ho, orNotInvertible_some]) hR

theorem leads_group_none (ho : o = none) : leads i s (failed 4 0x30 s) := by
  refine leads_raise (c := .notInvertible) ?_
  rw [h, ho, orNotInvertible_none, State.finishQ_error]

end

/-! ## PADD -/

section
variable {s : State} {qa qb : QReg} (qd : QReg) (hc : s.cfgok = true) (hr : readable s [.q qa, .q qb])
include hc hr

theorem leads_padd_coordRange (h : ¬ coordsOk s qa ∨ ¬ coordsOk s qb) : leads (.padd qd qa qb) s (failed 4 0x32 s) := by
  refine leads_raise (c := .coordRange) ?_
  rw [exec, execPadd, if_neg (ne_false_of_eq_true hc), State.noteReads_of_readable hr]
  by_cases ha : coordsOk s qa
  · rw [State.ptRead_of_coordsOk ha, State.ptRead_of_not_coordsOk (h.resolve_left (not_not.mpr ha)), State.finishQ_error]
  · rw [State.ptRead_of_not_coordsOk ha, State.finishQ_error]

theorem exec_padd (ha : coordsOk s qa) (hb : coordsOk s qb) :
    exec (.padd qd qa qb) s = .next (s.finishQ qd (orNotInvertible (pointAdd s.curve (pt s qa) (pt s qb)))) := by
  rw [exec, execPadd, if_neg (ne_false_of_eq_true hc), State.noteReads_of_readable hr, State.ptRead_of_coordsOk ha,
    State.ptRead_of_coordsOk hb]

end

/-- Settles O49: PADD is the model's addition of its canonical operands, whose cases are those of the rule. -/
theorem pointAddition : Obligations.PointAddition := by
  intro qd qa qb s
  refine ⟨decode_cmdWord (f1 := pointField qd) (f2 := pointField qa) (f3 := pointField qb) (k := 0) rfl (by decide) rfl,
    fun hc hr => ⟨leads_padd_coordRange qd hc hr, fun ha hb => ?_⟩⟩
  have hexec := exec_padd qd hc hr ha hb
  have hca := pt_canonical ha
  have hcb := pt_canonical hb
  refine ⟨fun hinf => ?_, fun hinf => ?_, fun x1 y1 x2 y2 h1 h2 => ?_⟩
  · exact leads_group_some hexec (by rw [hinf]; rfl) hcb
  · exact leads_group_some hexec (by rw [hinf, pointAdd_infinity]) hca
  rw [h1, h2] at hexec
  rw [h1] at hca
  rw [h2] at hcb
  have ⟨hx1, hy1⟩ := hca
  have ⟨hx2, hy2⟩ := hcb
  have hcanonical {R : Point} (hR : pointAdd s.curve (.affine x1 y1) (.affine x2 y2) = some R) :
      leads (.padd qd qa qb) s (wrotePoint qd R s) :=
    leads_group_some hexec hR (pointAdd_canonical s.curve _ _ _ (Nat.zero_lt_of_lt hx1) hca hcb hR)
  refine ⟨?_, ?_, ?_, ?_, fun hx hg => ?_, fun hx hg => ?_⟩
  · rintro rfl hy
    exact hcanonical (pointAdd_opposite _ _ hy)
  · rintro rfl rfl rfl
    exact hcanonical (by rw [pointAdd_same, pointDouble_zero_y])
  · rintro rfl rfl hy hg
    obtain ⟨l, x3, y3, hl, hslope, hchord, hR⟩ :=
      pointDouble_tangent (c := s.curve) (x := x1) hy (show 2 ≤ s.prmVal .p by omega) hg
    exact ⟨x3, y3, ⟨l, hl, hslope, hchord⟩, hcanonical (by rw [pointAdd_same, hR])⟩
  · rintro rfl rfl hy hg
    refine leads_group_none hexec ?_
    rw [pointAdd_same, pointDouble_failing hy (show 2 ≤ s.prmVal .p by omega) hg]
  · obtain ⟨l, x3, y3, hl, hslope, hchord, hR⟩ := pointAdd_chord (c := s.curve) y1 y2 hx (show 2 ≤ s.prmVal .p by omega) hg
    exact ⟨l, x3, y3, hl, hslope, hchord, hcanonical hR⟩
  · exact leads_group_none hexec (pointAdd_failing y1 y2 hx (show 2 ≤ s.prmVal .p by omega) hg)

/-! ## PDBL and PNEG -/

section
variable {s : State} {qa : QReg} (qd : QReg) (hc : s.cfgok = true) (hr : readable s [.q qa])
include hc hr

theorem leads_pdbl_coordRange (h : ¬ coordsOk s qa) : leads (.pdbl qd qa) s (failed 4 0x32 s) := by
  refine leads_raise (c := .coordRange) ?_
  rw [exec, execPdbl, if_neg (ne_false_of_eq_true hc), State.noteReads_of_readable hr, State.ptRead_of_not_coordsOk h,
    State.finishQ_error]

theorem leads_pneg_coordRange (h : ¬ coordsOk s qa) : leads (.pneg qd qa) s (failed 4 0x32 s) := by
  refine leads_raise (c := .coordRange) ?_
  rw [exec, execPneg, if_neg (ne_false_of_eq_true hc), State.noteReads_of_readable hr, State.ptRead_of_not_coordsOk h,
    State.finishQ_error]

theorem exec_pdbl (h : coordsOk s qa) :
    exec (.pdbl qd qa) s = .next (s.finishQ qd (orNotInvertible (pointDouble s.curve (pt s qa)))) := by
  rw [exec, execPdbl, if_neg (ne_false_of_eq_true hc), State.noteReads_of_readable hr, State.ptRead_of_coordsOk h]

theorem exec_pneg (h : coordsOk s qa) :
    exec (.pneg qd qa) s = .next (s.finishQ qd (.ok (pointNeg s.curve (pt s qa)))) := by
  rw [exec, execPneg, if_neg (ne_false_of_eq_true hc), State.noteReads_of_readable hr, State.ptRead_of_coordsOk h]

end

/-- The negation of a canonical coordinate without integers (42_curve.md R112). -/
theorem modp_neg {p y : Nat} (h : y < p) : modp (0 - (y : Int)) p = (p - y) % p := by
  rw [← modp_natCast, modp, modp, Nat.cast_sub h.le, sub_eq_add_neg, sub_eq_add_neg, Int.add_emod_left, zero_add]

theorem pointNeg_canonical {c : Curve} {P : Point} (hP : P.canonical c.p) : (pointNeg c P).canonical c.p := by
  cases P with
  | infinity => trivial
  | affine x y => exact ⟨hP.1, modp_lt _ _ (Nat.zero_lt_of_lt hP.1)⟩

/-- Settles O50: PDBL and PNEG are the model's doubling and negation of a canonical operand. -/
theorem pointDoublingAndNegation : Obligations.PointDoublingAndNegation := by
  intro qd qa s
  refine ⟨⟨decode_cmdWord (f1 := pointField qd) (f2 := pointField qa) (f3 := 0) (k := 0) rfl (by decide) rfl,
    decode_cmdWord (f1 := pointField qd) (f2 := pointField qa) (f3 := 0) (k := 0) rfl (by decide) rfl⟩,
    fun hc hr => ⟨fun h => ⟨leads_pdbl_coordRange qd hc hr h, leads_pneg_coordRange qd hc hr h⟩, fun hinf => ?_,
      fun h x y hpt => ?_⟩⟩
  · have h := coordsOk_of_pt_infinity hinf
    exact ⟨leads_group_some (exec_pdbl qd hc hr h) (by rw [hinf]; rfl) trivial,
      leads_finishQ_point (by rw [exec_pneg qd hc hr h, hinf]; rfl) trivial⟩
  have hdbl := exec_pdbl qd hc hr h
  have hneg := exec_pneg qd hc hr h
  have hcan := pt_canonical h
  rw [hpt] at hdbl hneg hcan
  have ⟨hx, hy⟩ := hcan
  have hpos : 0 < s.prmVal .p := Nat.zero_lt_of_lt hx
  have hcanonical {R : Point} (hR : pointDouble s.curve (.affine x y) = some R) : leads (.pdbl qd qa) s (wrotePoint qd R s) :=
    leads_group_some hdbl hR (pointDouble_canonical s.curve _ _ hpos hR)
  refine ⟨?_, fun h0 hg => ?_, fun h0 hg => ?_, ?_⟩
  · rintro rfl
    exact hcanonical (pointDouble_zero_y _ _)
  · obtain ⟨l, x3, y3, hl, hslope, hchord, hR⟩ :=
      pointDouble_tangent (c := s.curve) (x := x) h0 (show 2 ≤ s.prmVal .p by omega) hg
    exact ⟨x3, y3, ⟨l, hl, hslope, hchord⟩, hcanonical hR⟩
  · exact leads_group_none hdbl (pointDouble_failing h0 (show 2 ≤ s.prmVal .p by omega) hg)
  · rw [← modp_neg hy]
    exact leads_finishQ_point hneg (pointNeg_canonical (c := s.curve) hcan)

/-! ## PMUL and PUBK -/

theorem scalarMul_infinity (c : Curve) (k : Nat) : scalarMul c .infinity k = some .infinity := by
  have hloop (i : Nat) : scalarLoop c .infinity k i .infinity = some .infinity := by
    induction i with
    | zero => rfl
    | succ i ih =>
      have hstep : scalarStep c .infinity (k.testBit i) .infinity = some .infinity := by cases k.testBit i <;> rfl
      rw [scalarLoop_succ, hstep, Option.bind_some, ih]
  exact hloop _

/-- A multiple of a canonical operand is canonical, also where p is 0 and the operand is therefore the identity. -/
theorem scalarMul_pt_canonical {s : State} {q : QReg} {k : Nat} {R : Point} (h : coordsOk s q)
    (hR : scalarMul s.curve (pt s q) k = some R) : R.canonical (s.prmVal .p) := by
  have hcan := pt_canonical h
  cases hP : pt s q with
  | infinity =>
    rw [hP, scalarMul_infinity] at hR
    cases hR
    trivial
  | affine x y =>
    rw [hP] at hcan hR
    exact scalarMul_canonical s.curve _ _ k (Nat.zero_lt_of_lt hcan.1) hcan hR

/-- PMUL's curve test of a canonical operand is the curve equation (42_curve.md R98, R113). -/
theorem offCurve_iff {s : State} {q : QReg} (h : coordsOk s q) : s.offCurve (pt s q) = true ↔ ¬ onCurvePt s.curve (pt s q) := by
  have hcan := pt_canonical h
  cases hP : pt s q with
  | infinity => simp [State.offCurve, onCurvePt]
  | affine x y =>
    rw [hP] at hcan
    have hiff := onCurve_iff_onCurveAt s x y (Nat.zero_lt_of_lt hcan.1)
    rw [State.offCurve, Bool.not_eq_true', ← Bool.not_eq_true, hiff]
    rfl

section
variable {s : State} {qa : QReg} {r : XReg} (qd : QReg) (hc : s.cfgok = true) (hr : readable s [.q qa, .x r])
include hc hr

theorem leads_pmul_coordRange (h : ¬ coordsOk s qa) : leads (.pmul qd qa r) s (failed 4 0x32 s) := by
  refine leads_raise (c := .coordRange) ?_
  rw [exec, execPmul, if_neg (ne_false_of_eq_true hc), State.noteReads_of_readable hr, State.ptRead_of_not_coordsOk h,
    State.finishQ_error]

theorem leads_pmul_notOnCurve (h : coordsOk s qa) (hon : ¬ onCurvePt s.curve (pt s qa)) :
    leads (.pmul qd qa r) s (failed 4 0x31 s) := by
  refine leads_raise (c := .notOnCurve) ?_
  rw [exec, execPmul, if_neg (ne_false_of_eq_true hc), State.noteReads_of_readable hr, State.ptRead_of_coordsOk h]
  simp only [if_pos ((offCurve_iff h).mpr hon), State.finishQ_error]

theorem exec_pmul (h : coordsOk s qa) (hon : onCurvePt s.curve (pt s qa)) :
    exec (.pmul qd qa r) s = .next (s.finishQ qd (if s.prmVal .n ≤ s.xVal r then .error .scalarRange
      else orNotInvertible (scalarMul s.curve (pt s qa) (s.xVal r)))) := by
  rw [exec, execPmul, if_neg (ne_false_of_eq_true hc), State.noteReads_of_readable hr, State.ptRead_of_coordsOk h]
  simp only [if_neg (mt (offCurve_iff h).mp (not_not.mpr hon))]

end

section
variable {s : State} {ra : XReg} (qd : QReg) (hc : s.cfgok = true) (hr : readable s [.x ra])
include hc hr

theorem leads_pubk_keyRange (h : ¬ (1 ≤ s.xVal ra ∧ s.xVal ra < s.prmVal .n)) : leads (.pubk qd ra) s (failed 4 0x34 s) := by
  refine leads_raise (c := .keyRange) ?_
  rw [exec, execPubk, if_neg (ne_false_of_eq_true hc), State.noteReads_of_readable hr, if_pos h, State.finishQ_error]

theorem exec_pubk (h : 1 ≤ s.xVal ra ∧ s.xVal ra < s.prmVal .n) :
    exec (.pubk qd ra) s = .next (s.finishQ qd (orNotInvertible (scalarMul s.curve s.gen (s.xVal ra)))) := by
  rw [exec, execPubk, if_neg (ne_false_of_eq_true hc), State.noteReads_of_readable hr, if_neg (not_not.mpr h)]

/-- PUBK writes the multiple of the generator, whatever the prime (44_signature.md R125). -/
theorem leads_pubk_multiple (hcfg : configOk s) (h : 1 ≤ s.xVal ra ∧ s.xVal ra < s.prmVal .n) {R : Point}
    (hR : scalarMul s.curve s.gen (s.xVal ra) = some R) : leads (.pubk qd ra) s (wrotePoint qd R s) := by
  have hp : 0 < s.prmVal .p := Nat.zero_lt_of_lt (five_le_prime hc hcfg)
  exact leads_group_some (exec_pubk qd hc hr h) hR (scalarMul_canonical s.curve _ _ _ hp (gen_canonical hc hcfg) hR)

end

/-- Settles O51: past their checks both commands write the model's scalar multiple, which is canonical. -/
theorem scalarMultiplication : Obligations.ScalarMultiplication := by
  intro qd qa r s
  refine ⟨⟨decode_cmdWord (f1 := pointField qd) (f2 := pointField qa) (k := 0) rfl (by decide) rfl,
    decode_cmdWord (f1 := pointField qd) (f3 := 0) (k := 0) rfl (by decide) rfl⟩,
    fun hc hr => ⟨leads_pmul_coordRange qd hc hr, leads_pmul_notOnCurve qd hc hr, fun h hon => ?_⟩,
    fun hc hcfg hr => ⟨leads_pubk_keyRange qd hc hr, fun h1 hn => ?_⟩⟩
  · have hexec := exec_pmul qd hc hr h hon
    refine ⟨fun hk => leads_raise (c := .scalarRange) ?_, fun hk => ?_⟩
    · rw [hexec, if_pos hk, State.finishQ_error]
    · rw [if_neg (Nat.not_le.mpr hk)] at hexec
      exact ⟨fun R hR => leads_group_some hexec hR (scalarMul_pt_canonical h hR), leads_group_none hexec⟩
  · exact ⟨fun R hR => leads_pubk_multiple qd hc hr hcfg ⟨h1, hn⟩ hR, leads_group_none (exec_pubk qd hc hr ⟨h1, hn⟩)⟩

end Sys2Proof.Machine
end

section
/-! SUPPORT. The round trip of the Edwards conversions under a prime p (45_edwards.md R139): in the field the two conversions'
equations undo each other, and the memo that the first command leaves is the one the second uses. -/

namespace Sys2Proof.Machine

open Sys2Proof.Claims

/-! ## The field -/

theorem gcd_eq_one_of_ne_zero {z : Int} {p : Nat} [hp : Fact p.Prime] (h : (z : ZMod p) ≠ 0) : Int.gcd z p = 1 := by
  obtain ⟨i, hi, _⟩ := inv_of_prime z p h
  by_contra hg
  rw [(inverseIsCorrect z p hp.out.two_le).1 hg] at hi
  cases hi

theorem goodModulus_of_prime {p : Nat} (hp : p.Prime) (h5 : 5 ≤ p) : goodModulus p :=
  ⟨hp.eq_two_or_odd.resolve_left (by omega), by omega⟩

section
variable {F : Type} [Field F] {u v s t x y : F} (h2 : (2 : F) ≠ 0) (hs : s ≠ 0) (h1v : 1 - v ≠ 0)
  (hv1 : 1 + v ≠ 0) (hx : (x - t) * (1 - v) - s * (1 + v) = 0) (hy : y * (u * (1 - v)) - s * (1 + v) = 0)

include hs hv1 hy in
theorem montgomery_y_ne_zero : y ≠ 0 := by
  rintro rfl
  rw [zero_mul, zero_sub, neg_eq_zero] at hy
  exact mul_ne_zero hs hv1 hy

include h2 hs hx in
/-- `(x - t + s)(1 - v) = 2s`. -/
theorem shifted_x_ne_zero : x - t + s ≠ 0 := by
  intro h
  exact mul_ne_zero h2 hs (by linear_combination (1 - v) * h - hx)

include hs h1v hv1 hx hy in
theorem roundTrip_u {u' : F} (h : u' * y - (x - t) = 0) : u' = u := by
  refine mul_right_cancel₀ (montgomery_y_ne_zero hs hv1 hy) (mul_right_cancel₀ h1v ?_)
  linear_combination (1 - v) * h + hx - hy

include h2 hs h1v hx in
theorem roundTrip_v {v' : F} (h : v' * (x - t + s) - (x - t - s) = 0) : v' = v := by
  refine mul_right_cancel₀ (shifted_x_ne_zero h2 hs hx) (mul_right_cancel₀ h1v ?_)
  linear_combination (1 - v) * h + (1 - v) * hx

end

/-! ## The memo -/

/-- Under a prime p the two divisions of ComputeST have answers, and s is 0 only where E = D (45_edwards.md R134). -/
theorem exists_memoIs {s : State} (hp : (s.prmVal .p).Prime) (h5 : 5 ≤ s.prmVal .p)
    (hstored : s.stv = true → s.prmVal .s % s.prmVal .p ≠ 0)
    (hdivided : s.stv = false → ((s.prmVal .e : Int) - s.prmVal .d) % (s.prmVal .p : Int) ≠ 0) :
    ∃ sv tv, memoIs s sv tv ∧ (sv : ZMod (s.prmVal .p)) ≠ 0 := by
  have : Fact (s.prmVal .p).Prime := ⟨hp⟩
  have h2 := two_ne_zero_of_five_le (s.prmVal .p) h5
  have h3 : (3 : ZMod (s.prmVal .p)) ≠ 0 := by exact_mod_cast natCast_ne_zero_of_lt (s.prmVal .p) 3 (by omega) (by omega)
  have h4 : (4 : ZMod (s.prmVal .p)) ≠ 0 := by exact_mod_cast natCast_ne_zero_of_lt (s.prmVal .p) 4 (by omega) (by omega)
  have h6 : (6 : ZMod (s.prmVal .p)) ≠ 0 := fun h => mul_ne_zero h2 h3 (by linear_combination h)
  cases hs : s.stv with
  | true =>
    refine ⟨s.prmVal .s, s.prmVal .t, ⟨fun _ => ⟨rfl, rfl⟩, fun h => (Bool.noConfusion (hs.symm.trans h))⟩, fun h => ?_⟩
    exact hstored hs (Nat.mod_eq_zero_of_dvd ((ZMod.natCast_eq_zero_iff _ _).mp h))
  | false =>
    have hE := mt (emod_eq_zero_iff_intCast _ _).mpr (hdivided hs)
    push_cast at hE
    refine ⟨(((s.prmVal .e : ZMod (s.prmVal .p)) - s.prmVal .d) / 4).val,
      (((s.prmVal .e : ZMod (s.prmVal .p)) + s.prmVal .d) / 6).val, ⟨fun h => Bool.noConfusion (hs.symm.trans h),
        fun _ => ⟨ZMod.val_lt _, ZMod.val_lt _, gcd_eq_one_of_ne_zero (z := 6) (p := s.prmVal .p) (by exact_mod_cast h6),
          ?_, ?_⟩⟩, ?_⟩
    · rw [emod_eq_zero_iff_intCast]
      push_cast [ZMod.natCast_zmod_val]
      rw [mul_div_cancel₀ _ h4, sub_self]
    · rw [emod_eq_zero_iff_intCast]
      push_cast [ZMod.natCast_zmod_val]
      rw [mul_div_cancel₀ _ h6, sub_self]
    · rw [ZMod.natCast_zmod_val]
      exact div_ne_zero hE h4

section
variable {s t : State} {sv tv : Nat} (h : memoWritten s t sv tv)
include h

theorem stv_of_memoWritten : t.stv = true := by
  cases hs : s.stv with
  | true => exact (h.1 hs).2
  | false =>
    obtain ⟨_, _, _, _, hstv, _⟩ := h.2 hs
    exact hstv

theorem prmReg_p_of_memoWritten : t.prmReg .p = s.prmReg .p := by
  cases hs : s.stv with
  | true => rw [State.prmReg, (h.1 hs).1, State.prmReg]
  | false =>
    obtain ⟨_, _, _, _, _, hother⟩ := h.2 hs
    exact hother .p (by decide) (by decide)

/-- The memo a command leaves is the one the next command reads (45_edwards.md R134). -/
theorem memoIs_of_memoWritten (hm : memoIs s sv tv) : memoIs t sv tv := by
  refine ⟨fun _ => ?_, fun hf => Bool.noConfusion ((stv_of_memoWritten h).symm.trans hf)⟩
  cases hs : s.stv with
  | true =>
    obtain ⟨rfl, rfl⟩ := hm.1 hs
    have hprm := (h.1 hs).1
    simp only [State.prmVal, State.prmReg, hprm, and_self]
  | false =>
    obtain ⟨hS, hT, _⟩ := h.2 hs
    exact ⟨hS.symm, hT.symm⟩

theorem readable_memoRegs_of_memoWritten (hr : readable s (memoRegs s)) : readable t (memoRegs t) := by
  have hp : t.regWritten (.prm .p) = true := by
    rw [State.regWritten, prmReg_p_of_memoWritten h]
    exact hr (.prm .p) (by unfold memoRegs; split <;> exact List.mem_cons_self)
  simp only [readable, memoRegs, if_pos (stv_of_memoWritten h), List.forall_mem_cons]
  cases hs : s.stv with
  | true =>
    have hprm := (h.1 hs).1
    simp only [readable, memoRegs, if_pos hs, List.forall_mem_cons] at hr
    obtain ⟨_, hS, hT, hnil⟩ := hr
    simp only [State.regWritten, State.prmReg, hprm] at hS hT hp ⊢
    exact ⟨hp, hS, hT, List.forall_mem_nil _⟩
  | false =>
    obtain ⟨_, _, hS, hT, _⟩ := h.2 hs
    exact ⟨hp, hS, hT, List.forall_mem_nil _⟩

end

theorem readable_cons {s : State} {r : RegName} {l : List RegName} : readable s (r :: l) ↔ s.regWritten r = true ∧ readable s l :=
  List.forall_mem_cons

/-- A register that holds (x, y, 0) is that affine point. -/
theorem pt_of_holdsQ {q : QReg} {x y : Nat} {s t : State} (h : holdsQ q x y false s t) : pt t q = .affine x y := by
  obtain ⟨rfl, rfl, hinf, _⟩ := h
  rw [pt, hinf]
  rfl

theorem coordsOk_of_pt_affine {q : QReg} {x y : Nat} {s : State} (h : pt s q = .affine x y) (hx : x < s.prmVal .p)
    (hy : y < s.prmVal .p) : coordsOk s q := by
  obtain ⟨_, rfl, rfl⟩ := coordinates_of_pt h
  exact .inr ⟨hx, hy⟩

/-- Settles O60: each divisor is not 0 in the field, so both commands complete, and the solution of the second conversion's
equations is the first one's operand. -/
theorem edwardsRoundTrip : Obligations.EdwardsRoundTrip := by
  intro qa qb qc s u v hp h5 he hr hpt hu hv hu0 hv1 hvp hstored hdivided
  have : Fact (s.prmVal .p).Prime := ⟨hp⟩
  have hm := goodModulus_of_prime hp h5
  have h2 := two_ne_zero_of_five_le (s.prmVal .p) h5
  have huF := natCast_ne_zero_of_lt _ u hu hu0
  have h1v : (1 : ZMod (s.prmVal .p)) - v ≠ 0 := fun h =>
    hv1 (natCast_inj_of_lt _ v 1 hv (by omega) (by rw [Nat.cast_one]; linear_combination -h))
  have hv1F : (1 : ZMod (s.prmVal .p)) + v ≠ 0 := fun h =>
    natCast_ne_zero_of_lt (s.prmVal .p) (1 + v) (by omega) (by omega) (by exact_mod_cast h)
  obtain ⟨sv, tv, hmemo, hsv⟩ := exists_memoIs hp h5 hstored hdivided
  have hg : Int.gcd ((u : Int) * (1 - v)) (s.prmVal .p) = 1 :=
    gcd_eq_one_of_ne_zero (by push_cast; exact mul_ne_zero huF h1v)
  obtain ⟨x, y, hf, hx, hy, hex, hey⟩ := edwardsToWeierstrass_solves ⟨sv, tv, !s.stv⟩ (two_le_of_goodModulus hm) hg
  obtain ⟨t, ht, hframe, hwritten, hq⟩ := leads_convert_affine (exec_uv2xy qb qa s) he hm hr hmemo
    (coordsOk_of_pt_affine hpt hu hv) hpt hf hx hy
  obtain ⟨hdone, _, _, _, _, _, _, hunw, _, _, _, _, _, _, _, _, hedw, _⟩ := hframe
  have hprm : t.prmVal .p = s.prmVal .p := by rw [State.prmVal, prmReg_p_of_memoWritten hwritten, State.prmVal]
  have hptq := pt_of_holdsQ hq
  have ⟨_, _, _, hqw, _⟩ := hq
  have hmemo' := memoIs_of_memoWritten hwritten hmemo
  rw [emod_eq_zero_iff_intCast] at hex hey
  push_cast at hex hey
  have hgy : Nat.gcd y (s.prmVal .p) = 1 := by
    refine gcd_eq_one_of_ne_zero (z := y) (p := s.prmVal .p) ?_
    exact_mod_cast montgomery_y_ne_zero hsv hv1F hey
  have hgx : Int.gcd ((x : Int) - tv + sv) (s.prmVal .p) = 1 := by
    refine gcd_eq_one_of_ne_zero ?_
    push_cast
    exact shifted_x_ne_zero h2 hsv hex
  obtain ⟨u', v', hf', hu', hv', heu, hev⟩ :=
    weierstrassToEdwards_solves ⟨sv, tv, !t.stv⟩ (two_le_of_goodModulus hm) hgy hgx
  rw [emod_eq_zero_iff_intCast] at heu hev
  push_cast at heu hev
  obtain rfl : u' = u := natCast_inj_of_lt _ u' u hu' hu (roundTrip_u hsv h1v hv1F hex hey heu)
  obtain rfl : v' = v := natCast_inj_of_lt _ v' v hv' hv (roundTrip_v h2 hsv h1v hex hev)
  rw [← hprm] at hm hx hy hu hv hf'
  obtain ⟨t', ht', ⟨hdone', _, _, _, _, _, _, hunw', _⟩, hwritten', hq'⟩ := leads_convert_affine (exec_xy2uv qc qb t)
    (hedw.trans he) hm (readable_cons.mpr ⟨hqw, readable_memoRegs_of_memoWritten hwritten (readable_cons.mp hr).2⟩)
    hmemo' (coordsOk_of_pt_affine hptq hx hy) hptq hf' hu hv
  have hstv := stv_of_memoWritten hwritten
  have ⟨hprm', hstv'⟩ := hwritten'.1 hstv
  exact ⟨t, ht, hdone, t', ht', hdone', pt_of_holdsQ hq', hprm', hstv', hstv, hunw'.trans hunw⟩

end Sys2Proof.Machine
end

section
/-! SUPPORT. The range check of descriptors (30_encoding.md R66, R67): it comes first, and nothing else raises DESC_RANGE. -/

namespace Sys2Proof.Machine

open Sys2Proof.Claims

/-! ## Every other check raises another cause -/

/-- Where the outcome answers, it has not raised DESC_RANGE. -/
def sparesDescRange (s : State) (o : Out) : Prop := ∀ t, o = .next t → t.err = s.err ∨ t.cause ≠ causeCode .descRange

theorem causeCode_ne_descRange {c : Cause} (h : c ≠ .descRange) : causeCode c ≠ causeCode .descRange := by
  revert h
  cases c <;> decide

theorem orNotInvertible_ne_descRange {α : Type} (o : Option α) : orNotInvertible o ≠ .error .descRange := by
  cases o <;> simp

theorem State.ptRead_ne_descRange (s : State) (q : QReg) : s.ptRead q ≠ .error .descRange := by
  unfold State.ptRead
  split_ifs <;> simp

theorem State.decodePoint_ne_descRange (s : State) (bs : List Byte) : s.decodePoint bs ≠ .error .descRange := by
  simp only [State.decodePoint]
  split_ifs <;> simp

theorem State.computeST_ne_descRange (s : State) : s.computeST ≠ .error .descRange := by
  cases he : s.edw with
  | false => simp [State.computeST_noEdwards he]
  | true =>
    by_cases hm : goodModulus (s.prmVal .p)
    case neg => simp [State.computeST_modulus he hm]
    cases hs : s.stv with
    | true => simp [State.computeST_stored he hm hs]
    | false =>
      obtain ⟨_, _, hst⟩ := State.computeST_divided he hm hs
      rw [hst]
      exact orNotInvertible_ne_descRange _

theorem edwardsToWeierstrass_ne_descRange (p : Nat) (m : Memo) (u v : Nat) :
    edwardsToWeierstrass p m u v ≠ .error .descRange := by
  simp only [edwardsToWeierstrass]
  split
  · simp
  · split <;> simp

theorem weierstrassToEdwards_ne_descRange (p : Nat) (m : Memo) (x y : Nat) :
    weierstrassToEdwards p m x y ≠ .error .descRange := by
  simp only [weierstrassToEdwards]
  split
  · simp
  · split <;> simp

section
variable {s u : State}

theorem spares_fault (a : Nat) : sparesDescRange s (.fault (.unwrittenRead a)) := fun _ h => by cases h

theorem spares_next {t : State} (h : t.err = s.err) : sparesDescRange s (.next t) := fun _ ht => by
  cases ht
  exact .inl h

theorem spares_raise {c : Cause} (h : c ≠ .descRange) : sparesDescRange s (.next (u.raise c)) := fun _ ht => by
  cases ht
  exact .inr (causeCode_ne_descRange h)

theorem spares_configured {o : Out} (h : sparesDescRange s o) :
    sparesDescRange s (if s.cfgok = false then .next (s.raise .cfgNotOk) else o) := by
  split
  · exact spares_raise (by decide)
  · exact h

variable (hu : u.err = s.err)
include hu

theorem spares_finishX (rd : XReg) {r : Except Cause Nat} (h : r ≠ .error .descRange) :
    sparesDescRange s (.next (u.finishX rd r)) := by
  cases r with
  | error c => exact spares_raise (fun hc => h (hc ▸ rfl))
  | ok v => exact spares_next hu

theorem spares_finishQ (qd : QReg) {r : Except Cause Point} (h : r ≠ .error .descRange) :
    sparesDescRange s (.next (u.finishQ qd r)) := by
  cases r with
  | error c => exact spares_raise (fun hc => h (hc ▸ rfl))
  | ok p => cases p <;> exact spares_next hu

theorem spares_finishBuf (o : Nat) {r : Except Cause (List Byte)} (h : r ≠ .error .descRange) :
    sparesDescRange s (.next (u.finishBuf o r)) := by
  cases r with
  | error c => exact spares_raise (fun hc => h (hc ▸ rfl))
  | ok bs => exact spares_next hu

end

/-! ## The shared bodies -/

section
variable (s : State)

theorem fieldCommand_spares (m : Modulus) (rd : XReg) (srcs : List XReg) {f : Nat → Except Cause Nat}
    (h : f (s.prmVal (modReg m)) ≠ .error .descRange) : sparesDescRange s (fieldCommand m rd srcs f s) := by
  unfold fieldCommand
  split
  · exact spares_finishX rfl rd h
  · exact spares_raise (by decide)

theorem loadBytes_spares (value : List Byte → Nat) (r : XReg) {k : DescSel} (hk : ¬ s.descOk k = false) :
    sparesDescRange s (loadBytes value r k s) := by
  rw [loadBytes, if_neg hk]
  split
  · exact spares_raise (by decide)
  · split
    · exact spares_fault _
    · exact spares_next rfl

theorem storeBytes_spares (bytes : Nat → Nat → List Byte) (r : XReg) {k : DescSel} (hk : ¬ s.descOk k = false) :
    sparesDescRange s (storeBytes bytes r k s) := by
  rw [storeBytes, if_neg hk]
  split
  · exact spares_raise (by decide)
  · split
    · exact spares_raise (by decide)
    · exact spares_next rfl

theorem encodeCommand_spares (n : Nat) {enc : Point → Except Cause (List Byte)} (q : QReg) {k : DescSel}
    (hk : ¬ s.descOk k = false) (h : ∀ p, enc p ≠ .error .descRange) : sparesDescRange s (encodeCommand n enc q k s) := by
  rw [encodeCommand, if_neg hk]
  refine spares_configured ?_
  split
  · exact spares_raise (by decide)
  · refine spares_finishBuf rfl _ ?_
    have hread := s.ptRead_ne_descRange q
    cases hq : s.ptRead q with
    | error c => exact fun hc => hread (hq.trans (by cases hc; rfl))
    | ok p => exact h p

theorem execPdec_spares (q : QReg) {k : DescSel} (hk : ¬ s.descOk k = false) : sparesDescRange s (execPdec q k s) := by
  rw [execPdec, if_neg hk]
  refine spares_configured ?_
  split
  · exact spares_raise (by decide)
  · split
    · exact spares_fault _
    · exact spares_finishQ rfl q (s.decodePoint_ne_descRange _)

theorem State.writeMemo_err (m : Memo) : (s.writeMemo m).err = s.err := by
  cases hw : m.write with
  | false => rw [State.writeMemo_skipped s hw]
  | true => rw [State.writeMemo_written s hw]; rfl

theorem execStcomp_spares : sparesDescRange s (execStcomp s) := by
  have hst := s.computeST_ne_descRange
  unfold execStcomp
  split
  · next c hc => exact spares_raise (fun h => hst (h ▸ hc))
  · exact spares_next (State.writeMemo_err _ _)

theorem convert_spares {f : Nat → Memo → Nat → Nat → Except Cause Point} (hf : ∀ p m a b, f p m a b ≠ .error .descRange)
    (qd qa : QReg) : sparesDescRange s (convert f qd qa s) := by
  have hst := s.computeST_ne_descRange
  unfold convert
  split
  · next c hc => exact spares_raise (fun h => hst (h ▸ hc))
  · next m _ =>
    dsimp only
    split
    · exact spares_raise (by decide)
    · split
      · exact spares_raise (by decide)
      · split
        · next c hc => exact spares_raise (fun h => hf _ _ _ _ (h ▸ hc))
        · next p _ => cases p <;> exact spares_next (State.writeMemo_err _ m)

end

theorem LoopEnd.spares {k : SignLoop} {s u t : State} (h : LoopEnd k u t) (hu : u.err = s.err) : sparesDescRange s (.next t) := by
  cases h with
  | failed | capped => exact spares_raise (by decide)
  | waits | signed => exact spares_next hu

theorem startSign_spares {s : State} (ra : XReg) (h : ¬ (s.descOk 0 = false ∨ s.descOk 1 = false ∨ s.descOk 2 = false)) :
    sparesDescRange s (startSign ra s) := by
  rw [startSign, if_neg h]
  refine spares_configured ?_
  split
  · exact spares_fault _
  split
  · exact spares_fault _
  split
  · exact spares_raise (by decide)
  split
  · exact spares_raise (by decide)
  split
  · exact spares_raise (by decide)
  · obtain hend | hend := State.enterLoop_end _ (s.noteReads [.x ra]) <;> exact hend.spares rfl

theorem execVerify_spares {s : State} (h : ¬ (s.descOk 0 = false ∨ s.descOk 1 = false ∨ s.descOk 2 = false)) :
    sparesDescRange s (execVerify s) := by
  rw [execVerify, if_neg h]
  refine spares_configured ?_
  split
  · exact spares_fault _
  split
  · exact spares_fault _
  split
  · exact spares_fault _
  split
  · exact spares_raise (by decide)
  · exact spares_next rfl

/-! ## Every command -/

theorem not_descOk_three_of_descsOk {s : State} {i : Instr} (h : descsOf i = [0, 1, 2]) (hd : descsOk i s) :
    ¬ (s.descOk 0 = false ∨ s.descOk 1 = false ∨ s.descOk 2 = false) := by
  simp only [descsOk, h, List.forall_mem_cons] at hd
  obtain ⟨h0, h1, h2, _⟩ := hd
  exact descsOk_three.mpr ⟨h0, h1, h2⟩

/-- With its descriptors in range a command raises no DESC_RANGE. -/
theorem exec_spares {i : Instr} {s : State} (hd : descsOk i s) : sparesDescRange s (exec i s) := by
  have hk {k : DescSel} (h : k ∈ descsOf i) : ¬ s.descOk k = false := State.descOk_of_within (hd k h)
  cases i with
  | madd | msub | mmul =>
    simp only [exec, execMadd, execMsub, execMmul]
    exact fieldCommand_spares s _ _ [_, _] (by simp)
  | msqr | mneg | msmul | mred =>
    simp only [exec, execMsqr, execMneg, execMsmul, execMred]
    exact fieldCommand_spares s _ _ [_] (by simp)
  | minv | mdiv =>
    simp only [exec, execMinv, execMdiv]
    exact fieldCommand_spares s _ _ _ (orNotInvertible_ne_descRange _)
  | xmov | xcmp | xldi | pgetx | pgety | pmov | pinf => exact spares_next rfl
  | xldp rd sel =>
    rw [exec, execXldp]
    split
    · exact spares_next rfl
    · split_ifs
      · exact spares_next rfl
      · exact spares_next rfl
      · exact spares_raise (by decide)
  | ldbe r k => exact loadBytes_spares s be r (hk (List.mem_singleton_self k))
  | ldle r k => exact loadBytes_spares s le r (hk (List.mem_singleton_self k))
  | stbe r k => exact storeBytes_spares s beBytes r (hk (List.mem_singleton_self k))
  | stle r k => exact storeBytes_spares s leBytes r (hk (List.mem_singleton_self k))
  | cfgchk =>
    rw [exec, execCfgchk]
    split
    · exact spares_next rfl
    · next c hc =>
      refine spares_raise fun h => ?_
      subst h
      cases classOf_configCheck hc
  | pgen => exact spares_configured (spares_next rfl)
  | pset =>
    refine spares_configured ?_
    split
    · exact spares_raise (by decide)
    · exact spares_next rfl
  | padd qd qa qb =>
    refine spares_configured (spares_finishQ rfl qd ?_)
    split
    · next c hc => exact fun h => s.ptRead_ne_descRange qa (hc.trans h)
    split
    · next c hc => exact fun h => s.ptRead_ne_descRange qb (hc.trans h)
    · exact orNotInvertible_ne_descRange _
  | pdbl qd qa =>
    refine spares_configured (spares_finishQ rfl qd ?_)
    split
    · next c hc => exact fun h => s.ptRead_ne_descRange qa (hc.trans h)
    · exact orNotInvertible_ne_descRange _
  | pneg qd qa =>
    refine spares_configured (spares_finishQ rfl qd ?_)
    split
    · next c hc => exact fun h => s.ptRead_ne_descRange qa (hc.trans h)
    · simp
  | pmul qd qa r =>
    refine spares_configured (spares_finishQ rfl qd ?_)
    split
    · next c hc => exact fun h => s.ptRead_ne_descRange qa (hc.trans h)
    split_ifs
    · simp
    · simp
    · exact orNotInvertible_ne_descRange _
  | pchk => exact spares_configured (spares_next rfl)
  | penc q k =>
    rw [exec_penc]
    refine encodeCommand_spares s _ q (hk (List.mem_singleton_self k)) fun p => ?_
    cases p <;> simp [encodeBE]
  | pencle q k =>
    rw [exec_pencle]
    refine encodeCommand_spares s _ q (hk (List.mem_singleton_self k)) fun p => ?_
    cases p <;> simp [encodeLE]
  | pdec q k => exact execPdec_spares s q (hk (List.mem_singleton_self k))
  | pubk qd ra =>
    refine spares_configured (spares_finishQ rfl qd ?_)
    split
    · simp
    · exact orNotInvertible_ne_descRange _
  | sign ra =>
    have hstart := startSign_spares ra (not_descOk_three_of_descsOk rfl hd)
    rw [exec, execSign]
    split
    · exact (State.iterate_end _ _ s).spares rfl
    all_goals exact hstart
  | verify => exact execVerify_spares (not_descOk_three_of_descsOk rfl hd)
  | stcomp => exact execStcomp_spares s
  | uv2xy qd qa => exact convert_spares s edwardsToWeierstrass_ne_descRange qd qa
  | xy2uv qd qa => exact convert_spares s weierstrassToEdwards_ne_descRange qd qa

/-- A command with a descriptor out of range makes no other check, unless it is a SIGN already in its loop. -/
theorem exec_descRange {i : Instr} {s : State} (hs : signing s = none) (hd : ¬ descsOk i s) :
    exec i s = .next (s.raise .descRange) := by
  simp only [descsOk, not_forall, Nat.not_le] at hd
  obtain ⟨k, hk, hlt⟩ := hd
  have hbad := State.descOk_eq_false_iff.mpr hlt
  have hthree (h : descsOf i = [0, 1, 2]) : s.descOk 0 = false ∨ s.descOk 1 = false ∨ s.descOk 2 = false := by
    simp only [h, List.mem_cons, List.not_mem_nil, or_false] at hk
    obtain rfl | rfl | rfl := hk
    · exact .inl hbad
    · exact .inr (.inl hbad)
    · exact .inr (.inr hbad)
  cases i with
  | ldbe | ldle | stbe | stle | penc | pencle | pdec =>
    obtain rfl := List.mem_singleton.mp hk
    exact if_pos hbad
  | sign ra =>
    rw [exec, execSign_of_not_signing ra hs]
    exact if_pos (hthree rfl)
  | verify => exact if_pos (hthree rfl)
  | _ => cases hk

/-- Settles O37: the range check is the first of a command, OFF alone is always below 1024, and no other check has the cause. -/
theorem descriptorRangeErrors : Obligations.DescriptorRangeErrors := by
  refine ⟨fun i s hs hd => leads_raise (exec_descRange hs hd), fun s k hl => ?_, fun i s t h hs ht hc hd => ?_⟩
  · have hoff : off s k < 2 ^ 10 := s.desc[k].off.isLt
    omega
  · obtain herr | hcause := exec_spares hd t h
    · exact Bool.false_ne_true (hs.symm.trans (herr.symm.trans ht))
    · exact hcause (BitVec.eq_of_toNat_eq hc)

end Sys2Proof.Machine
end

section
/-! SUPPORT. The signature family (44_signature.md R123 to R131): the digest scalar and the nonce as sums, an iteration of the
signing loop by what it meets, SIGN from its start, and the verdict of VerifyCore. -/

namespace Sys2Proof.Machine

open Sys2Proof.Claims

/-! ## Byte strings -/

/-- ReduceBytes is the remainder of the string's value (40_field.md R77). -/
theorem reduceBytes_eq (bs : List Byte) (m : Nat) : reduceBytes bs m = beSum bs % m := by
  have hfold : ∀ (l : List Byte) (v : Nat), l.foldl (fun v b => (v * 256 + b.toNat) % m) (v % m) =
      l.foldl (fun v b => v * 256 + b.toNat) v % m := by
    intro l
    induction l with
    | nil => exact fun v => rfl
    | cons b l ih =>
      intro v
      rw [List.foldl_cons, List.foldl_cons, ← ih, Nat.add_mod, Nat.mul_mod, Nat.mod_mod, ← Nat.mul_mod, ← Nat.add_mod]
  rw [← be_eq_beSum, be, ← hfold, Nat.zero_mod, reduceBytes]

theorem digestScalar_eq (bs : List Byte) (n : Nat) : digestScalar bs n = digestOf bs n := by
  rw [digestScalar, digestOf, reduceBytes_eq]

theorem descBytes_of_bufHolds {s : State} {k : DescSel} {bs : List Byte} (hn : bs.length = len s k)
    (hb : bufHolds s (off s k) bs) : s.descBytes k = .ok bs := by
  rw [← readBytes_of_bufHolds hb, hn]
  rfl

/-! ## One iteration of the signing loop -/

section
variable {s : State} {e d : Nat} {bytes : List Byte}

theorem attemptSign_zero (h : beSum bytes % s.prmVal .n = 0) :
    attemptSign s.curve s.gen (s.prmVal .n) e d bytes = .retry := by
  simp only [attemptSign, reduceBytes_eq, h, if_true]

theorem attemptSign_failing (hk : beSum bytes % s.prmVal .n ≠ 0)
    (h : scalarMul s.curve s.gen (beSum bytes % s.prmVal .n) = none) :
    attemptSign s.curve s.gen (s.prmVal .n) e d bytes = .failed .notInvertible := by
  simp only [attemptSign, reduceBytes_eq, if_neg hk, h]

variable (hn : 0 < s.prmVal .n)
include hn

/-- With the multiple of the nonce at hand an iteration ends by its r and s (44_signature.md R126 steps c to e). -/
theorem attemptSign_of_multiple {C : Point} (hk : beSum bytes % s.prmVal .n ≠ 0)
    (h : scalarMul s.curve s.gen (beSum bytes % s.prmVal .n) = some C) :
    attemptSign s.curve s.gen (s.prmVal .n) e d bytes = if coordMod C (s.prmVal .n) = 0 then .retry
      else if (coordMod C (s.prmVal .n) * d + beSum bytes % s.prmVal .n * e) % s.prmVal .n = 0 then .retry
      else .signature (coordMod C (s.prmVal .n))
        ((coordMod C (s.prmVal .n) * d + beSum bytes % s.prmVal .n * e) % s.prmVal .n) := by
  have hrange : 1 ≤ beSum bytes % s.prmVal .n ∧ beSum bytes % s.prmVal .n < s.prmVal .n :=
    ⟨Nat.pos_of_ne_zero hk, Nat.mod_lt _ hn⟩
  simp only [attemptSign, reduceBytes_eq, if_neg hk, h, if_neg (not_not.mpr hrange)]

theorem attemptSign_of_retries (h : retries s e d bytes) :
    attemptSign s.curve s.gen (s.prmVal .n) e d bytes = .retry := by
  by_cases hk : beSum bytes % s.prmVal .n = 0
  · exact attemptSign_zero hk
  obtain hinf | ⟨x, y, hxy, hr⟩ := h.resolve_left hk
  · rw [attemptSign_of_multiple hn hk hinf, coordMod, if_pos rfl]
  · rw [attemptSign_of_multiple hn hk hxy, coordMod]
    obtain h0 | h0 := hr
    · rw [if_pos h0]
    · rw [if_pos h0, ite_self]

theorem attemptSign_of_signs {r sg : Nat} (h : signs s e d bytes r sg) :
    attemptSign s.curve s.gen (s.prmVal .n) e d bytes = .signature r sg := by
  obtain ⟨hk, ⟨x, y, hxy, rfl⟩, hr, rfl, hsg⟩ := h
  rw [attemptSign_of_multiple hn hk hxy, coordMod, if_neg hr, if_neg hsg]

/-- Every signature comes from steps b to e (44_signature.md R126). -/
theorem signs_of_attemptSign {r sg : Nat} (h : attemptSign s.curve s.gen (s.prmVal .n) e d bytes = .signature r sg) :
    signs s e d bytes r sg := by
  by_cases hk : beSum bytes % s.prmVal .n = 0
  · rw [attemptSign_zero hk] at h
    cases h
  cases hC : scalarMul s.curve s.gen (beSum bytes % s.prmVal .n) with
  | none =>
    rw [attemptSign_failing hk hC] at h
    cases h
  | some C =>
    rw [attemptSign_of_multiple hn hk hC] at h
    split_ifs at h with hr hsg
    cases h
    cases C with
    | infinity => exact absurd rfl hr
    | affine x y => exact ⟨hk, ⟨x, y, hC, rfl⟩, hr, rfl, hsg⟩

end

theorem State.iterate_of_signature {k : SignLoop} {bytes : List Byte} {s : State} {r sg : Nat}
    (h : attemptSign s.curve s.gen (s.prmVal .n) k.e k.d bytes = .signature r sg) :
    s.iterate k bytes = (({ s with iter := BitVec.ofNat 32 (min k.it 0xFFFFFFFF) }.writeBuf (off s 2)
      (beBytes r s.bytelen.toNat ++ beBytes sg s.bytelen.toNat)).complete) := by
  rw [State.iterate, h]
  rfl

theorem State.iterate_of_retry {k : SignLoop} {bytes : List Byte} {s : State}
    (h : attemptSign s.curve s.gen (s.prmVal .n) k.e k.d bytes = .retry) : s.iterate k bytes = s.drawNext k := by
  rw [State.iterate, h]

theorem State.iterate_of_failed {k : SignLoop} {bytes : List Byte} {s : State} {c : Cause}
    (h : attemptSign s.curve s.gen (s.prmVal .n) k.e k.d bytes = .failed c) : s.iterate k bytes = s.raise c := by
  rw [State.iterate, h]

/-- Below its cap, or without one, the loop asks for the bytes of its next iteration (44_signature.md R126, R128). -/
theorem State.drawNext_waitsFor {k : SignLoop} {s : State} (h : s.itercap = 0 ∨ k.it < s.itercap.toNat) :
    waitsFor (k.it + 1) k.e k.d s (s.drawNext k) := by
  have hcap : ¬ (s.itercap ≠ 0 ∧ s.itercap.toNat < k.it + 1) := by
    rintro ⟨h0, hlt⟩
    exact h.elim h0 (by omega)
  rw [State.drawNext, if_neg hcap]
  exact ⟨⟨_, rfl, rfl, rfl, rfl⟩, rfl, rfl, rfl, rfl, rfl, rfl, rfl, ⟨rfl, rfl, rfl, fun _ => rfl⟩, rfl, rfl, rfl, rfl, rfl,
    ⟨rfl, rfl, rfl, rfl, rfl, rfl, rfl, rfl, rfl, rfl, rfl, rfl, rfl⟩⟩

theorem State.drawNext_capped {k : SignLoop} {s : State} (hit : 1 ≤ k.it) (h : s.itercap.toNat = k.it) :
    s.drawNext k = { s with iter := s.itercap }.raise .iterCap := by
  have h0 : s.itercap ≠ 0 := by
    intro h0
    rw [h0] at h
    simp at h
    omega
  rw [State.drawNext, if_pos ⟨h0, by omega⟩, ← h, BitVec.ofNat_toNat, BitVec.setWidth_eq]

/-- The strings of a signature have its two values, which are below n < 2^(8·BL) (44_signature.md R126 step f). -/
theorem signature_fits {s : State} {e d r sg : Nat} {bytes : List Byte} (hc : s.cfgok = true) (hcfg : configOk s)
    (h : signs s e d bytes r sg) : r < 2 ^ (8 * s.bytelen.toNat) ∧ sg < 2 ^ (8 * s.bytelen.toNat) := by
  have hn := order_lt hc hcfg
  have hpos : 0 < s.prmVal .n := Nat.zero_lt_of_lt (three_le_order hc hcfg)
  obtain ⟨_, ⟨x, y, _, rfl⟩, _, rfl, _⟩ := h
  exact ⟨(Nat.mod_lt _ hpos).trans hn, (Nat.mod_lt _ hpos).trans hn⟩

/-- An iteration on its bytes ends as the rule says (44_signature.md R126, R128). -/
theorem iterationEnds_of_exec {i : Instr} {s : State} {k : SignLoop} {bytes : List Byte}
    (h : exec i s = .next (s.iterate k bytes)) (hc : s.cfgok = true) (hcfg : configOk s) (hit : 1 ≤ k.it) :
    iterationEnds k.it k.e k.d bytes i s := by
  have hpos : 0 < s.prmVal .n := Nat.zero_lt_of_lt (three_le_order hc hcfg)
  refine ⟨fun r sg hsign => ?_, fun hretry hcap => ?_, fun hretry hcap => ?_, fun hk hnone => ?_⟩
  · obtain ⟨hr, hsg⟩ := signature_fits hc hcfg hsign
    refine ⟨_, _, beBytes_length r _, beBytes_length sg _, by rw [← be_eq_beSum, be_beBytes hr],
      by rw [← be_eq_beSum, be_beBytes hsg], _, ?_, State.complete_writeBuf_wroteBuf _ _ _⟩
    rw [h, State.iterate_of_signature (attemptSign_of_signs hpos hsign)]
  · refine ⟨_, ?_, State.drawNext_waitsFor hcap⟩
    rw [h, State.iterate_of_retry (attemptSign_of_retries hpos hretry)]
  · refine ⟨_, ?_, State.raise_failed _ .iterCap⟩
    rw [h, State.iterate_of_retry (attemptSign_of_retries hpos hretry), State.drawNext_capped hit hcap]
  · refine leads_raise (c := .notInvertible) ?_
    rw [h, State.iterate_of_failed (attemptSign_failing hk hnone)]

theorem exec_sign_resumed {s : State} {k : SignLoop} {bytes : List Byte} (ra : XReg) (hp : s.phase = .entropyGot k bytes) :
    exec (.sign ra) s = .next (s.iterate k bytes) := by
  simp only [exec, execSign, hp]

/-- Settles O56: under the invariants the iteration's premises hold. -/
theorem signIterates : Obligations.SignIterates := by
  intro ra s k bytes hp hcfg hfl
  obtain ⟨_, hloop, _⟩ := hfl
  obtain ⟨_, hc, _, _, hit, _⟩ := hloop k (by simp only [signing, hp])
  exact iterationEnds_of_exec (exec_sign_resumed ra hp) hc hcfg hit

/-! ## SIGN from its start -/

section
variable {ra : XReg} {s : State} {dig seed : List Byte} (hp : s.phase = .accepted) (hc : s.cfgok = true)
  (hd : descsOk (.sign ra) s) (hn0 : dig.length = len s 0) (hn1 : seed.length = len s 1)
  (hb0 : bufHolds s (off s 0) dig) (hb1 : bufHolds s (off s 1) seed)
include hp hc hd hn0 hn1 hb0 hb1

/-- With its digest and seed read, SIGN checks the lengths and the key, and enters its loop (44_signature.md R126). -/
theorem exec_sign_accepted : exec (.sign ra) s =
    if len s 1 ≠ 0 ∧ len s 1 ≠ s.bytelen.toNat then .next (s.raise .length)
    else if len s 2 ≠ 2 * s.bytelen.toNat then .next (s.raise .length)
    else if ¬ (1 ≤ s.xVal ra ∧ s.xVal ra < s.prmVal .n) then .next ((s.noteReads [.x ra]).raise .keyRange)
    else .next ((s.noteReads [.x ra]).enterLoop
      { e := digestOf dig (s.prmVal .n), d := s.xVal ra, seed := if len s 1 = s.bytelen.toNat then some seed else none,
        it := 0 }) := by
  rw [exec, execSign_of_not_signing ra (signing_of_accepted hp), startSign, if_neg (not_descOk_three_of_descsOk rfl hd),
    if_neg (ne_false_of_eq_true hc), descBytes_of_bufHolds hn0 hb0, descBytes_of_bufHolds hn1 hb1,
    ← digestScalar_eq]
  rfl

theorem leads_sign_length (h : (len s 1 ≠ 0 ∧ len s 1 ≠ s.bytelen.toNat) ∨ len s 2 ≠ 2 * s.bytelen.toNat) :
    leads (.sign ra) s (failed 3 0x20 s) := by
  refine leads_raise (c := .length) ?_
  rw [exec_sign_accepted hp hc hd hn0 hn1 hb0 hb1]
  by_cases h1 : len s 1 ≠ 0 ∧ len s 1 ≠ s.bytelen.toNat
  · rw [if_pos h1]
  · rw [if_neg h1, if_pos (h.resolve_left h1)]

variable (hl1 : len s 1 = 0 ∨ len s 1 = s.bytelen.toNat) (hl2 : len s 2 = 2 * s.bytelen.toNat) (hr : readable s [.x ra])
include hl1 hl2 hr

theorem leads_sign_keyRange (h : ¬ (1 ≤ s.xVal ra ∧ s.xVal ra < s.prmVal .n)) : leads (.sign ra) s (failed 4 0x34 s) := by
  refine leads_raise (c := .keyRange) ?_
  rw [exec_sign_accepted hp hc hd hn0 hn1 hb0 hb1, if_neg (by tauto), if_neg (not_not.mpr hl2), if_pos h,
    State.noteReads_of_readable hr]

theorem exec_sign_enters (h : 1 ≤ s.xVal ra ∧ s.xVal ra < s.prmVal .n) : exec (.sign ra) s =
    .next (s.enterLoop
      { e := digestOf dig (s.prmVal .n), d := s.xVal ra, seed := if len s 1 = s.bytelen.toNat then some seed else none,
        it := 0 }) := by
  rw [exec_sign_accepted hp hc hd hn0 hn1 hb0 hb1, if_neg (by tauto), if_neg (not_not.mpr hl2), if_neg (not_not.mpr h),
    State.noteReads_of_readable hr]

end

/-- The byte length of a checked configuration is not 0 (41_regmove.md R95). -/
theorem bytelen_pos {s : State} (hc : s.cfgok = true) (hcfg : configOk s) : 0 < s.bytelen.toNat := by
  obtain ⟨⟨_, h5⟩, hbl, _⟩ := checks_of_configOk hc hcfg
  have hsize : 0 < Nat.size (s.prmVal .p) := Nat.size_pos.mpr (by omega)
  omega

/-- Settles O55: past its checks SIGN enters its loop, which runs iteration 1 on the seed or asks for its bytes. -/
theorem signStarts : Obligations.SignStarts := by
  intro ra s
  refine ⟨decode_cmdWord (f1 := 0) (f3 := 0) (k := 0) rfl (by decide) rfl, fun hp hc hcfg hd dig seed hn0 hn1 hb0 hb1 =>
    ⟨leads_sign_length hp hc hd hn0 hn1 hb0 hb1, fun hl1 hl2 hr =>
      ⟨leads_sign_keyRange hp hc hd hn0 hn1 hb0 hb1 hl1 hl2 hr, fun hk1 hkn => ?_⟩⟩⟩
  have hexec := exec_sign_enters hp hc hd hn0 hn1 hb0 hb1 hl1 hl2 hr ⟨hk1, hkn⟩
  refine ⟨fun h0 => ?_, fun hbl => ?_⟩
  · have hpos := bytelen_pos hc hcfg
    rw [if_neg (show ¬ len s 1 = s.bytelen.toNat by omega)] at hexec
    exact ⟨_, hexec, State.drawNext_waitsFor ((Nat.eq_zero_or_pos _).imp_left BitVec.eq_of_toNat_eq)⟩
  · rw [if_pos hbl] at hexec
    exact iterationEnds_of_exec hexec hc hcfg (Nat.le_refl 1)

/-! ## VERIFY -/

/-- What DecodePoint accepts (43_codec.md R117). -/
theorem State.decodePoint_eq_ok_iff {s : State} {bs : List Byte} {P : Point} : s.decodePoint bs = .ok P ↔
    ∃ xb yb : List Byte, bs = 0x04 :: (xb ++ yb) ∧ xb.length = s.bytelen.toNat ∧ yb.length = s.bytelen.toNat ∧
      beSum xb < s.prmVal .p ∧ beSum yb < s.prmVal .p ∧ onCurveAt s (beSum xb) (beSum yb) ∧
      P = .affine (beSum xb) (beSum yb) := by
  constructor
  · intro h
    have hlen : bs.length = 1 + 2 * s.bl := by
      by_contra hlen
      rw [State.decodePoint, if_pos hlen] at h
      cases h
    obtain ⟨b, tl, rfl⟩ := List.exists_cons_of_length_pos (l := bs) (by omega)
    rw [List.length_cons, State.bl_eq] at hlen
    have hx : (tl.take s.bytelen.toNat).length = s.bytelen.toNat := by rw [List.length_take]; omega
    have hy : (tl.drop s.bytelen.toNat).length = s.bytelen.toNat := by rw [List.length_drop]; omega
    rw [← List.take_append_drop s.bytelen.toNat tl, State.decodePoint_cons_append b hx hy] at h
    split_ifs at h with h4 hp hon
    cases h
    have hxp : beSum (tl.take s.bytelen.toNat) < s.prmVal .p := by omega
    exact ⟨_, _, by rw [not_not.mp h4, List.take_append_drop], hx, hy, hxp, by omega,
      (onCurve_iff_onCurveAt s _ _ (Nat.zero_lt_of_lt hxp)).mp hon, rfl⟩
  · rintro ⟨xb, yb, rfl, hx, hy, hxp, hyp, hon, rfl⟩
    rw [State.decodePoint_cons_append _ hx hy, if_neg (not_not.mpr rfl), if_neg (show ¬ (_ ∨ _) by omega),
      if_pos ((onCurve_iff_onCurveAt s _ _ (Nat.zero_lt_of_lt hxp)).mpr hon)]

/-- Inv's answer is the residue that multiplies to 1 (40_field.md R76). -/
theorem inv_natCast_eq_some_iff {a M b : Nat} (hM : 2 ≤ M) : inv a M = some b ↔ b < M ∧ a * b % M = 1 := by
  have hdvd {c : Nat} (h : a * c % M = 1) : (M : Int) ∣ a * c - 1 := (emod_eq_one_iff _ hM).mp (by exact_mod_cast h)
  constructor
  · intro h
    have hg : Nat.gcd a M = 1 := by
      by_contra hg
      rw [(inv_natCast a hM).1 hg] at h
      cases h
    obtain ⟨b', hb', _, hlt, hone⟩ := (inv_natCast a hM).2 hg
    cases h.symm.trans hb'
    exact ⟨hlt, hone⟩
  · rintro ⟨hlt, hone⟩
    have hg : Nat.gcd a M = 1 := Nat.coprime_of_mul_modEq_one b (hone.trans (Nat.mod_eq_of_lt hM).symm)
    obtain ⟨b', hb', _, hlt', hone'⟩ := (inv_natCast a hM).2 hg
    rw [hb', inverse_unique hlt hlt' (hdvd hone) (hdvd hone')]

/-- The verdict of VerifyCore through the model's own operations (44_signature.md R129). -/
theorem State.verifyCore_iff (s : State) (pk dig : List Byte) {rb sb : List Byte} (hrb : rb.length = s.bytelen.toNat) :
    s.verifyCore pk dig (rb ++ sb) = true ↔
      (0 < beSum rb ∧ beSum rb < s.prmVal .n) ∧ (0 < beSum sb ∧ beSum sb < s.prmVal .n) ∧
      ∃ v, inv (digestOf dig (s.prmVal .n)) (s.prmVal .n) = some v ∧ ∃ P, s.decodePoint pk = .ok P ∧
      ∃ A B x y, scalarMul s.curve s.gen (beSum sb * v % s.prmVal .n) = some A ∧
        scalarMul s.curve P ((s.prmVal .n - beSum rb * v % s.prmVal .n) % s.prmVal .n) = some B ∧
        pointAdd s.curve A B = some (.affine x y) ∧ x % s.prmVal .n = beSum rb := by
  have htake : (rb ++ sb).take s.bl = rb := List.take_left' hrb
  have hdrop : (rb ++ sb).drop s.bl = sb := List.drop_left' hrb
  simp only [State.verifyCore, htake, hdrop, be_eq_beSum, digestScalar_eq]
  by_cases hr : 0 < beSum rb ∧ beSum rb < s.prmVal .n
  case neg => simp [hr]
  by_cases hs : 0 < beSum sb ∧ beSum sb < s.prmVal .n
  case neg => simp [hs]
  rw [if_neg (by tauto)]
  cases inv (digestOf dig (s.prmVal .n)) (s.prmVal .n) with
  | none => simp
  | some v =>
    cases s.decodePoint pk with
    | error c => simp
    | ok P =>
      cases hA : scalarMul s.curve s.gen (beSum sb * v % s.prmVal .n) with
      | none => simp [hA]
      | some A =>
        cases hB : scalarMul s.curve P ((s.prmVal .n - beSum rb * v % s.prmVal .n) % s.prmVal .n) with
        | none => simp [hA, hB]
        | some B =>
          cases hC : pointAdd s.curve A B with
          | none => simp [hA, hB, hC]
          | some C => cases C <;> simp [hr, hs, hA, hB, hC]

section
variable {s : State} {pk dig sig : List Byte} (hc : s.cfgok = true) (hd : descsOk .verify s) (hn0 : pk.length = len s 0)
  (hn1 : dig.length = len s 1) (hn2 : sig.length = len s 2) (hb0 : bufHolds s (off s 0) pk) (hb1 : bufHolds s (off s 1) dig)
  (hb2 : bufHolds s (off s 2) sig)
include hc hd hn0 hn1 hn2 hb0 hb1 hb2

/-- With its three strings read, VERIFY checks the signature's length and gives the verdict (44_signature.md R129). -/
theorem exec_verify : exec .verify s = if len s 2 ≠ 2 * s.bytelen.toNat then .next (s.raise .length)
    else .next (s.finishResult (s.verifyCore pk dig sig)) := by
  rw [exec, execVerify, if_neg (not_descOk_three_of_descsOk rfl hd), if_neg (ne_false_of_eq_true hc),
    descBytes_of_bufHolds hn0 hb0, descBytes_of_bufHolds hn1 hb1, descBytes_of_bufHolds hn2 hb2]
  rfl

theorem leads_verify_length (h : len s 2 ≠ 2 * s.bytelen.toNat) : leads .verify s (failed 3 0x20 s) := by
  refine leads_raise (c := .length) ?_
  rw [exec_verify hc hd hn0 hn1 hn2 hb0 hb1 hb2, if_pos h]

theorem leads_verify_verdict (h : len s 2 = 2 * s.bytelen.toNat) :
    leads .verify s (quiet { s with result := s.verifyCore pk dig sig }) := by
  refine ⟨_, ?_, State.complete_quiet _⟩
  rw [exec_verify hc hd hn0 hn1 hn2 hb0 hb1 hb2, if_neg (not_not.mpr h)]
  rfl

end

/-- Settles O58: RESULT is VerifyCore's verdict, and Inv and DecodePoint answer what the rule's words ask for. -/
theorem verification : Obligations.Verification := by
  refine ⟨decode_cmdWord (f1 := 0) (f2 := 0) (f3 := 0) (k := 0) rfl (by decide) rfl,
    fun s pk dig sig hc hd hn0 hn1 hn2 hb0 hb1 hb2 => ⟨leads_verify_length hc hd hn0 hn1 hn2 hb0 hb1 hb2, ?_⟩⟩
  rintro rb sb rfl hrb hsb
  have hl : len s 2 = 2 * s.bytelen.toNat := by
    rw [← hn2, List.length_append, hrb, hsb]
    omega
  have hiff := s.verifyCore_iff pk dig (sb := sb) hrb
  refine ⟨s.verifyCore pk dig (rb ++ sb), hiff.trans ?_, fun h => ?_,
    leads_verify_verdict hc hd hn0 hn1 hn2 hb0 hb1 hb2 hl⟩
  · refine and_congr_right fun hr => and_congr_right fun _ => exists_congr fun v => ?_
    rw [inv_natCast_eq_some_iff (by omega), and_assoc]
    refine and_congr_right fun _ => and_congr_right fun _ => ?_
    simp only [State.decodePoint_eq_ok_iff]
    constructor
    · rintro ⟨_, ⟨xb, yb, hpk, hx, hy, hxp, hyp, hon, rfl⟩, hverdict⟩
      exact ⟨xb, yb, hpk, hx, hy, hxp, hyp, hon, hverdict⟩
    · rintro ⟨xb, yb, hpk, hx, hy, hxp, hyp, hon, hverdict⟩
      exact ⟨_, ⟨xb, yb, hpk, hx, hy, hxp, hyp, hon, rfl⟩, hverdict⟩
  · rw [Bool.eq_false_iff, ne_eq, hiff]
    omega

end Sys2Proof.Machine
end

section
/-! SUPPORT. The group law under a prime p, also where the curve is singular (42_curve.md R98 to R101): the chord and the tangent
of the curve end on the curve, so no operation leaves it and none fails. -/

namespace Sys2Proof.Machine

open Sys2Proof.Claims

/-! ## The chord and the tangent in a field -/

section
variable {F : Type} [Field F] {a b l x1 y1 x2 y2 x3 y3 : F} (h1 : y1 ^ 2 = x1 ^ 3 + a * x1 + b)
  (hx3 : x3 = l * l - x1 - x2) (hy3 : y3 = l * (x1 - x3) - y1)
include h1 hx3 hy3

/-- The line through two points of the cubic meets it again in x3: `x1 + x2 + x3 = l²` makes the divided differences of the cubic
minus the line the same at every pair of the three. -/
theorem chord_onCurve (h2 : y2 ^ 2 = x2 ^ 3 + a * x2 + b) (hx : x2 - x1 ≠ 0) (hl : l * (x2 - x1) = y2 - y1) :
    y3 ^ 2 = x3 ^ 3 + a * x3 + b := by
  obtain rfl : y2 = l * (x2 - x1) + y1 := by linear_combination -hl
  subst hx3 hy3
  refine mul_left_cancel₀ hx ?_
  linear_combination (x2 - x1 - (l * l - x1 - x2 - x1)) * h1 + (l * l - x1 - x2 - x1) * h2

theorem tangent_onCurve (h2 : x2 = x1) (hl : l * (2 * y1) = 3 * x1 * x1 + a) : y3 ^ 2 = x3 ^ 3 + a * x3 + b := by
  subst h2 hx3 hy3
  linear_combination h1 + (l * l - x2 - x2 - x2) * hl

end

/-! ## Points of the curve -/

/-- The point has canonical coordinates that satisfy the curve equation, or is the identity. -/
def Curve.has (c : Curve) (P : Point) : Prop := canonicalPt c.p P ∧ onCurvePt c P

theorem canonicalPt_iff {p : Nat} {P : Point} : canonicalPt p P ↔ P.canonical p := by cases P <;> rfl

theorem Curve.has_infinity (c : Curve) : c.has .infinity := ⟨trivial, trivial⟩

theorem onCurvePt_affine (c : Curve) (x y : Nat) :
    onCurvePt c (.affine x y) ↔ (y : ZMod c.p) ^ 2 = (x : ZMod c.p) ^ 3 + c.a * x + c.b := by
  rw [onCurvePt, emod_eq_zero_iff_intCast]
  push_cast
  exact sub_eq_zero

/-- The chord's formulas in the field (42_curve.md R99, R100). -/
theorem chord_field {p l x1 y1 x2 x3 y3 : Nat} (h : chord p l x1 y1 x2 x3 y3) :
    (x3 : ZMod p) = l * l - x1 - x2 ∧ (y3 : ZMod p) = l * (x1 - x3) - y1 := by
  obtain ⟨hx, hy⟩ := h
  constructor
  · simpa using congrArg (Int.cast : Int → ZMod p) hx
  · simpa using congrArg (Int.cast : Int → ZMod p) hy

section
variable {c : Curve} (hp : c.p.Prime)
include hp

theorem Curve.has_add_chord {x1 y1 x2 y2 : Nat} (h1 : c.has (.affine x1 y1)) (h2 : c.has (.affine x2 y2)) (hx : x1 ≠ x2) :
    ∃ R, pointAdd c (.affine x1 y1) (.affine x2 y2) = some R ∧ c.has R ∧
      pointAdd c (.affine x2 y2) (.affine x1 y1) = some R := by
  have : Fact c.p.Prime := ⟨hp⟩
  obtain ⟨hc1, hon1⟩ := h1
  obtain ⟨hc2, hon2⟩ := h2
  rw [onCurvePt_affine] at hon1 hon2
  have hx' : (x2 : ZMod c.p) - x1 ≠ 0 := fun h => hx (natCast_inj_of_lt c.p x1 x2 hc1.1 hc2.1 (sub_eq_zero.mp h).symm)
  have hg : Int.gcd ((x2 : Int) - x1) c.p = 1 := gcd_eq_one_of_ne_zero (by exact_mod_cast hx')
  have hg' : Int.gcd ((x1 : Int) - x2) c.p = 1 := by rw [← Int.neg_gcd, neg_sub, hg]
  obtain ⟨l, x3, y3, _, hslope, hchord, hR⟩ := pointAdd_chord y1 y2 hx hp.two_le hg
  obtain ⟨l', x3', y3', _, hslope', hchord', hR'⟩ := pointAdd_chord y2 y1 (Ne.symm hx) hp.two_le hg'
  have ⟨hx3, hy3⟩ := chord_field hchord
  have ⟨hx3', hy3'⟩ := chord_field hchord'
  rw [emod_eq_zero_iff_intCast] at hslope hslope'
  push_cast at hslope hslope'
  have hcan : canonicalPt c.p (.affine x3 y3) := canonicalPt_iff.mpr
    (pointAdd_canonical c _ _ _ hp.pos (canonicalPt_iff.mp hc1) (canonicalPt_iff.mp hc2) hR)
  have hcan' : canonicalPt c.p (.affine x3' y3') := canonicalPt_iff.mpr
    (pointAdd_canonical c _ _ _ hp.pos (canonicalPt_iff.mp hc2) (canonicalPt_iff.mp hc1) hR')
  have hl : (l' : ZMod c.p) = l := mul_right_cancel₀ hx' (by linear_combination -hslope' - hslope)
  have hx3e : x3' = x3 := by
    refine natCast_inj_of_lt c.p _ _ hcan'.1 hcan.1 ?_
    rw [hx3', hx3, hl]
    ring
  have hy3e : y3' = y3 := by
    refine natCast_inj_of_lt c.p _ _ hcan'.2 hcan.2 ?_
    rw [hy3', hy3, hl, hx3e]
    linear_combination hslope
  subst hx3e hy3e
  refine ⟨_, hR, ⟨hcan, (onCurvePt_affine c _ _).mpr ?_⟩, hR'⟩
  exact chord_onCurve hon1 hx3 hy3 hon2 hx' (by linear_combination hslope)

variable (h5 : 5 ≤ c.p)
include h5

theorem Curve.has_double {P : Point} (hP : c.has P) : ∃ R, pointDouble c P = some R ∧ c.has R := by
  have : Fact c.p.Prime := ⟨hp⟩
  cases P with
  | infinity => exact ⟨_, rfl, c.has_infinity⟩
  | affine x y =>
    obtain ⟨⟨_, hy⟩, hon⟩ := hP
    obtain rfl | h0 := Nat.eq_zero_or_pos y
    · exact ⟨_, pointDouble_zero_y c x, c.has_infinity⟩
    have hg : Nat.gcd (2 * y) c.p = 1 := by
      refine gcd_eq_one_of_ne_zero (z := (2 * y : Nat)) ?_
      push_cast
      exact mul_ne_zero (two_ne_zero_of_five_le c.p h5) (natCast_ne_zero_of_lt c.p y hy (by omega))
    obtain ⟨l, x3, y3, _, hslope, hchord, hR⟩ := pointDouble_tangent (x := x) (Nat.ne_of_gt h0) hp.two_le hg
    obtain ⟨hx3, hy3⟩ := chord_field hchord
    have hl : (l : ZMod c.p) * (2 * y) = 3 * x * x + c.a := by
      exact_mod_cast (ZMod.natCast_eq_natCast_iff' _ _ c.p).mpr hslope
    refine ⟨_, hR, canonicalPt_iff.mpr (pointDouble_canonical c _ _ hp.pos hR), (onCurvePt_affine c x3 y3).mpr ?_⟩
    exact tangent_onCurve ((onCurvePt_affine c x y).mp hon) hx3 hy3 rfl hl

theorem Curve.has_add {P Q : Point} (hP : c.has P) (hQ : c.has Q) :
    ∃ R, pointAdd c P Q = some R ∧ c.has R ∧ pointAdd c Q P = some R := by
  cases P with
  | infinity => exact ⟨Q, rfl, hQ, pointAdd_infinity c Q⟩
  | affine x1 y1 =>
    cases Q with
    | infinity => exact ⟨_, rfl, hP, rfl⟩
    | affine x2 y2 =>
      by_cases hx : x1 = x2
      case neg => exact Curve.has_add_chord hp hP hQ hx
      subst hx
      by_cases hy : y1 = y2
      · subst hy
        obtain ⟨R, hR, hhas⟩ := Curve.has_double hp h5 hP
        rw [pointAdd_same]
        exact ⟨R, hR, hhas, hR⟩
      · exact ⟨_, pointAdd_opposite c x1 hy, c.has_infinity, pointAdd_opposite c x1 (Ne.symm hy)⟩

theorem Curve.has_step {P R : Point} (hP : c.has P) (hR : c.has R) (b : Bool) :
    ∃ R', scalarStep c P b R = some R' ∧ c.has R' := by
  obtain ⟨R2, h2, hR2⟩ := Curve.has_double hp h5 hR
  cases b with
  | false => exact ⟨R2, by rw [scalarStep_false, h2], hR2⟩
  | true =>
    obtain ⟨R3, h3, hR3, _⟩ := Curve.has_add hp h5 hR2 hP
    exact ⟨R3, by rw [scalarStep_true, h2, Option.bind_some, h3], hR3⟩

theorem Curve.has_scalarMul {P : Point} (hP : c.has P) (k : Nat) : ∃ R, scalarMul c P k = some R ∧ c.has R := by
  have hloop (i : Nat) : ∀ R, c.has R → ∃ R', scalarLoop c P k i R = some R' ∧ c.has R' := by
    induction i with
    | zero => exact fun R hR => ⟨R, rfl, hR⟩
    | succ i ih =>
      intro R hR
      obtain ⟨R1, h1, hR1⟩ := Curve.has_step hp h5 hP hR (k.testBit i)
      rw [scalarLoop_succ, h1, Option.bind_some]
      exact ih R1 hR1
  exact hloop _ _ c.has_infinity

/-- A point equal to its own negation has y = 0, since 2 is invertible. -/
theorem pointAdd_pointNeg {P : Point} (hP : canonicalPt c.p P) : pointAdd c P (pointNeg c P) = some .infinity := by
  cases P with
  | infinity => rfl
  | affine x y =>
    obtain ⟨_, hy⟩ := hP
    rw [pointNeg, modp_neg hy]
    by_cases h : y = (c.p - y) % c.p
    · obtain rfl | h0 := Nat.eq_zero_or_pos y
      · rw [← h, pointAdd_same, pointDouble_zero_y]
      · rw [Nat.mod_eq_of_lt (Nat.sub_lt hp.pos h0)] at h
        have hodd := hp.eq_two_or_odd
        omega
    · exact pointAdd_opposite c x h

end

end Sys2Proof.Machine
end

section
/-! SUPPORT. CURVE_PRIME (10_state.md R17): the multiples of G by 1 to n - 1 are affine points of the curve, what a PUBK and a PENC,
and a SIGN, that completed have written, and that VERIFY accepts it (44_signature.md R131, its first property). -/

namespace Sys2Proof.Machine

open Sys2Proof.Claims

/-! ## The generator under CURVE_PRIME -/

theorem scalarMul_one (c : Curve) (P : Point) : scalarMul c P 1 = some P := rfl

theorem scalarMul_two (c : Curve) (P : Point) : scalarMul c P 2 = pointDouble c P := by
  obtain ⟨_, hstep⟩ := scalarMulSteps c P
  rw [(hstep 1).1, scalarMul_one, Option.bind_some]

theorem gen_has {s : State} (hc : s.cfgok = true) (hcfg : configOk s) : s.curve.has s.gen :=
  ⟨canonicalPt_iff.mpr (gen_canonical hc hcfg), gen_onCurve hc hcfg⟩

section
variable {s : State} (hprime : s.curvePrime) (hc : s.cfgok = true) (hcfg : configOk s)
include hprime hc hcfg

/-- The order of G is odd, so G is not its own negation (10_state.md R17). -/
theorem gy_ne_zero : s.prmVal .gy ≠ 0 := by
  intro h0
  obtain ⟨_, _, _, hleast⟩ := hprime
  refine hleast 2 (three_le_order hc hcfg) (by decide) ?_
  rw [scalarMul_two, State.gen, h0, pointDouble_zero_y]

theorem gen_represents [Fact s.curve.p.Prime] : ∃ A, Represents s.curve s.gen A := by
  obtain ⟨hx, hy⟩ := gen_canonical hc hcfg
  refine Represents.exists_of_onCurve s.curve (five_le_prime hc hcfg) _ _ hx hy (gy_ne_zero hprime hc hcfg) ?_
  exact (onCurve_iff_onCurveAt s _ _ (Nat.zero_lt_of_lt hx)).mpr (gen_onCurve hc hcfg)

/-- No multiple of G by 1 to n - 1 is the identity (10_state.md R17). -/
theorem gen_multiple {k : Nat} (h1 : 1 ≤ k) (hk : k < s.prmVal .n) : ∃ x y, scalarMul s.curve s.gen k = some (.affine x y) ∧
    x < s.prmVal .p ∧ y < s.prmVal .p ∧ onCurveAt s x y := by
  have ⟨⟨hp, _⟩, _, _, hleast⟩ := hprime
  obtain ⟨R, hR, hcan, hon⟩ := Curve.has_scalarMul hp (five_le_prime hc hcfg) (gen_has hc hcfg) k
  cases R with
  | infinity => exact absurd hR (hleast k hk h1)
  | affine x y => exact ⟨x, y, hR, hcan.1, hcan.2, hon⟩

end

/-! ## What completed commands have written -/

theorem bytes_unique {s : State} {o : Nat} {bs bs' : List Byte} (hl : bs.length = bs'.length) (h : bufHolds s o bs)
    (h' : bufHolds s o bs') : bs = bs' := by
  refine List.ext_getElem? fun j => ?_
  by_cases hj : j < bs.length
  · rw [← h j hj, ← h' j (hl ▸ hj)]
  · rw [List.getElem?_eq_none (by omega), List.getElem?_eq_none (by omega)]

theorem ok_of_finishQ {u : State} {qd : QReg} {r : Except Cause Point} (h : (u.finishQ qd r).err = false) :
    ∃ P, r = .ok P ∧ u.finishQ qd r = (u.setPoint qd P).complete := by
  cases r with
  | error c => cases h
  | ok P => exact ⟨P, rfl, rfl⟩

theorem ok_of_finishBuf {u : State} {o : Nat} {r : Except Cause (List Byte)} (h : (u.finishBuf o r).err = false) :
    ∃ bs, r = .ok bs ∧ u.err = false ∧ u.finishBuf o r = (u.writeBuf o bs).complete := by
  cases r with
  | error c => cases h
  | ok bs => exact ⟨bs, rfl, h, rfl⟩

section
variable {s t : State} (ht : t.err = false)
include ht

/-- A PUBK that completed without error has written the multiple of G by its key (44_signature.md R125). -/
theorem pubk_completed (hc : s.cfgok = true) {q : QReg} {x : XReg} (h : exec (.pubk q x) s = .next t) :
    (1 ≤ s.xVal x ∧ s.xVal x < s.prmVal .n) ∧ ∃ P, scalarMul s.curve s.gen (s.xVal x) = some P ∧
      t = ((s.noteReads [.x x]).setPoint q P).complete := by
  rw [exec, execPubk, if_neg (ne_false_of_eq_true hc)] at h
  cases h
  obtain ⟨P, hP, heq⟩ := ok_of_finishQ ht
  split_ifs at hP with hkey
  refine ⟨hkey, P, ?_, heq⟩
  cases hR : scalarMul s.curve s.gen (s.xVal x) with
  | none => rw [hR] at hP; cases hP
  | some R => rw [hR] at hP; cases hP; rfl

/-- A PENC that completed without error has written the string of its operand (43_codec.md R118). -/
theorem penc_completed {q : QReg} {k : DescSel} (h : exec (.penc q k) s = .next t) : s.err = false ∧
    len s k = 1 + 2 * s.bytelen.toNat ∧ ∃ bs, (s.ptRead q >>= encodeBE s.bl) = .ok bs ∧ bufHolds t (off s k) bs := by
  rw [exec_penc, encodeCommand] at h
  split at h
  · cases h; cases ht
  split at h
  · cases h; cases ht
  split at h
  · cases h; cases ht
  · next hlen =>
    cases h
    obtain ⟨bs, hbs, herr, heq⟩ := ok_of_finishBuf ht
    obtain ⟨_, hholds, _⟩ := (s.noteReads [.q q]).complete_writeBuf_wroteBuf (off s k) bs
    rw [heq]
    exact ⟨herr, not_not.mp hlen, bs, hbs, hholds⟩

end

/-- The string of the public key is the one of the multiple of G by the key (44_signature.md R131). -/
theorem publishes_bytes {s : State} {d : Nat} {pk : List Byte} (hprime : s.curvePrime) (hc : s.cfgok = true) (hcfg : configOk s)
    (h : publishes d pk s) : ∃ x y, scalarMul s.curve s.gen d = some (.affine x y) ∧ x < s.prmVal .p ∧ y < s.prmVal .p ∧
      onCurveAt s x y ∧ pk = 0x04 :: (beBytes x s.bytelen.toNat ++ beBytes y s.bytelen.toNat) := by
  obtain ⟨q, rx, k, t, u, rfl, _, hpubk, hpenc, hu, hlen, hpk⟩ := h
  obtain ⟨ht, hl, bs, hbs, hholds⟩ := penc_completed hu hpenc
  obtain ⟨⟨hd1, hdn⟩, P, hP, rfl⟩ := pubk_completed ht hc hpubk
  obtain ⟨x, y, hxy, hx, hy, hon⟩ := gen_multiple hprime hc hcfg hd1 hdn
  cases hP.symm.trans hxy
  refine ⟨x, y, hxy, hx, hy, hon, ?_⟩
  obtain ⟨_, hq, _⟩ := (s.noteReads [.x rx]).complete_setQ_wroteQ q false (hx.trans (s.prmVal_lt .p)) (hy.trans (s.prmVal_lt .p))
  have hpt := pt_of_holdsQ hq
  rw [State.setPoint_affine, State.ptRead_of_coordsOk (coordsOk_of_pt_affine hpt hx hy), hpt] at hbs
  cases hbs
  refine bytes_unique ?_ hpk hholds
  rw [hlen, hl, List.length_cons, List.length_append, beBytes_length, beBytes_length]
  show 1 + 2 * s.bytelen.toNat = s.bytelen.toNat + s.bytelen.toNat + 1
  omega

/-! ## A completed SIGN -/

/-- The head of a further iteration completes nothing without error (44_signature.md R126). -/
theorem drawNext_not_completed {k : SignLoop} {s : State} (hp : (s.drawNext k).phase = .idle) :
    (s.drawNext k).err = true := by
  obtain ⟨_, _, h⟩ | ⟨_, h⟩ := State.drawNext_cases k s
  · rw [h]; rfl
  · rw [h] at hp; cases hp

theorem iterate_completed {k : SignLoop} {bytes : List Byte} {s : State} (hp : (s.iterate k bytes).phase = .idle)
    (he : (s.iterate k bytes).err = false) :
    ∃ r sg, attemptSign s.curve s.gen (s.prmVal .n) k.e k.d bytes = .signature r sg := by
  obtain ⟨c, _, h⟩ | ⟨_, h⟩ | ⟨r, sg, h, _⟩ := State.iterate_cases k bytes s
  · rw [h] at he; cases he
  · rw [h] at hp he
    rw [drawNext_not_completed hp] at he
    cases he
  · exact ⟨r, sg, h⟩

theorem enterLoop_completed {k : SignLoop} {s : State} (hp : (s.enterLoop k).phase = .idle)
    (he : (s.enterLoop k).err = false) : ∃ bytes, s.enterLoop k = s.iterate { k with it := 1 } bytes := by
  unfold State.enterLoop at hp he ⊢
  split
  · next bytes _ => exact ⟨bytes, rfl⟩
  · next hs =>
    rw [hs] at hp he
    rw [drawNext_not_completed hp] at he
    cases he

/-- What is in DESC2's range after an iteration that signed is the two strings of the signature (44_signature.md R126). -/
theorem signature_bytes {k : SignLoop} {bytes sig : List Byte} {s : State} (hc : s.cfgok = true) (hcfg : configOk s)
    (hl : len s 2 = 2 * s.bytelen.toNat) (hp : (s.iterate k bytes).phase = .idle) (he : (s.iterate k bytes).err = false)
    (hsig : rangeHolds s 2 sig (s.iterate k bytes)) : ∃ r sg, signs s k.e k.d bytes r sg ∧
      sig = beBytes r s.bytelen.toNat ++ beBytes sg s.bytelen.toNat := by
  obtain ⟨r, sg, hatt⟩ := iterate_completed hp he
  obtain ⟨hlen, hholds⟩ := hsig
  rw [State.iterate_of_signature hatt] at hholds
  obtain ⟨_, hwrote, _⟩ := State.complete_writeBuf_wroteBuf { s with iter := BitVec.ofNat 32 (min k.it 0xFFFFFFFF) } (off s 2)
    (beBytes r s.bytelen.toNat ++ beBytes sg s.bytelen.toNat)
  refine ⟨r, sg, signs_of_attemptSign (Nat.zero_lt_of_lt (three_le_order hc hcfg)) hatt, bytes_unique ?_ hholds hwrote⟩
  rw [hlen, hl, List.length_append, beBytes_length, beBytes_length]
  omega

/-- A SIGN that completes without error has written a signature of the digest by the key (44_signature.md R126). -/
theorem completesSign_signature {s : State} {d : Nat} {digest sig : List Byte} (hc : s.cfgok = true) (hcfg : configOk s)
    (hbuf : bufOk s) (h : completesSign d digest sig s) : ∃ bytes r sg, signs s (digestOf digest (s.prmVal .n)) d bytes r sg ∧
      sig = beBytes r s.bytelen.toNat ++ beBytes sg s.bytelen.toNat := by
  obtain ⟨rx, t, hexec, hidle, _, ht, hsig, ⟨hp, rfl, hdig⟩ | ⟨k, bytes, hp, rfl, hke⟩⟩ := h
  · have hd : descsOk (.sign rx) s := by
      by_contra hd
      rw [exec_descRange (signing_of_accepted hp) hd] at hexec
      cases hexec
      cases ht
    obtain ⟨hdlen, hdbytes⟩ := hdig
    rw [exec, execSign_of_not_signing rx (signing_of_accepted hp), startSign, if_neg (not_descOk_three_of_descsOk rfl hd),
      if_neg (ne_false_of_eq_true hc), descBytes_of_bufHolds hdlen hdbytes] at hexec
    dsimp only at hexec
    split at hexec
    · cases hexec
    split at hexec
    · cases hexec; cases ht
    split at hexec
    · cases hexec; cases ht
    next hl =>
    split at hexec
    · cases hexec; cases ht
    cases hexec
    obtain ⟨bytes, henter⟩ := enterLoop_completed hidle ht
    rw [henter] at hidle ht hsig
    obtain ⟨r, sg, hsign, hbytes⟩ := signature_bytes (s := s.noteReads [.x rx]) hc hcfg (not_not.mp hl) hidle ht hsig
    rw [digestScalar_eq] at hsign
    exact ⟨bytes, r, sg, hsign, hbytes⟩
  · obtain ⟨_, hloop⟩ := hbuf
    obtain ⟨_, hl⟩ := hloop k (by simp only [signing, hp])
    rw [exec_sign_resumed rx hp] at hexec
    cases hexec
    rw [← hke]
    exact ⟨bytes, signature_bytes hc hcfg hl hidle ht hsig⟩

/-! ## VERIFY -/

section
variable {s t : State} (h : sameConfig s t)
include h

theorem prmVal_of_sameConfig : t.prmVal = s.prmVal := by
  funext r
  simp only [State.prmVal, State.prmReg, h.1]

theorem curve_of_sameConfig : t.curve = s.curve := by rw [State.curve, prmVal_of_sameConfig h, State.curve]

theorem gen_of_sameConfig : t.gen = s.gen := by rw [State.gen, prmVal_of_sameConfig h, State.gen]

theorem configOk_of_sameConfig (hcfg : configOk s) : configOk t := by
  have ⟨hprm, hbl, hh, hok⟩ := h
  intro hc
  exact (firstConfigFailure_congr (checkedSame_of_prm_eq hprm hbl hh) none).mpr (hcfg (hok ▸ hc))

theorem curvePrime_of_sameConfig (hprime : s.curvePrime) : t.curvePrime := by
  simpa only [State.curvePrime, State.primeModuli, prmVal_of_sameConfig h, curve_of_sameConfig h, gen_of_sameConfig h]
    using hprime

theorem onCurveAt_of_sameConfig {x y : Nat} : onCurveAt t x y ↔ onCurveAt s x y := by
  simp only [onCurveAt, prmVal_of_sameConfig h]

theorem signs_of_sameConfig {e d : Nat} {bytes : List Byte} {r sg : Nat} : signs t e d bytes r sg ↔ signs s e d bytes r sg := by
  simp only [signs, prmVal_of_sameConfig h, curve_of_sameConfig h, gen_of_sameConfig h]

end

/-- The combination that VerifyCore forms of a signature is the nonce's multiple of G (44_signature.md R131). -/
theorem combination_eq {s : State} (hprime : s.curvePrime) (hc : s.cfgok = true) (hcfg : configOk s) {d e k r v : Nat}
    {x y : Nat} {C : Point} (hQ : scalarMul s.curve s.gen d = some (.affine x y))
    (hC : scalarMul s.curve s.gen k = some C) (hv : e * v % s.prmVal .n = 1) :
    ∃ A B, scalarMul s.curve s.gen ((r * d + k * e) % s.prmVal .n * v % s.prmVal .n) = some A ∧
      scalarMul s.curve (.affine x y) ((s.prmVal .n - r * v % s.prmVal .n) % s.prmVal .n) = some B ∧
      pointAdd s.curve A B = some C := by
  have ⟨⟨hp, _⟩, _, horder, _⟩ := hprime
  have : Fact s.curve.p.Prime := ⟨hp⟩
  have h5 : 5 ≤ s.curve.p := five_le_prime hc hcfg
  have hn : 1 < s.prmVal .n := by have := three_le_order hc hcfg; omega
  obtain ⟨G, hG⟩ := gen_represents hprime hc hcfg
  have hmul (m : Nat) {R : Point} (hR : scalarMul s.curve s.gen m = some R) : Represents s.curve R (m • G) := by
    obtain ⟨R', hR', hrep⟩ := Represents.scalarMul s.curve h5 hG m
    rwa [Option.some.inj (hR.symm.trans hR')]
  obtain ⟨A, hA, hAG⟩ := Represents.scalarMul s.curve h5 hG ((r * d + k * e) % s.prmVal .n * v % s.prmVal .n)
  obtain ⟨B, hB, hBG⟩ := Represents.scalarMul s.curve h5 (hmul d hQ) ((s.prmVal .n - r * v % s.prmVal .n) % s.prmVal .n)
  obtain ⟨R, hR, hRG⟩ := Represents.add s.curve h5 hAG hBG
  have hzero : s.prmVal .n • G = 0 := hmul _ horder
  rw [verify_combination G hn hzero d k e r v _ hv rfl] at hRG
  exact ⟨A, B, hA, hB, by rw [hR, Represents.unique s.curve hRG (hmul k hC)]⟩

/-- VerifyCore accepts a signature under the public key of its key (44_signature.md R131). -/
theorem verifyCore_accepts {s : State} (hprime : s.curvePrime) (hc : s.cfgok = true) (hcfg : configOk s) {d x y r sg : Nat}
    {digest bytes : List Byte} (hQ : scalarMul s.curve s.gen d = some (.affine x y)) (hx : x < s.prmVal .p)
    (hy : y < s.prmVal .p) (hon : onCurveAt s x y) (hsign : signs s (digestOf digest (s.prmVal .n)) d bytes r sg) :
    s.verifyCore (0x04 :: (beBytes x s.bytelen.toNat ++ beBytes y s.bytelen.toNat)) digest
      (beBytes r s.bytelen.toNat ++ beBytes sg s.bytelen.toNat) = true := by
  have ⟨⟨_, hnprime⟩, _⟩ := hprime
  have hp := prime_lt_of_configOk hc hcfg
  obtain ⟨hrfit, hsgfit⟩ := signature_fits hc hcfg hsign
  have hbe {v : Nat} (h : v < 2 ^ (8 * s.bytelen.toNat)) : beSum (beBytes v s.bytelen.toNat) = v := by
    rw [← be_eq_beSum, be_beBytes h]
  have hpos := hnprime.pos
  obtain ⟨_, ⟨X, Y, hC, rfl⟩, hr0, rfl, hsg0⟩ := hsign
  obtain ⟨he1, hen⟩ : 1 ≤ digestOf digest (s.prmVal .n) ∧ digestOf digest (s.prmVal .n) < s.prmVal .n := by
    rw [← digestScalar_eq]
    exact digestScalar_range digest hnprime.two_le
  obtain ⟨v, hinv, _, _, hv⟩ := (inv_natCast _ hnprime.two_le).2 (Nat.coprime_of_lt_prime (by omega) hen hnprime).symm
  obtain ⟨A, B, hA, hB, hAB⟩ := combination_eq hprime hc hcfg hQ hC hv
  rw [State.verifyCore_iff _ _ _ (beBytes_length _ _), hbe hrfit, hbe hsgfit]
  refine ⟨⟨Nat.pos_of_ne_zero hr0, Nat.mod_lt _ hpos⟩, ⟨Nat.pos_of_ne_zero hsg0, Nat.mod_lt _ hpos⟩, v, hinv, .affine x y,
    State.decodePoint_eq_ok_iff.mpr ⟨_, _, rfl, beBytes_length _ _, beBytes_length _ _, ?_⟩, A, B, X, Y, hA, hB, hAB, rfl⟩
  rw [hbe (hx.trans hp), hbe (hy.trans hp)]
  exact ⟨hx, hy, hon, rfl⟩

/-- Settles O36: the operations stay on the curve; a multiple of G by a key is affine; and what SIGN signed with a key whose
public key PUBK and PENC left is what VerifyCore accepts. -/
theorem groupLawUnderPrime : Obligations.GroupLawUnderPrime := by
  refine ⟨fun c P Q hp h5 hP hPon hQ hQon => ?_, fun s hprime hc hcfg k h1 hk => ?_,
    fun s u t d pk digest sig hprime hc hcfg hsu hst hbuf hpub hsig hd ⟨hn0, hb0⟩ ⟨hn1, hb1⟩ ⟨hn2, hb2⟩ => ?_⟩
  · obtain ⟨R, hR, hhas, hcomm⟩ := Curve.has_add hp h5 ⟨hP, hPon⟩ ⟨hQ, hQon⟩
    exact ⟨⟨R, hR, hhas⟩, Curve.has_double hp h5 ⟨hP, hPon⟩, Curve.has_scalarMul hp h5 ⟨hP, hPon⟩, hR.trans hcomm.symm,
      pointAdd_pointNeg hp h5 hP⟩
  · obtain ⟨x, y, hxy, hx, hy, hon⟩ := gen_multiple hprime hc hcfg h1 hk
    refine ⟨x, y, hxy, hx, hy, hon, fun qd ra hr hra => ?_⟩
    subst hra
    exact leads_pubk_multiple qd hc hr hcfg ⟨h1, hk⟩ hxy
  · obtain ⟨x, y, hQ, hx, hy, hon, rfl⟩ := publishes_bytes hprime hc hcfg hpub
    have ⟨_, hblu, _, hcu⟩ := hsu
    have ⟨_, hblt, _, hct⟩ := hst
    obtain ⟨bytes, r, sg, hsign, rfl⟩ := completesSign_signature (hcu.trans hc) (configOk_of_sameConfig hsu hcfg) hbuf hsig
    have hsign' := (signs_of_sameConfig hst).mpr ((signs_of_sameConfig hsu).mp hsign)
    rw [prmVal_of_sameConfig hsu, ← prmVal_of_sameConfig hst] at hsign'
    have haccepts := verifyCore_accepts (s := t) (d := d) (x := x) (y := y) (curvePrime_of_sameConfig hst hprime)
      (hct.trans hc) (configOk_of_sameConfig hst hcfg) (by rw [curve_of_sameConfig hst, gen_of_sameConfig hst, hQ])
      (by rwa [prmVal_of_sameConfig hst]) (by rwa [prmVal_of_sameConfig hst]) ((onCurveAt_of_sameConfig hst).mpr hon) hsign'
    rw [← hblt] at hn0 hb0
    rw [hblu, ← hblt] at hn2 hb2
    have hl : len t 2 = 2 * t.bytelen.toNat := by
      rw [← hn2, List.length_append, beBytes_length, beBytes_length]
      omega
    have hverdict := leads_verify_verdict (hct.trans hc) hd hn0 hn1 hn2 hb0 hb1 hb2 hl
    rwa [haccepts] at hverdict

end Sys2Proof.Machine
end

section
/-! SUPPORT. The host's own fields (20_memory.md R50): no command, and no answer of the entropy source, reads them or writes them,
so what a host access changes of them while a command is in flight does not change what the command does. -/

namespace Sys2Proof.Machine

open Sys2Proof.Claims

/-! ## The fields -/

/-- The interrupt enable, the host's flags, and the model's record of draws and reads. -/
structure HostFields where
  irqen : Bool
  ovf : Bool
  werr : Bool
  buserr : Bool
  draws : Nat
  busRead : Option Word

/-- The state with these fields in place of its own. -/
def State.withHost (f : HostFields) (s : State) : State :=
  { s with irqen := f.irqen, ovf := f.ovf, werr := f.werr, buserr := f.buserr, draws := f.draws, busRead := f.busRead }

/-- The outcome with these fields in place of its state's own. -/
def withHostOut (f : HostFields) : Out → Out
  | .next t => .next (t.withHost f)
  | .fault a => .fault a
  | .refused r => .refused r

theorem sameOutcome_withHost (f : HostFields) (t : State) : sameOutcome t (t.withHost f) :=
  ⟨⟨rfl, rfl, rfl, rfl⟩, ⟨rfl, rfl, rfl, rfl, rfl, rfl⟩, ⟨rfl, rfl, rfl, rfl, rfl⟩, ⟨rfl, rfl, rfl, rfl, rfl⟩, rfl⟩

/-- While BUSY = 1 a STATUS write, too, changes only the host's fields: DONE, ERR and the record are clear already
(60_exceptions.md R142). -/
theorem exists_withHost_of_busy {a : Access} {s t : State} (h : HostEffect a s t) (hb : s.busy = true) (hfl : flightOk s)
    (he : errorRecordOk s) (hn : notSoftReset a) : ∃ f, t = s.withHost f := by
  obtain h | ⟨w, rfl⟩ := h.of_busy hb hn
  · exact ⟨⟨t.irqen, t.ovf, t.werr, t.buserr, t.draws, t.busRead⟩, h⟩
  · obtain ⟨hbusy, _⟩ := hfl
    obtain ⟨hdone, herr⟩ := hbusy hb
    obtain ⟨hcode, hcause⟩ := he.1 herr
    refine ⟨⟨s.irqen, s.ovf && !w.getLsbD 6, s.werr && !w.getLsbD 7, s.buserr && !w.getLsbD 8, s.draws, s.busRead⟩, ?_⟩
    rw [State.clearStatus, State.withHost, hdone, herr, hcode, hcause, ite_self, ite_self]
    rfl

/-! ## The shared operations -/

theorem ite_withHost {f : HostFields} {c : Prop} [Decidable c] {a b a' b' : Out} (ha : a' = withHostOut f a)
    (hb : b' = withHostOut f b) : (if c then a' else b') = withHostOut f (if c then a else b) := by
  rw [ha, hb, apply_ite (withHostOut f)]

theorem ite_state_withHost {f : HostFields} {c : Prop} [Decidable c] {a b a' b' : State} (ha : a' = a.withHost f)
    (hb : b' = b.withHost f) : (if c then a' else b') = (if c then a else b).withHost f := by
  rw [ha, hb, apply_ite (State.withHost f)]

section
variable (f : HostFields) (s : State)

theorem State.finishX_withHost (rd : XReg) (r : Except Cause Nat) :
    (s.withHost f).finishX rd r = (s.finishX rd r).withHost f := by cases r <;> rfl

theorem State.finishQ_withHost (qd : QReg) (r : Except Cause Point) :
    (s.withHost f).finishQ qd r = (s.finishQ qd r).withHost f := by
  cases r with
  | error c => rfl
  | ok p => cases p <;> rfl

theorem State.finishBuf_withHost (o : Nat) (r : Except Cause (List Byte)) :
    (s.withHost f).finishBuf o r = (s.finishBuf o r).withHost f := by cases r <;> rfl

theorem State.writeMemo_withHost (m : Memo) : (s.withHost f).writeMemo m = (s.writeMemo m).withHost f := by
  unfold State.writeMemo
  exact ite_state_withHost rfl rfl

theorem State.drawNext_withHost (k : SignLoop) : (s.withHost f).drawNext k = (s.drawNext k).withHost f := by
  unfold State.drawNext
  exact ite_state_withHost rfl rfl

theorem State.iterate_withHost (k : SignLoop) (bytes : List Byte) :
    (s.withHost f).iterate k bytes = (s.iterate k bytes).withHost f := by
  have hsame : attemptSign (s.withHost f).curve (s.withHost f).gen ((s.withHost f).prmVal .n) k.e k.d bytes =
      attemptSign s.curve s.gen (s.prmVal .n) k.e k.d bytes := rfl
  rw [State.iterate, State.iterate, hsame]
  cases attemptSign s.curve s.gen (s.prmVal .n) k.e k.d bytes with
  | failed c => rfl
  | retry => exact State.drawNext_withHost f s k
  | signature r sg => rfl

theorem State.enterLoop_withHost (k : SignLoop) : (s.withHost f).enterLoop k = (s.enterLoop k).withHost f := by
  unfold State.enterLoop
  split
  · exact State.iterate_withHost f s _ _
  · exact State.drawNext_withHost f s k

/-! ## The shared bodies -/

theorem fieldCommand_withHost (m : Modulus) (rd : XReg) (srcs : List XReg) (g : Nat → Except Cause Nat) :
    fieldCommand m rd srcs g (s.withHost f) = withHostOut f (fieldCommand m rd srcs g s) :=
  ite_withHost (congrArg _ (State.finishX_withHost f (s.noteReads _) rd _)) rfl

theorem loadBytes_withHost (value : List Byte → Nat) (r : XReg) (k : DescSel) :
    loadBytes value r k (s.withHost f) = withHostOut f (loadBytes value r k s) := by
  refine ite_withHost rfl (ite_withHost rfl ?_)
  have hsame : (s.withHost f).descBytes k = s.descBytes k := rfl
  rw [hsame]
  cases s.descBytes k <;> rfl

theorem storeBytes_withHost (bytes : Nat → Nat → List Byte) (r : XReg) (k : DescSel) :
    storeBytes bytes r k (s.withHost f) = withHostOut f (storeBytes bytes r k s) :=
  ite_withHost rfl (ite_withHost rfl (ite_withHost rfl rfl))

theorem encodeCommand_withHost (n : Nat) (enc : Point → Except Cause (List Byte)) (q : QReg) (k : DescSel) :
    encodeCommand n enc q k (s.withHost f) = withHostOut f (encodeCommand n enc q k s) :=
  ite_withHost rfl (ite_withHost rfl (ite_withHost rfl (congrArg _ (State.finishBuf_withHost f (s.noteReads _) _ _))))

theorem execPdec_withHost (q : QReg) (k : DescSel) : execPdec q k (s.withHost f) = withHostOut f (execPdec q k s) := by
  refine ite_withHost rfl (ite_withHost rfl (ite_withHost rfl ?_))
  have hsame : (s.withHost f).descBytes k = s.descBytes k := rfl
  rw [hsame]
  cases s.descBytes k with
  | error a => rfl
  | ok bs => exact congrArg _ (State.finishQ_withHost f s q _)

theorem startSign_withHost (ra : XReg) : startSign ra (s.withHost f) = withHostOut f (startSign ra s) := by
  refine ite_withHost rfl (ite_withHost rfl ?_)
  have hsame (k : DescSel) : (s.withHost f).descBytes k = s.descBytes k := rfl
  rw [hsame 0, hsame 1]
  cases s.descBytes 0 with
  | error a => rfl
  | ok dig =>
    cases s.descBytes 1 with
    | error a => rfl
    | ok seed =>
      exact ite_withHost rfl (ite_withHost rfl (ite_withHost rfl (congrArg _ (State.enterLoop_withHost f (s.noteReads _) _))))

theorem execVerify_withHost : execVerify (s.withHost f) = withHostOut f (execVerify s) := by
  refine ite_withHost rfl (ite_withHost rfl ?_)
  have hsame (k : DescSel) : (s.withHost f).descBytes k = s.descBytes k := rfl
  rw [hsame 0, hsame 1, hsame 2]
  cases s.descBytes 0 with
  | error a => rfl
  | ok pk =>
    cases s.descBytes 1 with
    | error a => rfl
    | ok dig =>
      cases s.descBytes 2 with
      | error a => rfl
      | ok sig => exact ite_withHost rfl rfl

theorem execStcomp_withHost : execStcomp (s.withHost f) = withHostOut f (execStcomp s) := by
  have hsame : (s.withHost f).computeST = s.computeST := rfl
  rw [execStcomp, execStcomp, hsame]
  cases s.computeST with
  | error c => rfl
  | ok m => exact congrArg (fun t : State => (.next t.complete : Out)) (State.writeMemo_withHost f (s.noteReads s.memoReads) m)

theorem convert_withHost (g : Nat → Memo → Nat → Nat → Except Cause Point) (qd qa : QReg) :
    convert g qd qa (s.withHost f) = withHostOut f (convert g qd qa s) := by
  have hsame : (s.withHost f).computeST = s.computeST := rfl
  rw [convert, convert, hsame]
  cases s.computeST with
  | error c => rfl
  | ok m =>
    refine ite_withHost rfl (ite_withHost rfl ?_)
    have hg : g ((s.withHost f).prmVal .p) m (s.withHost f).q[qa].x.val.toNat (s.withHost f).q[qa].y.val.toNat =
      g (s.prmVal .p) m s.q[qa].x.val.toNat s.q[qa].y.val.toNat := rfl
    rw [hg]
    have hmemo := State.writeMemo_withHost f (s.noteReads (.q qa :: s.memoReads)) m
    cases g (s.prmVal .p) m s.q[qa].x.val.toNat s.q[qa].y.val.toNat with
    | error c => rfl
    | ok P => cases P <;> exact congrArg (fun t : State => (.next (t.setPoint qd _).complete : Out)) hmemo

theorem execSign_withHost (ra : XReg) : execSign ra (s.withHost f) = withHostOut f (execSign ra s) := by
  have hsame : (s.withHost f).phase = s.phase := rfl
  rw [execSign, execSign, hsame]
  cases s.phase with
  | entropyGot k bytes => exact congrArg _ (State.iterate_withHost f s k bytes)
  | idle | accepted | entropyWait => exact startSign_withHost f s ra

/-! ## Every command -/

/-- No command reads or writes the host's fields. -/
theorem exec_withHost (i : Instr) : exec i (s.withHost f) = withHostOut f (exec i s) := by
  cases i with
  | madd | msub | mmul | mdiv =>
    simp only [exec, execMadd, execMsub, execMmul, execMdiv]
    exact fieldCommand_withHost f s _ _ [_, _] _
  | msqr | mneg | msmul | minv | mred =>
    simp only [exec, execMsqr, execMneg, execMsmul, execMinv, execMred]
    exact fieldCommand_withHost f s _ _ [_] _
  | xmov | xcmp | xldi | pgetx | pgety | pmov | pinf => rfl
  | xldp rd sel =>
    rw [exec, exec, execXldp, execXldp]
    cases selPrm sel with
    | some r => rfl
    | none => exact ite_withHost rfl (ite_withHost rfl rfl)
  | ldbe r k => exact loadBytes_withHost f s be r k
  | ldle r k => exact loadBytes_withHost f s le r k
  | stbe r k => exact storeBytes_withHost f s beBytes r k
  | stle r k => exact storeBytes_withHost f s leBytes r k
  | cfgchk =>
    have hsame : (s.withHost f).configCheck = s.configCheck := rfl
    rw [exec, exec, execCfgchk, execCfgchk, hsame]
    cases s.configCheck <;> rfl
  | pgen | pchk => exact ite_withHost rfl rfl
  | pset => exact ite_withHost rfl (ite_withHost rfl rfl)
  | padd qd | pdbl qd | pneg qd | pmul qd | pubk qd =>
    exact ite_withHost rfl (congrArg _ (State.finishQ_withHost f (s.noteReads _) qd _))
  | penc q k =>
    rw [exec_penc, exec_penc]
    exact encodeCommand_withHost f s _ _ q k
  | pencle q k =>
    rw [exec_pencle, exec_pencle]
    exact encodeCommand_withHost f s _ _ q k
  | pdec q k => exact execPdec_withHost f s q k
  | sign ra => exact execSign_withHost f s ra
  | verify => exact execVerify_withHost f s
  | stcomp => exact execStcomp_withHost f s
  | uv2xy qd qa => exact convert_withHost f s edwardsToWeierstrass qd qa
  | xy2uv qd qa => exact convert_withHost f s weierstrassToEdwards qd qa

theorem coreStep_withHost : coreStep (s.withHost f) = withHostOut f (coreStep s) := by
  have hphase : (s.withHost f).phase = s.phase := rfl
  have hrun : runCommand (s.withHost f) = withHostOut f (runCommand s) := by
    have hcmd : (s.withHost f).cmd = s.cmd := rfl
    rw [runCommand, runCommand, hcmd]
    cases decode s.cmd with
    | error c => rfl
    | ok i => exact exec_withHost f s i
  rw [coreStep, coreStep, hphase]
  cases s.phase with
  | idle | entropyWait => rfl
  | accepted | entropyGot => exact hrun

theorem entropyAnswer_withHost (req : Nat) (bytes : List Byte) :
    entropyAnswer req bytes (s.withHost f) = (entropyAnswer req bytes s).withHost f := by
  have hphase : (s.withHost f).phase = s.phase := rfl
  rw [entropyAnswer, entropyAnswer, hphase]
  cases s.phase with
  | idle | accepted | entropyGot => rfl
  | entropyWait k => exact ite_state_withHost rfl rfl

/-- A move that is not the host's leaves the host's fields as they are and makes the same of everything else. -/
theorem perform_withHost {e : Event} (h : e = .core ∨ ∃ req bytes, e = .entropy req bytes) :
    perform e (s.withHost f) = withHostOut f (perform e s) := by
  obtain rfl | ⟨req, bytes, rfl⟩ := h
  · exact coreStep_withHost f s
  · exact congrArg _ (entropyAnswer_withHost f s req bytes)

end

/-- Settles O11: the access has changed the host's fields only, and the move does not depend on them. -/
theorem hostAccessesDoNotChangeOutcomes : Obligations.HostAccessesDoNotChangeOutcomes := by
  intro s s1 a e hb hfl he hn h1 hmove
  rw [step_facing] at h1
  obtain ⟨f, rfl⟩ := exists_withHost_of_busy (hostMove_effect h1) hb hfl he hn
  rw [step_facing, step_facing, perform_withHost f s hmove]
  refine ⟨fun t ht => ⟨t.withHost f, by rw [ht]; rfl, sameOutcome_withHost f t⟩, fun c hc => by rw [hc]; rfl⟩

end Sys2Proof.Machine
end
